-- ==== Sys2Proof/Word.lean ====
section
/-! DEFINITION. The word types of the core (00_scope R11): unsigned bit vectors of 8, 16, 32 and 64 bits. -/

namespace Sys2Proof

/-- `Bits8`: a byte of a frame, a page id. -/
abbrev Byte := BitVec 8

/-- `Bits16`: a register value, a raw sample word. -/
abbrev Half := BitVec 16

/-- A WordFrame as a number: the first byte on the wire is bits 15..8 (00_scope R13). -/
abbrev Frame := BitVec 16

/-- The 7-bit register offset of a frame (30_encoding R101). -/
abbrev Offset := BitVec 7

/-- `Bits32`: a host command word (30_encoding R105). -/
abbrev Word := BitVec 32

/-- A value of `SAMPLE_FMT`, IEEE 754 binary64, as its 64-bit pattern (42_sampling R230). -/
abbrev Binary64 := BitVec 64

end Sys2Proof
end

