-- ==== Sys2Proof/Link.lean ====
section
/-! DEFINITION. The link events that the core records and that the device oracle is asked about (10_state R52). -/

namespace Sys2Proof

/-- A link event (10_state R52). -/
inductive LinkEvent where
  /-- `Open(ok)`. -/
  | opened (ok : Bool)
  /-- `Close`. -/
  | closed
  /-- `Rst(level)`. -/
  | rst (level : Bool)
  /-- `Poll(ready)`: `true` means not busy. -/
  | poll (ready : Bool)
  /-- `Xfer(tx, rx, checked)`: `rx = none` for a transport error. -/
  | xfer (tx : Frame) (rx : Option Frame) (checked : Bool)
deriving DecidableEq, Repr

/-- An event with its time stamp `now` (10_state R52, 60_exceptions R278). -/
structure Stamped (α : Type) where
  ev : α
  time : Nat
deriving DecidableEq, Repr

/-- The link history `hist`, oldest event first (20_memory R84). -/
abbrev History := List (Stamped LinkEvent)

end Sys2Proof
end

