-- ==== Sys2Proof/Syntax.lean ====
section
/-! DEFINITION. The syntax of the core: one constructor of `Instr` per row of spec/opcode_table.json, the ten host
commands (30_encoding R106) and the five link frames (30_encoding R102). -/

namespace Sys2Proof

/-- The recording modes (10_state R35, 00_scope R15). -/
inductive Mode where
  /-- Streaming. -/
  | rts
  /-- Capture. -/
  | mtc
  /-- AveragedSpectrum. -/
  | mfft
  /-- RawSpectrum. -/
  | afft
deriving DecidableEq, Repr

/-- The names of the register catalog (20_memory R77). -/
inductive RegName where
  | pageId | prodId | recCtrl | globCmd | extCtrl | bufPntr | xBuf | yBuf | zBuf
  | decCtrl | avgCtrl | filtCtrl | decStat | avgStat
  /-- `COEF[k]`, the coefficient bank. -/
  | coef (k : Fin 32)
deriving DecidableEq, Repr

/-- The five kinds of frame the core composes (30_encoding R102). -/
inductive LinkFrame where
  /-- `fPage(p)`. -/
  | pagesel (p : Byte)
  /-- `fRaddr(a)`. -/
  | raddr (a : Offset)
  /-- `fNull`. -/
  | null
  /-- `fWlo`: offset and data byte. -/
  | wlo (a : Offset) (d : Byte)
  /-- `fWhi`: the offset on the wire (the register's offset plus 1) and data byte. -/
  | whi (a : Offset) (d : Byte)
deriving DecidableEq, Repr

/-- The instructions: host commands and link frames. Register and mode numbers are already turned into names
(30_encoding R111). -/
inductive Instr where
  | init
  | activate (mode : Mode) (win : BitVec 4) (decl : BitVec 3) (cust : Bool) (fsel : BitVec 3)
  | exttrig
  | trigger
  | capture
  | close
  | rdreg (r : RegName)
  | wrreg (r : RegName) (value : Half)
  | xchg (b0 b1 : Byte)
  | xchgb (b0 b1 : Byte)
  | pagesel (p : Byte)
  | raddr (a : Offset)
  | null
  | wlo (a : Offset) (d : Byte)
  | whi (a : Offset) (d : Byte)
deriving DecidableEq, Repr

/-- A link frame as an instruction. -/
def LinkFrame.instr : LinkFrame → Instr
  | .pagesel p => .pagesel p
  | .raddr a => .raddr a
  | .null => .null
  | .wlo a d => .wlo a d
  | .whi a d => .whi a d

/-- The instructions the host can present (30_encoding R106); the others are link frames. -/
def Instr.isCommand : Instr → Bool
  | .init => true
  | .activate _ _ _ _ _ => true
  | .exttrig => true
  | .trigger => true
  | .capture => true
  | .close => true
  | .rdreg _ => true
  | .wrreg _ _ => true
  | .xchg _ _ => true
  | .xchgb _ _ => true
  | .pagesel _ => false
  | .raddr _ => false
  | .null => false
  | .wlo _ _ => false
  | .whi _ _ => false

end Sys2Proof
end

