-- ==== Sys2Proof/Config.lean ====
section
/-! DEFINITION. What an implementation fixes (00_scope R9): the constants the source gives, the record of the OPEN
parameters with the spec's example E0 (20_memory R78), and the free values, which are opaque constants: nothing can be
proved of their value. -/

namespace Sys2Proof

/-! ### Constants with a normative or decided value (00_scope R9) -/

/-- `F_BASE`, Hz. -/
def fBase : Nat := 220000
/-- `F_HALF`, Hz. -/
def fHalf : Nat := 110000
/-- `N_CAP`. -/
def nCap : Nat := 4096
/-- `N_FFT`. -/
def nFft : Nat := 2048
/-- `N_BLK`. -/
def nBlk : Nat := 10
/-- `BLK_WORDS`. -/
def blkWords : Nat := 100
/-- `BLK_SAMP`. -/
def blkSamp : Nat := 32
/-- `E_DIV`. -/
def eDiv : Nat := 2048
/-- `N_TAPS`. -/
def nTaps : Nat := 32
/-- `T_SETTLE`, microseconds. -/
def tSettle : Nat := 40
/-- `T_PWR`, microseconds. -/
def tPwr : Nat := 200000
/-- `T_RST`, microseconds. -/
def tRst : Nat := 500000
/-- `T_TRIG`, microseconds. -/
def tTrig : Nat := 12000

/-! ### Parameters -/

/-- A catalog entry (20_memory R76). -/
structure RegAddr where
  page : Byte
  addr : Offset
  readFlag : Bool
  writeFlag : Bool
deriving DecidableEq, Repr

/-- The register catalog `CAT`: one entry for each name of 20_memory R77. A name that a configuration lacks (00_scope R10 (e))
has a stand-in entry (DESIGN CHOICE, log 17). -/
structure Catalog where
  pageId : RegAddr
  prodId : RegAddr
  recCtrl : RegAddr
  globCmd : RegAddr
  extCtrl : RegAddr
  bufPntr : RegAddr
  xBuf : RegAddr
  yBuf : RegAddr
  zBuf : RegAddr
  decCtrl : RegAddr
  avgCtrl : RegAddr
  filtCtrl : RegAddr
  decStat : RegAddr
  avgStat : RegAddr
  coef : Vector RegAddr 32
deriving DecidableEq, Repr

/-- `CAT[name]`. -/
def Catalog.entry (c : Catalog) : RegName → RegAddr
  | .pageId => c.pageId
  | .prodId => c.prodId
  | .recCtrl => c.recCtrl
  | .globCmd => c.globCmd
  | .extCtrl => c.extCtrl
  | .bufPntr => c.bufPntr
  | .xBuf => c.xBuf
  | .yBuf => c.yBuf
  | .zBuf => c.zBuf
  | .decCtrl => c.decCtrl
  | .avgCtrl => c.avgCtrl
  | .filtCtrl => c.filtCtrl
  | .decStat => c.decStat
  | .avgStat => c.avgStat
  | .coef k => c.coef[k]

/-- Every entry of the catalog. -/
def Catalog.all (c : Catalog) : List RegAddr :=
  [c.pageId, c.prodId, c.recCtrl, c.globCmd, c.extCtrl, c.bufPntr, c.xBuf, c.yBuf, c.zBuf,
   c.decCtrl, c.avgCtrl, c.filtCtrl, c.decStat, c.avgStat] ++ c.coef.toList

/-- `MODE_CODE`: the device's code of each mode. -/
structure ModeCodes where
  rts : Half
  mtc : Half
  mfft : Half
  afft : Half
deriving DecidableEq, Repr

/-- `MODE_CODE(m)`. -/
def ModeCodes.code (c : ModeCodes) : Mode → Half
  | .rts => c.rts
  | .mtc => c.mtc
  | .mfft => c.mfft
  | .afft => c.afft

/-- A bit field of a device register: `(register, lsb, width)`. -/
structure FieldSrc where
  reg : RegName
  lsb : Nat
  width : Nat
deriving DecidableEq, Repr

/-- The parameters that 00_scope R9 leaves OPEN or lets a model vary. They are fixed while the core runs
(70_reset_and_hazards R303). `BUS_SPEED` is used by no rule and has no field (log 18). -/
structure Params where
  cat : Catalog
  pageAddr : Offset
  pageMax : Nat
  prodIdExpected : Half
  modeLsb : Nat
  modeW : Nat
  modeCode : ModeCodes
  winLsb : Nat
  winW : Nat
  srtLsb : Nat
  srtW : Nat
  decLsb : Nat
  /-- `DEC_SRC`; the field is 3 bits wide, so only the register and the position are parameters. -/
  decSrcReg : RegName
  decSrcLsb : Nat
  avgSrc : FieldSrc
  fselLsb : Nat
  customBank : Nat
  extMask : Half
  trigMask : Half
  /-- `BUSY_TIMEOUT`; `none` is the default (92_eei_decisions D30). -/
  busyTimeout : Option Nat
deriving DecidableEq, Repr

/-- The example catalog E0 (20_memory R78). -/
def Catalog.e0 : Catalog where
  pageId := ⟨0, 0x00, true, true⟩
  prodId := ⟨0, 0x56, true, false⟩
  recCtrl := ⟨0, 0x1A, true, true⟩
  globCmd := ⟨0, 0x3E, false, true⟩
  extCtrl := ⟨0, 0x34, true, true⟩
  bufPntr := ⟨0, 0x0A, true, true⟩
  xBuf := ⟨0, 0x0E, true, false⟩
  yBuf := ⟨0, 0x10, true, false⟩
  zBuf := ⟨0, 0x12, true, false⟩
  decCtrl := ⟨0, 0x16, true, true⟩
  avgCtrl := ⟨0, 0x18, true, true⟩
  filtCtrl := ⟨0, 0x1C, true, true⟩
  decStat := ⟨0, 0x16, true, false⟩
  avgStat := ⟨0, 0x18, true, false⟩
  coef := Vector.ofFn fun k => ⟨5, BitVec.ofNat 7 (0x08 + 2 * k.val), false, true⟩

/-- The example parameters of 20_memory R78 (DESIGN CHOICE as the parameters of the reset state, log 2). -/
def Params.e0 : Params where
  cat := Catalog.e0
  pageAddr := 0x00
  pageMax := 7
  prodIdExpected := 0x0BCD
  modeLsb := 0
  modeW := 2
  modeCode := { rts := 3, mtc := 2, mfft := 0, afft := 1 }
  winLsb := 12
  winW := 2
  srtLsb := 8
  srtW := 4
  decLsb := 0
  decSrcReg := .decStat
  decSrcLsb := 0
  avgSrc := ⟨.avgStat, 0, 16⟩
  fselLsb := 0
  customBank := 7
  extMask := 0x0100
  trigMask := 0x0800
  busyTimeout := none

/-! ### Agents and free values -/

/-- Which agent moves in a step: the core, the Timebase, or the host asserting core reset (10_state R33,
70_reset_and_hazards R300). -/
inductive Turn where
  | core
  | tick
  | reset
deriving DecidableEq, Repr, Inhabited

/-- Free draw: the device's answer to an exchange (20_memory R70 (a)), given all link events so far, one history for each
stretch between core resets; `none` is a transport error. -/
opaque Config.exchangeAnswer : List History → Frame → Option Frame

/-- Free draw: the busy input at a poll, `true` meaning ready (20_memory R70 (b)). -/
opaque Config.busyReady : List History → Bool

/-- Free draw: whether opening the link succeeds (41_configuration R180). -/
opaque Config.openOk : List History → Bool

/-- Free draw: which agent moves, as a function of how many turns were drawn before (10_state R33: every
interleaving). -/
opaque Config.turn : Nat → Turn

/-- `POW2` at arguments that no capture presents (42_sampling R230, log 12). -/
opaque Config.pow2Elsewhere : Binary64 → Binary64

end Sys2Proof
end

