-- ==== Sys2Proof/WellFormed.lean ====
section
/-! DEFINITION. Well-formed instructions, relative to the parameters. -/

namespace Sys2Proof

/-- An instruction the core accepts or composes: ACTIVATE's window setting fits `WIN_W` bits (30_encoding R108), a
register's own offset is even and the offset of its high byte odd (20_memory R79). Every other operand is legal at
every value of its type. -/
def Instr.wellFormed (p : Params) : Instr → Bool
  | .init => true
  | .activate _ win _ _ _ => decide (win.toNat < 2 ^ p.winW)
  | .exttrig => true
  | .trigger => true
  | .capture => true
  | .close => true
  | .rdreg _ => true
  | .wrreg _ _ => true
  | .xchg _ _ => true
  | .xchgb _ _ => true
  | .pagesel _ => true
  | .raddr a => a.toNat % 2 == 0
  | .null => true
  | .wlo a _ => a.toNat % 2 == 0
  | .whi a _ => a.toNat % 2 == 1

/-- The instruction's encoding is no other kind's (30_encoding R103): an address frame of offset 0 is the null frame,
and a write frame at `PAGE_ADDR` is a page select. -/
def Instr.unambiguous (p : Params) : Instr → Bool
  | .raddr a => a != 0
  | .wlo a _ => a != p.pageAddr
  | .whi a _ => a != p.pageAddr
  | _ => true

end Sys2Proof
end

