-- ==== Sys2Proof/Decode.lean ====
section
/-! DEFINITION. Decoding and encoding (30_encoding): host command words, link frames, catalog indices. Decoding is
total on every word and rejects by name. -/

namespace Sys2Proof

/-- Why a word is no instruction. A rejected command word is answered BAD_COMMAND (60_exceptions R276); no state changes
but the response, `lastErr` and the log, so each reason is safe. -/
inductive DecodeError where
  /-- OP 0x0 or 0xB..0xF (30_encoding R112). -/
  | reservedOp
  /-- A reserved bit is set (30_encoding R105). -/
  | reservedBits
  /-- The REGID has no catalog name (30_encoding R109). -/
  | unnamedRegister
  /-- ACTIVATE's `WIN ≥ 2^WIN_W` (30_encoding R108). -/
  | windowRange
  /-- A read frame with a data byte: no frame kind of 30_encoding R102. -/
  | notAFrame
deriving DecidableEq, Repr

/-! ### Catalog indices and mode codes -/

/-- The REGID of a name (20_memory R77). -/
def RegName.regId : RegName → Byte
  | .pageId => 0
  | .prodId => 1
  | .recCtrl => 2
  | .globCmd => 3
  | .extCtrl => 4
  | .bufPntr => 5
  | .xBuf => 6
  | .yBuf => 7
  | .zBuf => 8
  | .decCtrl => 9
  | .avgCtrl => 10
  | .filtCtrl => 11
  | .decStat => 12
  | .avgStat => 13
  | .coef k => BitVec.ofNat 8 (16 + k.val)

/-- The name of a REGID: 14, 15 and 48..255 have none (20_memory R77). -/
def RegName.ofRegId (id : Byte) : Option RegName :=
  match id.toNat with
  | 0 => some .pageId
  | 1 => some .prodId
  | 2 => some .recCtrl
  | 3 => some .globCmd
  | 4 => some .extCtrl
  | 5 => some .bufPntr
  | 6 => some .xBuf
  | 7 => some .yBuf
  | 8 => some .zBuf
  | 9 => some .decCtrl
  | 10 => some .avgCtrl
  | 11 => some .filtCtrl
  | 12 => some .decStat
  | 13 => some .avgStat
  | n => if h : 16 ≤ n ∧ n < 48 then some (.coef ⟨n - 16, by omega⟩) else none

/-- The host mode code (30_encoding R108, 10_state R46). -/
def Mode.hostCode : Mode → BitVec 2
  | .rts => 0
  | .mtc => 1
  | .mfft => 2
  | .afft => 3

/-- `hostMode` (30_encoding R111). -/
def hostMode (c : BitVec 2) : Mode :=
  match c.toNat with
  | 0 => .rts
  | 1 => .mtc
  | 2 => .mfft
  | _ => .afft

/-! ### Host command words -/

/-- The opcode map and the field layouts of 30_encoding R106, R107, R111, without the window check, which depends on
the parameters. -/
def decodeWord (w : Word) : Except DecodeError Instr :=
  let noOperand (i : Instr) : Except DecodeError Instr :=
    if w.extractLsb' 4 28 = 0 then .ok i else .error .reservedBits
  match (w.extractLsb' 0 4).toNat with
  | 1 => noOperand .init
  | 2 =>
    if w.extractLsb' 19 13 = 0 ∧ w.extractLsb' 6 2 = 0 then
      .ok (.activate (hostMode (w.extractLsb' 4 2)) (w.extractLsb' 8 4) (w.extractLsb' 12 3)
        (w.extractLsb' 15 1 == 1#1) (w.extractLsb' 16 3))
    else .error .reservedBits
  | 3 => noOperand .exttrig
  | 4 => noOperand .trigger
  | 5 => noOperand .capture
  | 6 => noOperand .close
  | 7 =>
    if w.extractLsb' 16 16 = 0 ∧ w.extractLsb' 4 4 = 0 then
      match RegName.ofRegId (w.extractLsb' 8 8) with
      | some r => .ok (.rdreg r)
      | none => .error .unnamedRegister
    else .error .reservedBits
  | 8 =>
    if w.extractLsb' 4 4 = 0 then
      match RegName.ofRegId (w.extractLsb' 8 8) with
      | some r => .ok (.wrreg r (w.extractLsb' 16 16))
      | none => .error .unnamedRegister
    else .error .reservedBits
  | 9 =>
    if w.extractLsb' 4 12 = 0 then .ok (.xchg (w.extractLsb' 24 8) (w.extractLsb' 16 8))
    else .error .reservedBits
  | 10 =>
    if w.extractLsb' 4 12 = 0 then .ok (.xchgb (w.extractLsb' 24 8) (w.extractLsb' 16 8))
    else .error .reservedBits
  | _ => .error .reservedOp

/-- `decodeCmd` (30_encoding R111): total on every 32-bit word. -/
def decodeCmd (p : Params) (w : Word) : Except DecodeError Instr :=
  match decodeWord w with
  | .error e => .error e
  | .ok i => if i.wellFormed p then .ok i else .error .windowRange

/-! ### Link frames -/

/-- `fPage(p)` (30_encoding R102). -/
def fPage (pageAddr : Offset) (p : Byte) : Frame := 1#1 ++ pageAddr ++ p

/-- `fRaddr(a)` (30_encoding R102). -/
def fRaddr (a : Offset) : Frame := 0#1 ++ a ++ 0#8

/-- `fNull` (30_encoding R102). -/
def fNull : Frame := 0#16

/-- A write frame: write bit, offset, data byte (30_encoding R101). -/
def fWrite (a : Offset) (d : Byte) : Frame := 1#1 ++ a ++ d

/-- The frame of `fWlo(a, v)`: the low byte of `v` to offset `a` (30_encoding R102). -/
def LinkFrame.lowByte (a : Offset) (v : Half) : LinkFrame := .wlo a (v.extractLsb' 0 8)

/-- The frame of `fWhi(a, v)`: the high byte of `v` to offset `a + 1`, added on 7 bits (30_encoding R102). -/
def LinkFrame.highByte (a : Offset) (v : Half) : LinkFrame := .whi (a + 1) (v.extractLsb' 8 8)

/-- The value of a frame on the wire. -/
def LinkFrame.bits (p : Params) : LinkFrame → Frame
  | .pagesel page => fPage p.pageAddr page
  | .raddr a => fRaddr a
  | .null => fNull
  | .wlo a d => fWrite a d
  | .whi a d => fWrite a d

/-- The kind of a 16-bit frame. The core never decodes frames (30_encoding R100); where kinds overlap (R103), a write
at `PAGE_ADDR` is read as a page select, a write at an odd offset as a high byte, the zero frame as null (log 7). -/
def decodeFrame (p : Params) (f : Frame) : Except DecodeError LinkFrame :=
  let a : Offset := f.extractLsb' 8 7
  let d : Byte := f.extractLsb' 0 8
  if f.extractLsb' 15 1 = 1#1 then
    if a = p.pageAddr then .ok (.pagesel d)
    else if a.toNat % 2 = 1 then .ok (.whi a d)
    else .ok (.wlo a d)
  else if d = 0 then
    if a = 0 then .ok .null else .ok (.raddr a)
  else .error .notAFrame

/-! ### Words of both spaces -/

/-- The two encoding spaces of 30_encoding R100. -/
inductive Encoded where
  | command (w : Word)
  | frame (f : Frame)
deriving DecidableEq, Repr

/-- The instruction of an encoded word. -/
def decode (p : Params) : Encoded → Except DecodeError Instr
  | .command w => decodeCmd p w
  | .frame f => (decodeFrame p f).map LinkFrame.instr

/-- The RDREG word of a register index (30_encoding R107). -/
def rdregWord (id : Byte) : Word := 0#16 ++ id ++ 0#4 ++ 7#4

/-- The WRREG word of a register index and a value (30_encoding R107). -/
def wrregWord (id : Byte) (v : Half) : Word := v ++ id ++ 0#4 ++ 8#4

/-- The word of an instruction, from the field layouts of 30_encoding R102, R107. -/
def encode (p : Params) : Instr → Encoded
  | .init => .command 0x00000001
  | .activate m win decl cust fsel =>
    .command (0#13 ++ fsel ++ BitVec.ofBool cust ++ decl ++ win ++ 0#2 ++ m.hostCode ++ 2#4)
  | .exttrig => .command 0x00000003
  | .trigger => .command 0x00000004
  | .capture => .command 0x00000005
  | .close => .command 0x00000006
  | .rdreg r => .command (rdregWord r.regId)
  | .wrreg r v => .command (wrregWord r.regId v)
  | .xchg b0 b1 => .command (b0 ++ b1 ++ 0#12 ++ 9#4)
  | .xchgb b0 b1 => .command (b0 ++ b1 ++ 0#12 ++ 10#4)
  | .pagesel page => .frame (fPage p.pageAddr page)
  | .raddr a => .frame (fRaddr a)
  | .null => .frame fNull
  | .wlo a d => .frame (fWrite a d)
  | .whi a d => .frame (fWrite a d)

/-- The instruction the decoder reads, with the parameters of the reset state, from a word numbered as
spec/opcode_table.json numbers it: 32 bits for a command word, 16 bits for a frame. -/
def decodeTableWord (nbits w : Nat) : Option Instr :=
  match nbits with
  | 32 => (decode Params.e0 (.command (BitVec.ofNat 32 w))).toOption
  | 16 => (decode Params.e0 (.frame (BitVec.ofNat 16 w))).toOption
  | _ => none

end Sys2Proof
end

