-- ==== Sys2Proof/Machine/State.lean ====
section
/-! DEFINITION. The state of the core (10_state R35), plain data, its reset value (R56), and the reasons a step can
stop. -/

namespace Sys2Proof.Machine

/-- The configuration state machine (10_state R38). -/
inductive Fsm where
  | uninit
  | reset
  | idv
  | active
  | failed
deriving DecidableEq, Repr

/-- The response status codes 0 to 8 (60_exceptions R270). -/
inductive Status where
  | ok
  | transport
  | identityMismatch
  | modeMismatch
  | malformedBlock
  | protocolMisuse
  | timeout
  | badState
  | badCommand
deriving DecidableEq, Repr

/-- The context of the last error, LASTERR (10_state R48). -/
structure ErrRec where
  code : Status
  page : Byte
  addr : Byte
  expected : Half
  actual : Half
deriving DecidableEq, Repr

/-- A log event (60_exceptions R278). -/
inductive LogEvent where
  /-- `Error(code, page, addr, expected, actual)`. -/
  | error (e : ErrRec)
  /-- `Misuse(read, page, addr)`. -/
  | misuseRead (page addr : Byte)
  /-- `Misuse(write, page, addr)`. -/
  | misuseWrite (page addr : Byte)
deriving DecidableEq, Repr

/-- The configuration record presented with a command (10_state R51). -/
structure CfgIn where
  avg : Half
  taps : Vector Half 32
deriving DecidableEq, Repr

/-- The record of a command line that names none: `avg` 1, all taps 0 (30_encoding R116). -/
def CfgIn.default : CfgIn := ⟨1, Vector.replicate 32 0⟩

/-- A latched command with its snapshot of `cfgIn` (10_state R31). -/
structure Cmd where
  instr : Instr
  cfg : CfgIn
deriving DecidableEq, Repr

/-- What the host presents on the command port: a word and its `cfgIn` (10_state R30). -/
structure Presented where
  word : Word
  cfg : CfgIn
deriving DecidableEq, Repr

/-- The transfer in progress in the framer: the frame to exchange, whether its exchange is busy-checked, and the page
and offset of the register being accessed, which an error reports (40_register_protocol R140, R141; 60_exceptions
R273; log 6). -/
structure Outgoing where
  frame : LinkFrame
  checked : Bool
  page : Byte
  addr : Byte
deriving DecidableEq, Repr

/-- The per-block metadata of a Streaming batch (10_state R50). -/
structure Metadata where
  seqNum : List Half
  temperature : List Half
  status : List Half
  crc : List Half
deriving DecidableEq, Repr

/-- The result of one capture (10_state R50). -/
structure SampleBatch where
  recordingMode : Mode
  stepAxis : List Binary64
  xAxis : List Binary64
  yAxis : List Binary64
  zAxis : List Binary64
  metadata : Option Metadata
deriving DecidableEq, Repr

/-- The bytes of the sample buffers by address, in canonical form: addresses strictly rising, no entry equal to what an
unlisted address reads as (log 10). -/
abbrev Memory := List Host.Cell

/-- The state: the record of 10_state R35 with the `misuse` flag of 40_register_protocol R145, the parameters of
00_scope R9, and the model's own fields, which stand for the framer's transfer and for the other agents. -/
structure State where
  /-- The parameters, fixed while the core runs (70_reset_and_hazards R303). -/
  params : Params
  fsm : Fsm
  mode : Option Mode
  linesOpen : Bool
  /-- `rst_o`; `none` is released. -/
  rstO : Option Bool
  /-- `cmd_latched`. -/
  cmd : Option Cmd
  upc : Nat
  settle : Nat
  dly : Nat
  pollT : Nat
  now : Nat
  rx : Frame
  regv : Half
  decF : Nat
  avgC : Half
  ax : Fin 3
  i : Fin 4096
  b : Fin 10
  w : Fin 100
  k : Fin 32
  /-- `RAW`, `BLK` and `META` (20_memory R80). Their contents between captures, unspecified by R81, are the bytes the last
  CAPTURE left (DESIGN CHOICE, log 27). -/
  mem : Memory
  rspValid : Bool
  rspStatus : Status
  rspData : Half
  lastErr : ErrRec
  batches : List SampleBatch
  log : List (Stamped LogEvent)
  hist : History
  misuse : Bool
  /-- The framer's transfer in progress (the model's own, log 6). -/
  out : Option Outgoing
  /-- The host's presentations still to come (the model's own, log 5). -/
  presented : List Presented
  /-- The agents that move next (the model's own, log 4). -/
  turns : List Turn
  /-- How many turns were drawn from `Config.turn` (the model's own, log 4). -/
  draws : Nat
  /-- The histories that core resets have ended (the model's own, log 3). -/
  past : List History
  /-- The device's next answers to an open request (the model's own, log 3). -/
  opens : List Bool
  /-- The device's next values of the busy input (the model's own, log 3). -/
  readies : List Bool
  /-- The device's next answers to an exchange (the model's own, log 3). -/
  answers : List (Option Frame)
deriving DecidableEq, Repr

/-- Why the machine stops with a fault. No run from reset raises one: each is an assertion about states that the
spec's invariants exclude. -/
inductive Fault where
  /-- Raised by a command's meaning when `upc` names no position of the command's micro-program (10_state R36). Safe:
  the spec gives such a state no step. -/
  | microPosition
  /-- Raised by CAPTURE when `fsm` is ACTIVE and there is no session mode to dispatch on (10_state R39 excludes it;
  42_sampling R220). Safe: the spec gives such a state no step. -/
  | noSessionMode
deriving DecidableEq, Repr

/-- Why the machine refuses to step. -/
inductive Refusal where
  /-- An instruction without a meaning; no arm raises it. Safe. -/
  | notModelled (mnemonic : String)
  /-- Raised by every step of a machine whose parameters violate 00_scope R10 (a) to (d). Safe: the spec refuses such a
  configuration. -/
  | illFormedParameters
deriving DecidableEq, Repr

/-- The state right after reset with given parameters (10_state R56, 70_reset_and_hazards R300). The values of `decF`,
`avgC`, the loop counters and `misuse` are DESIGN CHOICE (log 9). -/
def State.resetWith (p : Params) : State where
  params := p
  fsm := .uninit
  mode := none
  linesOpen := false
  rstO := none
  cmd := none
  upc := 0
  settle := 0
  dly := 0
  pollT := 0
  now := 0
  rx := 0
  regv := 0
  decF := 0
  avgC := 0
  ax := 0
  i := 0
  b := 0
  w := 0
  k := 0
  mem := []
  rspValid := false
  rspStatus := .ok
  rspData := 0
  lastErr := ⟨.ok, 0, 0, 0, 0⟩
  batches := []
  log := []
  hist := []
  misuse := false
  out := none
  presented := []
  turns := []
  draws := 0
  past := []
  opens := []
  readies := []
  answers := []

/-- The machine right after reset, with the spec's example parameters (log 2). -/
def State.reset : State := State.resetWith Params.e0

end Sys2Proof.Machine
end

