-- ==== Sys2Proof/Machine/Operands.lean ====
section
/-! DEFINITION. Operands: the byte-order mux, the register values the core composes and extracts (30_encoding R113,
R114), the catalog, and the check of the parameters (00_scope R10). -/

namespace Sys2Proof.Machine

/-! ### Byte order (40_register_protocol R150, 20_memory R72) -/

/-- Standard order: the first byte is the high byte. -/
def be16 (rx : Frame) : Half := rx

/-- "RTS" order: the first byte is the low byte. -/
def le16 (rx : Frame) : Half := rx.extractLsb' 0 8 ++ rx.extractLsb' 8 8

/-! ### Composition (30_encoding R113): every bit outside the fields is 0 -/

/-- `recCtrl(m, win)`: mode bits and window setting, sample-rate tap 0. -/
def recCtrlValue (p : Params) (m : Mode) (win : BitVec 4) : Half :=
  (p.modeCode.code m <<< p.modeLsb) ||| (win.setWidth 16 <<< p.winLsb) ||| (0#16 <<< p.srtLsb)

/-- `decCtrl(decl)`. -/
def decCtrlValue (p : Params) (decl : BitVec 3) : Half := decl.setWidth 16 <<< p.decLsb

/-- `filtCtrl(bank)`. -/
def filtCtrlValue (p : Params) (bank : BitVec 3) : Half := bank.setWidth 16 <<< p.fselLsb

/-- The value written to FILT_CTRL after the taps: `filtCtrl(CUSTOM_BANK)`. -/
def customFiltCtrlValue (p : Params) : Half := filtCtrlValue p (BitVec.ofNat 3 p.customBank)

/-! ### Extraction (30_encoding R114) -/

/-- `v[lsb+width-1 : lsb]`, zero-extended to 16 bits. -/
def bitField (v : Half) (lsb width : Nat) : Half := BitVec.ofNat 16 ((v >>> lsb).toNat % 2 ^ width)

/-- `modeBits(v)`. -/
def modeBits (p : Params) (v : Half) : Half := bitField v p.modeLsb p.modeW

/-- `decField(v)`, 3 bits. -/
def decField (p : Params) (v : Half) : Nat := (bitField v p.decSrcLsb 3).toNat

/-- `avgField(v)`. -/
def avgField (p : Params) (v : Half) : Half := bitField v p.avgSrc.lsb p.avgSrc.width

/-! ### The catalog -/

/-- `CAT[name]`. -/
def State.entry (s : State) (r : RegName) : RegAddr := s.params.cat.entry r

/-- The offset as LASTERR and the log hold it, 8 bits. -/
def addr8 (r : RegAddr) : Byte := r.addr.setWidth 8

/-- The buffer register of the axis being drained (42_sampling R224). -/
def axisReg (ax : Fin 3) : RegName :=
  match ax with
  | 0 => .xBuf
  | 1 => .yBuf
  | 2 => .zBuf

/-- The configuration snapshot of the latched command (10_state R51). -/
def State.cfg (s : State) : CfgIn :=
  match s.cmd with
  | some c => c.cfg
  | none => CfgIn.default

/-! ### The parameter check (00_scope R10) -/

/-- (a) for one entry. -/
def regAddrOk (pageMax : Nat) (r : RegAddr) : Bool :=
  decide (r.page.toNat ≤ pageMax) && r.addr.toNat % 2 == 0 && decide (r.addr.toNat ≤ 0x7E)

/-- (c): injective on the four modes, every code within `MODE_W` bits. -/
def modeCodesOk (modeW : Nat) (c : ModeCodes) : Bool :=
  decide [c.rts, c.mtc, c.mfft, c.afft].Nodup &&
    [c.rts, c.mtc, c.mfft, c.afft].all fun v => decide (v.toNat < 2 ^ modeW)

/-- Two fields share no bit. A field of width 0 counts as lying at its position, so one inside the other field is refused
(DESIGN CHOICE, log 23). -/
def fieldsDisjoint (lsb1 w1 lsb2 w2 : Nat) : Bool := decide (lsb1 + w1 ≤ lsb2 ∨ lsb2 + w2 ≤ lsb1)

/-- 00_scope R10 (a), (c) and (d); (b) holds by the type of `pageAddr`, (e) is no condition. A REC_CTRL field of width 0 is
bound to bits 15..0 like any other (DESIGN CHOICE, log 23). -/
def paramsOk (p : Params) : Bool :=
  p.cat.all.all (regAddrOk p.pageMax) && decide (p.pageMax ≤ 255) &&
  modeCodesOk p.modeW p.modeCode &&
  fieldsDisjoint p.modeLsb p.modeW p.winLsb p.winW &&
  fieldsDisjoint p.modeLsb p.modeW p.srtLsb p.srtW &&
  fieldsDisjoint p.winLsb p.winW p.srtLsb p.srtW &&
  decide (p.modeLsb + p.modeW ≤ 16) && decide (p.winLsb + p.winW ≤ 16) && decide (p.srtLsb + p.srtW ≤ 16) &&
  decide (p.decLsb + 2 ≤ 15) && decide (p.fselLsb + 2 ≤ 15) && decide (p.customBank < 8) &&
  decide (p.avgSrc.lsb + p.avgSrc.width ≤ 16) && decide (1 ≤ p.avgSrc.width) && decide (p.decSrcLsb + 2 ≤ 15)

end Sys2Proof.Machine
end

