-- ==== Sys2Proof/Machine/Ops.lean ====
section
/-! DEFINITION. The named operations: the buffer memory, the recorded outputs, the response and the error entry (the
machine's one exception entry), the line primitives, waits, the framer's exchange, and the register protocol. -/

namespace Sys2Proof.Machine

/-! ### Buffer memory (20_memory R80; byte layout: log 10) -/

/-- What an unlisted byte of the buffers reads as (DESIGN CHOICE, log 10). -/
def unlistedByte : Byte := 0

/-- Reading one byte of the buffers. -/
def Memory.readByte : Memory → Nat → Byte
  | [], _ => unlistedByte
  | c :: m, a => if c.1 = a then c.2 else Memory.readByte m a

/-- Writing one byte, keeping the canonical form. -/
def Memory.writeByte : Memory → Nat → Byte → Memory
  | [], a, v => if v = unlistedByte then [] else [(a, v)]
  | c :: m, a, v =>
    if a < c.1 then (if v = unlistedByte then c :: m else (a, v) :: c :: m)
    else if a = c.1 then (if v = unlistedByte then m else (a, v) :: m)
    else c :: Memory.writeByte m a v

/-- Addresses strictly rising from `lo` on, no entry equal to an unlisted byte. -/
def Memory.wfFrom : Nat → Memory → Bool
  | _, [] => true
  | lo, c :: m => decide (lo ≤ c.1) && c.2 != unlistedByte && Memory.wfFrom (c.1 + 1) m

/-- The canonical form. -/
def Memory.wf (m : Memory) : Bool := Memory.wfFrom 0 m

/-- An element of the buffers (20_memory R80). -/
inductive BufRef where
  /-- `RAW[ax][i]`. -/
  | raw (ax : Fin 3) (i : Fin 4096)
  /-- `BLK[w]`. -/
  | blk (w : Fin 100)
  /-- `META[f][b]`. -/
  | info (f : Fin 4) (b : Fin 10)
deriving DecidableEq, Repr

/-- The byte address of an element: two bytes each, RAW, then BLK, then META (log 10). -/
def BufRef.address : BufRef → Nat
  | .raw ax i => 2 * (4096 * ax.val + i.val)
  | .blk w => 2 * (12288 + w.val)
  | .info f b => 2 * (12388 + 10 * f.val + b.val)

/-- `MemRead` (20_memory R80): the high byte is at the lower address. -/
def Memory.readWord (m : Memory) (r : BufRef) : Half :=
  Memory.readByte m r.address ++ Memory.readByte m (r.address + 1)

/-- `MemWrite` (20_memory R80). -/
def Memory.writeWord (m : Memory) (r : BufRef) (v : Half) : Memory :=
  Memory.writeByte (Memory.writeByte m r.address (v.extractLsb' 8 8)) (r.address + 1) (v.extractLsb' 0 8)

/-- `MemWrite` on the state. -/
def State.memWrite (s : State) (r : BufRef) (v : Half) : State := { s with mem := Memory.writeWord s.mem r v }

/-! ### Micro-program positions (10_state R36) -/

/-- To the next position. -/
def State.advance (s : State) : State := { s with upc := s.upc + 1 }

/-- `n` positions on. -/
def State.skip (s : State) (n : Nat) : State := { s with upc := s.upc + n }

/-- `n` positions back, the branch of a loop. -/
def State.back (s : State) (n : Nat) : State := { s with upc := s.upc - n }

/-- A micro-program: what the core does at each position. -/
abbrev MicroProgram := List (State → State)

/-- One core step of a command: the event at `upc`; a position outside the program is a fault (log 13). -/
def runProgram (prog : MicroProgram) (s : State) : Host.Outcome State Fault Refusal :=
  match prog[s.upc]? with
  | some event => .next (event s)
  | none => .fault .microPosition

/-! ### Outputs (10_state R34) -/

/-- Append a link event with its time stamp (20_memory R84). -/
def State.record (s : State) (e : LinkEvent) : State := { s with hist := s.hist ++ [⟨e, s.now⟩] }

/-- `Log(ev)` (60_exceptions R278). -/
def State.logEvent (s : State) (e : LogEvent) : State := { s with log := s.log ++ [⟨e, s.now⟩] }

/-! ### Completion and the error entry -/

/-- `Respond(status, data)` (10_state R37): the response, and the core is idle. -/
def State.respond (s : State) (status : Status) (data : Half) : State :=
  { s with rspStatus := status, rspData := data, rspValid := true, cmd := none, upc := 0, out := none }

/-- The command in progress is INIT. -/
def State.inInit (s : State) : Bool :=
  match s.cmd with
  | some c => decide (c.instr = .init)
  | none => false

/-- Fatal errors (60_exceptions R274): TRANSPORT, IDENTITY_MISMATCH, and TIMEOUT during INIT. -/
def State.fatal (s : State) (code : Status) : Bool :=
  match code with
  | .transport => true
  | .identityMismatch => true
  | .timeout => s.inInit
  | _ => false

/-- The state effect of an error (60_exceptions R274 to R277): a fatal one fails the session, any other has none here
(ACTIVATE has already left ACTIVE when it starts). -/
def State.errorEffect (s : State) (code : Status) : State :=
  if s.fatal code then { s with fsm := .failed, mode := none } else s

/-- `raise`: the error entry of 60_exceptions R273, the one way a command is aborted. It ends in a response, so there is
nothing to return from (R281): the core is idle and the host reads RESPONSE and LASTERR. -/
def State.raise (s : State) (e : ErrRec) (data : Half) : State :=
  (({ s with lastErr := e }.logEvent (.error e)).errorEffect e.code).respond e.code data

/-- BAD_STATE (60_exceptions R275). -/
def State.raiseBadState (s : State) : State := s.raise ⟨.badState, 0, 0, 0, 0⟩ 0

/-- BAD_COMMAND (60_exceptions R276). -/
def State.raiseBadCommand (s : State) : State := s.raise ⟨.badCommand, 0, 0, 0, 0⟩ 0

/-- Position 0 of a command: its legality check (41_configuration R188, 60_exceptions R280). -/
def startIn (legal : List Fsm) (s : State) : State :=
  if s.fsm ∈ legal then s.advance else s.raiseBadState

/-! ### The device oracle (20_memory R70; log 3) -/

/-- Every link event so far: core reset empties `hist` but does not reset the device (70_reset_and_hazards R300). -/
def State.linkPast (s : State) : List History := s.past ++ [s.hist]

/-- The device's answer to an exchange. -/
def State.answer (s : State) (tx : Frame) : Option Frame :=
  match s.answers with
  | r :: _ => r
  | [] => Config.exchangeAnswer s.linkPast tx

/-- The busy input. -/
def State.ready (s : State) : Bool :=
  match s.readies with
  | r :: _ => r
  | [] => Config.busyReady s.linkPast

/-- Whether opening the link succeeds. -/
def State.opensOk (s : State) : Bool :=
  match s.opens with
  | r :: _ => r
  | [] => Config.openOk s.linkPast

/-! ### Line primitives (41_configuration R180, R181) -/

/-- `OpenLink()`, with INIT's error on failure. -/
def openLink (s : State) : State :=
  let s1 := { s with opens := s.opens.tail }.record (.opened s.opensOk)
  if s.opensOk then { s1 with linesOpen := true, rstO := some false, settle := 0 }.advance
  else s1.raise ⟨.transport, 0, 0, 0, 0⟩ 0

/-- `CloseLink()`. -/
def State.closeLink (s : State) : State := { s.record .closed with linesOpen := false, rstO := none }

/-- `SetRst(level)`. -/
def State.setRst (s : State) (level : Bool) : State := { s.record (.rst level) with rstO := some level }

/-! ### Waits (10_state R41) -/

/-- `Wait(us)`, first position. -/
def waitStart (us : Nat) (s : State) : State := { s with dly := us }.advance

/-- `Wait(us)`, second position: a hold until `dly` is 0. -/
def waitHold (s : State) : State := if s.dly = 0 then s.advance else s

/-! ### The framer (40_register_protocol R140, R141) -/

/-- What one framer step comes to. -/
inductive LinkResult where
  /-- A hold or a not-ready poll: the framer tries again at the core's next step. -/
  | waiting (s : State)
  /-- The exchange was answered; `rx` holds the answer. -/
  | done (s : State)
  /-- An error was raised; the command is over. -/
  | raised (s : State)
deriving DecidableEq, Repr

/-- The exchange itself (40_register_protocol R140): one link event, then the settle gap starts. -/
def State.exchange (s : State) (tx : Frame) (checked : Bool) (page addr : Byte) : LinkResult :=
  let s1 := { { s with answers := s.answers.tail }.record (.xfer tx (s.answer tx) checked) with settle := tSettle }
  match s.answer tx with
  | some rx => .done { s1 with rx := rx }
  | none => .raised (s1.raise ⟨.transport, page, addr, tx, 0⟩ 0)

/-- The poll's timeout condition (40_register_protocol R141). -/
def State.pollExpired (s : State) : Bool :=
  match s.params.busyTimeout with
  | some t => decide (t ≤ s.pollT)
  | none => false

/-- One framer step for a frame: hold for the settle gap; a checked exchange polls, and a ready poll and its exchange are
one step (92_eei_decisions D43); a raw exchange does not poll. -/
def State.framer (s : State) (tx : Frame) (checked : Bool) (page addr : Byte) : LinkResult :=
  if s.settle ≠ 0 then .waiting s
  else if checked then
    let s1 := { s with readies := s.readies.tail }.record (.poll s.ready)
    if s.ready then s1.exchange tx true page addr
    else if s.pollExpired then .raised (s1.raise ⟨.timeout, page, addr, tx, 0⟩ 0)
    else .waiting s1
  else s.exchange tx false page addr

/-- The framer step of the frame in `out`: its checked flag and register come from `out`, and an answered exchange
empties it. Without a transfer in `out` the exchange is checked and has no register. -/
def State.sendFrame (s : State) (tx : Frame) : State :=
  let checked := match s.out with | some o => o.checked | none => true
  let page := match s.out with | some o => o.page | none => 0
  let addr := match s.out with | some o => o.addr | none => 0
  match s.framer tx checked page addr with
  | .waiting t => t
  | .done t => { t with out := none }
  | .raised t => t

/-- The host's own exchange (XCHG, XCHGB) at its position: no register is accessed (60_exceptions R273). -/
def hostExchange (tx : Frame) (checked : Bool) (s : State) : State :=
  match s.framer tx checked 0 0 with
  | .waiting t => t
  | .done t => t.advance
  | .raised t => t

/-- `XferB` begins: `pollT` is 0 (10_state R42). -/
def pollStart (s : State) : State := { s with pollT := 0 }.advance

/-! ### The register protocol (40_register_protocol R142 to R148) -/

/-- Hand a frame to the framer: a busy-checked one starts a poll (10_state R42). -/
def send (f : LinkFrame) (checked : Bool) (page addr : Byte) (s : State) : State :=
  { s with out := some ⟨f, checked, page, addr⟩, pollT := if checked then 0 else s.pollT }.advance

/-- A busy-checked frame of an access to `r`. -/
def sendTo (r : RegAddr) (f : LinkFrame) : State → State := send f true r.page (addr8 r)

/-- `RegReadRefused(r)` (40_register_protocol R145). -/
def State.refuseRead (s : State) (r : RegAddr) : State :=
  { s.logEvent (.misuseRead r.page (addr8 r)) with
    lastErr := ⟨.protocolMisuse, r.page, (addr8 r), 0, 0⟩, regv := 0, misuse := true }

/-- `RegWriteRefused(r)` (40_register_protocol R148). -/
def State.refuseWrite (s : State) (r : RegAddr) : State :=
  { s.logEvent (.misuseWrite r.page (addr8 r)) with
    lastErr := ⟨.protocolMisuse, r.page, (addr8 r), 0, 0⟩, misuse := true }

/-- The check of the catalog's read flag; a refused read goes past the four positions of the access. -/
def readCheck (r : RegAddr) (s : State) : State :=
  if r.readFlag then s.advance else (s.refuseRead r).skip 5

/-- The check of the catalog's write flag; a refused write goes past the three positions of the access. -/
def writeCheck (r : RegAddr) (s : State) : State :=
  if r.writeFlag then s.advance else (s.refuseWrite r).skip 4

/-- `regv <- BE16` of the answer to the null frame. -/
def latchRegv (s : State) : State := { s with regv := be16 s.rx }.advance

/-- `RegRead(r)` (40_register_protocol R144): five positions. -/
def regRead (r : RegAddr) : MicroProgram :=
  [readCheck r, sendTo r (.pagesel r.page), sendTo r (.raddr r.addr), sendTo r .null, latchRegv]

/-- `RegWrite(r, v)` (40_register_protocol R147): four positions. -/
def regWrite (r : RegAddr) (v : Half) : MicroProgram :=
  [writeCheck r, sendTo r (.pagesel r.page), sendTo r (.lowByte r.addr v), sendTo r (.highByte r.addr v)]

/-- `misuse <- false` before a check read. -/
def clearMisuse (s : State) : State := { s with misuse := false }.advance

/-- Complete with OK and the data, or with PROTOCOL_MISUSE (60_exceptions R279). -/
def State.respondUnlessMisuse (s : State) (data : Half) : State :=
  if s.misuse then s.respond .protocolMisuse 0 else s.respond .ok data

/-- The completion of a command whose last access is a register write. -/
def finishWrite (s : State) : State := s.respondUnlessMisuse 0

end Sys2Proof.Machine
end

