-- ==== Sys2Proof/Machine/RegisterProtocol.lean ====
section
/-! DEFINITION. The Register Protocol Layer (40_register_protocol): the host commands RDREG, WRREG, XCHG, XCHGB and the
five link frames. -/

namespace Sys2Proof.Machine

/-! ### Link frames (30_encoding R102): the framer's next step for the frame -/

/-- PAGESEL `p` (40_register_protocol R142). -/
def execPagesel (p : Byte) (s : State) : Host.Outcome State Fault Refusal :=
  .next (s.sendFrame (fPage s.params.pageAddr p))

/-- RADDR `a`: the address frame. -/
def execRaddr (a : Offset) (s : State) : Host.Outcome State Fault Refusal := .next (s.sendFrame (fRaddr a))

/-- NULL: checked in a register read, raw at the end of a drain and in Streaming. -/
def execNull (s : State) : Host.Outcome State Fault Refusal := .next (s.sendFrame fNull)

/-- WLO `a`, `d`: the low byte of a register write. -/
def execWlo (a : Offset) (d : Byte) (s : State) : Host.Outcome State Fault Refusal :=
  .next (s.sendFrame (fWrite a d))

/-- WHI `a`, `d`: the high byte of a register write, at the register's offset plus 1. -/
def execWhi (a : Offset) (d : Byte) (s : State) : Host.Outcome State Fault Refusal :=
  .next (s.sendFrame (fWrite a d))

/-! ### Host commands: they run in IDV and ACTIVE (40_register_protocol R156) -/

/-- The states in which the layer's commands run. -/
def verified : List Fsm := [.idv, .active]

/-- RDREG's completion: the value read, or PROTOCOL_MISUSE. -/
def finishRead (s : State) : State := s.respondUnlessMisuse s.regv

/-- RDREG's micro-program (R152). -/
def rdregProgram (r : RegAddr) : MicroProgram := startIn verified :: regRead r ++ [finishRead]

/-- RDREG (R152). -/
def execRdreg (r : RegName) (s : State) : Host.Outcome State Fault Refusal :=
  runProgram (rdregProgram (s.entry r)) s

/-- WRREG's micro-program (R153). -/
def wrregProgram (r : RegAddr) (v : Half) : MicroProgram := startIn verified :: regWrite r v ++ [finishWrite]

/-- WRREG (R153). -/
def execWrreg (r : RegName) (v : Half) (s : State) : Host.Outcome State Fault Refusal :=
  runProgram (wrregProgram (s.entry r) v) s

/-- The completion of XCHG and XCHGB: the answer, without byte-order interpretation (30_encoding R110). -/
def finishExchange (s : State) : State := s.respond .ok s.rx

/-- XCHG's micro-program (R154): one raw exchange. -/
def xchgProgram (tx : Frame) : MicroProgram := [startIn verified, hostExchange tx false, finishExchange]

/-- XCHG (R154). -/
def execXchg (b0 b1 : Byte) (s : State) : Host.Outcome State Fault Refusal := runProgram (xchgProgram (b0 ++ b1)) s

/-- XCHGB's micro-program (R155): one busy-checked exchange. -/
def xchgbProgram (tx : Frame) : MicroProgram := [startIn verified, pollStart, hostExchange tx true, finishExchange]

/-- XCHGB (R155). -/
def execXchgb (b0 b1 : Byte) (s : State) : Host.Outcome State Fault Refusal :=
  runProgram (xchgbProgram (b0 ++ b1)) s

/-- XCHGB's polling position. -/
def xchgbPollPosition : Nat := 2

end Sys2Proof.Machine
end

