-- ==== Sys2Proof/Machine/Configuration.lean ====
section
/-! DEFINITION. The Device Configuration Sequencer (41_configuration): INIT, ACTIVATE, EXTTRIG, TRIGGER, CLOSE. -/

namespace Sys2Proof.Machine

/-! ### INIT (R182) -/

/-- The rising reset edge, at which the sequencer enters RESET (R181, R187). -/
def resetEdge (s : State) : State := { s.setRst true with fsm := .reset }.advance

/-- The identity check: a refused read or any other value is a mismatch. -/
def identityCheck (s : State) : State :=
  if s.misuse = true ∨ s.regv ≠ s.params.prodIdExpected then
    s.raise ⟨.identityMismatch, (s.entry .prodId).page, addr8 (s.entry .prodId), s.params.prodIdExpected, s.regv⟩ s.regv
  else { s with fsm := .idv }.respond .ok s.regv

/-- INIT's micro-program. -/
def initProgram (s : State) : MicroProgram :=
  [startIn [.uninit], openLink, waitStart tPwr, waitHold, resetEdge, waitStart tRst, waitHold, clearMisuse] ++
    regRead (s.entry .prodId) ++ [identityCheck]

/-- INIT (R182). -/
def execInit (s : State) : Host.Outcome State Fault Refusal := runProgram (initProgram s) s

/-! ### ACTIVATE (R183) -/

/-- ACTIVATE's check; an accepted one leaves ACTIVE until its latch check passes. -/
def startActivate (s : State) : State :=
  if s.fsm ∈ verified then { s with mode := none, fsm := .idv }.advance else s.raiseBadState

/-- Before the first tap. -/
def firstTap (s : State) : State := { s with k := 0 }.advance

/-- After a tap's write: back to the write of the next one. Behind the last tap `k` stays 31 (DESIGN CHOICE, log 26). -/
def nextTap (s : State) : State :=
  if h : s.k.val + 1 < 32 then { s with k := ⟨s.k.val + 1, h⟩ }.back 4 else s.advance

/-- The latch check: the mode bits read back are the requested mode's code. -/
def modeCheck (m : Mode) (s : State) : State :=
  if s.misuse = true ∨ modeBits s.params s.regv ≠ s.params.modeCode.code m then
    s.raise ⟨.modeMismatch, (s.entry .recCtrl).page, addr8 (s.entry .recCtrl), s.params.modeCode.code m,
      modeBits s.params s.regv⟩ (modeBits s.params s.regv)
  else { s with mode := some m, fsm := .active }.respond .ok 0

/-- The average and filter setup, which Streaming skips: the taps come before the bank selection (R189). -/
def filterSetup (cust : Bool) (fsel : BitVec 3) (s : State) : MicroProgram :=
  regWrite (s.entry .avgCtrl) s.cfg.avg ++
    if cust then
      [firstTap] ++ regWrite (s.entry (.coef s.k)) s.cfg.taps[s.k] ++ [nextTap] ++
        regWrite (s.entry .filtCtrl) (customFiltCtrlValue s.params)
    else regWrite (s.entry .filtCtrl) (filtCtrlValue s.params fsel)

/-- ACTIVATE's micro-program. The tap written is the one the loop counter names. -/
def activateProgram (m : Mode) (win : BitVec 4) (decl : BitVec 3) (cust : Bool) (fsel : BitVec 3) (s : State) :
    MicroProgram :=
  [startActivate] ++ regWrite (s.entry .decCtrl) (decCtrlValue s.params decl) ++
    (if m = .rts then [] else filterSetup cust fsel s) ++
    regWrite (s.entry .recCtrl) (recCtrlValue s.params m win) ++ [clearMisuse] ++ regRead (s.entry .recCtrl) ++
    [modeCheck m]

/-- ACTIVATE (R183). -/
def execActivate (m : Mode) (win : BitVec 4) (decl : BitVec 3) (cust : Bool) (fsel : BitVec 3) (s : State) :
    Host.Outcome State Fault Refusal :=
  runProgram (activateProgram m win decl cust fsel s) s

/-! ### EXTTRIG (R184), TRIGGER (R185), CLOSE (R186) -/

/-- EXTTRIG's micro-program: one write, no read-back. -/
def exttrigProgram (s : State) : MicroProgram :=
  startIn verified :: regWrite (s.entry .extCtrl) s.params.extMask ++ [finishWrite]

/-- EXTTRIG (R184). -/
def execExttrig (s : State) : Host.Outcome State Fault Refusal := runProgram (exttrigProgram s) s

/-- After TRIGGER's write: no wait when no trigger was sent. -/
def triggerSent (s : State) : State := if s.misuse then s.respond .protocolMisuse 0 else waitStart tTrig s

/-- The OK response without data. -/
def finishOk (s : State) : State := s.respond .ok 0

/-- TRIGGER's micro-program. -/
def triggerProgram (s : State) : MicroProgram :=
  startIn [.active] :: regWrite (s.entry .globCmd) s.params.trigMask ++ [triggerSent, waitHold, finishOk]

/-- TRIGGER (R185). -/
def execTrigger (s : State) : Host.Outcome State Fault Refusal := runProgram (triggerProgram s) s

/-- CLOSE's release of the lines, if they are open. -/
def releaseLines (s : State) : State := (if s.linesOpen then s.closeLink else s).advance

/-- CLOSE's end: the session mode is gone; FAILED stays. -/
def finishClose (s : State) : State :=
  { s with mode := none, fsm := if s.fsm = Fsm.failed then .failed else .uninit }.respond .ok 0

/-- CLOSE's micro-program: refused in UNINIT only. -/
def closeProgram : MicroProgram := [startIn [.reset, .idv, .active, .failed], releaseLines, finishClose]

/-- CLOSE (R186). -/
def execClose (s : State) : Host.Outcome State Fault Refusal := runProgram closeProgram s

end Sys2Proof.Machine
end

