-- ==== Sys2Proof/Machine/Binary64.lean ====
section
/-! DEFINITION. `SAMPLE_FMT`: IEEE 754 binary64 with round-to-nearest-ties-to-even (42_sampling R230). Every operation
computes the exact rational result and rounds it once. The IEEE exception flags are not kept (R241). -/

namespace Sys2Proof.Machine

/-! ### Rounding -/

/-- `a / b` rounded to the nearest natural, ties to even. -/
def roundQuot (a b : Nat) : Nat :=
  let q := a / b
  let r := a % b
  if 2 * r < b then q else if b < 2 * r then q + 1 else q + q % 2

/-- The largest `k` with `2^k ≤ num / den`, for positive `num` and `den`. -/
def floorLog2 (num den : Nat) : Int :=
  let k : Int := (Nat.log2 num : Int) - (Nat.log2 den : Int)
  if den * 2 ^ k.toNat ≤ num * 2 ^ (-k).toNat then k else k - 1

/-- The pattern, without sign, of infinity. -/
def infMagnitude : Nat := 2047 * 2 ^ 52

/-- The pattern, without sign, of the binary64 value nearest to `num / den`, for positive `num` and `den`. A quotient
below the normal range keeps the exponent of the subnormals; one that rounds past the largest finite value is infinity.
The sum carries a mantissa that rounds up to the next power of two into the exponent. -/
def roundMagnitude (num den : Nat) : Nat :=
  let e : Int := max (floorLog2 num den - 52) (-1074)
  let q := roundQuot (num * 2 ^ (-e).toNat) (den * 2 ^ e.toNat)
  min ((e + 1074).toNat * 2 ^ 52 + q) infMagnitude

/-- A pattern from its sign and the pattern of its magnitude. -/
def withSign (neg : Bool) (magnitude : Nat) : Binary64 :=
  BitVec.ofNat 64 ((if neg then 2 ^ 63 else 0) + magnitude)

/-- The nearest binary64 value to `num / den`. -/
def fromRatio (num den : Nat) : Binary64 :=
  if num = 0 then 0 else withSign false (roundMagnitude num den)

/-! ### Fields and classes -/

/-- The sign. -/
def fNeg (x : Binary64) : Bool := x.getLsbD 63

/-- The biased exponent. -/
def fExp (x : Binary64) : Nat := (x.extractLsb' 52 11).toNat

/-- The trailing significand. -/
def fFrac (x : Binary64) : Nat := (x.extractLsb' 0 52).toNat

/-- Not a number. -/
def fIsNaN (x : Binary64) : Bool := fExp x == 2047 && fFrac x != 0

/-- An infinity. -/
def fIsInf (x : Binary64) : Bool := fExp x == 2047 && fFrac x == 0

/-- A zero. -/
def fIsZero (x : Binary64) : Bool := fExp x == 0 && fFrac x == 0

/-- The integer significand of a finite value. -/
def fMant (x : Binary64) : Nat := if fExp x = 0 then fFrac x else 2 ^ 52 + fFrac x

/-- The exponent of the integer significand: a finite value is `± fMant x * 2 ^ fScale x`. -/
def fScale (x : Binary64) : Int := if fExp x = 0 then -1074 else (fExp x : Int) - 1075

/-- The one NaN pattern the operations produce; no capture produces it (log 11). -/
def fNaN : Binary64 := 0x7FF8000000000000

/-- Positive infinity. -/
def fInf : Binary64 := withSign false infMagnitude

/-! ### Operations (42_sampling R230) -/

/-- `fconv(n)`. -/
def fconv (n : Nat) : Binary64 := fromRatio n 1

/-- `fmul`. -/
def fmul (x y : Binary64) : Binary64 :=
  let neg := fNeg x != fNeg y
  if fIsNaN x || fIsNaN y then fNaN
  else if fIsInf x || fIsInf y then
    if fIsZero x || fIsZero y then fNaN else withSign neg infMagnitude
  else if fIsZero x || fIsZero y then withSign neg 0
  else
    let e := fScale x + fScale y
    withSign neg (roundMagnitude (fMant x * fMant y * 2 ^ e.toNat) (2 ^ (-e).toNat))

/-- `fdiv`. -/
def fdiv (x y : Binary64) : Binary64 :=
  let neg := fNeg x != fNeg y
  if fIsNaN x || fIsNaN y then fNaN
  else if fIsInf x then (if fIsInf y then fNaN else withSign neg infMagnitude)
  else if fIsInf y then withSign neg 0
  else if fIsZero y then (if fIsZero x then fNaN else withSign neg infMagnitude)
  else if fIsZero x then withSign neg 0
  else
    let e := fScale x - fScale y
    withSign neg (roundMagnitude (fMant x * 2 ^ e.toNat) (fMant y * 2 ^ (-e).toNat))

/-- The largest `q` below `acc + 2^bits` with `q ^ 2048 ≤ bound`, for `acc ^ 2048 ≤ bound`. -/
def rootSearch (bound : Nat) : Nat → Nat → Nat
  | 0, acc => acc
  | bits + 1, acc => rootSearch bound bits (if (acc + 2 ^ bits) ^ 2048 ≤ bound then acc + 2 ^ bits else acc)

/-- The 53-bit significand of `2 ^ (f / 2048)` for `f < 2048`, rounded to nearest: the floor of `2 ^ (52 + f / 2048)`,
and one more when the value is past the midpoint. No tie occurs: only `f = 0` is rational, and it is exact. -/
def pow2Significand (f : Nat) : Nat :=
  let q := rootSearch (2 ^ (52 * 2048 + f)) 53 0
  if (2 * q + 1) ^ 2048 ≤ 2 ^ (53 * 2048 + f) then q + 1 else q

/-- The correctly rounded `2 ^ (n / 2048)`. -/
def pow2Steps (n : Nat) : Binary64 :=
  withSign false (min ((n / 2048 + 1022) * 2 ^ 52 + pow2Significand (n % 2048)) infMagnitude)

/-- `x * 2048` when it is a natural number. -/
def stepsOf (x : Binary64) : Option Nat :=
  let e := fScale x + 11
  if fNeg x || fExp x == 2047 then none
  else if fMant x % 2 ^ (-e).toNat = 0 then some (fMant x * 2 ^ e.toNat / 2 ^ (-e).toNat) else none

/-- `fpow2(x) = POW2(x)`: correctly rounded at the arguments a capture presents, multiples of 1/2048; elsewhere free
(log 12). -/
def fpow2 (x : Binary64) : Binary64 :=
  match stepsOf x with
  | some n => pow2Steps n
  | none => Config.pow2Elsewhere x

end Sys2Proof.Machine
end

