-- ==== Sys2Proof/Machine/Sampling.lean ====
section
/-! DEFINITION. The Sampling & Conversion Pipeline: CAPTURE (42_sampling). -/

namespace Sys2Proof.Machine

/-! ### Numerics (42_sampling R231 to R239) -/

/-- `K_CAP = fl(0.001907349)`. -/
def kCap : Binary64 := fromRatio 1907349 1000000000

/-- `K_FFT = fl(0.9535)`. -/
def kFft : Binary64 := fromRatio 9535 10000

/-- The conversion of a capture, a tagged variant (R239). -/
inductive Conv where
  | rts
  | mtc
  | fft (avgC : Half)
deriving DecidableEq, Repr

/-- `conv_FFT(raw, avgC)` (R235), evaluated left to right; a zero count gives an infinity (R237). -/
def convFft (raw avgC : Half) : Binary64 :=
  if raw = 0 then 0
  else fmul (fdiv (fpow2 (fdiv (fconv raw.toNat) (fconv eDiv))) (fconv avgC.toNat)) kFft

/-- The conversion of one raw word, unsigned (R233, R234, R235, R236). -/
def Conv.apply : Conv → Half → Binary64
  | .rts, raw => fconv raw.toNat
  | .mtc, raw => fmul (fconv raw.toNat) kCap
  | .fft avgC, raw => convFft raw avgC

/-- The conversion a mode chooses (R239), with the count this capture read (R238). -/
def convOf (m : Mode) (avgC : Half) : Conv :=
  match m with
  | .rts => .rts
  | .mtc => .mtc
  | .mfft => .fft avgC
  | .afft => .fft avgC

/-- The step size (R231); divisions are real (92_eei_decisions D24). -/
def stepSize (m : Mode) (decF : Nat) : Binary64 :=
  match m with
  | .rts => fdiv (fconv 1) (fconv fBase)
  | .mtc => fdiv (fconv 1) (fdiv (fconv fBase) (fconv decF))
  | .mfft => fdiv (fdiv (fconv fHalf) (fconv decF)) (fconv nFft)
  | .afft => fdiv (fdiv (fconv fHalf) (fconv decF)) (fconv nFft)

/-- The step axis (R232). -/
def generateSteps (s : Binary64) (count : Nat) : List Binary64 := (List.range count).map fun i => fmul s (fconv i)

/-- The per-axis sample count (R221, R248). -/
def sampleCount (m : Mode) : Fin 4097 :=
  match m with
  | .rts => 320
  | .mtc => 4096
  | .mfft => 2048
  | .afft => 2048

/-! ### Parameter reads and pointer reset (42_sampling R222, R223) -/

/-- `decF <- 2 ^ decField(…)` of the value just read. -/
def latchDecF (s : State) : State := { s with decF := 2 ^ decField s.params s.regv }.advance

/-- `avgC <- avgField(…)` of the value just read. -/
def latchAvgC (s : State) : State := { s with avgC := avgField s.params s.regv }.advance

/-! ### Axis drain (42_sampling R224) -/

/-- Before the first axis. -/
def firstAxis (s : State) : State := { s with ax := 0 }.advance

/-- Before the first word of an axis. -/
def firstWord (s : State) : State := { s with i := 0 }.advance

/-- Store a busy-checked word, `i` in `0 .. N-2`, and go back to its frame for the next one. Behind the last of them `i` is
`N-1`, the index of the final word (DESIGN CHOICE, log 26). -/
def storeWord (n : Nat) (s : State) : State :=
  let s1 := s.memWrite (.raw s.ax s.i) (be16 s.rx)
  if h : s.i.val + 1 < 4096 then
    if s.i.val + 2 < n then { s1 with i := ⟨s.i.val + 1, h⟩ }.back 1
    else { s1 with i := ⟨s.i.val + 1, h⟩ }.advance
  else s1.advance

/-- Store the final word of an axis and go back `len` positions for the next axis. Behind the last axis `ax` stays 2 and `i`
stays `N-1` (DESIGN CHOICE, log 26). -/
def storeLast (len : Nat) (s : State) : State :=
  let s1 := s.memWrite (.raw s.ax s.i) (be16 s.rx)
  if h : s.ax.val + 1 < 3 then { s1 with ax := ⟨s.ax.val + 1, h⟩ }.back len else s1.advance

/-- One axis: page select, address select, N-1 checked words, one raw word with the null frame. The buffer registers'
read flag is not checked (92_eei_decisions D55), so an axis whose register the catalog lacks is drained at the page and
offset of its stand-in entry (DESIGN CHOICE, log 17). -/
def drainAxis (r : RegAddr) (n : Nat) : MicroProgram :=
  [sendTo r (.pagesel r.page), sendTo r (.raddr r.addr), firstWord,
   sendTo r (.raddr r.addr), storeWord n,
   send .null false r.page (addr8 r), storeLast 6]

/-! ### Streaming (42_sampling R226 to R229) -/

/-- Before the first block. -/
def firstBlock (s : State) : State := { s with b := 0, w := 0 }.advance

/-- Store a streaming word, low byte first, and go back to its frame for the next one. Behind the last word of a block `w`
stays 99 (DESIGN CHOICE, log 26). -/
def storeBlockWord (s : State) : State :=
  let s1 := s.memWrite (.blk s.w) (le16 s.rx)
  if h : s.w.val + 1 < 100 then { s1 with w := ⟨s.w.val + 1, h⟩ }.back 1 else s1.advance

/-- Word `j` of a block of a given word list. -/
def blockWord (blk : List Half) (j : Nat) : Half := blk.getD j 0

/-- The place of sample `j` of block `b` (20_memory R80). -/
def blockSample (ax : Fin 3) (b : Fin 10) (j : Fin 32) : BufRef :=
  .raw ax ⟨32 * b.val + j.val, by omega⟩

/-- The stores of one axis of a block, its words starting at `first`. -/
def storeBlockAxis (ax : Fin 3) (b : Fin 10) (first : Nat) (blk : List Half) (m : Memory) : Memory :=
  (List.finRange 32).foldl (fun m j => Memory.writeWord m (blockSample ax b j) (blockWord blk (first + j.val))) m

/-- The stores of a well-formed block: word 0 sequence number, 1..32 x, 33..64 y, 65..96 z, 97 temperature, 98 status,
99 CRC (R228). -/
def storeBlock (b : Fin 10) (blk : List Half) (m : Memory) : Memory :=
  let m := Memory.writeWord m (.info 0 b) (blockWord blk 0)
  let m := storeBlockAxis 0 b 1 blk m
  let m := storeBlockAxis 1 b 33 blk m
  let m := storeBlockAxis 2 b 65 blk m
  let m := Memory.writeWord m (.info 1 b) (blockWord blk 97)
  let m := Memory.writeWord m (.info 2 b) (blockWord blk 98)
  Memory.writeWord m (.info 3 b) (blockWord blk 99)

/-- What parsing a block comes to. -/
inductive ParseResult where
  | stored (s : State)
  /-- The error entry has run; the capture is over. -/
  | raised (s : State)
deriving DecidableEq, Repr

/-- `ParseBlock(b, blk)` (R228): total; any length but 100 raises MalformedBlock (R229). LASTERR's
16 bits hold the length modulo 2^16 (DESIGN CHOICE for a length of 65536 or more, log 25). -/
def parseBlock (b : Fin 10) (blk : List Half) (s : State) : ParseResult :=
  if blk.length = blkWords then .stored { s with mem := storeBlock b blk s.mem }
  else .raised (s.raise ⟨.malformedBlock, 0, 0, BitVec.ofNat 16 blkWords, BitVec.ofNat 16 blk.length⟩ 0)

/-- `BLK[0..99]`. -/
def State.block (s : State) : List Half := (List.finRange 100).map fun w => Memory.readWord s.mem (.blk w)

/-- Parse the collected block and go back to the first frame of the next one. Behind the last block `b` stays 9 and `w` stays
99 (DESIGN CHOICE, log 26). -/
def parseCollected (s : State) : State :=
  match parseBlock s.b s.block s with
  | .raised t => t
  | .stored t =>
    if h : s.b.val + 1 < 10 then { t with b := ⟨s.b.val + 1, h⟩, w := 0 }.back 2 else t.advance

/-! ### Completion (42_sampling R248) -/

/-- The first `n` raw words of an axis. -/
def Memory.rawAxis (m : Memory) (ax : Fin 3) (n : Fin 4097) : List Half :=
  (List.finRange n.val).map fun i => Memory.readWord m (.raw ax (i.castLE (by omega)))

/-- A metadata sequence of ten words. -/
def Memory.infoRow (m : Memory) (f : Fin 4) : List Half :=
  (List.finRange 10).map fun b => Memory.readWord m (.info f b)

/-- The batch of a capture in mode `m`. -/
def State.batch (s : State) (m : Mode) : SampleBatch where
  recordingMode := m
  stepAxis := generateSteps (stepSize m s.decF) (sampleCount m).val
  xAxis := (Memory.rawAxis s.mem 0 (sampleCount m)).map (convOf m s.avgC).apply
  yAxis := (Memory.rawAxis s.mem 1 (sampleCount m)).map (convOf m s.avgC).apply
  zAxis := (Memory.rawAxis s.mem 2 (sampleCount m)).map (convOf m s.avgC).apply
  metadata :=
    if m = .rts then
      some ⟨Memory.infoRow s.mem 0, Memory.infoRow s.mem 1, Memory.infoRow s.mem 2, Memory.infoRow s.mem 3⟩
    else none

/-- `EmitBatch(m)`. -/
def emitBatch (m : Mode) (s : State) : State :=
  { s with batches := s.batches ++ [s.batch m] }.respond .ok (BitVec.ofNat 16 (sampleCount m).val)

/-! ### CAPTURE (42_sampling R220) -/

/-- The parameter reads (R222): decimation, and for a spectrum the average count. -/
def parameterReads (spectrum : Bool) (s : State) : MicroProgram :=
  regRead (s.entry s.params.decSrcReg) ++ [latchDecF] ++
    (if spectrum then regRead (s.entry s.params.avgSrc.reg) ++ [latchAvgC] else [])

/-- `CaptureBuf(N, spectrum)` and the batch. The axis drained is the one the loop counter names. -/
def captureBuf (m : Mode) (spectrum : Bool) (s : State) : MicroProgram :=
  parameterReads spectrum s ++ regWrite (s.entry .bufPntr) 0 ++ [firstAxis] ++
    drainAxis (s.entry (axisReg s.ax)) (sampleCount m).val ++ [emitBatch m]

/-- `CaptureRTS()` and the batch: 1000 raw null frames, no page select, no parameter read
(92_eei_decisions D51). -/
def captureRts : MicroProgram := [firstBlock, send .null false 0 0, storeBlockWord, parseCollected, emitBatch .rts]

/-- CAPTURE's micro-program in a session mode. -/
def captureProgram (m : Mode) (s : State) : MicroProgram :=
  startIn [.active] ::
    match m with
    | .rts => captureRts
    | .mtc => captureBuf .mtc false s
    | .mfft => captureBuf .mfft true s
    | .afft => captureBuf .afft true s

/-- CAPTURE (R220): it runs in ACTIVE, dispatching on the session mode. Outside ACTIVE its check refuses it. ACTIVE
without a session mode is excluded by 10_state R39 and is a fault (log 13). -/
def execCapture (s : State) : Host.Outcome State Fault Refusal :=
  match s.mode with
  | some m => runProgram (captureProgram m s) s
  | none => if s.fsm = .active then .fault .noSessionMode else runProgram [startIn [.active]] s

end Sys2Proof.Machine
end

