-- ==== Sys2Proof/Machine/Dispatch.lean ====
section
/-! DEFINITION. The dispatch from an instruction to its meaning. -/

namespace Sys2Proof.Machine

def exec (i : Instr) (s : State) : Host.Outcome State Fault Refusal :=
  match i with
  | .init => Sys2Proof.Machine.execInit s
  | .activate mode win decl cust fsel => Sys2Proof.Machine.execActivate mode win decl cust fsel s
  | .exttrig => Sys2Proof.Machine.execExttrig s
  | .trigger => Sys2Proof.Machine.execTrigger s
  | .capture => Sys2Proof.Machine.execCapture s
  | .close => Sys2Proof.Machine.execClose s
  | .rdreg r => Sys2Proof.Machine.execRdreg r s
  | .wrreg r value => Sys2Proof.Machine.execWrreg r value s
  | .xchg b0 b1 => Sys2Proof.Machine.execXchg b0 b1 s
  | .xchgb b0 b1 => Sys2Proof.Machine.execXchgb b0 b1 s
  | .pagesel p => Sys2Proof.Machine.execPagesel p s
  | .raddr a => Sys2Proof.Machine.execRaddr a s
  | .null => Sys2Proof.Machine.execNull s
  | .wlo a d => Sys2Proof.Machine.execWlo a d s
  | .whi a d => Sys2Proof.Machine.execWhi a d s

end Sys2Proof.Machine
end

