-- ==== Sys2Proof/Machine/Schedule.lean ====
section
/-! DEFINITION. The agents' turns: the Timebase tick, core reset, the acceptance of a presented command, and which
instruction the core runs next. -/

namespace Sys2Proof.Machine

/-! ### Timebase (10_state R33) -/

/-- The core is in a busy poll: `upc` is at an `XferB` polling position (10_state R42). The hold for the settle gap inside
`XferB` (40_register_protocol R141) is such a position too, so its ticks count in `pollT` (DESIGN CHOICE, log 24). -/
def State.polling (s : State) : Bool :=
  match s.out with
  | some o => o.checked
  | none =>
    match s.cmd with
    | some c =>
      match c.instr with
      | .xchgb _ _ => decide (s.upc = xchgbPollPosition)
      | _ => false
    | none => false

/-- One tick: a microsecond passes. -/
def State.tick (s : State) : State :=
  { s with
    now := s.now + 1, settle := s.settle - 1, dly := s.dly - 1, pollT := if s.polling then s.pollT + 1 else s.pollT }

/-! ### Core reset (70_reset_and_hazards R300) -/

/-- Every field of the core to its reset value; the parameters and the other agents are not reset (log 19). -/
def State.coreReset (s : State) : State :=
  { State.resetWith s.params with
    presented := s.presented, turns := s.turns, draws := s.draws, past := s.linkPast, opens := s.opens,
    readies := s.readies, answers := s.answers }

/-! ### The turn -/

/-- Which agent moves (10_state R33; log 4). -/
def State.turn (s : State) : Turn :=
  match s.turns with
  | t :: _ => t
  | [] => Config.turn s.draws

/-- The turn is taken. -/
def State.popTurn (s : State) : State :=
  match s.turns with
  | _ :: ts => { s with turns := ts }
  | [] => { s with draws := s.draws + 1 }

/-! ### Acceptance (10_state R31) -/

/-- Latch a decoded command with its `cfgIn` snapshot. -/
def State.latch (s : State) (i : Instr) (cfg : CfgIn) : State := { s with cmd := some ⟨i, cfg⟩, upc := 0, misuse := false }

/-- The presented command is taken from the port; `rspValid` is cleared. -/
def State.takePresented (s : State) (rest : List Presented) : State := { s with presented := rest, rspValid := false }

/-- What a step comes to before the instruction's own meaning. -/
inductive Action where
  /-- The core runs an instruction. -/
  | run (i : Instr) (s : State)
  /-- The step is over: a tick, a reset, an idle core, a rejected command word. -/
  | settled (s : State)
  | refuse (r : Refusal)
deriving DecidableEq, Repr

/-- Accept a presented command: an illegal word is completed at once with BAD_COMMAND, before the state check
(60_exceptions R276, R280). -/
def State.accept (s : State) (pr : Presented) (rest : List Presented) : Action :=
  match decodeCmd s.params pr.word with
  | .error _ => .settled (s.takePresented rest).raiseBadCommand
  | .ok i => .run i ((s.takePresented rest).latch i pr.cfg)

/-- The core's turn: the frame in the framer, else the latched command, else the next presented command; an idle core
with nothing presented stays as it is (70_reset_and_hazards R314). -/
def State.coreTurn (s : State) : Action :=
  match s.out with
  | some o => .run o.frame.instr s
  | none =>
    match s.cmd with
    | some c => .run c.instr s
    | none =>
      match s.presented with
      | [] => .settled s
      | pr :: rest => s.accept pr rest

/-- Ill-formed parameters are refused, whoever moves (00_scope R10). -/
def State.guarded (s : State) (a : Action) : Action :=
  if paramsOk s.params then a else .refuse .illFormedParameters

/-- The next action: the agent whose turn it is moves. -/
def State.nextAction (s : State) : Action :=
  match s.turn with
  | .core => s.guarded s.popTurn.coreTurn
  | .tick => s.guarded (.settled s.popTurn.tick)
  | .reset => s.guarded (.settled s.popTurn.coreReset)

/-! ### Presenting a word -/

/-- The host presents `word` next, the core is idle, and the next turn is the core's. -/
def State.presentWord (s : State) (word : Word) : State :=
  { s with
    out := none, cmd := none, presented := ⟨word, CfgIn.default⟩ :: s.presented, turns := .core :: s.turns }

/-- The framer holds frame `f`, busy-checked, for no register, and the next turn is the core's. -/
def State.holdFrame (s : State) (f : LinkFrame) : State :=
  { s with out := some ⟨f, true, 0, 0⟩, turns := .core :: s.turns }

/-- The word of an opcode-table row where the next step takes it from: a command word on the command port, a frame in
the framer. A 16-bit word of no frame kind is put nowhere. -/
def State.place (s : State) (e : Encoded) : State :=
  match e with
  | .command word => s.presentWord word
  | .frame f =>
    match decodeFrame s.params f with
    | .ok frame => s.holdFrame frame
    | .error _ => s

end Sys2Proof.Machine
end

