-- ==== Sys2Proof/Machine/Step.lean ====
section
/-! DEFINITION. One step of the machine: one agent's move. -/

namespace Sys2Proof.Machine

/-- One step (10_state R33, R36): the agent whose turn it is moves; where the core runs an instruction, the step is that
instruction's meaning. -/
def step (s : State) : Host.Outcome State Fault Refusal :=
  match s.nextAction with
  | .run i t => exec i t
  | .settled t => .next t
  | .refuse r => .refused r

/-- `s` with the word of an opcode-table row, numbered as the table numbers it, where the next step takes it from: 32
bits is a command word that the host presents, 16 bits a frame in the framer (log 5, log 6). -/
def State.withFetchWord (s : State) (nbits w : Nat) : State :=
  match nbits with
  | 32 => s.place (.command (BitVec.ofNat 32 w))
  | 16 => s.place (.frame (BitVec.ofNat 16 w))
  | _ => s

end Sys2Proof.Machine
end

