-- ==== Sys2Proof/Machine/Flags.lean ====
section
/-! DEFINITION. The status information the host reads: STATUS, RESPONSE, LASTERR (10_state R46 to R48). The core has no
condition codes (R44). Reading has no side effect. -/

namespace Sys2Proof.Machine

/-- The 4-bit code of a status (60_exceptions R270). -/
def Status.code : Status → BitVec 4
  | .ok => 0
  | .transport => 1
  | .identityMismatch => 2
  | .modeMismatch => 3
  | .malformedBlock => 4
  | .protocolMisuse => 5
  | .timeout => 6
  | .badState => 7
  | .badCommand => 8

/-- STATUS bits 2..0 (10_state R46). -/
def Fsm.code : Fsm → BitVec 3
  | .uninit => 0
  | .reset => 1
  | .idv => 2
  | .active => 3
  | .failed => 4

/-- STATUS bits 5..4: the host code of the session mode, 0 without one. -/
def modeField (m : Option Mode) : BitVec 2 :=
  match m with
  | some m => m.hostCode
  | none => 0

/-- STATUS (10_state R46). -/
def State.statusReg (s : State) : Half :=
  0#7 ++ BitVec.ofBool s.rspValid ++ BitVec.ofBool s.cmd.isSome ++ BitVec.ofBool s.linesOpen ++
    modeField s.mode ++ BitVec.ofBool s.mode.isSome ++ s.fsm.code

/-- RESPONSE (10_state R47). -/
structure Response where
  valid : Bool
  status : BitVec 4
  data : Half
deriving DecidableEq, Repr

/-- RESPONSE as the host reads it. -/
def State.responseReg (s : State) : Response := ⟨s.rspValid, s.rspStatus.code, s.rspData⟩

/-- LASTERR as the host reads it: code, page, addr, expected, actual (10_state R48). -/
def State.lastErrReg (s : State) : BitVec 4 × Byte × Byte × Half × Half :=
  (s.lastErr.code.code, s.lastErr.page, s.lastErr.addr, s.lastErr.expected, s.lastErr.actual)

/-- What a run shows at its end (70_reset_and_hazards R319). -/
structure Observation where
  hist : History
  batches : List SampleBatch
  log : List (Stamped LogEvent)
  response : Response
  lastErr : ErrRec
  fsm : Fsm
  mode : Option Mode
deriving DecidableEq, Repr

/-- The observation of a state; a run ends where the core is idle and nothing more is presented. -/
def State.observe (s : State) : Observation :=
  ⟨s.hist, s.batches, s.log, s.responseReg, s.lastErr, s.fsm, s.mode⟩

end Sys2Proof.Machine
end

