-- ==== Sys2Proof/Machine/Assembler.lean ====
section
/-! DEFINITION. The textual form of a command (30_encoding R116) and the pseudo-instructions (R117): what a line of
text makes the host present. Lexical conventions: log 20. -/

namespace Sys2Proof.Machine

/-! ### Numbers and names -/

/-- The value of a digit, decimal or hexadecimal. -/
def digitValue (c : Char) : Option Nat :=
  if '0' ≤ c ∧ c ≤ '9' then some (c.toNat - '0'.toNat)
  else if 'a' ≤ c ∧ c ≤ 'f' then some (c.toNat - 'a'.toNat + 10)
  else if 'A' ≤ c ∧ c ≤ 'F' then some (c.toNat - 'A'.toNat + 10)
  else none

/-- Digits in a base, most significant first. -/
def parseDigits (base : Nat) : Nat → List Char → Option Nat
  | acc, [] => some acc
  | acc, c :: cs =>
    match digitValue c with
    | some d => if d < base then parseDigits base (base * acc + d) cs else none
    | none => none

/-- A number: decimal, or hexadecimal after `0x`. -/
def parseNumber : List Char → Option Nat
  | [] => none
  | '0' :: 'x' :: c :: cs => parseDigits 16 0 (c :: cs)
  | c :: cs => parseDigits 10 0 (c :: cs)

/-- A number that fits `w` bits; one that does not is refused. -/
def parseField (w : Nat) (cs : List Char) : Option (BitVec w) :=
  match parseNumber cs with
  | some n => if n < 2 ^ w then some (BitVec.ofNat w n) else none
  | none => none

/-- The names of 20_memory R77 but the coefficients'. -/
def registerNames : List (String × RegName) :=
  [("PAGE_ID", .pageId), ("PROD_ID", .prodId), ("REC_CTRL", .recCtrl), ("GLOB_CMD", .globCmd),
   ("EXT_CTRL", .extCtrl), ("BUF_PNTR", .bufPntr), ("X_BUF", .xBuf), ("Y_BUF", .yBuf), ("Z_BUF", .zBuf),
   ("DEC_CTRL", .decCtrl), ("AVG_CTRL", .avgCtrl), ("FILT_CTRL", .filtCtrl), ("DEC_STAT", .decStat),
   ("AVG_STAT", .avgStat)]

/-- `COEF[k]`. -/
def parseCoef : List Char → Option RegName
  | 'C' :: 'O' :: 'E' :: 'F' :: '[' :: cs =>
    match cs.reverse with
    | ']' :: ds =>
      match parseNumber ds.reverse with
      | some n => if h : n < 32 then some (.coef ⟨n, h⟩) else none
      | none => none
    | _ => none
  | _ => none

/-- `<name|regid>`, as a register index. A number need only fit the field: an index without a name assembles (program P2
of 95_test_vectors), and the core answers its word with BAD_COMMAND. -/
def parseRegister (cs : List Char) : Option Byte :=
  match registerNames.find? fun e => e.1.toList == cs with
  | some e => some e.2.regId
  | none =>
    match parseCoef cs with
    | some r => some r.regId
    | none => parseField 8 cs

/-- `<RTS|MTC|MFFT|AFFT>`. -/
def parseMode (cs : List Char) : Option Mode :=
  if cs = "RTS".toList then some .rts
  else if cs = "MTC".toList then some .mtc
  else if cs = "MFFT".toList then some .mfft
  else if cs = "AFFT".toList then some .afft
  else none

/-! ### Lines -/

/-- Blanks. -/
def isBlank (c : Char) : Bool := c == ' ' || c == '\t' || c == '\r'

/-- Without the blanks at both ends. -/
def trimBlanks (cs : List Char) : List Char := ((cs.dropWhile isBlank).reverse.dropWhile isBlank).reverse

/-- The words between blanks. -/
def splitBlanks (cs : List Char) : List (List Char) := (cs.splitOnP isBlank).filter fun t => !t.isEmpty

/-- The operands between commas; none for an empty text. -/
def splitOperands (cs : List Char) : List (List Char) :=
  if (trimBlanks cs).isEmpty then [] else (cs.splitOn ',').map trimBlanks

/-- The rest of a text after a prefix. -/
def afterPrefix (pre : String) (cs : List Char) : Option (List Char) :=
  if pre.toList.isPrefixOf cs then some (cs.drop pre.toList.length) else none

/-- ACTIVATE's operands after the mode; omitted ones are 0. -/
structure ActivateOptions where
  win : BitVec 4
  dec : BitVec 3
  fsel : BitVec 3
  custom : Bool
deriving DecidableEq, Repr

/-- One option of ACTIVATE. -/
def parseOption (o : ActivateOptions) (cs : List Char) : Option ActivateOptions :=
  if cs = "custom".toList then some { o with custom := true }
  else
    match afterPrefix "win=" cs with
    | some v => (parseField 4 v).map fun n => { o with win := n }
    | none =>
      match afterPrefix "dec=" cs with
      | some v => (parseField 3 v).map fun n => { o with dec := n }
      | none =>
        match afterPrefix "fsel=" cs with
        | some v => (parseField 3 v).map fun n => { o with fsel := n }
        | none => none

/-- The options of ACTIVATE, from left to right: in any order, a repeated one overriding (DESIGN CHOICE, log 20). -/
def parseOptions : ActivateOptions → List (List Char) → Option ActivateOptions
  | o, [] => some o
  | o, cs :: rest => (parseOption o cs).bind fun o => parseOptions o rest

/-- ACTIVATE's operands. -/
def parseActivate : List (List Char) → Option Instr
  | [] => none
  | m :: options =>
    match parseMode m, parseOptions ⟨0, 0, 0, false⟩ options with
    | some m, some o => some (.activate m o.win o.dec o.custom o.fsel)
    | _, _ => none

/-- 32 tap values between commas. -/
def parseTaps (cs : List Char) : Option (Vector Half 32) :=
  match ((cs.splitOn ',').map (parseField 16)).allSome with
  | some l => if h : l.length = 32 then some ⟨l.toArray, by simpa using h⟩ else none
  | none => none

/-- One setting of the configuration record. -/
def parseSetting (cfg : CfgIn) (cs : List Char) : Option CfgIn :=
  match afterPrefix "avg=" cs with
  | some v => (parseField 16 v).map fun n => { cfg with avg := n }
  | none =>
    match afterPrefix "taps=" cs with
    | some v => (parseTaps v).map fun t => { cfg with taps := t }
    | none => some cfg

/-- The settings after the word `cfg` of a comment: in any order, a repeated one overriding, other words saying nothing
(DESIGN CHOICE, log 20). -/
def parseSettings : CfgIn → List (List Char) → Option CfgIn
  | cfg, [] => some cfg
  | cfg, cs :: rest => (parseSetting cfg cs).bind fun cfg => parseSettings cfg rest

/-- The configuration record of a comment; omitted settings have the values of R116. -/
def parseComment (cs : List Char) : Option CfgIn :=
  parseSettings CfgIn.default (((splitBlanks cs).dropWhile fun t => t != "cfg".toList).drop 1)

/-- A command the assembler has read. RDREG and WRREG hold the register's index, which need not name a register. -/
inductive AsmCommand where
  | instr (i : Instr)
  | rdreg (id : Byte)
  | wrreg (id : Byte) (v : Half)
deriving DecidableEq, Repr

/-- The commands of a mnemonic with its operands; SETUP, ACQUIRE and READID are the pseudo-instructions of R117. -/
def parseCommand (mnemonic : String) (operands : List (List Char)) : Option (List AsmCommand) :=
  match mnemonic, operands with
  | "INIT", [] => some [.instr .init]
  | "ACTIVATE", l => (parseActivate l).map fun i => [.instr i]
  | "EXTTRIG", [] => some [.instr .exttrig]
  | "TRIGGER", [] => some [.instr .trigger]
  | "CAPTURE", [] => some [.instr .capture]
  | "CLOSE", [] => some [.instr .close]
  | "RDREG", [r] => (parseRegister r).map fun id => [.rdreg id]
  | "WRREG", [r, v] =>
    match parseRegister r, parseField 16 v with
    | some id, some v => some [.wrreg id v]
    | _, _ => none
  | "XCHG", [a, b] =>
    match parseField 8 a, parseField 8 b with
    | some a, some b => some [.instr (.xchg a b)]
    | _, _ => none
  | "XCHGB", [a, b] =>
    match parseField 8 a, parseField 8 b with
    | some a, some b => some [.instr (.xchgb a b)]
    | _, _ => none
  | "SETUP", l => (parseActivate l).map fun i => [.instr .init, .instr i]
  | "ACQUIRE", [] => some [.instr .trigger, .instr .capture]
  | "READID", [] => some [.rdreg RegName.prodId.regId]
  | _, _ => none

/-- The word of a command with its configuration record; only ACTIVATE has one of its own (10_state R51). -/
def presentInstr (p : Params) (cfg : CfgIn) (i : Instr) : Option Presented :=
  match encode p i, i with
  | .command w, .activate _ _ _ _ _ => some ⟨w, cfg⟩
  | .command w, _ => some ⟨w, CfgIn.default⟩
  | .frame _, _ => none

/-- The presentation of a command the assembler has read. -/
def AsmCommand.present (p : Params) (cfg : CfgIn) : AsmCommand → Option Presented
  | .instr i => presentInstr p cfg i
  | .rdreg id => some ⟨rdregWord id, CfgIn.default⟩
  | .wrreg id v => some ⟨wrregWord id v, CfgIn.default⟩

/-- What a line makes the host present, in order; a line without a command, nothing; a line the assembler refuses,
`none`. The settings of a comment are checked on every line with a command, and a malformed one refuses the line, also
where the command takes none (DESIGN CHOICE, log 20). -/
def assembleLine (p : Params) (line : String) : Option (List Presented) :=
  let code := trimBlanks (line.toList.takeWhile (· != ';'))
  let comment := (line.toList.dropWhile (· != ';')).drop 1
  if code.isEmpty then some []
  else
    let mnemonic := code.takeWhile fun c => !isBlank c
    match parseCommand (String.ofList mnemonic) (splitOperands (code.drop mnemonic.length)), parseComment comment with
    | some l, some cfg => (l.map (AsmCommand.present p cfg)).allSome
    | _, _ => none

/-- A program: its lines' presentations one after the other. -/
def assemble (p : Params) (lines : List String) : Option (List Presented) :=
  ((lines.map (assembleLine p)).allSome).map List.flatten

end Sys2Proof.Machine
end

