-- ==== Sys2Proof/Safety.lean ====
section
/-! DEFINITION. The terms that claims about the core are stated in: runs, the legality table, the invariants of the
state, the timing laws of the link history, and the reference echo device. -/

namespace Sys2Proof.Machine

/-! ### Runs -/

/-- `n` steps of the machine, stopping at a fault or a refusal. -/
def runSteps : Nat → State → Host.Outcome State Fault Refusal
  | 0, s => .next s
  | n + 1, s =>
    match step s with
    | .next t => runSteps n t
    | .fault f => .fault f
    | .refused r => .refused r

/-- `n` turns of the core. -/
def coreTurns (n : Nat) : List Turn := List.replicate n .core

/-- `n` microseconds. -/
def ticks (n : Nat) : List Turn := List.replicate n .tick

/-- The core is idle (10_state R31): no command latched and no transfer in progress. -/
def State.idle (s : State) : Prop := s.cmd = none ∧ s.out = none

/-! ### Command legality (41_configuration R188) -/

/-- The table of R188: the states in which a command runs. -/
def legalIn : Instr → Fsm → Bool
  | .init, f => f == .uninit
  | .activate _ _ _ _ _, f => f == .idv || f == .active
  | .exttrig, f => f == .idv || f == .active
  | .trigger, f => f == .active
  | .capture, f => f == .active
  | .close, f => f != .uninit
  | .rdreg _, f => f == .idv || f == .active
  | .wrreg _ _, f => f == .idv || f == .active
  | .xchg _ _, f => f == .idv || f == .active
  | .xchgb _ _, f => f == .idv || f == .active
  | .pagesel _, _ => false
  | .raddr _, _ => false
  | .null, _ => false
  | .wlo _ _, _ => false
  | .whi _ _, _ => false

/-- A change of `fsm` that an instruction in progress can make (41_configuration R187). -/
def fsmEdge (i : Instr) (f g : Fsm) : Bool :=
  let inSession := f == .idv || f == .active
  match i with
  | .init => (f == .uninit && (g == .reset || g == .failed)) || (f == .reset && (g == .idv || g == .failed))
  | .activate _ _ _ _ _ =>
    (f == .active && g == .idv) || (f == .idv && g == .active) || (inSession && g == .failed)
  | .close => inSession && g == .uninit
  | .exttrig => inSession && g == .failed
  | .trigger => inSession && g == .failed
  | .capture => inSession && g == .failed
  | .rdreg _ => inSession && g == .failed
  | .wrreg _ _ => inSession && g == .failed
  | .xchg _ _ => inSession && g == .failed
  | .xchgb _ _ => inSession && g == .failed
  | .pagesel _ => false
  | .raddr _ => false
  | .null => false
  | .wlo _ _ => false
  | .whi _ _ => false

/-- The command that a step of the core works on: the latched one, else the presented one it accepts. -/
def State.workingOn (s : State) : Option Instr :=
  match s.cmd, s.presented with
  | some c, _ => some c.instr
  | none, pr :: _ => (decodeCmd s.params pr.word).toOption
  | none, [] => none

/-! ### The session invariant (10_state R38, R39) -/

/-- What a command in progress, past its check, implies for `fsm`. -/
def runningFsm (i : Instr) (upc : Nat) (f : Fsm) : Bool :=
  match i with
  | .init => if upc ≤ 4 then f == .uninit else f == .reset
  | .activate _ _ _ _ _ => f == .idv
  | .exttrig => f == .idv || f == .active
  | .trigger => f == .active
  | .capture => f == .active
  | .close => f == .idv || f == .active || f == .failed
  | .rdreg _ => f == .idv || f == .active
  | .wrreg _ _ => f == .idv || f == .active
  | .xchg _ _ => f == .idv || f == .active
  | .xchgb _ _ => f == .idv || f == .active
  | .pagesel _ => false
  | .raddr _ => false
  | .null => false
  | .wlo _ _ => false
  | .whi _ _ => false

/-- The state between two steps: the session mode is there exactly in ACTIVE; RESET is never current in an idle core
(41_configuration R188); a latched command is past its check in a state that allows it; a transfer in progress belongs
to a command other than CLOSE. -/
def SessionInv (s : State) : Prop :=
  (s.mode ≠ none ↔ s.fsm = .active) ∧
  (match s.cmd with
    | none => s.fsm ≠ .reset ∧ s.out = none
    | some c => 1 ≤ s.upc ∧ runningFsm c.instr s.upc s.fsm = true ∧ (s.out ≠ none → c.instr ≠ .close))

/-- The number of positions of a command's micro-program; CAPTURE's depends on the session mode. -/
def programLength (i : Instr) (m : Option Mode) : Nat :=
  match i with
  | .init => 14
  | .activate am _ _ cust _ => if am = .rts then 16 else if cust then 30 else 24
  | .exttrig => 6
  | .trigger => 8
  | .capture =>
    match m with
    | some .rts => 6
    | some .mtc => 20
    | some .mfft => 26
    | some .afft => 26
    | none => 1
  | .close => 3
  | .rdreg _ => 7
  | .wrreg _ _ => 6
  | .xchg _ _ => 3
  | .xchgb _ _ => 4
  | .pagesel _ => 0
  | .raddr _ => 0
  | .null => 0
  | .wlo _ _ => 0
  | .whi _ _ => 0

/-- The states in which no step faults or refuses: well-formed parameters, the session invariant, and `upc` within the
micro-program of the latched command. -/
def RunInv (s : State) : Prop :=
  paramsOk s.params = true ∧ SessionInv s ∧
  (match s.cmd with
    | none => True
    | some c => s.upc < programLength c.instr s.mode)

/-! ### The lines (10_state R43) and the working registers (R45) -/

/-- The reset output is driven exactly while the lines are open; they are open from INIT's second position on and in
RESET, IDV and ACTIVE, until CLOSE has released them. -/
def LinesInv (s : State) : Prop :=
  SessionInv s ∧ (s.rstO = none ↔ s.linesOpen = false) ∧
  (match s.cmd with
    | none => (s.fsm = .idv ∨ s.fsm = .active) → s.linesOpen = true
    | some c =>
      match c.instr with
      | .init => (2 ≤ s.upc ∨ s.out ≠ none) → s.linesOpen = true
      | .close => s.upc = 1 → s.fsm ≠ .failed → s.linesOpen = true
      | _ => s.linesOpen = true)

/-- The answer in a link event, else the one before it. -/
def LinkEvent.answerOr (ev : LinkEvent) (before : Frame) : Frame :=
  match ev with
  | .xfer _ rx _ => rx.getD before
  | .poll _ => before
  | .opened _ => before
  | .closed => before
  | .rst _ => before

/-- The answer of the last exchange that was answered; 0 before any. -/
def lastAnswer (h : History) : Frame := h.foldl (fun r e => LinkEvent.answerOr e.ev r) 0

/-! ### The exchanges a command has still to make -/

/-- An exchange to be made: its frame and whether it is busy-checked. -/
abbrev Planned := Frame × Bool

/-- The exchanges of a history, in order. -/
def exchanges (h : History) : List Planned :=
  h.filterMap fun e => match e.ev with | .xfer tx _ checked => some (tx, checked) | _ => none

/-- The frames of a register read (40_register_protocol R144), all busy-checked. -/
def readFrames (p : Params) (r : RegAddr) : List Planned :=
  [(fPage p.pageAddr r.page, true), (fRaddr r.addr, true), (fNull, true)]

/-- The frames of a register write (40_register_protocol R147), all busy-checked: page, low byte, high byte. -/
def writeFrames (p : Params) (r : RegAddr) (v : Half) : List Planned :=
  [(fPage p.pageAddr r.page, true), (fWrite r.addr (v.extractLsb' 0 8), true),
   (fWrite (r.addr + 1) (v.extractLsb' 8 8), true)]

/-- The frames of an axis drain of `n` words (42_sampling R224): the last one is the only raw one. -/
def drainFrames (p : Params) (r : RegAddr) (n : Nat) : List Planned :=
  [(fPage p.pageAddr r.page, true), (fRaddr r.addr, true)] ++ List.replicate (n - 1) (fRaddr r.addr, true) ++
    [(fNull, false)]

/-- A stretch of a micro-program: how many positions it has, and the exchanges still to be made in it from one of its
positions on. -/
structure Stretch where
  size : Nat
  left : Nat → List Planned

/-- The exchanges left in consecutive stretches from a position on. -/
def exchangesLeft : List Stretch → Nat → List Planned
  | [], _ => []
  | g :: gs, n =>
    if n < g.size then g.left n ++ gs.flatMap fun h => h.left 0 else exchangesLeft gs (n - g.size)

/-- Positions without an exchange. -/
def quiet (n : Nat) : Stretch := ⟨n, fun _ => []⟩

/-- An access with a check of a catalog flag at its first position: a refused access has no exchange (R145, R148). -/
def access (size : Nat) (allowed : Bool) (frames : List Planned) : Stretch :=
  ⟨size, fun j => if j = 0 then (if allowed then frames else []) else frames.drop (j - 1)⟩

/-- A register read. -/
def readStretch (s : State) (r : RegName) : Stretch :=
  access 5 (s.entry r).readFlag (readFrames s.params (s.entry r))

/-- A register write. -/
def writeStretch (s : State) (r : RegName) (v : Half) : Stretch :=
  access 4 (s.entry r).writeFlag (writeFrames s.params (s.entry r) v)

/-- The exchanges of the coefficient writes from tap `n` on. -/
def tapsFrom (s : State) (n : Nat) : List Planned :=
  ((List.finRange 32).drop n).flatMap fun k => (writeStretch s (.coef k) s.cfg.taps[k]).left 0

/-- The loop over the 32 taps (41_configuration R183). -/
def tapsStretch (s : State) : Stretch :=
  ⟨6, fun j =>
    if j = 0 then tapsFrom s 0
    else if j = 5 then tapsFrom s (s.k.val + 1)
    else (writeStretch s (.coef s.k) s.cfg.taps[s.k]).left (j - 1) ++ tapsFrom s (s.k.val + 1)⟩

/-- The exchanges of the axes from axis `n` on. -/
def axesFrom (s : State) (count n : Nat) : List Planned :=
  ((List.finRange 3).drop n).flatMap fun ax => drainFrames s.params (s.entry (axisReg ax)) count

/-- The drain of the three axes (42_sampling R224). -/
def drainStretch (s : State) (count : Nat) : Stretch :=
  let frames := drainFrames s.params (s.entry (axisReg s.ax)) count
  let rest := axesFrom s count (s.ax.val + 1)
  let words (m : Nat) : List Planned :=
    List.replicate m (fRaddr (s.entry (axisReg s.ax)).addr, true) ++ [(fNull, false)] ++ rest
  ⟨8, fun j =>
    match j with
    | 0 => axesFrom s count 0
    | 1 => frames ++ rest
    | 2 => frames.drop 1 ++ rest
    | 3 => frames.drop 2 ++ rest
    | 4 => words (1 + (count - 2 - s.i.val))
    | 5 => words (count - 2 - s.i.val)
    | 6 => words 0
    | _ => rest⟩

/-- The loop over the blocks and words of a Streaming capture (42_sampling R226). -/
def blocksStretch (s : State) : Stretch :=
  let after := 100 * (9 - s.b.val)
  ⟨4, fun j =>
    List.replicate
      (match j with
        | 0 => 1000
        | 1 => 1 + (99 - s.w.val) + after
        | 2 => 99 - s.w.val + after
        | _ => after) (fNull, false)⟩

/-- A raw or busy-checked exchange of the host, made at position `pos`. -/
def hostStretch (size pos : Nat) (tx : Frame) (checked : Bool) : Stretch :=
  ⟨size, fun j => if j ≤ pos then [(tx, checked)] else []⟩

/-- A command's micro-program as stretches (40_register_protocol R152 to R155, 41_configuration R182 to R186,
42_sampling R220 to R226). -/
def stretches (i : Instr) (s : State) : List Stretch :=
  match i with
  | .init => [quiet 8, readStretch s .prodId, quiet 1]
  | .activate m win decl cust fsel =>
    [quiet 1, writeStretch s .decCtrl (decCtrlValue s.params decl)] ++
      (if m = .rts then []
        else if cust then
          [writeStretch s .avgCtrl s.cfg.avg, tapsStretch s,
           writeStretch s .filtCtrl (customFiltCtrlValue s.params)]
        else [writeStretch s .avgCtrl s.cfg.avg, writeStretch s .filtCtrl (filtCtrlValue s.params fsel)]) ++
      [writeStretch s .recCtrl (recCtrlValue s.params m win), quiet 1, readStretch s .recCtrl, quiet 1]
  | .exttrig => [quiet 1, writeStretch s .extCtrl s.params.extMask, quiet 1]
  | .trigger => [quiet 1, writeStretch s .globCmd s.params.trigMask, quiet 3]
  | .capture =>
    match s.mode with
    | some .rts => [quiet 1, blocksStretch s, quiet 1]
    | some .mtc =>
      [quiet 1, readStretch s s.params.decSrcReg, quiet 1, writeStretch s .bufPntr 0, drainStretch s 4096, quiet 1]
    | some _ =>
      [quiet 1, readStretch s s.params.decSrcReg, quiet 1, readStretch s s.params.avgSrc.reg, quiet 1,
       writeStretch s .bufPntr 0, drainStretch s 2048, quiet 1]
    | none => []
  | .close => [quiet 3]
  | .rdreg r => [quiet 1, readStretch s r, quiet 1]
  | .wrreg r v => [quiet 1, writeStretch s r v, quiet 1]
  | .xchg b0 b1 => [hostStretch 3 1 (b0 ++ b1) false]
  | .xchgb b0 b1 => [hostStretch 4 2 (b0 ++ b1) true]
  | .pagesel _ => []
  | .raddr _ => []
  | .null => []
  | .wlo _ _ => []
  | .whi _ _ => []

/-- No register access of the command is refused (40_register_protocol R145, R148): each register it reads is readable,
each it writes is writable. The buffer registers of a drain are not checked (92_eei_decisions D55). -/
def State.accessesAllowed (s : State) (i : Instr) : Bool :=
  match i with
  | .init => (s.entry .prodId).readFlag
  | .activate m _ _ cust _ =>
    (s.entry .decCtrl).writeFlag && (s.entry .recCtrl).writeFlag && (s.entry .recCtrl).readFlag &&
      (decide (m = .rts) ||
        (s.entry .avgCtrl).writeFlag && (s.entry .filtCtrl).writeFlag &&
          (!cust || (List.finRange 32).all fun k => (s.entry (.coef k)).writeFlag))
  | .exttrig => (s.entry .extCtrl).writeFlag
  | .trigger => (s.entry .globCmd).writeFlag
  | .capture =>
    match s.mode with
    | some .rts => true
    | some .mtc => (s.entry s.params.decSrcReg).readFlag && (s.entry .bufPntr).writeFlag
    | some _ =>
      (s.entry s.params.decSrcReg).readFlag && (s.entry s.params.avgSrc.reg).readFlag && (s.entry .bufPntr).writeFlag
    | none => true
  | .close => true
  | .rdreg r => (s.entry r).readFlag
  | .wrreg r _ => (s.entry r).writeFlag
  | .xchg _ _ => true
  | .xchgb _ _ => true
  | .pagesel _ => true
  | .raddr _ => true
  | .null => true
  | .wlo _ _ => true
  | .whi _ _ => true

/-- The exchanges that the command in progress has still to make if no error ends it. -/
def State.remaining (s : State) : List Planned :=
  (match s.out with
    | some o => [(o.frame.bits s.params, o.checked)]
    | none => []) ++
  (match s.cmd with
    | some c => exchangesLeft (stretches c.instr s) s.upc
    | none => [])

/-! ### Rounded values -/

/-- `x` is a positive normal binary64 value that differs from `num / den` by at most half a unit of its last place
(42_sampling R230). It says nothing of how `x` was computed. -/
def withinHalfUlp (x : Binary64) (num den : Nat) : Prop :=
  fNeg x = false ∧ 1 ≤ fExp x ∧ fExp x ≤ 2046 ∧
  (2 * fMant x - 1) * 2 ^ (fScale x).toNat * den ≤ 2 * num * 2 ^ (-fScale x).toNat ∧
  2 * num * 2 ^ (-fScale x).toNat ≤ (2 * fMant x + 1) * 2 ^ (fScale x).toNat * den

/-- `x` is a positive normal binary64 value that differs from `2 ^ (n / 2048)` by at most half a unit of its last place:
the bounds on the number, raised to the power 2048. -/
def withinHalfUlpOfPow2 (x : Binary64) (n : Nat) : Prop :=
  fNeg x = false ∧ 1 ≤ fExp x ∧ fExp x ≤ 2046 ∧ fScale x ≤ 0 ∧
  (2 * fMant x - 1) ^ 2048 ≤ 2 ^ (n + 2048 * (1 - fScale x).toNat) ∧
  2 ^ (n + 2048 * (1 - fScale x).toNat) ≤ (2 * fMant x + 1) ^ 2048

/-! ### Timing laws of the link history (70_reset_and_hazards) -/

/-- An exchange. -/
def LinkEvent.isXfer : LinkEvent → Bool
  | .xfer _ _ _ => true
  | .poll _ => false
  | .opened _ => false
  | .closed => false
  | .rst _ => false

/-- An exchange, or an event that separates exchanges in R305. -/
def LinkEvent.endsGap : LinkEvent → Bool
  | .xfer _ _ _ => true
  | .opened _ => true
  | .closed => true
  | .poll _ => false
  | .rst _ => false

/-- The settle law (R305): consecutive exchanges, with no open or close between them, are at least `T_SETTLE` apart. -/
def SettleLaw (h : History) : Prop :=
  ∀ (pre : History) (e : Stamped LinkEvent) (mid : History) (x : Stamped LinkEvent) (post : History),
    h = pre ++ e :: (mid ++ x :: post) → LinkEvent.isXfer e.ev = true → LinkEvent.isXfer x.ev = true →
    (∀ y ∈ mid, LinkEvent.endsGap y.ev = false) → e.time + tSettle ≤ x.time

/-- The settle counter covers what is left of the gap after the last exchange. -/
def SettleInv (s : State) : Prop :=
  SettleLaw s.hist ∧
  ∀ (pre : History) (e : Stamped LinkEvent) (mid : History), s.hist = pre ++ e :: mid →
    LinkEvent.isXfer e.ev = true → (∀ y ∈ mid, LinkEvent.endsGap y.ev = false) → e.time + tSettle ≤ s.now + s.settle

/-- The busy law (R306): a checked exchange comes right after a ready poll with the same stamp. -/
def BusyLaw (h : History) : Prop :=
  ∀ (pre : History) (tx : Frame) (rx : Option Frame) (t : Nat) (post : History),
    h = pre ++ ⟨.xfer tx rx true, t⟩ :: post → ∃ pre' : History, pre = pre' ++ [⟨.poll true, t⟩]

/-- The reset-timing law (R307): the rising reset edge is at least `T_PWR` after the open, and every exchange after it
at least `T_RST` after it. -/
def ResetTimingLaw (h : History) : Prop :=
  (∀ (pre : History) (e : Stamped LinkEvent) (post : History), h = pre ++ e :: post → e.ev = .rst true →
    ∃ (pre' : History) (o : Stamped LinkEvent), pre = pre' ++ [o] ∧ o.ev = .opened true ∧ o.time + tPwr ≤ e.time) ∧
  (∀ (pre : History) (e : Stamped LinkEvent) (mid : History) (x : Stamped LinkEvent) (post : History),
    h = pre ++ e :: (mid ++ x :: post) → e.ev = .rst true → LinkEvent.isXfer x.ev = true → e.time + tRst ≤ x.time)

/-- Every rising reset edge lies at least `T_RST` back. -/
def edgesSettled (s : State) : Prop := ∀ e ∈ s.hist, e.ev = .rst true → e.time + tRst ≤ s.now

/-- The last link event is `ev`, and `wait` microseconds after it are over when `left` more have passed. -/
def lastEventWaits (s : State) (ev : LinkEvent) (wait left : Nat) : Prop :=
  ∃ (pre : History) (o : Stamped LinkEvent), s.hist = pre ++ [o] ∧ o.ev = ev ∧ o.time + wait ≤ s.now + left

/-- INIT's progress through its two waits, by position. -/
def ResetTimingInv (s : State) : Prop :=
  SessionInv s ∧ ResetTimingLaw s.hist ∧
  (match s.cmd with
    | none => edgesSettled s
    | some c =>
      match c.instr with
      | .init =>
        match s.upc with
        | 0 => True
        | 1 => edgesSettled s ∧ s.out = none
        | 2 => edgesSettled s ∧ s.out = none ∧ lastEventWaits s (.opened true) 0 0
        | 3 => edgesSettled s ∧ s.out = none ∧ lastEventWaits s (.opened true) tPwr s.dly
        | 4 => edgesSettled s ∧ s.out = none ∧ lastEventWaits s (.opened true) tPwr 0
        | 5 => s.out = none ∧ (∀ e ∈ s.hist, e.ev = .rst true → e.time ≤ s.now)
        | 6 => s.out = none ∧ (∀ e ∈ s.hist, e.ev = .rst true → e.time + tRst ≤ s.now + s.dly)
        | _ => edgesSettled s
      | _ => edgesSettled s)

/-- No stamp of the history or the log is in the future, and the history's stamps never fall. -/
def StampsInv (s : State) : Prop :=
  (s.hist.map Stamped.time).Pairwise (· ≤ ·) ∧ (s.log.map Stamped.time).Pairwise (· ≤ ·) ∧
  (∀ e ∈ s.hist, e.time ≤ s.now) ∧ (∀ e ∈ s.log, e.time ≤ s.now)

/-- TRIGGER's progress through its wait, by position; no stamp is in the future. -/
def TriggerInv (s : State) : Prop :=
  (∀ e ∈ s.hist, e.time ≤ s.now) ∧
  (match s.cmd with
    | none => True
    | some c =>
      match c.instr with
      | .trigger =>
        match s.upc with
        | 6 => s.out = none ∧ ∀ e ∈ s.hist, e.time + tTrig ≤ s.now + s.dly
        | 7 => s.out = none ∧ ∀ e ∈ s.hist, e.time + tTrig ≤ s.now
        | _ => True
      | _ => True)

/-! ### The reference echo device M1 (95_test_vectors Part 2) -/

/-- The device's current page, its bytes by page and offset, and the register a read is pending for. -/
structure EchoDevice where
  page : Byte
  bytes : List ((Byte × Offset) × Byte)
  pending : Option (Byte × Offset)
deriving DecidableEq, Repr

/-- A byte of the device; one never written is 0. -/
def EchoDevice.byte (d : EchoDevice) (page : Byte) (a : Offset) : Byte :=
  match d.bytes.find? fun c => c.1 == (page, a) with
  | some c => c.2
  | none => 0

/-- The answer to an exchange, formed before the frame is interpreted. -/
def EchoDevice.answer (d : EchoDevice) : Frame :=
  match d.pending with
  | some (page, a) => d.byte page (a + 1) ++ d.byte page a
  | none => 0

/-- The device after a frame. -/
def EchoDevice.receive (pageAddr : Offset) (d : EchoDevice) (tx : Frame) : EchoDevice :=
  let a : Offset := tx.extractLsb' 8 7
  let v : Byte := tx.extractLsb' 0 8
  if tx = 0 then { d with pending := none }
  else if tx.extractLsb' 15 1 = 1#1 then
    if a = pageAddr then { d with page := v, pending := none }
    else { d with bytes := ((d.page, a), v) :: d.bytes, pending := none }
  else { d with pending := some (d.page, a) }

/-- The answers to a sequence of frames. -/
def EchoDevice.answers (pageAddr : Offset) : EchoDevice → List Frame → List Frame
  | _, [] => []
  | d, tx :: txs => d.answer :: EchoDevice.answers pageAddr (d.receive pageAddr tx) txs

end Sys2Proof.Machine
end

