-- ==== Sys2Proof/Certificates/Slice0/Obligations.lean ====
section
/-! DEFINITION. The statements for the provers. Each docstring names the rules of spec/ it rests on. A next state is
written out as a record update, so that every field it does not name is unchanged. -/

section
open Sys2Proof Sys2Proof.Machine

/-! ### Encoding -/

/-- DECODE AND ENCODE AGREE: the word of a well-formed instruction decodes to that instruction, for all fifteen
constructors and every operand (30_encoding R102, R107, R111). Where a frame's encoding is another kind's (R103) the
decoder's reading is the model's choice (log 7) and `unambiguous` leaves it out. -/
def Obligations.DecodeEncodeAgree : Prop :=
  ∀ (p : Params) (i : Instr), i.wellFormed p = true → i.unambiguous p = true → decode p (encode p i) = .ok i

/-- A legal word is the word of the instruction it decodes to: no bit of a command word or of a frame is ignored
(30_encoding R105, R107, R102). -/
def Obligations.DecodedWordsEncodeBack : Prop :=
  (∀ (p : Params) (w : Word) (i : Instr),
    decodeCmd p w = .ok i → i.isCommand = true ∧ i.wellFormed p = true ∧ encode p i = .command w) ∧
  (∀ (p : Params) (f : Frame) (fr : LinkFrame), decodeFrame p f = .ok fr → fr.bits p = f)

/-- The illegal words are exactly those of 30_encoding R112, with the fields of R107 as numbers: OP 0 and 0xB to 0xF, a
reserved bit set, ACTIVATE's window setting out of range, a register index without a name (20_memory R77). -/
def Obligations.IllegalWordsExactly : Prop :=
  ∀ (p : Params) (w : Word),
    let op := w.toNat % 16
    let id := w.toNat / 256 % 256
    let unnamed := id = 14 ∨ id = 15 ∨ 48 ≤ id
    (∃ e, decodeCmd p w = .error e) ↔
      ((op = 0 ∨ 0xB ≤ op) ∨
       ((op = 1 ∨ op = 3 ∨ op = 4 ∨ op = 5 ∨ op = 6) ∧ w.toNat / 16 ≠ 0) ∨
       (op = 2 ∧ (w.toNat / 64 % 4 ≠ 0 ∨ w.toNat / 2 ^ 19 ≠ 0 ∨ 2 ^ p.winW ≤ w.toNat / 256 % 16)) ∨
       (op = 7 ∧ (w.toNat / 16 % 16 ≠ 0 ∨ w.toNat / 2 ^ 16 ≠ 0 ∨ unnamed)) ∨
       (op = 8 ∧ (w.toNat / 16 % 16 ≠ 0 ∨ unnamed)) ∨
       ((op = 9 ∨ op = 10) ∧ w.toNat / 16 % 4096 ≠ 0))

/-- Words written out from the encoding tables decode to what the tables say, one for each row of the opcode table
(30_encoding R102, R107; vectors V2, V7, V21, V22, V25, V28, V31). The parameters are the example E0 (log 2). The words
0x8005 and 0x0000 are also a low-byte write at `PAGE_ADDR` and an address frame of offset 0 (R103): that the decoder reads
them as PAGESEL and NULL is the model's choice (log 7). -/
def Obligations.WordsDecodeRight : Prop :=
  decodeTableWord 32 0x00000001 = some .init ∧
  decodeTableWord 32 0x0000B222 = some (.activate .mfft 2 3 true 0) ∧
  decodeTableWord 32 0x00000003 = some .exttrig ∧
  decodeTableWord 32 0x00000004 = some .trigger ∧
  decodeTableWord 32 0x00000005 = some .capture ∧
  decodeTableWord 32 0x00000006 = some .close ∧
  decodeTableWord 32 0x00002F07 = some (.rdreg (.coef 31)) ∧
  decodeTableWord 32 0x10020208 = some (.wrreg .recCtrl 0x1002) ∧
  decodeTableWord 32 0x56780009 = some (.xchg 0x56 0x78) ∧
  decodeTableWord 32 0x5678000A = some (.xchgb 0x56 0x78) ∧
  decodeTableWord 16 0x8005 = some (.pagesel 5) ∧
  decodeTableWord 16 0x5600 = some (.raddr 0x56) ∧
  decodeTableWord 16 0x0000 = some .null ∧
  decodeTableWord 16 0x9A02 = some (.wlo 0x1A 0x02) ∧
  decodeTableWord 16 0x9B10 = some (.whi 0x1B 0x10)

/-- The values of the five frame kinds as numbers (30_encoding R101, R102); at a catalog offset, even and at most 0x7E
(20_memory R79), the high byte's offset is one more and does not reach the write bit. -/
def Obligations.FrameValues : Prop :=
  (∀ (p : Params) (page : Byte),
    ((LinkFrame.pagesel page).bits p).toNat = 0x8000 + 256 * p.pageAddr.toNat + page.toNat) ∧
  (∀ (p : Params) (a : Offset), ((LinkFrame.raddr a).bits p).toNat = 256 * a.toNat) ∧
  (∀ p : Params, (LinkFrame.null.bits p).toNat = 0) ∧
  (∀ (p : Params) (a : Offset) (v : Half),
    ((LinkFrame.lowByte a v).bits p).toNat = 0x8000 + 256 * a.toNat + v.toNat % 256) ∧
  (∀ (p : Params) (a : Offset) (v : Half), a.toNat % 2 = 0 → a.toNat ≤ 0x7E →
    ((LinkFrame.highByte a v).bits p).toNat = 0x8000 + 256 * (a.toNat + 1) + v.toNat / 256)

/-- 30_encoding R103: the page-select frame is the low-byte write frame at `PAGE_ADDR`, and the null frame is the
address frame of offset 0. -/
def Obligations.FrameKindsOverlap : Prop :=
  (∀ (p : Params) (page : Byte),
    (LinkFrame.pagesel page).bits p = (LinkFrame.lowByte p.pageAddr (page.setWidth 16)).bits p) ∧
  (∀ p : Params, LinkFrame.null.bits p = (LinkFrame.raddr 0).bits p)

/-- The byte-order mux (40_register_protocol R150): both interpretations as numbers, the rule's example, and which
access uses which: a register read and the words of a drain the standard order, a Streaming word the reversed one. -/
def Obligations.ByteOrderMux : Prop :=
  (∀ rx : Frame, (be16 rx).toNat = 256 * (rx.toNat / 256) + rx.toNat % 256) ∧
  (∀ rx : Frame, (le16 rx).toNat = 256 * (rx.toNat % 256) + rx.toNat / 256) ∧
  be16 0x1234 = 0x1234 ∧ le16 0x1234 = 0x3412 ∧
  (∀ s : State, (latchRegv s).regv = be16 s.rx) ∧
  (∀ (s : State) (n : Nat), Memory.wf s.mem = true →
    Memory.readWord (storeWord n s).mem (.raw s.ax s.i) = be16 s.rx) ∧
  (∀ (s : State) (len : Nat), Memory.wf s.mem = true →
    Memory.readWord (storeLast len s).mem (.raw s.ax s.i) = be16 s.rx) ∧
  (∀ s : State, Memory.wf s.mem = true → Memory.readWord (storeBlockWord s).mem (.blk s.w) = le16 s.rx)

/-- The register values the core composes, as numbers, so that every bit outside the named fields is 0 (30_encoding
R113), and the mode bits extracted from a composed REC_CTRL value (R114): for well-formed parameters they are the
mode's code. -/
def Obligations.ComposedValues : Prop :=
  ∀ p : Params, paramsOk p = true →
    (∀ (m : Mode) (win : BitVec 4), win.toNat < 2 ^ p.winW →
      (recCtrlValue p m win).toNat = (p.modeCode.code m).toNat * 2 ^ p.modeLsb + win.toNat * 2 ^ p.winLsb ∧
      modeBits p (recCtrlValue p m win) = p.modeCode.code m ∧
      bitField (recCtrlValue p m win) p.srtLsb p.srtW = 0) ∧
    (∀ decl : BitVec 3, (decCtrlValue p decl).toNat = decl.toNat * 2 ^ p.decLsb) ∧
    (∀ bank : BitVec 3, (filtCtrlValue p bank).toNat = bank.toNat * 2 ^ p.fselLsb) ∧
    (customFiltCtrlValue p).toNat = p.customBank * 2 ^ p.fselLsb

/-! ### Steps -/

/-- A STEP RUNS THE DECODED INSTRUCTION. On the core's turn a step is the meaning of the frame in the framer, else of
the latched command, else of the presented word's instruction, which the step latches with its configuration snapshot
at position 0 (10_state R31, R36). All that the step adds is that the turn is taken (`popTurn`, log 4). So the word placed
by `withFetchWord` is the instruction the next step runs: a command word is presented and accepted (log 5), a frame is
held in the framer (log 6). -/
def Obligations.StepRunsDecodedInstruction : Prop :=
  (∀ s : State, paramsOk s.params = true → s.turn = .core →
      (∀ o, s.out = some o → step s = exec o.frame.instr s.popTurn) ∧
      (∀ c, s.out = none → s.cmd = some c → step s = exec c.instr s.popTurn) ∧
      (∀ pr rest i, s.out = none → s.cmd = none → s.presented = pr :: rest → decodeCmd s.params pr.word = .ok i →
        step s =
          exec i { s.popTurn with
            presented := rest, rspValid := false, cmd := some ⟨i, pr.cfg⟩, upc := 0, misuse := false })) ∧
  (∀ (s : State) (w : Nat) (i : Instr), paramsOk s.params = true →
    decodeCmd s.params (BitVec.ofNat 32 w) = .ok i →
    step (s.withFetchWord 32 w) =
      exec i { s with out := none, rspValid := false, cmd := some ⟨i, CfgIn.default⟩, upc := 0, misuse := false }) ∧
  (∀ (s : State) (w : Nat) (f : LinkFrame), paramsOk s.params = true →
    decodeFrame s.params (BitVec.ofNat 16 w) = .ok f →
    step (s.withFetchWord 16 w) = exec f.instr { s with out := some ⟨f, true, 0, 0⟩ })

/-- 60_exceptions R276: an illegal word is answered with BAD_COMMAND at acceptance, in every state, and changes nothing
but the response, `lastErr`, the log and the port. -/
def Obligations.IllegalWordAnswered : Prop :=
  ∀ (s : State) (pr : Presented) (rest : List Presented) (e : DecodeError),
    paramsOk s.params = true → s.turn = .core → s.out = none → s.cmd = none → s.presented = pr :: rest →
    decodeCmd s.params pr.word = .error e →
    step s =
      .next { s.popTurn with
        presented := rest, rspValid := true, rspStatus := .badCommand, rspData := 0, upc := 0,
        lastErr := ⟨.badCommand, 0, 0, 0, 0⟩, log := s.log ++ [⟨.error ⟨.badCommand, 0, 0, 0, 0⟩, s.now⟩] }

/-- One tick (10_state R33): `now` up, `settle` and `dly` down if nonzero, `pollT` up while the core is at a polling
position (R42). Which positions these are is the model's choice: a busy-checked frame in the framer (log 6), or XCHGB's position 2
(log 1), the settle hold inside a busy-checked exchange included (log 24). Nothing else changes. -/
def Obligations.TickCounts : Prop :=
  ∀ s : State, paramsOk s.params = true → s.turn = .tick →
    (((∃ o, s.out = some o ∧ o.checked = true) ∨
        (s.out = none ∧ ∃ c b0 b1, s.cmd = some c ∧ c.instr = .xchgb b0 b1 ∧ s.upc = 2)) →
      step s =
        .next { s.popTurn with
          now := s.now + 1, settle := s.settle - 1, dly := s.dly - 1, pollT := s.pollT + 1 }) ∧
    (¬((∃ o, s.out = some o ∧ o.checked = true) ∨
        (s.out = none ∧ ∃ c b0 b1, s.cmd = some c ∧ c.instr = .xchgb b0 b1 ∧ s.upc = 2)) →
      step s = .next { s.popTurn with now := s.now + 1, settle := s.settle - 1, dly := s.dly - 1 })

/-- Core reset (70_reset_and_hazards R300) gives every field the value that 10_state R56 states for it, whatever is in
progress, with no response and no link event; the parameters stay (R303); and in FAILED no other step leaves FAILED. The
device goes on: how the model holds its tapes and the link events so far, and that the reset keeps them, is the model's
choice (logs 3 and 19). -/
def Obligations.CoreReset : Prop :=
  (∀ s : State, paramsOk s.params = true → s.turn = .reset →
    ∃ t, step s = .next t ∧ t.params = s.params ∧ t.fsm = .uninit ∧ t.mode = none ∧ t.linesOpen = false ∧
      t.rstO = none ∧ t.cmd = none ∧ t.out = none ∧ t.upc = 0 ∧ t.settle = 0 ∧ t.dly = 0 ∧ t.pollT = 0 ∧ t.now = 0 ∧
      t.rx = 0 ∧ t.regv = 0 ∧ t.rspValid = false ∧ t.rspStatus.code = 0 ∧ t.rspData = 0 ∧
      t.lastErrReg = (0, 0, 0, 0, 0) ∧ t.batches = [] ∧ t.log = [] ∧ t.hist = [] ∧ t.statusReg = 0 ∧
      t.past = s.past ++ [s.hist] ∧ t.opens = s.opens ∧ t.readies = s.readies ∧ t.answers = s.answers) ∧
  (∀ s t : State, SessionInv s → s.fsm = .failed → s.turn ≠ .reset → step s = .next t → t.fsm = .failed)

/-- 70_reset_and_hazards R301: after reset the core is idle in UNINIT without a session, whatever the parameters, and an
idle core with nothing presented stays as it is. -/
def Obligations.IdleAfterReset : Prop :=
  (∀ p : Params, (State.resetWith p).idle ∧ (State.resetWith p).fsm = .uninit ∧ (State.resetWith p).mode = none) ∧
  (∀ s : State, paramsOk s.params = true → s.turn = .core → s.idle → s.presented = [] → step s = .next s.popTurn)

/-- Outputs only grow (10_state R34): a step that is no core reset appends at most one batch, one log event and two link
events (a poll and its exchange), each with the current stamp, and a batch only with the OK response of a CAPTURE. -/
def Obligations.OutputsOnlyGrow : Prop :=
  ∀ s t : State, step s = .next t → s.turn ≠ .reset →
    ∃ bs ls hs, t.batches = s.batches ++ bs ∧ t.log = s.log ++ ls ∧ t.hist = s.hist ++ hs ∧
      bs.length ≤ 1 ∧ ls.length ≤ 1 ∧ hs.length ≤ 2 ∧ (∀ e ∈ ls, e.time = s.now) ∧ (∀ e ∈ hs, e.time = s.now) ∧
      (bs ≠ [] → s.cmd.map Cmd.instr = some .capture ∧ t.cmd = none ∧ t.rspValid = true ∧ t.rspStatus = .ok)

/-- 10_state R37: what `Respond` does; while a command runs the response does not change; the step that ends it leaves
a valid response and an idle core; and the response stays until the next presentation is taken, which clears
`rspValid`. -/
def Obligations.OneResponsePerCommand : Prop :=
  (∀ (s : State) (c : Status) (d : Half),
    s.respond c d = { s with rspStatus := c, rspData := d, rspValid := true, cmd := none, upc := 0, out := none }) ∧
  (∀ s t : State, SessionInv s → step s = .next t → s.turn ≠ .reset →
    (s.cmd ≠ none → t.cmd ≠ none →
      t.rspValid = s.rspValid ∧ t.rspStatus = s.rspStatus ∧ t.rspData = s.rspData) ∧
    (s.cmd ≠ none → t.cmd = none → t.rspValid = true ∧ t.upc = 0 ∧ t.out = none) ∧
    (s.cmd = none → t.cmd ≠ none → t.rspValid = false ∧ t.rspStatus = s.rspStatus ∧ t.rspData = s.rspData) ∧
    (s.cmd = none → t.cmd = none → t.presented = s.presented →
      t.rspValid = s.rspValid ∧ t.rspStatus = s.rspStatus ∧ t.rspData = s.rspData))

/-- The legality table (41_configuration R188) and BAD_STATE (60_exceptions R275): at acceptance a command that runs in
the state goes on, ACTIVATE leaving ACTIVE (R183); any other is refused before any link event, and only the response,
`lastErr` and the log change. That position 1 follows the check, and that the check does all this in its one step, is the
model's choice (logs 1, 8 and 16). -/
def Obligations.LegalityTable : Prop :=
  ∀ (i : Instr) (s : State), i.isCommand = true → s.upc = 0 → (s.mode ≠ none ↔ s.fsm = .active) →
    (legalIn i s.fsm = true →
      exec i s =
        .next (match i with
          | .activate _ _ _ _ _ => { s with upc := 1, mode := none, fsm := .idv }
          | _ => { s with upc := 1 })) ∧
    (legalIn i s.fsm = false →
      exec i s =
        .next { s with
          lastErr := ⟨.badState, 0, 0, 0, 0⟩, log := s.log ++ [⟨.error ⟨.badState, 0, 0, 0, 0⟩, s.now⟩],
          rspValid := true, rspStatus := .badState, rspData := 0, cmd := none, upc := 0, out := none })

/-- The error entry (60_exceptions R273, R274): `lastErr`, one log event, a fatal error's FAILED without a session, and
the response; the lines keep their state. TIMEOUT is fatal in INIT only. -/
def Obligations.ErrorEntry : Prop :=
  ∀ (s : State) (e : ErrRec) (d : Half),
    let fatal := e.code = .transport ∨ e.code = .identityMismatch ∨
      (e.code = .timeout ∧ ∃ cfg, s.cmd = some ⟨.init, cfg⟩)
    (fatal → s.raise e d =
      { s with
        lastErr := e, log := s.log ++ [⟨.error e, s.now⟩], fsm := .failed, mode := none, rspStatus := e.code,
        rspData := d, rspValid := true, cmd := none, upc := 0, out := none }) ∧
    (¬fatal → s.raise e d =
      { s with
        lastErr := e, log := s.log ++ [⟨.error e, s.now⟩], rspStatus := e.code, rspData := d, rspValid := true,
        cmd := none, upc := 0, out := none })

/-- STATUS (10_state R46), as a number: state, session bit and mode code, lines, busy, response valid; bits 15 to 9
are 0; after reset it reads 0. -/
def Obligations.StatusLayout : Prop :=
  (∀ p : Params, (State.resetWith p).statusReg = 0) ∧
  ∀ s : State,
    s.statusReg.toNat =
      (match s.fsm with | .uninit => 0 | .reset => 1 | .idv => 2 | .active => 3 | .failed => 4) +
      (match s.mode with
        | none => 0 | some .rts => 8 | some .mtc => 8 + 16 | some .mfft => 8 + 32 | some .afft => 8 + 48) +
      (if s.linesOpen then 64 else 0) + (if s.cmd = none then 0 else 128) + (if s.rspValid then 256 else 0)

/-! ### Link frames -/

/-- PAGESEL, RADDR, NULL, WLO and WHI complete: with the settle gap over, the device ready where the exchange is
busy-checked, and the exchange answered, the frame's step makes the exchange (40_register_protocol R140, R141): the
ready poll and the exchange join the history with one stamp, the gap starts, the answer is in `rx`, the framer is
empty. Nothing else changes but the device's tapes (log 3). -/
def Obligations.FramesExchange : Prop :=
  ∀ (f : LinkFrame) (s : State) (o : Outgoing) (rx : Frame),
    s.out = some o → s.settle = 0 → (o.checked = true → s.ready = true) →
    ({ s with
      hist := if o.checked then s.hist ++ [⟨.poll true, s.now⟩] else s.hist } : State).answer (f.bits s.params) = some rx →
    exec f.instr s =
      .next { s with
        hist := (if o.checked then s.hist ++ [⟨.poll true, s.now⟩] else s.hist) ++
          [⟨.xfer (f.bits s.params) (some rx) o.checked, s.now⟩],
        settle := 40, rx := rx, out := none, answers := s.answers.tail,
        readies := if o.checked then s.readies.tail else s.readies }

/-! ### Register Protocol Layer -/

/-- PAGESEL, RADDR, NULL, WLO and WHI wait: for the settle gap without any effect (10_state R40), and for a busy device
by polling again (40_register_protocol R141), for ever where there is no timeout (60_exceptions R289). They fail: an
unanswered exchange is a fatal TRANSPORT error with `rx` unchanged, and a not-ready poll with the timeout over a TIMEOUT
error, fatal in INIT only; both report the register being accessed and the frame (60_exceptions R273, R274, R277). The
device's tapes are the model's (log 3); that the error is logged and answered in the failing event's own step, with its
stamp, is the model's choice (log 8). -/
def Obligations.FramesWaitOrFail : Prop :=
  (∀ (f : LinkFrame) (s : State), s.settle ≠ 0 → exec f.instr s = .next s) ∧
  (∀ (f : LinkFrame) (s : State) (o : Outgoing),
    s.out = some o → o.checked = true → s.settle = 0 → s.ready = false →
    (∀ t, s.params.busyTimeout = some t → s.pollT < t) →
    exec f.instr s = .next { s with hist := s.hist ++ [⟨.poll false, s.now⟩], readies := s.readies.tail }) ∧
  (∀ (f : LinkFrame) (s : State) (o : Outgoing),
    s.out = some o → s.settle = 0 → (o.checked = true → s.ready = true) →
    ({ s with
      hist := if o.checked then s.hist ++ [⟨.poll true, s.now⟩] else s.hist } : State).answer (f.bits s.params) = none →
    let e : ErrRec := ⟨.transport, o.page, o.addr, f.bits s.params, 0⟩
    exec f.instr s =
      .next { s with
        hist := (if o.checked then s.hist ++ [⟨.poll true, s.now⟩] else s.hist) ++
          [⟨.xfer (f.bits s.params) none o.checked, s.now⟩],
        settle := 40, answers := s.answers.tail, readies := if o.checked then s.readies.tail else s.readies,
        lastErr := e, log := s.log ++ [⟨.error e, s.now⟩], fsm := .failed, mode := none,
        rspStatus := .transport, rspData := 0, rspValid := true, cmd := none, upc := 0, out := none }) ∧
  (∀ (f : LinkFrame) (s : State) (o : Outgoing) (t : Nat),
    s.out = some o → o.checked = true → s.settle = 0 → s.ready = false → s.params.busyTimeout = some t →
    t ≤ s.pollT →
    let e : ErrRec := ⟨.timeout, o.page, o.addr, f.bits s.params, 0⟩
    let inInit : Prop := ∃ cfg, s.cmd = some ⟨.init, cfg⟩
    let u : State :=
      { s with
        hist := s.hist ++ [⟨.poll false, s.now⟩], readies := s.readies.tail, lastErr := e,
        log := s.log ++ [⟨.error e, s.now⟩], rspStatus := .timeout, rspData := 0, rspValid := true, cmd := none,
        upc := 0, out := none }
    (inInit → exec f.instr s = .next { u with fsm := .failed, mode := none }) ∧
    (¬inInit → exec f.instr s = .next u))

/-- A refused read (40_register_protocol R145): no link event, `settle` unchanged, the misuse logged, value 0, and the
command goes on behind the access; RDREG then responds PROTOCOL_MISUSE with data 0 (R152, 60_exceptions R279). The
positions, 1 and 6 and the five of an access, are the model's choice (log 1). -/
def Obligations.RefusedRead : Prop :=
  (∀ (r : RegAddr) (s : State), r.readFlag = false →
    readCheck r s =
      { s with
        log := s.log ++ [⟨.misuseRead r.page (r.addr.setWidth 8), s.now⟩],
        lastErr := ⟨.protocolMisuse, r.page, r.addr.setWidth 8, 0, 0⟩, regv := 0, misuse := true,
        upc := s.upc + 5 }) ∧
  (∀ (r : RegName) (s : State), (s.params.cat.entry r).readFlag = false → s.upc = 1 →
    exec (.rdreg r) s = .next (readCheck (s.params.cat.entry r) s)) ∧
  (∀ (r : RegName) (s : State), s.upc = 6 → s.misuse = true →
    exec (.rdreg r) s = .next (s.respond .protocolMisuse 0))

/-- A refused write (40_register_protocol R148): no link event, the misuse logged, and the command goes on behind the
access; WRREG then responds PROTOCOL_MISUSE with data 0 (R153, 60_exceptions R279). The positions, 1 and 5 and the four of
an access, are the model's choice (log 1). -/
def Obligations.RefusedWrite : Prop :=
  (∀ (r : RegAddr) (s : State), r.writeFlag = false →
    writeCheck r s =
      { s with
        log := s.log ++ [⟨.misuseWrite r.page (r.addr.setWidth 8), s.now⟩],
        lastErr := ⟨.protocolMisuse, r.page, r.addr.setWidth 8, 0, 0⟩, misuse := true, upc := s.upc + 4 }) ∧
  (∀ (r : RegName) (v : Half) (s : State), (s.params.cat.entry r).writeFlag = false → s.upc = 1 →
    exec (.wrreg r v) s = .next (writeCheck (s.params.cat.entry r) s)) ∧
  (∀ (r : RegName) (v : Half) (s : State), s.upc = 5 → s.misuse = true →
    exec (.wrreg r v) s = .next (s.respond .protocolMisuse 0))

/-- RDREG of a readable register, position by position (40_register_protocol R144, R152): the page-select, address and
null frames go to the framer, all busy-checked, the answer to the last is the value, and the response is OK with it. The
positions and the framer's field are the model's choice (logs 1 and 6). -/
def Obligations.RdregCompletes : Prop :=
  ∀ (r : RegName) (s : State) (e : RegAddr), s.params.cat.entry r = e → e.readFlag = true →
    (s.upc = 1 → exec (.rdreg r) s = .next { s with upc := 2 }) ∧
    (s.upc = 2 → exec (.rdreg r) s =
      .next { s with out := some ⟨.pagesel e.page, true, e.page, e.addr.setWidth 8⟩, pollT := 0, upc := 3 }) ∧
    (s.upc = 3 → exec (.rdreg r) s =
      .next { s with out := some ⟨.raddr e.addr, true, e.page, e.addr.setWidth 8⟩, pollT := 0, upc := 4 }) ∧
    (s.upc = 4 → exec (.rdreg r) s =
      .next { s with out := some ⟨.null, true, e.page, e.addr.setWidth 8⟩, pollT := 0, upc := 5 }) ∧
    (s.upc = 5 → exec (.rdreg r) s = .next { s with regv := s.rx, upc := 6 }) ∧
    (s.upc = 6 → s.misuse = false → exec (.rdreg r) s = .next (s.respond .ok s.regv))

/-- WRREG of a writable register, position by position (40_register_protocol R147, R153): page select, low byte to the
register's offset, high byte to the next one, all busy-checked, and an OK response. The positions and the framer's field
are the model's choice (logs 1 and 6). -/
def Obligations.WrregCompletes : Prop :=
  ∀ (r : RegName) (v : Half) (s : State) (e : RegAddr), s.params.cat.entry r = e → e.writeFlag = true →
    (s.upc = 1 → exec (.wrreg r v) s = .next { s with upc := 2 }) ∧
    (s.upc = 2 → exec (.wrreg r v) s =
      .next { s with out := some ⟨.pagesel e.page, true, e.page, e.addr.setWidth 8⟩, pollT := 0, upc := 3 }) ∧
    (s.upc = 3 → exec (.wrreg r v) s =
      .next { s with
        out := some ⟨.wlo e.addr (BitVec.ofNat 8 (v.toNat % 256)), true, e.page, e.addr.setWidth 8⟩, pollT := 0,
        upc := 4 }) ∧
    (s.upc = 4 → exec (.wrreg r v) s =
      .next { s with
        out := some ⟨.whi (e.addr + 1) (BitVec.ofNat 8 (v.toNat / 256)), true, e.page, e.addr.setWidth 8⟩, pollT := 0,
        upc := 5 }) ∧
    (s.upc = 5 → s.misuse = false → exec (.wrreg r v) s = .next (s.respond .ok 0))

/-- XCHG and XCHGB (40_register_protocol R140, R141, R154, R155). They complete: with the settle gap over (and, for XCHGB,
the device ready) and the exchange answered, the frame `b0`, `b1` is exchanged, raw for XCHG and busy-checked for XCHGB,
and the response is OK with the answer unchanged. They wait: the settle gap holds both, and XCHGB polls a busy device
again until the timeout, if there is one, is over, and ends with TIMEOUT then. An unanswered exchange of either is a
TRANSPORT error. Their errors name no register (60_exceptions R273; for XCHGB's TRANSPORT the model's reading, log 15). The
positions (log 1), the device's tapes (log 3) and the error in the failing event's own step (log 8) are the model's
choice. -/
def Obligations.HostExchanges : Prop :=
  (∀ (b0 b1 : Byte) (s : State) (rx : Frame), s.upc = 1 → s.settle = 0 → s.answer (b0 ++ b1) = some rx →
    exec (.xchg b0 b1) s =
      .next { s with
        hist := s.hist ++ [⟨.xfer (b0 ++ b1) (some rx) false, s.now⟩], settle := 40, rx := rx,
        answers := s.answers.tail, upc := 2 }) ∧
  (∀ (b0 b1 : Byte) (s : State), s.upc = 2 → exec (.xchg b0 b1) s = .next (s.respond .ok s.rx)) ∧
  (∀ (b0 b1 : Byte) (s : State), s.upc = 1 → exec (.xchgb b0 b1) s = .next { s with pollT := 0, upc := 2 }) ∧
  (∀ (b0 b1 : Byte) (s : State) (rx : Frame), s.upc = 2 → s.settle = 0 → s.ready = true →
    ({ s with hist := s.hist ++ [⟨.poll true, s.now⟩] } : State).answer (b0 ++ b1) = some rx →
    exec (.xchgb b0 b1) s =
      .next { s with
        hist := s.hist ++ [⟨.poll true, s.now⟩, ⟨.xfer (b0 ++ b1) (some rx) true, s.now⟩], settle := 40, rx := rx,
        readies := s.readies.tail, answers := s.answers.tail, upc := 3 }) ∧
  (∀ (b0 b1 : Byte) (s : State), s.upc = 3 → exec (.xchgb b0 b1) s = .next (s.respond .ok s.rx)) ∧
  (∀ (b0 b1 : Byte) (s : State), s.settle ≠ 0 →
    (s.upc = 1 → exec (.xchg b0 b1) s = .next s) ∧ (s.upc = 2 → exec (.xchgb b0 b1) s = .next s)) ∧
  (∀ (b0 b1 : Byte) (s : State), s.upc = 1 → s.settle = 0 → s.answer (b0 ++ b1) = none →
    exec (.xchg b0 b1) s =
      .next (({ s with
        hist := s.hist ++ [⟨.xfer (b0 ++ b1) none false, s.now⟩], settle := 40,
        answers := s.answers.tail } : State).raise ⟨.transport, 0, 0, b0 ++ b1, 0⟩ 0)) ∧
  (∀ (b0 b1 : Byte) (s : State), s.upc = 2 → s.settle = 0 → s.ready = true →
    ({ s with hist := s.hist ++ [⟨.poll true, s.now⟩] } : State).answer (b0 ++ b1) = none →
    exec (.xchgb b0 b1) s =
      .next (({ s with
        hist := s.hist ++ [⟨.poll true, s.now⟩, ⟨.xfer (b0 ++ b1) none true, s.now⟩], settle := 40,
        readies := s.readies.tail,
        answers := s.answers.tail } : State).raise ⟨.transport, 0, 0, b0 ++ b1, 0⟩ 0)) ∧
  (∀ (b0 b1 : Byte) (s : State), s.upc = 2 → s.settle = 0 → s.ready = false →
    let u : State := { s with hist := s.hist ++ [⟨.poll false, s.now⟩], readies := s.readies.tail }
    ((∀ t, s.params.busyTimeout = some t → s.pollT < t) → exec (.xchgb b0 b1) s = .next u) ∧
    ((∃ t, s.params.busyTimeout = some t ∧ t ≤ s.pollT) →
      exec (.xchgb b0 b1) s = .next (u.raise ⟨.timeout, 0, 0, b0 ++ b1, 0⟩ 0)))

/-- RDREG as a run, on the fastest schedule (40_register_protocol R144, R152; 10_state R40): presented to an idle core
in IDV or ACTIVE, with the settle gap over and a ready device that answers, it responds OK with the answer to the null
frame, after three busy-checked exchanges 40 microseconds apart, and leaves everything else as it was. The number of steps
and of the core's turns between the ticks is the model's choice (log 1), as are tapes, turns and port (logs 3 to 5), and
that the ticks of the settle hold count in `pollT`, 40 at the end (log 24). -/
def Obligations.RdregRun : Prop :=
  ∀ (s : State) (pr : Presented) (rest : List Presented) (r : RegName) (e : RegAddr) (a1 a2 v : Frame)
    (rds : List Bool) (as : List (Option Frame)) (ts : List Turn),
    paramsOk s.params = true → s.idle → (s.fsm = .idv ∨ s.fsm = .active) → s.settle = 0 →
    s.presented = pr :: rest → decodeCmd s.params pr.word = .ok (.rdreg r) → s.params.cat.entry r = e →
    e.readFlag = true → s.readies = true :: true :: true :: rds →
    s.answers = some a1 :: some a2 :: some v :: as →
    s.turns = coreTurns 5 ++ ticks 40 ++ coreTurns 2 ++ ticks 40 ++ coreTurns 3 ++ ts →
    runSteps 90 s =
      .next { s with
        hist := s.hist ++
          [⟨.poll true, s.now⟩, ⟨.xfer (fPage s.params.pageAddr e.page) (some a1) true, s.now⟩,
           ⟨.poll true, s.now + 40⟩, ⟨.xfer (fRaddr e.addr) (some a2) true, s.now + 40⟩,
           ⟨.poll true, s.now + 80⟩, ⟨.xfer fNull (some v) true, s.now + 80⟩],
        now := s.now + 80, settle := 40, dly := s.dly - 80, pollT := 40, rx := v, regv := v, rspValid := true,
        rspStatus := .ok, rspData := v, cmd := none, upc := 0, out := none, misuse := false, presented := rest,
        readies := rds, answers := as, turns := ts }

/-- WRREG as a run, on the fastest schedule (40_register_protocol R147, R153; 10_state R40): three busy-checked exchanges
40 microseconds apart, page select, low byte, high byte, and the OK response. The number of steps and of the core's turns
between the ticks is the model's choice (log 1), as are tapes, turns and port (logs 3 to 5), and that the ticks of the
settle hold count in `pollT`, 40 at the end (log 24). -/
def Obligations.WrregRun : Prop :=
  ∀ (s : State) (pr : Presented) (rest : List Presented) (r : RegName) (w : Half) (e : RegAddr) (a1 a2 a3 : Frame)
    (rds : List Bool) (as : List (Option Frame)) (ts : List Turn),
    paramsOk s.params = true → s.idle → (s.fsm = .idv ∨ s.fsm = .active) → s.settle = 0 →
    s.presented = pr :: rest → decodeCmd s.params pr.word = .ok (.wrreg r w) → s.params.cat.entry r = e →
    e.writeFlag = true → s.readies = true :: true :: true :: rds →
    s.answers = some a1 :: some a2 :: some a3 :: as →
    s.turns = coreTurns 5 ++ ticks 40 ++ coreTurns 2 ++ ticks 40 ++ coreTurns 2 ++ ts →
    runSteps 89 s =
      .next { s with
        hist := s.hist ++
          [⟨.poll true, s.now⟩, ⟨.xfer (fPage s.params.pageAddr e.page) (some a1) true, s.now⟩,
           ⟨.poll true, s.now + 40⟩, ⟨.xfer (fWrite e.addr (w.extractLsb' 0 8)) (some a2) true, s.now + 40⟩,
           ⟨.poll true, s.now + 80⟩, ⟨.xfer (fWrite (e.addr + 1) (w.extractLsb' 8 8)) (some a3) true, s.now + 80⟩],
        now := s.now + 80, settle := 40, dly := s.dly - 80, pollT := 40, rx := a3, rspValid := true,
        rspStatus := .ok, rspData := 0, cmd := none, upc := 0, out := none, misuse := false, presented := rest,
        readies := rds, answers := as, turns := ts }

/-- Round trip through the reference echo device (40_register_protocol R149; 95_test_vectors M1): after the frames of a
write of `v` and of a read of the same register, the last answer is `v`. Beside R149's `r.addr ≠ PAGE_ADDR` it needs
that no byte of the register lies at `PAGE_ADDR` and that the address frame is not the null frame (offset 0), which
the rule does not say. -/
def Obligations.EchoRoundTrip : Prop :=
  ∀ (p : Params) (r : RegAddr) (v : Half) (d : EchoDevice),
    r.addr ≠ 0 → r.addr ≠ p.pageAddr → r.addr + 1 ≠ p.pageAddr →
    (EchoDevice.answers p.pageAddr d ((writeFrames p r v ++ readFrames p r).map Prod.fst)).getLast? = some v

/-! ### Device Configuration Sequencer -/

/-- INIT's positions (41_configuration R180 to R182; 40_register_protocol R144, R145): the link is opened, or INIT fails
for good; the reset output is driven high at least `T_PWR` after it, where RESET begins; the identity read starts at least
`T_RST` later: the misuse flag is cleared, and the read of PROD_ID hands its three frames to the framer and takes the
answer to the null frame as its value, or is refused with value 0. INIT completes in IDV with the identity read, or fails
for good on a refused read or on any other value. The positions, the framer's field, the error in the failing event's own
step, and the state that changes with the edge and with the check are the model's choice (logs 1, 6, 8 and 16). -/
def Obligations.InitCompletes : Prop :=
  (∀ s : State, s.upc = 1 → s.opensOk = true →
    exec .init s =
      .next { s with
        opens := s.opens.tail, hist := s.hist ++ [⟨.opened true, s.now⟩], linesOpen := true, rstO := some false,
        settle := 0, upc := 2 }) ∧
  (∀ s : State, s.upc = 1 → s.opensOk = false →
    exec .init s =
      .next (({ s with opens := s.opens.tail, hist := s.hist ++ [⟨.opened false, s.now⟩] } : State).raise
        ⟨.transport, 0, 0, 0, 0⟩ 0)) ∧
  (∀ s : State, s.upc = 2 → exec .init s = .next { s with dly := 200000, upc := 3 }) ∧
  (∀ s : State, s.upc = 4 →
    exec .init s =
      .next { s with hist := s.hist ++ [⟨.rst true, s.now⟩], rstO := some true, fsm := .reset, upc := 5 }) ∧
  (∀ s : State, s.upc = 5 → exec .init s = .next { s with dly := 500000, upc := 6 }) ∧
  (∀ s : State, s.upc = 3 ∨ s.upc = 6 →
    (s.dly ≠ 0 → exec .init s = .next s) ∧ (s.dly = 0 → exec .init s = .next { s with upc := s.upc + 1 })) ∧
  (∀ s : State, s.upc = 7 → exec .init s = .next { s with misuse := false, upc := 8 }) ∧
  (∀ s : State,
    let r := s.params.cat.prodId
    (s.upc = 8 → r.readFlag = true → exec .init s = .next { s with upc := 9 }) ∧
    (s.upc = 8 → r.readFlag = false →
      exec .init s =
        .next { s with
          log := s.log ++ [⟨.misuseRead r.page (r.addr.setWidth 8), s.now⟩],
          lastErr := ⟨.protocolMisuse, r.page, r.addr.setWidth 8, 0, 0⟩, regv := 0, misuse := true, upc := 13 }) ∧
    (∀ f : LinkFrame,
      (s.upc = 9 ∧ f = .pagesel r.page) ∨ (s.upc = 10 ∧ f = .raddr r.addr) ∨ (s.upc = 11 ∧ f = .null) →
      exec .init s =
        .next { s with out := some ⟨f, true, r.page, r.addr.setWidth 8⟩, pollT := 0, upc := s.upc + 1 }) ∧
    (s.upc = 12 → exec .init s = .next { s with regv := s.rx, upc := 13 })) ∧
  (∀ s : State, s.upc = 13 →
    let r := s.params.cat.prodId
    (s.misuse = false → s.regv = s.params.prodIdExpected →
      exec .init s = .next (({ s with fsm := .idv } : State).respond .ok s.regv)) ∧
    (s.misuse = true ∨ s.regv ≠ s.params.prodIdExpected →
      exec .init s =
        .next (s.raise
          ⟨.identityMismatch, r.page, r.addr.setWidth 8, s.params.prodIdExpected, s.regv⟩ s.regv)))

/-- INIT as a run, on the fastest schedule (41_configuration R182; 70_reset_and_hazards R307, R312): presented to an idle
core in UNINIT with a device that opens, is ready and answers the expected identity, it ends in IDV with an OK response
carrying the identity, the reset edge 200 ms after the open, and three exchanges from 500 ms after the edge on, 40
microseconds apart. The number of steps and of the core's turns between the ticks is the model's choice (log 1), as are
tapes, turns and port (logs 3 to 5), and that the ticks of the settle hold count in `pollT`, 40 at the end (log 24). -/
def Obligations.InitRun : Prop :=
  ∀ (s : State) (pr : Presented) (rest : List Presented) (e : RegAddr) (a1 a2 : Frame)
    (ops rds : List Bool) (as : List (Option Frame)) (ts : List Turn),
    paramsOk s.params = true → s.idle → s.fsm = .uninit → s.presented = pr :: rest →
    decodeCmd s.params pr.word = .ok .init → s.params.cat.prodId = e → e.readFlag = true → s.opens = true :: ops →
    s.readies = true :: true :: true :: rds →
    s.answers = some a1 :: some a2 :: some s.params.prodIdExpected :: as →
    s.turns = coreTurns 3 ++ ticks 200000 ++ coreTurns 3 ++ ticks 500000 ++ coreTurns 6 ++ ticks 40 ++ coreTurns 2 ++
      ticks 40 ++ coreTurns 3 ++ ts →
    runSteps 700097 s =
      .next { s with
        fsm := .idv, linesOpen := true, rstO := some true,
        hist := s.hist ++
          [⟨.opened true, s.now⟩, ⟨.rst true, s.now + 200000⟩,
           ⟨.poll true, s.now + 700000⟩, ⟨.xfer (fPage s.params.pageAddr e.page) (some a1) true, s.now + 700000⟩,
           ⟨.poll true, s.now + 700040⟩, ⟨.xfer (fRaddr e.addr) (some a2) true, s.now + 700040⟩,
           ⟨.poll true, s.now + 700080⟩, ⟨.xfer fNull (some s.params.prodIdExpected) true, s.now + 700080⟩],
        now := s.now + 700080, settle := 40, dly := 0, pollT := 40, rx := s.params.prodIdExpected,
        regv := s.params.prodIdExpected, rspValid := true, rspStatus := .ok, rspData := s.params.prodIdExpected,
        cmd := none, upc := 0, out := none, misuse := false, presented := rest, opens := ops, readies := rds,
        answers := as, turns := ts }

/-- ACTIVATE's read-back and latch check, its last seven positions in each of its forms (41_configuration R183;
40_register_protocol R144, R145). The misuse flag is cleared; the read of REC_CTRL hands its three frames to the framer
and takes the answer to the null frame as its value, or is refused with value 0. ACTIVATE completes in ACTIVE with the
mode where the mode bits read back are the mode's code, and raises MODE_MISMATCH, leaving the state, on a refused read or
any other bits. In particular (R190) a read-back of Capture's code fails every other mode. The positions, the framer's
field, and the mode, the state and the response in one step are the model's choice (logs 1, 6 and 16). -/
def Obligations.ActivateCompletes : Prop :=
  ∀ (m : Mode) (win : BitVec 4) (decl : BitVec 3) (cust : Bool) (fsel : BitVec 3) (s : State),
    let last := if m = .rts then 15 else if cust then 29 else 23
    let r := s.params.cat.recCtrl
    let i : Instr := .activate m win decl cust fsel
    (s.upc + 6 = last → exec i s = .next { s with misuse := false, upc := s.upc + 1 }) ∧
    (s.upc + 5 = last → r.readFlag = true → exec i s = .next { s with upc := s.upc + 1 }) ∧
    (s.upc + 5 = last → r.readFlag = false →
      exec i s =
        .next { s with
          log := s.log ++ [⟨.misuseRead r.page (r.addr.setWidth 8), s.now⟩],
          lastErr := ⟨.protocolMisuse, r.page, r.addr.setWidth 8, 0, 0⟩, regv := 0, misuse := true, upc := last }) ∧
    (∀ (n : Nat) (f : LinkFrame), (n = 4 ∧ f = .pagesel r.page) ∨ (n = 3 ∧ f = .raddr r.addr) ∨ (n = 2 ∧ f = .null) →
      s.upc + n = last →
      exec i s = .next { s with out := some ⟨f, true, r.page, r.addr.setWidth 8⟩, pollT := 0, upc := s.upc + 1 }) ∧
    (s.upc + 1 = last → exec i s = .next { s with regv := s.rx, upc := last }) ∧
    (s.upc = last →
      let bits := bitField s.regv s.params.modeLsb s.params.modeW
      (s.misuse = false → bits = s.params.modeCode.code m →
        exec i s = .next (({ s with mode := some m, fsm := .active } : State).respond .ok 0)) ∧
      (s.misuse = true ∨ bits ≠ s.params.modeCode.code m →
        exec i s =
          .next (s.raise ⟨.modeMismatch, r.page, r.addr.setWidth 8, s.params.modeCode.code m, bits⟩ bits)) ∧
      (paramsOk s.params = true → m ≠ .mtc → bits = s.params.modeCode.code .mtc →
        exec i s =
          .next (s.raise ⟨.modeMismatch, r.page, r.addr.setWidth 8, s.params.modeCode.code m, bits⟩ bits)))

/-- EXTTRIG and TRIGGER complete (41_configuration R184, R185; 40_register_protocol R147, R148). Each writes its mask to
its register: page select, low byte, high byte go to the framer, all busy-checked, or the write is refused. EXTTRIG
responds after its write, without a read-back; TRIGGER starts its wait of `T_TRIG` after its write, holds while the wait
lasts and then responds OK; a refused write is PROTOCOL_MISUSE for both, and no trigger waits. The positions and the
framer's field are the model's choice (logs 1 and 6). -/
def Obligations.TriggersComplete : Prop :=
  (∀ (s : State) (i : Instr) (r : RegAddr) (v : Half),
    (i = .exttrig ∧ r = s.params.cat.extCtrl ∧ v = s.params.extMask) ∨
      (i = .trigger ∧ r = s.params.cat.globCmd ∧ v = s.params.trigMask) →
    (s.upc = 1 → r.writeFlag = true → exec i s = .next { s with upc := 2 }) ∧
    (s.upc = 1 → r.writeFlag = false →
      exec i s =
        .next { s with
          log := s.log ++ [⟨.misuseWrite r.page (r.addr.setWidth 8), s.now⟩],
          lastErr := ⟨.protocolMisuse, r.page, r.addr.setWidth 8, 0, 0⟩, misuse := true, upc := 5 }) ∧
    (∀ f : LinkFrame,
      (s.upc = 2 ∧ f = .pagesel r.page) ∨ (s.upc = 3 ∧ f = .wlo r.addr (BitVec.ofNat 8 (v.toNat % 256))) ∨
        (s.upc = 4 ∧ f = .whi (r.addr + 1) (BitVec.ofNat 8 (v.toNat / 256))) →
      exec i s =
        .next { s with out := some ⟨f, true, r.page, r.addr.setWidth 8⟩, pollT := 0, upc := s.upc + 1 })) ∧
  (∀ s : State, s.upc = 5 →
    exec .exttrig s = .next (if s.misuse then s.respond .protocolMisuse 0 else s.respond .ok 0)) ∧
  (∀ s : State, s.upc = 5 →
    exec .trigger s = .next (if s.misuse then s.respond .protocolMisuse 0 else { s with dly := 12000, upc := 6 })) ∧
  (∀ s : State, s.upc = 6 → s.dly ≠ 0 → exec .trigger s = .next s) ∧
  (∀ s : State, s.upc = 6 → s.dly = 0 → exec .trigger s = .next { s with upc := 7 }) ∧
  (∀ s : State, s.upc = 7 → exec .trigger s = .next (s.respond .ok 0))

/-- CLOSE completes (41_configuration R186): past its check it releases the lines if they are open, with one `Close`
event, and ends without a session mode in UNINIT, or in FAILED where it was FAILED, with an OK response; it makes no
exchange and waits for no settle gap. The positions, and the session and the response in one step, are the model's choice
(logs 1 and 16). -/
def Obligations.CloseCompletes : Prop :=
  (∀ s : State, s.upc = 1 → s.linesOpen = true →
    exec .close s =
      .next { s with hist := s.hist ++ [⟨.closed, s.now⟩], linesOpen := false, rstO := none, upc := 2 }) ∧
  (∀ s : State, s.upc = 1 → s.linesOpen = false → exec .close s = .next { s with upc := 2 }) ∧
  (∀ s : State, s.upc = 2 → s.fsm ≠ .failed →
    exec .close s = .next (({ s with mode := none, fsm := .uninit } : State).respond .ok 0)) ∧
  (∀ s : State, s.upc = 2 → s.fsm = .failed →
    exec .close s = .next (({ s with mode := none } : State).respond .ok 0))

/-! ### Sampling & Conversion Pipeline -/

/-- Every change of `fsm` is one of the table of 41_configuration R187, made by the command that the table names, or
core reset's; and the session mode is written only by ACTIVATE with an OK response, and cleared only by ACTIVATE, by
CLOSE, by an error that leads to FAILED and by core reset (10_state R38, R39). That ACTIVATE writes the mode in the step
that enters ACTIVE and responds is the model's choice (log 16). -/
def Obligations.SessionTransitions : Prop :=
  ∀ s t : State, SessionInv s → step s = .next t →
    (t.fsm ≠ s.fsm →
      (s.turn = .reset ∧ t.fsm = .uninit) ∨
      (s.turn = .core ∧ ∃ i, s.workingOn = some i ∧ fsmEdge i s.fsm t.fsm = true)) ∧
    (t.mode ≠ s.mode →
      (∃ m win decl cust fsel, s.workingOn = some (.activate m win decl cust fsel) ∧
        (t.mode = none ∨ (t.mode = some m ∧ t.fsm = .active ∧ t.rspStatus = .ok ∧ t.cmd = none))) ∨
      (t.mode = none ∧ (s.workingOn = some .close ∨ t.fsm = .failed ∨ s.turn = .reset)))

/-- CAPTURE's parameter reads (42_sampling R222, 30_encoding R114; 40_register_protocol R144, R145): of `DEC_SRC`'s
register, positions 1 to 6, and in the spectrum modes of `AVG_SRC`'s, positions 7 to 12. Each hands its three frames to
the framer and takes the answer to the null frame as its value, or is refused with value 0; then the decimation factor
is two to the 3-bit field of the value, and the average count its field of `AVG_SRC.width` bits. The positions and the
framer's field are the model's choice (logs 1 and 6). -/
def Obligations.CaptureReadsParameters : Prop :=
  (∀ (s : State) (r : RegAddr) (start : Nat),
    ((s.mode = some .mtc ∨ s.mode = some .mfft ∨ s.mode = some .afft) ∧ start = 1 ∧
        r = s.params.cat.entry s.params.decSrcReg) ∨
      ((s.mode = some .mfft ∨ s.mode = some .afft) ∧ start = 7 ∧ r = s.params.cat.entry s.params.avgSrc.reg) →
    (s.upc = start → r.readFlag = true → exec .capture s = .next { s with upc := start + 1 }) ∧
    (s.upc = start → r.readFlag = false →
      exec .capture s =
        .next { s with
          log := s.log ++ [⟨.misuseRead r.page (r.addr.setWidth 8), s.now⟩],
          lastErr := ⟨.protocolMisuse, r.page, r.addr.setWidth 8, 0, 0⟩, regv := 0, misuse := true,
          upc := start + 5 }) ∧
    (∀ (n : Nat) (f : LinkFrame), (n = 1 ∧ f = .pagesel r.page) ∨ (n = 2 ∧ f = .raddr r.addr) ∨ (n = 3 ∧ f = .null) →
      s.upc = start + n →
      exec .capture s =
        .next { s with
          out := some ⟨f, true, r.page, r.addr.setWidth 8⟩, pollT := 0, upc := start + n + 1 }) ∧
    (s.upc = start + 4 → exec .capture s = .next { s with regv := s.rx, upc := start + 5 })) ∧
  (∀ s : State, s.upc = 6 → s.mode = some .mtc ∨ s.mode = some .mfft ∨ s.mode = some .afft →
    exec .capture s = .next { s with decF := 2 ^ (s.regv.toNat / 2 ^ s.params.decSrcLsb % 8), upc := 7 }) ∧
  (∀ s : State, s.upc = 12 → s.mode = some .mfft ∨ s.mode = some .afft →
    exec .capture s =
      .next { s with
        avgC := BitVec.ofNat 16 (s.regv.toNat / 2 ^ s.params.avgSrc.lsb % 2 ^ s.params.avgSrc.width), upc := 13 })

/-- CAPTURE's stores (42_sampling R224, R226, R227). At the storing positions of a drain the answer, high byte first,
goes to the two bytes of `RAW[ax][i]`, the model's layout (log 10); the loop goes back for the next word, and from the
last word of an axis to the next axis. At Streaming's storing position the answer, low byte first, goes to `BLK[w]`;
word 99 ends the block, and the parsed block leads to the next one, the tenth to the batch. No other byte of the
buffers and no other field changes. The positions and the jumps between them are the model's choice (log 1), as are
the values of the loop counters at an axis's final word and behind the loops, which have no meaning outside their
loops (log 26), and that elements which this CAPTURE has not written keep their bytes (log 27). -/
def Obligations.CaptureStores : Prop :=
  (∀ (s : State) (m : Mode) (n : Nat), s.mode = some m →
      (m = .mtc ∧ n = 4096 ∧ (s.upc = 16 ∨ s.upc = 18) ∨
        (m = .mfft ∨ m = .afft) ∧ n = 2048 ∧ (s.upc = 22 ∨ s.upc = 24)) →
      ∃ t, exec .capture s = .next t ∧
        (Memory.wf s.mem = true → Memory.readWord t.mem (.raw s.ax s.i) = s.rx) ∧
        (∀ a, a ≠ (BufRef.raw s.ax s.i).address → a ≠ (BufRef.raw s.ax s.i).address + 1 →
          Memory.readByte t.mem a = Memory.readByte s.mem a) ∧
        t = { s with mem := t.mem, upc := t.upc, i := t.i, ax := t.ax } ∧
        (s.upc = 16 ∨ s.upc = 22 → t.ax = s.ax ∧
          (s.i.val + 2 < n → t.i.val = s.i.val + 1 ∧ t.upc = s.upc - 1) ∧
          (s.i.val + 2 = n → t.i.val = s.i.val + 1 ∧ t.upc = s.upc + 1)) ∧
        (s.upc = 18 ∨ s.upc = 24 → t.i = s.i ∧
          (s.ax.val < 2 → t.ax.val = s.ax.val + 1 ∧ t.upc = s.upc - 6) ∧
          (s.ax.val = 2 → t.ax = s.ax ∧ t.upc = s.upc + 1))) ∧
  (∀ s : State, s.mode = some .rts →
      (s.upc = 3 →
        ∃ t, exec .capture s = .next t ∧
          (Memory.wf s.mem = true →
            (Memory.readWord t.mem (.blk s.w)).toNat = 256 * (s.rx.toNat % 256) + s.rx.toNat / 256) ∧
          (∀ a, a ≠ (BufRef.blk s.w).address → a ≠ (BufRef.blk s.w).address + 1 →
            Memory.readByte t.mem a = Memory.readByte s.mem a) ∧
          t = { s with mem := t.mem, upc := t.upc, w := t.w } ∧
          (s.w.val < 99 → t.w.val = s.w.val + 1 ∧ t.upc = 2) ∧ (s.w.val = 99 → t.w = s.w ∧ t.upc = 4)) ∧
      (s.upc = 4 →
        ∃ t, exec .capture s = .next t ∧ t = { s with mem := t.mem, upc := t.upc, b := t.b, w := t.w } ∧
          t.mem = storeBlock s.b ((List.finRange 100).map fun w => Memory.readWord s.mem (.blk w)) s.mem ∧
          (s.b.val < 9 → t.b.val = s.b.val + 1 ∧ t.w.val = 0 ∧ t.upc = 2) ∧
          (s.b.val = 9 → t.b = s.b ∧ t.w = s.w ∧ t.upc = 5)))

/-- 42_sampling R228: a block of 100 words is stored by fixed position, word 0 the sequence number, 1 to 32 x, 33 to
64 y, 65 to 96 z, 97 temperature, 98 status, 99 CRC, none of them checked; every other element of the buffers and
every other field stays. A block of any other length raises the error with its length, in 16 bits (log 25). That
elements which the CAPTURE has not written keep their contents is the model's choice (log 27). -/
def Obligations.BlockStored : Prop :=
  ∀ (b : Fin 10) (blk : List Half) (s : State),
    (blk.length ≠ 100 → parseBlock b blk s = .raised (s.raise ⟨.malformedBlock, 0, 0, 100, BitVec.ofNat 16 blk.length⟩ 0)) ∧
    (blk.length = 100 → Memory.wf s.mem = true →
      ∃ t, parseBlock b blk s = .stored t ∧ t = { s with mem := t.mem } ∧
        Memory.readWord t.mem (.info 0 b) = blk.getD 0 0 ∧
        (∀ j : Fin 32,
          Memory.readWord t.mem (.raw 0 ⟨32 * b.val + j.val, by omega⟩) = blk.getD (1 + j.val) 0 ∧
          Memory.readWord t.mem (.raw 1 ⟨32 * b.val + j.val, by omega⟩) = blk.getD (33 + j.val) 0 ∧
          Memory.readWord t.mem (.raw 2 ⟨32 * b.val + j.val, by omega⟩) = blk.getD (65 + j.val) 0) ∧
        Memory.readWord t.mem (.info 1 b) = blk.getD 97 0 ∧
        Memory.readWord t.mem (.info 2 b) = blk.getD 98 0 ∧
        Memory.readWord t.mem (.info 3 b) = blk.getD 99 0 ∧
        (∀ r : BufRef, (∀ f, r ≠ .info f b) →
          (∀ (ax : Fin 3) (j : Fin 32), r ≠ .raw ax ⟨32 * b.val + j.val, by omega⟩) →
          Memory.readWord t.mem r = Memory.readWord s.mem r))

/-- 42_sampling R229: a block of any other length raises MALFORMED_BLOCK with the expected and the actual length, with
no batch and the state as it was; and a CAPTURE, whose block always has 100 words, never does. LASTERR holds the length
modulo 2^16, the model's choice for a length that 16 bits do not hold (log 25). -/
def Obligations.MalformedBlock : Prop :=
  (∀ (b : Fin 10) (blk : List Half) (s : State), blk.length ≠ 100 →
    parseBlock b blk s =
      .raised { s with
        lastErr := ⟨.malformedBlock, 0, 0, 100, BitVec.ofNat 16 blk.length⟩,
        log := s.log ++ [⟨.error ⟨.malformedBlock, 0, 0, 100, BitVec.ofNat 16 blk.length⟩, s.now⟩],
        rspValid := true, rspStatus := .malformedBlock, rspData := 0, cmd := none, upc := 0, out := none }) ∧
  (∀ s : State, s.block.length = 100) ∧
  (∀ s t : State, exec .capture s = .next t → t.rspStatus = .malformedBlock → s.rspStatus = .malformedBlock)

/-- 42_sampling R248: at CAPTURE's last position in each mode the batch joins `batches` and the response is OK with the
per-axis sample count: the step axis is the step size (R231) times the index, each axis the mode's conversion (R233 to
R235, R239) of its raw words, and the metadata the four stored rows in Streaming and nothing in the other modes. Only a
CAPTURE that so ends adds a batch. Which position is the last, 5, 19 or 25, is the model's choice (log 1). -/
def Obligations.CaptureCompletes : Prop :=
  (∀ (i : Instr) (s t : State), exec i s = .next t → t.batches ≠ s.batches →
    i = .capture ∧ t.rspStatus = .ok ∧ t.rspValid = true ∧ t.cmd = none) ∧
  ∀ (s : State) (m : Mode) (n : Nat), s.mode = some m →
    (m = .rts ∧ n = 320 ∧ s.upc = 5 ∨ m = .mtc ∧ n = 4096 ∧ s.upc = 19 ∨
      (m = .mfft ∨ m = .afft) ∧ n = 2048 ∧ s.upc = 25) →
    ∃ batch, exec .capture s =
        .next (({ s with batches := s.batches ++ [batch] } : State).respond .ok (BitVec.ofNat 16 n)) ∧
      batch.recordingMode = m ∧
      batch.stepAxis.length = n ∧ batch.xAxis.length = n ∧ batch.yAxis.length = n ∧ batch.zAxis.length = n ∧
      (∀ i, i < n → batch.stepAxis[i]? = some (fmul (stepSize m s.decF) (fconv i))) ∧
      (∀ i : Fin 4096, i.val < n →
        batch.xAxis[i.val]? = some ((convOf m s.avgC).apply (Memory.readWord s.mem (.raw 0 i))) ∧
        batch.yAxis[i.val]? = some ((convOf m s.avgC).apply (Memory.readWord s.mem (.raw 1 i))) ∧
        batch.zAxis[i.val]? = some ((convOf m s.avgC).apply (Memory.readWord s.mem (.raw 2 i)))) ∧
      (m ≠ .rts → batch.metadata = none) ∧
      (m = .rts → ∃ md, batch.metadata = some md ∧
        md.seqNum = (List.finRange 10).map (fun b => Memory.readWord s.mem (.info 0 b)) ∧
        md.temperature = (List.finRange 10).map (fun b => Memory.readWord s.mem (.info 1 b)) ∧
        md.status = (List.finRange 10).map (fun b => Memory.readWord s.mem (.info 2 b)) ∧
        md.crc = (List.finRange 10).map (fun b => Memory.readWord s.mem (.info 3 b)))

/-! ### The exchanges of a command -/

/-- EVERY COMMAND MAKES ITS EXCHANGES IN ORDER, under every interleaving and with every device (20_memory R83;
40_register_protocol R144, R146, R147; 41_configuration R183 to R185, R189; 42_sampling R222 to R227): a step of a
command in progress leaves the exchanges made and the exchanges still to be made, in order and with their
busy-checks, the same list in all; a command that ends without a link error has made them all. -/
def Obligations.ExchangesFollowTheProgram : Prop :=
  ∀ (s t : State) (c : Cmd), SessionInv s → s.cmd = some c → step s = .next t → s.turn ≠ .reset →
    (t.cmd = some c → exchanges t.hist ++ t.remaining = exchanges s.hist ++ s.remaining) ∧
    (t.cmd = none →
      t.rspStatus = .ok ∨ t.rspStatus = .protocolMisuse ∨ t.rspStatus = .identityMismatch ∨
        t.rspStatus = .modeMismatch →
      exchanges t.hist = exchanges s.hist ++ s.remaining)

/-- The exchange totals (42_sampling R250; 40_register_protocol R144, R147; 41_configuration R182 to R185) of an accepted
command none of whose accesses is refused: how many exchanges are still to be made behind its check, and how many of
them are raw. That position 1 is the one behind the check is the model's choice (log 1). -/
def Obligations.ExchangeTotals : Prop :=
  ∀ (s : State) (c : Cmd), s.cmd = some c → s.upc = 1 → s.out = none →
    s.accessesAllowed c.instr = true →
    let total := s.remaining.length
    let raw := (s.remaining.filter fun x => !x.2).length
    (c.instr = .capture → s.mode = some .mtc → total = 12300 ∧ raw = 3) ∧
    (c.instr = .capture → s.mode = some .mfft ∨ s.mode = some .afft → total = 6159 ∧ raw = 3) ∧
    (c.instr = .capture → s.mode = some .rts → total = 1000 ∧ raw = 1000) ∧
    (∀ win decl cust fsel, c.instr = .activate .rts win decl cust fsel → total = 9 ∧ raw = 0) ∧
    (∀ m win decl fsel, m ≠ .rts → c.instr = .activate m win decl false fsel → total = 15 ∧ raw = 0) ∧
    (∀ m win decl fsel, m ≠ .rts → c.instr = .activate m win decl true fsel → total = 111 ∧ raw = 0) ∧
    (c.instr = .init ∨ c.instr = .exttrig ∨ c.instr = .trigger ∨ (∃ r, c.instr = .rdreg r) ∨
        (∃ r v, c.instr = .wrreg r v) → total = 3 ∧ raw = 0) ∧
    (∀ b0 b1, c.instr = .xchg b0 b1 → s.remaining = [(b0 ++ b1, false)]) ∧
    (∀ b0 b1, c.instr = .xchgb b0 b1 → s.remaining = [(b0 ++ b1, true)]) ∧
    (c.instr = .close → total = 0)

/-- The order of ACTIVATE's writes with a custom filter (41_configuration R183, R189): decimation, average, the 32 taps,
the selection of the custom bank, REC_CTRL, and its read-back at once. That position 1 is the one behind the check is the
model's choice (log 1). -/
def Obligations.TapsBeforeSelection : Prop :=
  ∀ (s : State) (m : Mode) (win : BitVec 4) (decl : BitVec 3) (fsel : BitVec 3) (cfg : CfgIn), m ≠ .rts →
    s.cmd = some ⟨.activate m win decl true fsel, cfg⟩ → s.upc = 1 → s.out = none →
    s.accessesAllowed (.activate m win decl true fsel) = true →
    let p := s.params
    s.remaining =
      writeFrames p p.cat.decCtrl (decCtrlValue p decl) ++ writeFrames p p.cat.avgCtrl cfg.avg ++
      (List.finRange 32).flatMap (fun k => writeFrames p (p.cat.coef[k]) cfg.taps[k]) ++
      writeFrames p p.cat.filtCtrl (filtCtrlValue p (BitVec.ofNat 3 p.customBank)) ++
      writeFrames p p.cat.recCtrl (recCtrlValue p m win) ++ readFrames p p.cat.recCtrl

/-! ### Numerics -/

/-- 42_sampling R237: with a zero average count a nonzero raw word converts to plus infinity and a zero one to plus
zero. -/
def Obligations.ZeroCountSpectrum : Prop :=
  (∀ raw : Half, raw ≠ 0 → convFft raw 0 = 0x7FF0000000000000) ∧ convFft 0 0 = 0

/-- The values of the conversions, with their special values and ranges (42_sampling R230, R234, R235, R241). Spectrum: a
zero raw word is plus zero whatever the count; with a nonzero count every other word gives a positive finite normal
number, computed in the rule's order: the power of two of raw / 2048 rounded (R230's default, log 12), its quotient by
the count rounded, and the product with the scale, 0.9535 rounded, rounded. Capture: the scale
is 0.001907349 rounded; a zero word is plus zero, every other word the product with the scale rounded, and so between
the scale, which word 1 gives, and the value of word 65535. The order is that of the patterns, which for positive
numbers is that of the values. -/
def Obligations.SpectrumIsFinite : Prop :=
  (∀ raw avgC : Half,
    (raw = 0 → convFft raw avgC = 0) ∧
    (raw ≠ 0 → avgC ≠ 0 →
      fNeg (convFft raw avgC) = false ∧ 1 ≤ fExp (convFft raw avgC) ∧ fExp (convFft raw avgC) ≤ 2046)) ∧
  withinHalfUlp kFft 9535 10000 ∧ fScale kFft ≤ 0 ∧
  (∀ raw avgC : Half, raw ≠ 0 → avgC ≠ 0 →
    let p := fpow2 (fdiv (fconv raw.toNat) (fconv 2048))
    let q := fdiv p (fconv avgC.toNat)
    withinHalfUlpOfPow2 p raw.toNat ∧
      withinHalfUlp q (fMant p) (2 ^ (-fScale p).toNat * avgC.toNat) ∧ fScale q ≤ 0 ∧
      withinHalfUlp (convFft raw avgC) (fMant q * fMant kFft) (2 ^ ((-fScale q).toNat + (-fScale kFft).toNat))) ∧
  withinHalfUlp kCap 1907349 1000000000 ∧ Conv.mtc.apply 0 = 0 ∧ Conv.mtc.apply 1 = kCap ∧
  (∀ raw : Half, raw ≠ 0 →
    let x := Conv.mtc.apply raw
    withinHalfUlp x (raw.toNat * fMant kCap) (2 ^ (-fScale kCap).toNat) ∧
      kCap.toNat ≤ x.toNat ∧ x.toNat ≤ (Conv.mtc.apply 0xFFFF).toNat)

/-- 42_sampling R233: the Streaming conversion is the identity on the unsigned word: the binary64 value is exactly the
number, significand times a power of two; 0xFFFF gives 65535. -/
def Obligations.StreamingIsIdentity : Prop :=
  (∀ raw : Half, raw ≠ 0 →
    let x := Conv.rts.apply raw
    fNeg x = false ∧ fIsNaN x = false ∧ fIsInf x = false ∧
      fMant x * 2 ^ (fScale x).toNat = raw.toNat * 2 ^ (-fScale x).toNat) ∧
  Conv.rts.apply 0 = 0 ∧ Conv.rts.apply 0xFFFF = 0x40EFFFE000000000

/-- Step sizes (42_sampling R231) for every decimation factor: the spectrum's is exactly 110000 / factor / 2048, the
Capture's is factor / 220000 rounded, the Streaming one 1 / 220000 rounded whatever the factor, which is the Capture's at
factor 1; and the rule's example of a step axis (R232), step 0.5 and four steps. -/
def Obligations.StepSizes : Prop :=
  (∀ f : Fin 8, ∀ m : Mode, m = .mfft ∨ m = .afft →
    let x := stepSize m (2 ^ f.val)
    fNeg x = false ∧ fExp x ≠ 0 ∧ fExp x ≠ 2047 ∧ 0 ≤ -fScale x ∧
      fMant x * (2 ^ f.val * 2048) = 110000 * 2 ^ (-fScale x).toNat) ∧
  (∀ f : Fin 8, withinHalfUlp (stepSize .mtc (2 ^ f.val)) (2 ^ f.val) 220000) ∧
  (∀ n : Nat, withinHalfUlp (stepSize .rts n) 1 220000) ∧
  stepSize .mtc 1 = stepSize .rts 1 ∧
  generateSteps (fdiv (fconv 1) (fconv 2)) 4 =
    [0, fdiv (fconv 1) (fconv 2), fconv 1, fdiv (fconv 3) (fconv 2)]

/-! ### Invariants: every step keeps them -/

/-- The buffer memory keeps its canonical form (addresses strictly rising, no entry equal to an unlisted byte; the form
is the model's, log 10). -/
def Obligations.MemoryStaysCanonical : Prop :=
  ∀ s t : State, Memory.wf s.mem = true → step s = .next t → Memory.wf t.mem = true

/-- The session invariant (10_state R38, R39): the session mode is there exactly in ACTIVE, RESET is never current in an
idle core, and a command in progress is past its check in a state that allows it. -/
def Obligations.SessionInvStays : Prop :=
  ∀ s t : State, SessionInv s → step s = .next t → SessionInv t

/-- No step stops (20_memory R70: whether the core has a step never depends on the device): from every state with
well-formed parameters, the session invariant and a position inside the micro-program, a step answers a next state, and
that has the invariant again. -/
def Obligations.EveryStepAnswers : Prop :=
  ∀ s : State, RunInv s → ∃ t, step s = .next t ∧ RunInv t

/-- 70_reset_and_hazards R305: consecutive exchanges, with no open or close between them, are at least `T_SETTLE` apart;
the settle counter keeps it so. -/
def Obligations.SettleLawStays : Prop :=
  ∀ s t : State, SettleInv s → step s = .next t → SettleInv t ∧ SettleLaw t.hist

/-- 70_reset_and_hazards R306: every busy-checked exchange comes right after a ready poll with the same stamp. -/
def Obligations.BusyLawStays : Prop :=
  ∀ s t : State, BusyLaw s.hist → step s = .next t → BusyLaw t.hist

/-- 70_reset_and_hazards R307: the rising reset edge is at least `T_PWR` after the open, and every exchange after it at
least `T_RST` after it; INIT's two waits keep it so. -/
def Obligations.ResetTimingLawStays : Prop :=
  ∀ s t : State, ResetTimingInv s → step s = .next t → ResetTimingInv t ∧ ResetTimingLaw t.hist

/-- 70_reset_and_hazards R308: TRIGGER's wait is kept by every step, and a TRIGGER that responds OK does so at least
`T_TRIG` after every exchange before it, its last one among them. -/
def Obligations.TriggerLawStays : Prop :=
  (∀ s t : State, TriggerInv s → step s = .next t → TriggerInv t) ∧
  (∀ s t : State, TriggerInv s → step s = .next t → s.turn ≠ .reset → s.cmd.map Cmd.instr = some .trigger →
    t.cmd = none → t.rspStatus = .ok → ∀ e ∈ t.hist, e.time + 12000 ≤ t.now)

/-- No stamp of the history or the log is in the future, and stamps never fall (10_state R52, 20_memory R84); and `rx`
is the answer of the last exchange that was answered (10_state R45). -/
def Obligations.StampsAndAnswerStay : Prop :=
  (∀ s t : State, StampsInv s → step s = .next t → StampsInv t) ∧
  (∀ s t : State, s.rx = lastAnswer s.hist → step s = .next t → t.rx = lastAnswer t.hist)

/-- The lines (10_state R43): the reset output is driven exactly while the lines are open, and they are open in RESET,
IDV and ACTIVE until CLOSE releases them; so an exchange is made only over an open link. -/
def Obligations.LinesStay : Prop :=
  (∀ s t : State, LinesInv s → step s = .next t → LinesInv t) ∧
  (∀ s t : State, LinesInv s → step s = .next t → s.turn ≠ .reset → exchanges t.hist ≠ exchanges s.hist →
    s.linesOpen = true)

/-- Every invariant above holds after reset (10_state R56), whatever the parameters; that a step always answers, with the
parameters of `State.reset`. -/
def Obligations.InvariantsHoldAtReset : Prop :=
  (∀ p : Params,
    let s := State.resetWith p
    Memory.wf s.mem = true ∧ SessionInv s ∧ SettleInv s ∧ BusyLaw s.hist ∧ ResetTimingInv s ∧ TriggerInv s ∧
      StampsInv s ∧ s.rx = lastAnswer s.hist ∧ LinesInv s) ∧
  RunInv State.reset

/-! ### Frames: what an instruction leaves unchanged -/

/-- A step never changes the parameters (70_reset_and_hazards R303, 20_memory R92), takes at most the first
presentation, and only a core turn that works on CAPTURE, and core reset, change a byte of the buffers (20_memory
R80). R81 leaves their contents between captures unspecified: that they stay is the model's choice (log 27). -/
def Obligations.StepFrame : Prop :=
  ∀ s t : State, step s = .next t →
    t.params = s.params ∧ (t.presented = s.presented ∨ t.presented = s.presented.tail) ∧
    ((∃ a, Memory.readByte t.mem a ≠ Memory.readByte s.mem a) →
      s.turn = .reset ∨ (s.turn = .core ∧ s.out = none ∧ s.cmd.map Cmd.instr = some .capture))

/-- What the link frames leave unchanged: every field but the history, `settle`, `rx`, the device's tapes, the framer,
and, where an error ends the command, the error entry's fields; every byte of the buffers. A command that goes on is
the same command. The framer as an agent with steps of its own and the tapes are the model's (logs 6 and 3), and that
the buffers keep bytes whose contents 20_memory R81 leaves unspecified is its choice (log 27). -/
def Obligations.FrameOfLinkFrames : Prop :=
  ∀ (f : LinkFrame) (s t : State), exec f.instr s = .next t →
    t = { s with
      hist := t.hist, settle := t.settle, rx := t.rx, readies := t.readies, answers := t.answers, out := t.out,
      fsm := t.fsm, mode := t.mode, cmd := t.cmd, upc := t.upc, rspValid := t.rspValid, rspStatus := t.rspStatus,
      rspData := t.rspData, lastErr := t.lastErr, log := t.log } ∧
    (∀ a, Memory.readByte t.mem a = Memory.readByte s.mem a) ∧
    (t.cmd ≠ none →
      t.cmd = s.cmd ∧ t.fsm = s.fsm ∧ t.mode = s.mode ∧ t.upc = s.upc ∧ t.rspValid = s.rspValid ∧ t.rspStatus = s.rspStatus ∧
        t.rspData = s.rspData ∧ t.lastErr = s.lastErr ∧ t.log = s.log)

/-- What the commands but CAPTURE leave unchanged. RDREG, WRREG, XCHG, XCHGB, EXTTRIG and TRIGGER: the lines, the
clock, the capture registers and counters, the batches, the port; the state and the session but for a fatal error;
`regv` but for RDREG, `dly` but for TRIGGER, `rx`, `settle` and the history but for XCHG and XCHGB. INIT, ACTIVATE and
CLOSE: the clock, the capture registers and counters (ACTIVATE's tap counter `k` apart), `rx`, the batches, the port
and the device's exchange tapes; `settle` but for INIT, the lines and the history but for INIT and CLOSE. Each of
them: every byte of the buffers. The rules list `rx`, `settle` and the history as written by the commands that access
a register; that a step of the command itself leaves them, because `exec` is one position and the exchanges are the
framer's own steps, is the model's choice (logs 1 and 6), and so is that the buffers, whose contents between captures
20_memory R81 leaves unspecified, keep their bytes (log 27). -/
def Obligations.FrameOfCommands : Prop :=
  (∀ (i : Instr) (s t : State), exec i s = .next t →
      ((∃ r, i = .rdreg r) ∨ (∃ r v, i = .wrreg r v) ∨ (∃ b0 b1, i = .xchg b0 b1) ∨ (∃ b0 b1, i = .xchgb b0 b1) ∨
        i = .exttrig ∨ i = .trigger) →
      t = { s with
        hist := t.hist, settle := t.settle, rx := t.rx, pollT := t.pollT, regv := t.regv, dly := t.dly,
        readies := t.readies, answers := t.answers, out := t.out, fsm := t.fsm, mode := t.mode, cmd := t.cmd,
        upc := t.upc, rspValid := t.rspValid, rspStatus := t.rspStatus, rspData := t.rspData, lastErr := t.lastErr,
        log := t.log, misuse := t.misuse } ∧
      (∀ a, Memory.readByte t.mem a = Memory.readByte s.mem a) ∧
      ((t.fsm ≠ s.fsm ∨ t.mode ≠ s.mode) → t.fsm = .failed ∧ t.mode = none) ∧
      ((∀ r, i ≠ .rdreg r) → t.regv = s.regv) ∧ (i ≠ .trigger → t.dly = s.dly) ∧
      ((∀ b0 b1, i ≠ .xchg b0 b1 ∧ i ≠ .xchgb b0 b1) → t.rx = s.rx ∧ t.settle = s.settle ∧ t.hist = s.hist)) ∧
  (∀ (i : Instr) (s t : State), exec i s = .next t →
      (i = .init ∨ i = .close ∨ ∃ m win decl cust fsel, i = .activate m win decl cust fsel) →
      t = { s with
        hist := t.hist, settle := t.settle, pollT := t.pollT, regv := t.regv, dly := t.dly, opens := t.opens,
        linesOpen := t.linesOpen, rstO := t.rstO, k := t.k, out := t.out, fsm := t.fsm, mode := t.mode, cmd := t.cmd,
        upc := t.upc, rspValid := t.rspValid, rspStatus := t.rspStatus, rspData := t.rspData, lastErr := t.lastErr,
        log := t.log, misuse := t.misuse } ∧
      (∀ a, Memory.readByte t.mem a = Memory.readByte s.mem a) ∧
      ((i = .init ∨ i = .close) → t.k = s.k) ∧ (i ≠ .init → t.settle = s.settle ∧ t.dly = s.dly ∧ t.opens = s.opens) ∧
      (i ≠ .init → i ≠ .close → t.linesOpen = s.linesOpen ∧ t.rstO = s.rstO ∧ t.hist = s.hist))

/-- What CAPTURE leaves unchanged: the state and the session, the lines, the clock, the gap, `rx`, the history and the
device's tapes, and every byte of the buffers outside the bytes it stores to at its position: `RAW[ax][i]` at the
drain's two storing positions, `BLK[w]` at Streaming's, and the elements of block `b` at the parse (the addresses are
those the meaning uses, log 10; which positions store is the model's choice, log 1). The rule lists `rx`, `settle` and
the history as written by CAPTURE; that a step of CAPTURE itself leaves them, and with them the state and the session
that a failed exchange changes, because `exec` is one position and the exchanges and their errors are the framer's own
steps, is the model's choice (logs 1 and 6), and so is that an element which this CAPTURE has not written keeps its
bytes (log 27). -/
def Obligations.FrameOfCapture : Prop :=
  ∀ (s t : State), exec .capture s = .next t →
    t = { s with
      pollT := t.pollT, regv := t.regv, decF := t.decF, avgC := t.avgC, ax := t.ax, i := t.i, b := t.b, w := t.w,
      mem := t.mem, batches := t.batches, out := t.out, cmd := t.cmd, upc := t.upc, rspValid := t.rspValid,
      rspStatus := t.rspStatus, rspData := t.rspData, lastErr := t.lastErr, log := t.log, misuse := t.misuse } ∧
    (∀ r : BufRef,
      (s.mode = some .rts ∧ s.upc = 3 → r ≠ .blk s.w) →
      (s.mode = some .rts ∧ s.upc = 4 →
        (∀ f, r ≠ .info f s.b) ∧ ∀ (ax : Fin 3) (j : Fin 32), r ≠ blockSample ax s.b j) →
      (s.mode = some .mtc ∧ (s.upc = 16 ∨ s.upc = 18) → r ≠ .raw s.ax s.i) →
      ((s.mode = some .mfft ∨ s.mode = some .afft) ∧ (s.upc = 22 ∨ s.upc = 24) → r ≠ .raw s.ax s.i) →
      Memory.readByte t.mem r.address = Memory.readByte s.mem r.address ∧
      Memory.readByte t.mem (r.address + 1) = Memory.readByte s.mem (r.address + 1)) ∧
    (∀ a, 2 * 12428 ≤ a → Memory.readByte t.mem a = Memory.readByte s.mem a)

end
end

