-- ==== Sys2Proof/Laws/Decode.lean ====
section
/-! SUPPORT. Laws of the decoder: what it answers for each opcode, register indices and mode codes both ways, the
fields of a write frame, and the assembler's words of a named register. -/

namespace Sys2Proof

/-! ### The decoder by opcode (30_encoding R111) -/

/-- The opcode of a command word. -/
def opcode (w : Word) : Nat := (w.extractLsb' 0 4).toNat

theorem decodeWord_init {w : Word} (h : opcode w = 1) :
    decodeWord w = if w.extractLsb' 4 28 = 0 then .ok .init else .error .reservedBits := by
  unfold decodeWord
  rw [show (w.extractLsb' 0 4).toNat = 1 from h]
  rfl

theorem decodeWord_exttrig {w : Word} (h : opcode w = 3) :
    decodeWord w = if w.extractLsb' 4 28 = 0 then .ok .exttrig else .error .reservedBits := by
  unfold decodeWord
  rw [show (w.extractLsb' 0 4).toNat = 3 from h]
  rfl

theorem decodeWord_trigger {w : Word} (h : opcode w = 4) :
    decodeWord w = if w.extractLsb' 4 28 = 0 then .ok .trigger else .error .reservedBits := by
  unfold decodeWord
  rw [show (w.extractLsb' 0 4).toNat = 4 from h]
  rfl

theorem decodeWord_capture {w : Word} (h : opcode w = 5) :
    decodeWord w = if w.extractLsb' 4 28 = 0 then .ok .capture else .error .reservedBits := by
  unfold decodeWord
  rw [show (w.extractLsb' 0 4).toNat = 5 from h]
  rfl

theorem decodeWord_close {w : Word} (h : opcode w = 6) :
    decodeWord w = if w.extractLsb' 4 28 = 0 then .ok .close else .error .reservedBits := by
  unfold decodeWord
  rw [show (w.extractLsb' 0 4).toNat = 6 from h]
  rfl

theorem decodeWord_activate {w : Word} (h : opcode w = 2) :
    decodeWord w =
      if w.extractLsb' 19 13 = 0 ∧ w.extractLsb' 6 2 = 0 then
        .ok (.activate (hostMode (w.extractLsb' 4 2)) (w.extractLsb' 8 4) (w.extractLsb' 12 3)
          (w.extractLsb' 15 1 == 1#1) (w.extractLsb' 16 3))
      else .error .reservedBits := by
  unfold decodeWord
  rw [show (w.extractLsb' 0 4).toNat = 2 from h]
  rfl

theorem decodeWord_rdreg {w : Word} (h : opcode w = 7) :
    decodeWord w =
      if w.extractLsb' 16 16 = 0 ∧ w.extractLsb' 4 4 = 0 then
        (match RegName.ofRegId (w.extractLsb' 8 8) with
          | some r => .ok (.rdreg r)
          | none => .error .unnamedRegister)
      else .error .reservedBits := by
  unfold decodeWord
  rw [show (w.extractLsb' 0 4).toNat = 7 from h]
  rfl

theorem decodeWord_wrreg {w : Word} (h : opcode w = 8) :
    decodeWord w =
      if w.extractLsb' 4 4 = 0 then
        (match RegName.ofRegId (w.extractLsb' 8 8) with
          | some r => .ok (.wrreg r (w.extractLsb' 16 16))
          | none => .error .unnamedRegister)
      else .error .reservedBits := by
  unfold decodeWord
  rw [show (w.extractLsb' 0 4).toNat = 8 from h]
  rfl

theorem decodeWord_xchg {w : Word} (h : opcode w = 9) :
    decodeWord w =
      if w.extractLsb' 4 12 = 0 then .ok (.xchg (w.extractLsb' 24 8) (w.extractLsb' 16 8))
      else .error .reservedBits := by
  unfold decodeWord
  rw [show (w.extractLsb' 0 4).toNat = 9 from h]
  rfl

theorem decodeWord_xchgb {w : Word} (h : opcode w = 10) :
    decodeWord w =
      if w.extractLsb' 4 12 = 0 then .ok (.xchgb (w.extractLsb' 24 8) (w.extractLsb' 16 8))
      else .error .reservedBits := by
  unfold decodeWord
  rw [show (w.extractLsb' 0 4).toNat = 10 from h]
  rfl

/-- OP 0 and 0xB to 0xF are reserved (30_encoding R112). -/
theorem decodeWord_reserved {w : Word} (h : opcode w = 0 ∨ 11 ≤ opcode w) : decodeWord w = .error .reservedOp := by
  have hlt : opcode w < 16 := (w.extractLsb' 0 4).isLt
  unfold decodeWord
  obtain ⟨n, hn⟩ : ∃ n, opcode w = n := ⟨_, rfl⟩
  rw [show (w.extractLsb' 0 4).toNat = n from hn]
  rw [hn] at h hlt
  have : n = 0 ∨ n = 11 ∨ n = 12 ∨ n = 13 ∨ n = 14 ∨ n = 15 := by omega
  rcases this with rfl | rfl | rfl | rfl | rfl | rfl <;> rfl

/-- A command word decodes to a command. -/
theorem decodeWord_isCommand {w : Word} {i : Instr} (h : decodeWord w = .ok i) : i.isCommand = true := by
  have hlt : opcode w < 16 := (w.extractLsb' 0 4).isLt
  by_cases hr : opcode w = 0 ∨ 11 ≤ opcode w
  · rw [decodeWord_reserved hr] at h
    exact absurd h (by simp)
  have hc : opcode w = 1 ∨ opcode w = 2 ∨ opcode w = 3 ∨ opcode w = 4 ∨ opcode w = 5 ∨ opcode w = 6 ∨ opcode w = 7 ∨
      opcode w = 8 ∨ opcode w = 9 ∨ opcode w = 10 := by omega
  rcases hc with hc | hc | hc | hc | hc | hc | hc | hc | hc | hc
  on_goal 1 => rw [decodeWord_init hc] at h
  on_goal 2 => rw [decodeWord_activate hc] at h
  on_goal 3 => rw [decodeWord_exttrig hc] at h
  on_goal 4 => rw [decodeWord_trigger hc] at h
  on_goal 5 => rw [decodeWord_capture hc] at h
  on_goal 6 => rw [decodeWord_close hc] at h
  on_goal 7 => rw [decodeWord_rdreg hc] at h
  on_goal 8 => rw [decodeWord_wrreg hc] at h
  on_goal 9 => rw [decodeWord_xchg hc] at h
  on_goal 10 => rw [decodeWord_xchgb hc] at h
  all_goals
    split at h
    case isFalse => exact absurd h (by simp)
    try (split at h; rotate_left; exact absurd h (by simp))
    rw [← Except.ok.inj h]
    rfl

/-- A legal command word decodes to a well-formed command. -/
theorem decodeCmd_ok {p : Params} {w : Word} {i : Instr} (h : decodeCmd p w = .ok i) :
    decodeWord w = .ok i ∧ i.isCommand = true ∧ i.wellFormed p = true := by
  unfold decodeCmd at h
  split at h
  · exact absurd h (by simp)
  · rename_i j hj
    split at h
    · rename_i hw
      rw [Except.ok.inj h] at hj hw
      exact ⟨hj, decodeWord_isCommand hj, hw⟩
    · exact absurd h (by simp)

/-! ### Register indices and mode codes -/

/-- A name's index names it. -/
theorem RegName.ofRegId_regId (r : RegName) : RegName.ofRegId r.regId = some r := by
  cases r <;> try rfl
  rename_i k
  revert k
  decide

/-- An index names the register that has it, or is one of the unassigned (20_memory R77). -/
theorem RegName.ofRegId_cases :
    ∀ id : Byte, (RegName.ofRegId id).map RegName.regId = some id ∨
      (RegName.ofRegId id = none ∧ (id.toNat = 14 ∨ id.toNat = 15 ∨ 48 ≤ id.toNat)) := by
  decide +kernel

/-- The index of the register that an index names. -/
theorem RegName.regId_ofRegId {id : Byte} {r : RegName} (h : RegName.ofRegId id = some r) : r.regId = id := by
  have := RegName.ofRegId_cases id
  rw [h] at this
  simpa using this

theorem hostMode_hostCode (m : Mode) : hostMode m.hostCode = m := by
  cases m <;> rfl

theorem hostCode_hostMode : ∀ c : BitVec 2, (hostMode c).hostCode = c := by
  decide

/-! ### Assembled register accesses (30_encoding R116) -/

/-- Read by the index of a named register: the word of its RDREG. -/
theorem present_rdreg_regId (p : Params) (cfg : Machine.CfgIn) (r : RegName) :
    Machine.AsmCommand.present p cfg (.rdreg r.regId) = Machine.presentInstr p cfg (.rdreg r) := rfl

/-- Written by the index of a named register: the word of its WRREG. -/
theorem present_wrreg_regId (p : Params) (cfg : Machine.CfgIn) (r : RegName) (v : Half) :
    Machine.AsmCommand.present p cfg (.wrreg r.regId v) = Machine.presentInstr p cfg (.wrreg r v) := rfl

/-! ### Frames -/

/-- The fields of a write frame. -/
theorem fWrite_fields (a : Offset) (d : Byte) :
    (fWrite a d).extractLsb' 15 1 = 1#1 ∧ (fWrite a d).extractLsb' 8 7 = a ∧ (fWrite a d).extractLsb' 0 8 = d := by
  unfold fWrite
  simp (disch := omega) only [BitVec.extractLsb'_append_eq_of_add_le, BitVec.extractLsb'_append_eq_of_le]
  simp

end Sys2Proof
end

