-- ==== Sys2Proof/Laws/Memory.lean ====
section
/-! SUPPORT. Laws of the buffer memory: a read after a write, other bytes unchanged, the canonical form kept. -/

namespace Sys2Proof.Machine

/-! ### Bytes -/

/-- Below the first listed address nothing is listed. -/
theorem Memory.readByte_below (m : Memory) (lo a : Nat) (h : Memory.wfFrom lo m = true) (ha : a < lo) :
    Memory.readByte m a = unlistedByte := by
  induction m generalizing lo with
  | nil => rfl
  | cons c m ih =>
    simp only [Memory.wfFrom, Bool.and_eq_true, decide_eq_true_eq] at h
    have hne : c.1 ≠ a := by omega
    simp only [Memory.readByte, hne, if_false]
    exact ih (c.1 + 1) h.2 (by omega)

/-- The canonical form from a bound holds from every smaller one. -/
theorem Memory.wfFrom_mono (m : Memory) (lo lo' : Nat) (hl : lo' ≤ lo) (h : Memory.wfFrom lo m = true) :
    Memory.wfFrom lo' m = true := by
  cases m with
  | nil => rfl
  | cons c m =>
    simp only [Memory.wfFrom, Bool.and_eq_true, decide_eq_true_eq] at h ⊢
    exact ⟨⟨by omega, h.1.2⟩, h.2⟩

/-- Reading the byte just written. -/
theorem Memory.readByte_writeByte_same (m : Memory) (lo a : Nat) (v : Byte) (h : Memory.wfFrom lo m = true) :
    Memory.readByte (Memory.writeByte m a v) a = v := by
  induction m generalizing lo with
  | nil =>
    simp only [Memory.writeByte]
    split <;> simp_all [Memory.readByte]
  | cons c m ih =>
    have h' := h
    simp only [Memory.wfFrom, Bool.and_eq_true, decide_eq_true_eq] at h
    simp only [Memory.writeByte]
    split
    · rename_i hlt
      split
      · rename_i hv
        have hne : c.1 ≠ a := by omega
        simp only [Memory.readByte, hne, if_false, hv]
        exact Memory.readByte_below m (c.1 + 1) a h.2 (by omega)
      · simp [Memory.readByte]
    · split
      · rename_i heq
        split
        · rename_i hv
          rw [hv]
          exact Memory.readByte_below m (c.1 + 1) a h.2 (by omega)
        · simp [Memory.readByte]
      · rename_i h1 h2
        have hne : c.1 ≠ a := fun e => h2 e.symm
        simp only [Memory.readByte, hne, if_false]
        exact ih (c.1 + 1) h.2

/-- A write leaves every other byte alone. -/
theorem Memory.readByte_writeByte_other (m : Memory) (a b : Nat) (v : Byte) (h : b ≠ a) :
    Memory.readByte (Memory.writeByte m a v) b = Memory.readByte m b := by
  have hab : a ≠ b := fun e => h e.symm
  induction m with
  | nil =>
    simp only [Memory.writeByte]
    split <;> simp [Memory.readByte, hab]
  | cons c m ih =>
    simp only [Memory.writeByte]
    split
    · split <;> simp [Memory.readByte, hab]
    · split
      · rename_i heq
        have hne : c.1 ≠ b := by omega
        split <;> simp [Memory.readByte, hab, hne]
      · simp only [Memory.readByte, ih]

/-- A write keeps the canonical form from a bound below its address. -/
theorem Memory.wfFrom_writeByte (m : Memory) (lo a : Nat) (v : Byte) (h : Memory.wfFrom lo m = true) (hl : lo ≤ a) :
    Memory.wfFrom lo (Memory.writeByte m a v) = true := by
  induction m generalizing lo with
  | nil =>
    simp only [Memory.writeByte]
    split
    · rfl
    · rename_i hv
      simp [Memory.wfFrom, hl, hv]
  | cons c m ih =>
    have h' := h
    simp only [Memory.wfFrom, Bool.and_eq_true, decide_eq_true_eq] at h
    simp only [Memory.writeByte]
    split
    · rename_i hlt
      split
      · exact h'
      · rename_i hv
        simp only [Memory.wfFrom, Bool.and_eq_true, decide_eq_true_eq, bne_iff_ne, ne_eq]
        exact ⟨⟨hl, hv⟩, ⟨⟨by omega, by simpa using h.1.2⟩, h.2⟩⟩
    · split
      · rename_i heq
        split
        · exact Memory.wfFrom_mono m (c.1 + 1) lo (by omega) h.2
        · rename_i hv
          simp only [Memory.wfFrom, Bool.and_eq_true, decide_eq_true_eq, bne_iff_ne, ne_eq]
          exact ⟨⟨hl, hv⟩, by rw [heq]; exact h.2⟩
      · rename_i h1 h2
        simp only [Memory.wfFrom, Bool.and_eq_true, decide_eq_true_eq]
        exact ⟨⟨h.1.1, h.1.2⟩, ih (c.1 + 1) h.2 (by omega)⟩

/-! ### Words -/

/-- Two elements at the same address are the same element. -/
theorem BufRef.address_injective (r q : BufRef) (h : r.address = q.address) : r = q := by
  cases r <;> cases q <;> simp only [BufRef.address] at h <;>
    first
    | (simp only [BufRef.raw.injEq, BufRef.blk.injEq, BufRef.info.injEq, Fin.ext_iff]; omega)
    | omega

/-- Elements start at even addresses. -/
theorem BufRef.address_even (r : BufRef) : r.address % 2 = 0 := by
  cases r <;> simp only [BufRef.address] <;> omega

/-- `MemWrite` keeps the canonical form. -/
theorem Memory.wf_writeWord (m : Memory) (r : BufRef) (v : Half) (h : Memory.wf m = true) :
    Memory.wf (Memory.writeWord m r v) = true :=
  Memory.wfFrom_writeByte _ 0 _ _ (Memory.wfFrom_writeByte m 0 _ _ h (Nat.zero_le _)) (Nat.zero_le _)

/-- `MemRead` after `MemWrite` of the same element. -/
theorem Memory.readWord_writeWord_same (m : Memory) (r : BufRef) (v : Half) (h : Memory.wf m = true) :
    Memory.readWord (Memory.writeWord m r v) r = v := by
  have h1 : Memory.wfFrom 0 (Memory.writeByte m r.address (v.extractLsb' 8 8)) = true :=
    Memory.wfFrom_writeByte m 0 _ _ h (Nat.zero_le _)
  have hne : r.address ≠ r.address + 1 := by omega
  rw [Memory.readWord, Memory.writeWord, Memory.readByte_writeByte_same _ 0 _ _ h1,
    Memory.readByte_writeByte_other _ _ _ _ hne, Memory.readByte_writeByte_same _ 0 _ _ h]
  ext i hi
  simp only [BitVec.getElem_append, BitVec.getElem_extractLsb']
  split
  · simp [BitVec.getLsbD_eq_getElem hi]
  · have e : 8 + (i - 8) = i := by omega
    simp [e, BitVec.getLsbD_eq_getElem hi]

/-- A byte outside an element's two keeps its value when the element is written. -/
theorem Memory.readByte_writeWord_other (m : Memory) (r : BufRef) (v : Half) (a : Nat) (h0 : a ≠ r.address)
    (h1 : a ≠ r.address + 1) : Memory.readByte (Memory.writeWord m r v) a = Memory.readByte m a := by
  simp only [Memory.writeWord, Memory.readByte_writeByte_other _ _ a _ h1, Memory.readByte_writeByte_other _ _ a _ h0]

/-- Two elements share no byte. -/
theorem BufRef.address_apart (q r : BufRef) (h : q ≠ r) : q.address + 1 < r.address ∨ r.address + 1 < q.address := by
  have hne : q.address ≠ r.address := fun e => h (BufRef.address_injective q r e)
  have hq := q.address_even
  have hr := r.address_even
  omega

/-- Every element lies below the end of the buffers. -/
theorem BufRef.address_bound (r : BufRef) : r.address + 1 < 2 * 12428 := by
  cases r <;> simp only [BufRef.address] <;> omega

/-- `MemRead` of another element than the one written. -/
theorem Memory.readWord_writeWord_other (m : Memory) (r q : BufRef) (v : Half) (h : q ≠ r) :
    Memory.readWord (Memory.writeWord m r v) q = Memory.readWord m q := by
  have hne : q.address ≠ r.address := fun e => h (BufRef.address_injective q r e)
  have hq := q.address_even
  have hr := r.address_even
  simp only [Memory.readWord, Memory.readByte_writeWord_other m r v q.address (by omega) (by omega),
    Memory.readByte_writeWord_other m r v (q.address + 1) (by omega) (by omega)]

/-! ### Blocks -/

/-- Storing an axis of a block keeps the canonical form. -/
theorem Memory.wf_storeBlockAxis (ax : Fin 3) (b : Fin 10) (first : Nat) (blk : List Half) (m : Memory)
    (h : Memory.wf m = true) : Memory.wf (storeBlockAxis ax b first blk m) = true := by
  unfold storeBlockAxis
  induction List.finRange 32 generalizing m with
  | nil => exact h
  | cons j js ih => exact ih _ (Memory.wf_writeWord m _ _ h)

/-- Storing a block keeps the canonical form. -/
theorem Memory.wf_storeBlock (b : Fin 10) (blk : List Half) (m : Memory) (h : Memory.wf m = true) :
    Memory.wf (storeBlock b blk m) = true := by
  have h1 := Memory.wf_storeBlockAxis 2 b 65 blk _ (Memory.wf_storeBlockAxis 1 b 33 blk _
    (Memory.wf_storeBlockAxis 0 b 1 blk _ (Memory.wf_writeWord m (.info 0 b) (blockWord blk 0) h)))
  exact Memory.wf_writeWord _ _ _ (Memory.wf_writeWord _ _ _ (Memory.wf_writeWord _ _ _ h1))

/-- A byte outside an axis of a block keeps its value when the axis is stored. -/
theorem Memory.readByte_storeBlockAxis_other (ax : Fin 3) (b : Fin 10) (first : Nat) (blk : List Half) (m : Memory)
    (a : Nat) (h : ∀ j, a ≠ (blockSample ax b j).address ∧ a ≠ (blockSample ax b j).address + 1) :
    Memory.readByte (storeBlockAxis ax b first blk m) a = Memory.readByte m a := by
  unfold storeBlockAxis
  induction List.finRange 32 generalizing m with
  | nil => rfl
  | cons j js ih => exact (ih _).trans (Memory.readByte_writeWord_other m _ _ a (h j).1 (h j).2)

/-- A byte outside a block keeps its value when the block is stored. -/
theorem Memory.readByte_storeBlock_other (b : Fin 10) (blk : List Half) (m : Memory) (a : Nat)
    (hi : ∀ f, a ≠ (BufRef.info f b).address ∧ a ≠ (BufRef.info f b).address + 1)
    (hs : ∀ ax j, a ≠ (blockSample ax b j).address ∧ a ≠ (blockSample ax b j).address + 1) :
    Memory.readByte (storeBlock b blk m) a = Memory.readByte m a := by
  simp only [storeBlock, Memory.readByte_writeWord_other _ _ _ a (hi _).1 (hi _).2,
    Memory.readByte_storeBlockAxis_other _ b _ blk _ a (hs _)]

/-- Nothing is listed right after reset, which is the canonical form. -/
theorem Memory.wf_nil : Memory.wf [] = true := rfl

end Sys2Proof.Machine
end

