-- ==== Sys2Proof/Laws/State.lean ====
section
/-! SUPPORT. One lemma per field per named update of State: what the update leaves in the field. -/

namespace Sys2Proof.Machine

/-! ### `advance` -/

@[simp] theorem State.advance_params (s : State) : s.advance.params = s.params := rfl
@[simp] theorem State.advance_fsm (s : State) : s.advance.fsm = s.fsm := rfl
@[simp] theorem State.advance_mode (s : State) : s.advance.mode = s.mode := rfl
@[simp] theorem State.advance_linesOpen (s : State) : s.advance.linesOpen = s.linesOpen := rfl
@[simp] theorem State.advance_rstO (s : State) : s.advance.rstO = s.rstO := rfl
@[simp] theorem State.advance_cmd (s : State) : s.advance.cmd = s.cmd := rfl
@[simp] theorem State.advance_upc (s : State) : s.advance.upc = s.upc + 1 := rfl
@[simp] theorem State.advance_settle (s : State) : s.advance.settle = s.settle := rfl
@[simp] theorem State.advance_dly (s : State) : s.advance.dly = s.dly := rfl
@[simp] theorem State.advance_pollT (s : State) : s.advance.pollT = s.pollT := rfl
@[simp] theorem State.advance_now (s : State) : s.advance.now = s.now := rfl
@[simp] theorem State.advance_rx (s : State) : s.advance.rx = s.rx := rfl
@[simp] theorem State.advance_regv (s : State) : s.advance.regv = s.regv := rfl
@[simp] theorem State.advance_decF (s : State) : s.advance.decF = s.decF := rfl
@[simp] theorem State.advance_avgC (s : State) : s.advance.avgC = s.avgC := rfl
@[simp] theorem State.advance_ax (s : State) : s.advance.ax = s.ax := rfl
@[simp] theorem State.advance_i (s : State) : s.advance.i = s.i := rfl
@[simp] theorem State.advance_b (s : State) : s.advance.b = s.b := rfl
@[simp] theorem State.advance_w (s : State) : s.advance.w = s.w := rfl
@[simp] theorem State.advance_k (s : State) : s.advance.k = s.k := rfl
@[simp] theorem State.advance_mem (s : State) : s.advance.mem = s.mem := rfl
@[simp] theorem State.advance_rspValid (s : State) : s.advance.rspValid = s.rspValid := rfl
@[simp] theorem State.advance_rspStatus (s : State) : s.advance.rspStatus = s.rspStatus := rfl
@[simp] theorem State.advance_rspData (s : State) : s.advance.rspData = s.rspData := rfl
@[simp] theorem State.advance_lastErr (s : State) : s.advance.lastErr = s.lastErr := rfl
@[simp] theorem State.advance_batches (s : State) : s.advance.batches = s.batches := rfl
@[simp] theorem State.advance_log (s : State) : s.advance.log = s.log := rfl
@[simp] theorem State.advance_hist (s : State) : s.advance.hist = s.hist := rfl
@[simp] theorem State.advance_misuse (s : State) : s.advance.misuse = s.misuse := rfl
@[simp] theorem State.advance_out (s : State) : s.advance.out = s.out := rfl
@[simp] theorem State.advance_presented (s : State) : s.advance.presented = s.presented := rfl
@[simp] theorem State.advance_turns (s : State) : s.advance.turns = s.turns := rfl
@[simp] theorem State.advance_draws (s : State) : s.advance.draws = s.draws := rfl
@[simp] theorem State.advance_past (s : State) : s.advance.past = s.past := rfl
@[simp] theorem State.advance_opens (s : State) : s.advance.opens = s.opens := rfl
@[simp] theorem State.advance_readies (s : State) : s.advance.readies = s.readies := rfl
@[simp] theorem State.advance_answers (s : State) : s.advance.answers = s.answers := rfl

/-! ### `skip` -/

@[simp] theorem State.skip_params (s : State) (n : Nat) : (s.skip n).params = s.params := rfl
@[simp] theorem State.skip_fsm (s : State) (n : Nat) : (s.skip n).fsm = s.fsm := rfl
@[simp] theorem State.skip_mode (s : State) (n : Nat) : (s.skip n).mode = s.mode := rfl
@[simp] theorem State.skip_linesOpen (s : State) (n : Nat) : (s.skip n).linesOpen = s.linesOpen := rfl
@[simp] theorem State.skip_rstO (s : State) (n : Nat) : (s.skip n).rstO = s.rstO := rfl
@[simp] theorem State.skip_cmd (s : State) (n : Nat) : (s.skip n).cmd = s.cmd := rfl
@[simp] theorem State.skip_upc (s : State) (n : Nat) : (s.skip n).upc = s.upc + n := rfl
@[simp] theorem State.skip_settle (s : State) (n : Nat) : (s.skip n).settle = s.settle := rfl
@[simp] theorem State.skip_dly (s : State) (n : Nat) : (s.skip n).dly = s.dly := rfl
@[simp] theorem State.skip_pollT (s : State) (n : Nat) : (s.skip n).pollT = s.pollT := rfl
@[simp] theorem State.skip_now (s : State) (n : Nat) : (s.skip n).now = s.now := rfl
@[simp] theorem State.skip_rx (s : State) (n : Nat) : (s.skip n).rx = s.rx := rfl
@[simp] theorem State.skip_regv (s : State) (n : Nat) : (s.skip n).regv = s.regv := rfl
@[simp] theorem State.skip_decF (s : State) (n : Nat) : (s.skip n).decF = s.decF := rfl
@[simp] theorem State.skip_avgC (s : State) (n : Nat) : (s.skip n).avgC = s.avgC := rfl
@[simp] theorem State.skip_ax (s : State) (n : Nat) : (s.skip n).ax = s.ax := rfl
@[simp] theorem State.skip_i (s : State) (n : Nat) : (s.skip n).i = s.i := rfl
@[simp] theorem State.skip_b (s : State) (n : Nat) : (s.skip n).b = s.b := rfl
@[simp] theorem State.skip_w (s : State) (n : Nat) : (s.skip n).w = s.w := rfl
@[simp] theorem State.skip_k (s : State) (n : Nat) : (s.skip n).k = s.k := rfl
@[simp] theorem State.skip_mem (s : State) (n : Nat) : (s.skip n).mem = s.mem := rfl
@[simp] theorem State.skip_rspValid (s : State) (n : Nat) : (s.skip n).rspValid = s.rspValid := rfl
@[simp] theorem State.skip_rspStatus (s : State) (n : Nat) : (s.skip n).rspStatus = s.rspStatus := rfl
@[simp] theorem State.skip_rspData (s : State) (n : Nat) : (s.skip n).rspData = s.rspData := rfl
@[simp] theorem State.skip_lastErr (s : State) (n : Nat) : (s.skip n).lastErr = s.lastErr := rfl
@[simp] theorem State.skip_batches (s : State) (n : Nat) : (s.skip n).batches = s.batches := rfl
@[simp] theorem State.skip_log (s : State) (n : Nat) : (s.skip n).log = s.log := rfl
@[simp] theorem State.skip_hist (s : State) (n : Nat) : (s.skip n).hist = s.hist := rfl
@[simp] theorem State.skip_misuse (s : State) (n : Nat) : (s.skip n).misuse = s.misuse := rfl
@[simp] theorem State.skip_out (s : State) (n : Nat) : (s.skip n).out = s.out := rfl
@[simp] theorem State.skip_presented (s : State) (n : Nat) : (s.skip n).presented = s.presented := rfl
@[simp] theorem State.skip_turns (s : State) (n : Nat) : (s.skip n).turns = s.turns := rfl
@[simp] theorem State.skip_draws (s : State) (n : Nat) : (s.skip n).draws = s.draws := rfl
@[simp] theorem State.skip_past (s : State) (n : Nat) : (s.skip n).past = s.past := rfl
@[simp] theorem State.skip_opens (s : State) (n : Nat) : (s.skip n).opens = s.opens := rfl
@[simp] theorem State.skip_readies (s : State) (n : Nat) : (s.skip n).readies = s.readies := rfl
@[simp] theorem State.skip_answers (s : State) (n : Nat) : (s.skip n).answers = s.answers := rfl

/-! ### `back` -/

@[simp] theorem State.back_params (s : State) (n : Nat) : (s.back n).params = s.params := rfl
@[simp] theorem State.back_fsm (s : State) (n : Nat) : (s.back n).fsm = s.fsm := rfl
@[simp] theorem State.back_mode (s : State) (n : Nat) : (s.back n).mode = s.mode := rfl
@[simp] theorem State.back_linesOpen (s : State) (n : Nat) : (s.back n).linesOpen = s.linesOpen := rfl
@[simp] theorem State.back_rstO (s : State) (n : Nat) : (s.back n).rstO = s.rstO := rfl
@[simp] theorem State.back_cmd (s : State) (n : Nat) : (s.back n).cmd = s.cmd := rfl
@[simp] theorem State.back_upc (s : State) (n : Nat) : (s.back n).upc = s.upc - n := rfl
@[simp] theorem State.back_settle (s : State) (n : Nat) : (s.back n).settle = s.settle := rfl
@[simp] theorem State.back_dly (s : State) (n : Nat) : (s.back n).dly = s.dly := rfl
@[simp] theorem State.back_pollT (s : State) (n : Nat) : (s.back n).pollT = s.pollT := rfl
@[simp] theorem State.back_now (s : State) (n : Nat) : (s.back n).now = s.now := rfl
@[simp] theorem State.back_rx (s : State) (n : Nat) : (s.back n).rx = s.rx := rfl
@[simp] theorem State.back_regv (s : State) (n : Nat) : (s.back n).regv = s.regv := rfl
@[simp] theorem State.back_decF (s : State) (n : Nat) : (s.back n).decF = s.decF := rfl
@[simp] theorem State.back_avgC (s : State) (n : Nat) : (s.back n).avgC = s.avgC := rfl
@[simp] theorem State.back_ax (s : State) (n : Nat) : (s.back n).ax = s.ax := rfl
@[simp] theorem State.back_i (s : State) (n : Nat) : (s.back n).i = s.i := rfl
@[simp] theorem State.back_b (s : State) (n : Nat) : (s.back n).b = s.b := rfl
@[simp] theorem State.back_w (s : State) (n : Nat) : (s.back n).w = s.w := rfl
@[simp] theorem State.back_k (s : State) (n : Nat) : (s.back n).k = s.k := rfl
@[simp] theorem State.back_mem (s : State) (n : Nat) : (s.back n).mem = s.mem := rfl
@[simp] theorem State.back_rspValid (s : State) (n : Nat) : (s.back n).rspValid = s.rspValid := rfl
@[simp] theorem State.back_rspStatus (s : State) (n : Nat) : (s.back n).rspStatus = s.rspStatus := rfl
@[simp] theorem State.back_rspData (s : State) (n : Nat) : (s.back n).rspData = s.rspData := rfl
@[simp] theorem State.back_lastErr (s : State) (n : Nat) : (s.back n).lastErr = s.lastErr := rfl
@[simp] theorem State.back_batches (s : State) (n : Nat) : (s.back n).batches = s.batches := rfl
@[simp] theorem State.back_log (s : State) (n : Nat) : (s.back n).log = s.log := rfl
@[simp] theorem State.back_hist (s : State) (n : Nat) : (s.back n).hist = s.hist := rfl
@[simp] theorem State.back_misuse (s : State) (n : Nat) : (s.back n).misuse = s.misuse := rfl
@[simp] theorem State.back_out (s : State) (n : Nat) : (s.back n).out = s.out := rfl
@[simp] theorem State.back_presented (s : State) (n : Nat) : (s.back n).presented = s.presented := rfl
@[simp] theorem State.back_turns (s : State) (n : Nat) : (s.back n).turns = s.turns := rfl
@[simp] theorem State.back_draws (s : State) (n : Nat) : (s.back n).draws = s.draws := rfl
@[simp] theorem State.back_past (s : State) (n : Nat) : (s.back n).past = s.past := rfl
@[simp] theorem State.back_opens (s : State) (n : Nat) : (s.back n).opens = s.opens := rfl
@[simp] theorem State.back_readies (s : State) (n : Nat) : (s.back n).readies = s.readies := rfl
@[simp] theorem State.back_answers (s : State) (n : Nat) : (s.back n).answers = s.answers := rfl

/-! ### `record` -/

@[simp] theorem State.record_params (s : State) (e : LinkEvent) : (s.record e).params = s.params := rfl
@[simp] theorem State.record_fsm (s : State) (e : LinkEvent) : (s.record e).fsm = s.fsm := rfl
@[simp] theorem State.record_mode (s : State) (e : LinkEvent) : (s.record e).mode = s.mode := rfl
@[simp] theorem State.record_linesOpen (s : State) (e : LinkEvent) : (s.record e).linesOpen = s.linesOpen := rfl
@[simp] theorem State.record_rstO (s : State) (e : LinkEvent) : (s.record e).rstO = s.rstO := rfl
@[simp] theorem State.record_cmd (s : State) (e : LinkEvent) : (s.record e).cmd = s.cmd := rfl
@[simp] theorem State.record_upc (s : State) (e : LinkEvent) : (s.record e).upc = s.upc := rfl
@[simp] theorem State.record_settle (s : State) (e : LinkEvent) : (s.record e).settle = s.settle := rfl
@[simp] theorem State.record_dly (s : State) (e : LinkEvent) : (s.record e).dly = s.dly := rfl
@[simp] theorem State.record_pollT (s : State) (e : LinkEvent) : (s.record e).pollT = s.pollT := rfl
@[simp] theorem State.record_now (s : State) (e : LinkEvent) : (s.record e).now = s.now := rfl
@[simp] theorem State.record_rx (s : State) (e : LinkEvent) : (s.record e).rx = s.rx := rfl
@[simp] theorem State.record_regv (s : State) (e : LinkEvent) : (s.record e).regv = s.regv := rfl
@[simp] theorem State.record_decF (s : State) (e : LinkEvent) : (s.record e).decF = s.decF := rfl
@[simp] theorem State.record_avgC (s : State) (e : LinkEvent) : (s.record e).avgC = s.avgC := rfl
@[simp] theorem State.record_ax (s : State) (e : LinkEvent) : (s.record e).ax = s.ax := rfl
@[simp] theorem State.record_i (s : State) (e : LinkEvent) : (s.record e).i = s.i := rfl
@[simp] theorem State.record_b (s : State) (e : LinkEvent) : (s.record e).b = s.b := rfl
@[simp] theorem State.record_w (s : State) (e : LinkEvent) : (s.record e).w = s.w := rfl
@[simp] theorem State.record_k (s : State) (e : LinkEvent) : (s.record e).k = s.k := rfl
@[simp] theorem State.record_mem (s : State) (e : LinkEvent) : (s.record e).mem = s.mem := rfl
@[simp] theorem State.record_rspValid (s : State) (e : LinkEvent) : (s.record e).rspValid = s.rspValid := rfl
@[simp] theorem State.record_rspStatus (s : State) (e : LinkEvent) : (s.record e).rspStatus = s.rspStatus := rfl
@[simp] theorem State.record_rspData (s : State) (e : LinkEvent) : (s.record e).rspData = s.rspData := rfl
@[simp] theorem State.record_lastErr (s : State) (e : LinkEvent) : (s.record e).lastErr = s.lastErr := rfl
@[simp] theorem State.record_batches (s : State) (e : LinkEvent) : (s.record e).batches = s.batches := rfl
@[simp] theorem State.record_log (s : State) (e : LinkEvent) : (s.record e).log = s.log := rfl
@[simp] theorem State.record_hist (s : State) (e : LinkEvent) : (s.record e).hist = s.hist ++ [⟨e, s.now⟩] := rfl
@[simp] theorem State.record_misuse (s : State) (e : LinkEvent) : (s.record e).misuse = s.misuse := rfl
@[simp] theorem State.record_out (s : State) (e : LinkEvent) : (s.record e).out = s.out := rfl
@[simp] theorem State.record_presented (s : State) (e : LinkEvent) : (s.record e).presented = s.presented := rfl
@[simp] theorem State.record_turns (s : State) (e : LinkEvent) : (s.record e).turns = s.turns := rfl
@[simp] theorem State.record_draws (s : State) (e : LinkEvent) : (s.record e).draws = s.draws := rfl
@[simp] theorem State.record_past (s : State) (e : LinkEvent) : (s.record e).past = s.past := rfl
@[simp] theorem State.record_opens (s : State) (e : LinkEvent) : (s.record e).opens = s.opens := rfl
@[simp] theorem State.record_readies (s : State) (e : LinkEvent) : (s.record e).readies = s.readies := rfl
@[simp] theorem State.record_answers (s : State) (e : LinkEvent) : (s.record e).answers = s.answers := rfl

/-! ### `logEvent` -/

@[simp] theorem State.logEvent_params (s : State) (e : LogEvent) : (s.logEvent e).params = s.params := rfl
@[simp] theorem State.logEvent_fsm (s : State) (e : LogEvent) : (s.logEvent e).fsm = s.fsm := rfl
@[simp] theorem State.logEvent_mode (s : State) (e : LogEvent) : (s.logEvent e).mode = s.mode := rfl
@[simp] theorem State.logEvent_linesOpen (s : State) (e : LogEvent) : (s.logEvent e).linesOpen = s.linesOpen := rfl
@[simp] theorem State.logEvent_rstO (s : State) (e : LogEvent) : (s.logEvent e).rstO = s.rstO := rfl
@[simp] theorem State.logEvent_cmd (s : State) (e : LogEvent) : (s.logEvent e).cmd = s.cmd := rfl
@[simp] theorem State.logEvent_upc (s : State) (e : LogEvent) : (s.logEvent e).upc = s.upc := rfl
@[simp] theorem State.logEvent_settle (s : State) (e : LogEvent) : (s.logEvent e).settle = s.settle := rfl
@[simp] theorem State.logEvent_dly (s : State) (e : LogEvent) : (s.logEvent e).dly = s.dly := rfl
@[simp] theorem State.logEvent_pollT (s : State) (e : LogEvent) : (s.logEvent e).pollT = s.pollT := rfl
@[simp] theorem State.logEvent_now (s : State) (e : LogEvent) : (s.logEvent e).now = s.now := rfl
@[simp] theorem State.logEvent_rx (s : State) (e : LogEvent) : (s.logEvent e).rx = s.rx := rfl
@[simp] theorem State.logEvent_regv (s : State) (e : LogEvent) : (s.logEvent e).regv = s.regv := rfl
@[simp] theorem State.logEvent_decF (s : State) (e : LogEvent) : (s.logEvent e).decF = s.decF := rfl
@[simp] theorem State.logEvent_avgC (s : State) (e : LogEvent) : (s.logEvent e).avgC = s.avgC := rfl
@[simp] theorem State.logEvent_ax (s : State) (e : LogEvent) : (s.logEvent e).ax = s.ax := rfl
@[simp] theorem State.logEvent_i (s : State) (e : LogEvent) : (s.logEvent e).i = s.i := rfl
@[simp] theorem State.logEvent_b (s : State) (e : LogEvent) : (s.logEvent e).b = s.b := rfl
@[simp] theorem State.logEvent_w (s : State) (e : LogEvent) : (s.logEvent e).w = s.w := rfl
@[simp] theorem State.logEvent_k (s : State) (e : LogEvent) : (s.logEvent e).k = s.k := rfl
@[simp] theorem State.logEvent_mem (s : State) (e : LogEvent) : (s.logEvent e).mem = s.mem := rfl
@[simp] theorem State.logEvent_rspValid (s : State) (e : LogEvent) : (s.logEvent e).rspValid = s.rspValid := rfl
@[simp] theorem State.logEvent_rspStatus (s : State) (e : LogEvent) : (s.logEvent e).rspStatus = s.rspStatus := rfl
@[simp] theorem State.logEvent_rspData (s : State) (e : LogEvent) : (s.logEvent e).rspData = s.rspData := rfl
@[simp] theorem State.logEvent_lastErr (s : State) (e : LogEvent) : (s.logEvent e).lastErr = s.lastErr := rfl
@[simp] theorem State.logEvent_batches (s : State) (e : LogEvent) : (s.logEvent e).batches = s.batches := rfl
@[simp] theorem State.logEvent_log (s : State) (e : LogEvent) : (s.logEvent e).log = s.log ++ [⟨e, s.now⟩] := rfl
@[simp] theorem State.logEvent_hist (s : State) (e : LogEvent) : (s.logEvent e).hist = s.hist := rfl
@[simp] theorem State.logEvent_misuse (s : State) (e : LogEvent) : (s.logEvent e).misuse = s.misuse := rfl
@[simp] theorem State.logEvent_out (s : State) (e : LogEvent) : (s.logEvent e).out = s.out := rfl
@[simp] theorem State.logEvent_presented (s : State) (e : LogEvent) : (s.logEvent e).presented = s.presented := rfl
@[simp] theorem State.logEvent_turns (s : State) (e : LogEvent) : (s.logEvent e).turns = s.turns := rfl
@[simp] theorem State.logEvent_draws (s : State) (e : LogEvent) : (s.logEvent e).draws = s.draws := rfl
@[simp] theorem State.logEvent_past (s : State) (e : LogEvent) : (s.logEvent e).past = s.past := rfl
@[simp] theorem State.logEvent_opens (s : State) (e : LogEvent) : (s.logEvent e).opens = s.opens := rfl
@[simp] theorem State.logEvent_readies (s : State) (e : LogEvent) : (s.logEvent e).readies = s.readies := rfl
@[simp] theorem State.logEvent_answers (s : State) (e : LogEvent) : (s.logEvent e).answers = s.answers := rfl

/-! ### `respond` -/

@[simp] theorem State.respond_params (s : State) (c : Status) (d : Half) : (s.respond c d).params = s.params := rfl
@[simp] theorem State.respond_fsm (s : State) (c : Status) (d : Half) : (s.respond c d).fsm = s.fsm := rfl
@[simp] theorem State.respond_mode (s : State) (c : Status) (d : Half) : (s.respond c d).mode = s.mode := rfl
@[simp] theorem State.respond_linesOpen (s : State) (c : Status) (d : Half) : (s.respond c d).linesOpen = s.linesOpen := rfl
@[simp] theorem State.respond_rstO (s : State) (c : Status) (d : Half) : (s.respond c d).rstO = s.rstO := rfl
@[simp] theorem State.respond_cmd (s : State) (c : Status) (d : Half) : (s.respond c d).cmd = none := rfl
@[simp] theorem State.respond_upc (s : State) (c : Status) (d : Half) : (s.respond c d).upc = 0 := rfl
@[simp] theorem State.respond_settle (s : State) (c : Status) (d : Half) : (s.respond c d).settle = s.settle := rfl
@[simp] theorem State.respond_dly (s : State) (c : Status) (d : Half) : (s.respond c d).dly = s.dly := rfl
@[simp] theorem State.respond_pollT (s : State) (c : Status) (d : Half) : (s.respond c d).pollT = s.pollT := rfl
@[simp] theorem State.respond_now (s : State) (c : Status) (d : Half) : (s.respond c d).now = s.now := rfl
@[simp] theorem State.respond_rx (s : State) (c : Status) (d : Half) : (s.respond c d).rx = s.rx := rfl
@[simp] theorem State.respond_regv (s : State) (c : Status) (d : Half) : (s.respond c d).regv = s.regv := rfl
@[simp] theorem State.respond_decF (s : State) (c : Status) (d : Half) : (s.respond c d).decF = s.decF := rfl
@[simp] theorem State.respond_avgC (s : State) (c : Status) (d : Half) : (s.respond c d).avgC = s.avgC := rfl
@[simp] theorem State.respond_ax (s : State) (c : Status) (d : Half) : (s.respond c d).ax = s.ax := rfl
@[simp] theorem State.respond_i (s : State) (c : Status) (d : Half) : (s.respond c d).i = s.i := rfl
@[simp] theorem State.respond_b (s : State) (c : Status) (d : Half) : (s.respond c d).b = s.b := rfl
@[simp] theorem State.respond_w (s : State) (c : Status) (d : Half) : (s.respond c d).w = s.w := rfl
@[simp] theorem State.respond_k (s : State) (c : Status) (d : Half) : (s.respond c d).k = s.k := rfl
@[simp] theorem State.respond_mem (s : State) (c : Status) (d : Half) : (s.respond c d).mem = s.mem := rfl
@[simp] theorem State.respond_rspValid (s : State) (c : Status) (d : Half) : (s.respond c d).rspValid = true := rfl
@[simp] theorem State.respond_rspStatus (s : State) (c : Status) (d : Half) : (s.respond c d).rspStatus = c := rfl
@[simp] theorem State.respond_rspData (s : State) (c : Status) (d : Half) : (s.respond c d).rspData = d := rfl
@[simp] theorem State.respond_lastErr (s : State) (c : Status) (d : Half) : (s.respond c d).lastErr = s.lastErr := rfl
@[simp] theorem State.respond_batches (s : State) (c : Status) (d : Half) : (s.respond c d).batches = s.batches := rfl
@[simp] theorem State.respond_log (s : State) (c : Status) (d : Half) : (s.respond c d).log = s.log := rfl
@[simp] theorem State.respond_hist (s : State) (c : Status) (d : Half) : (s.respond c d).hist = s.hist := rfl
@[simp] theorem State.respond_misuse (s : State) (c : Status) (d : Half) : (s.respond c d).misuse = s.misuse := rfl
@[simp] theorem State.respond_out (s : State) (c : Status) (d : Half) : (s.respond c d).out = none := rfl
@[simp] theorem State.respond_presented (s : State) (c : Status) (d : Half) : (s.respond c d).presented = s.presented := rfl
@[simp] theorem State.respond_turns (s : State) (c : Status) (d : Half) : (s.respond c d).turns = s.turns := rfl
@[simp] theorem State.respond_draws (s : State) (c : Status) (d : Half) : (s.respond c d).draws = s.draws := rfl
@[simp] theorem State.respond_past (s : State) (c : Status) (d : Half) : (s.respond c d).past = s.past := rfl
@[simp] theorem State.respond_opens (s : State) (c : Status) (d : Half) : (s.respond c d).opens = s.opens := rfl
@[simp] theorem State.respond_readies (s : State) (c : Status) (d : Half) : (s.respond c d).readies = s.readies := rfl
@[simp] theorem State.respond_answers (s : State) (c : Status) (d : Half) : (s.respond c d).answers = s.answers := rfl

/-! ### `memWrite` -/

@[simp] theorem State.memWrite_params (s : State) (r : BufRef) (v : Half) : (s.memWrite r v).params = s.params := rfl
@[simp] theorem State.memWrite_fsm (s : State) (r : BufRef) (v : Half) : (s.memWrite r v).fsm = s.fsm := rfl
@[simp] theorem State.memWrite_mode (s : State) (r : BufRef) (v : Half) : (s.memWrite r v).mode = s.mode := rfl
@[simp] theorem State.memWrite_linesOpen (s : State) (r : BufRef) (v : Half) : (s.memWrite r v).linesOpen = s.linesOpen := rfl
@[simp] theorem State.memWrite_rstO (s : State) (r : BufRef) (v : Half) : (s.memWrite r v).rstO = s.rstO := rfl
@[simp] theorem State.memWrite_cmd (s : State) (r : BufRef) (v : Half) : (s.memWrite r v).cmd = s.cmd := rfl
@[simp] theorem State.memWrite_upc (s : State) (r : BufRef) (v : Half) : (s.memWrite r v).upc = s.upc := rfl
@[simp] theorem State.memWrite_settle (s : State) (r : BufRef) (v : Half) : (s.memWrite r v).settle = s.settle := rfl
@[simp] theorem State.memWrite_dly (s : State) (r : BufRef) (v : Half) : (s.memWrite r v).dly = s.dly := rfl
@[simp] theorem State.memWrite_pollT (s : State) (r : BufRef) (v : Half) : (s.memWrite r v).pollT = s.pollT := rfl
@[simp] theorem State.memWrite_now (s : State) (r : BufRef) (v : Half) : (s.memWrite r v).now = s.now := rfl
@[simp] theorem State.memWrite_rx (s : State) (r : BufRef) (v : Half) : (s.memWrite r v).rx = s.rx := rfl
@[simp] theorem State.memWrite_regv (s : State) (r : BufRef) (v : Half) : (s.memWrite r v).regv = s.regv := rfl
@[simp] theorem State.memWrite_decF (s : State) (r : BufRef) (v : Half) : (s.memWrite r v).decF = s.decF := rfl
@[simp] theorem State.memWrite_avgC (s : State) (r : BufRef) (v : Half) : (s.memWrite r v).avgC = s.avgC := rfl
@[simp] theorem State.memWrite_ax (s : State) (r : BufRef) (v : Half) : (s.memWrite r v).ax = s.ax := rfl
@[simp] theorem State.memWrite_i (s : State) (r : BufRef) (v : Half) : (s.memWrite r v).i = s.i := rfl
@[simp] theorem State.memWrite_b (s : State) (r : BufRef) (v : Half) : (s.memWrite r v).b = s.b := rfl
@[simp] theorem State.memWrite_w (s : State) (r : BufRef) (v : Half) : (s.memWrite r v).w = s.w := rfl
@[simp] theorem State.memWrite_k (s : State) (r : BufRef) (v : Half) : (s.memWrite r v).k = s.k := rfl
@[simp] theorem State.memWrite_mem (s : State) (r : BufRef) (v : Half) : (s.memWrite r v).mem = Memory.writeWord s.mem r v := rfl
@[simp] theorem State.memWrite_rspValid (s : State) (r : BufRef) (v : Half) : (s.memWrite r v).rspValid = s.rspValid := rfl
@[simp] theorem State.memWrite_rspStatus (s : State) (r : BufRef) (v : Half) : (s.memWrite r v).rspStatus = s.rspStatus := rfl
@[simp] theorem State.memWrite_rspData (s : State) (r : BufRef) (v : Half) : (s.memWrite r v).rspData = s.rspData := rfl
@[simp] theorem State.memWrite_lastErr (s : State) (r : BufRef) (v : Half) : (s.memWrite r v).lastErr = s.lastErr := rfl
@[simp] theorem State.memWrite_batches (s : State) (r : BufRef) (v : Half) : (s.memWrite r v).batches = s.batches := rfl
@[simp] theorem State.memWrite_log (s : State) (r : BufRef) (v : Half) : (s.memWrite r v).log = s.log := rfl
@[simp] theorem State.memWrite_hist (s : State) (r : BufRef) (v : Half) : (s.memWrite r v).hist = s.hist := rfl
@[simp] theorem State.memWrite_misuse (s : State) (r : BufRef) (v : Half) : (s.memWrite r v).misuse = s.misuse := rfl
@[simp] theorem State.memWrite_out (s : State) (r : BufRef) (v : Half) : (s.memWrite r v).out = s.out := rfl
@[simp] theorem State.memWrite_presented (s : State) (r : BufRef) (v : Half) : (s.memWrite r v).presented = s.presented := rfl
@[simp] theorem State.memWrite_turns (s : State) (r : BufRef) (v : Half) : (s.memWrite r v).turns = s.turns := rfl
@[simp] theorem State.memWrite_draws (s : State) (r : BufRef) (v : Half) : (s.memWrite r v).draws = s.draws := rfl
@[simp] theorem State.memWrite_past (s : State) (r : BufRef) (v : Half) : (s.memWrite r v).past = s.past := rfl
@[simp] theorem State.memWrite_opens (s : State) (r : BufRef) (v : Half) : (s.memWrite r v).opens = s.opens := rfl
@[simp] theorem State.memWrite_readies (s : State) (r : BufRef) (v : Half) : (s.memWrite r v).readies = s.readies := rfl
@[simp] theorem State.memWrite_answers (s : State) (r : BufRef) (v : Half) : (s.memWrite r v).answers = s.answers := rfl

/-! ### `closeLink` -/

@[simp] theorem State.closeLink_params (s : State) : s.closeLink.params = s.params := rfl
@[simp] theorem State.closeLink_fsm (s : State) : s.closeLink.fsm = s.fsm := rfl
@[simp] theorem State.closeLink_mode (s : State) : s.closeLink.mode = s.mode := rfl
@[simp] theorem State.closeLink_linesOpen (s : State) : s.closeLink.linesOpen = false := rfl
@[simp] theorem State.closeLink_rstO (s : State) : s.closeLink.rstO = none := rfl
@[simp] theorem State.closeLink_cmd (s : State) : s.closeLink.cmd = s.cmd := rfl
@[simp] theorem State.closeLink_upc (s : State) : s.closeLink.upc = s.upc := rfl
@[simp] theorem State.closeLink_settle (s : State) : s.closeLink.settle = s.settle := rfl
@[simp] theorem State.closeLink_dly (s : State) : s.closeLink.dly = s.dly := rfl
@[simp] theorem State.closeLink_pollT (s : State) : s.closeLink.pollT = s.pollT := rfl
@[simp] theorem State.closeLink_now (s : State) : s.closeLink.now = s.now := rfl
@[simp] theorem State.closeLink_rx (s : State) : s.closeLink.rx = s.rx := rfl
@[simp] theorem State.closeLink_regv (s : State) : s.closeLink.regv = s.regv := rfl
@[simp] theorem State.closeLink_decF (s : State) : s.closeLink.decF = s.decF := rfl
@[simp] theorem State.closeLink_avgC (s : State) : s.closeLink.avgC = s.avgC := rfl
@[simp] theorem State.closeLink_ax (s : State) : s.closeLink.ax = s.ax := rfl
@[simp] theorem State.closeLink_i (s : State) : s.closeLink.i = s.i := rfl
@[simp] theorem State.closeLink_b (s : State) : s.closeLink.b = s.b := rfl
@[simp] theorem State.closeLink_w (s : State) : s.closeLink.w = s.w := rfl
@[simp] theorem State.closeLink_k (s : State) : s.closeLink.k = s.k := rfl
@[simp] theorem State.closeLink_mem (s : State) : s.closeLink.mem = s.mem := rfl
@[simp] theorem State.closeLink_rspValid (s : State) : s.closeLink.rspValid = s.rspValid := rfl
@[simp] theorem State.closeLink_rspStatus (s : State) : s.closeLink.rspStatus = s.rspStatus := rfl
@[simp] theorem State.closeLink_rspData (s : State) : s.closeLink.rspData = s.rspData := rfl
@[simp] theorem State.closeLink_lastErr (s : State) : s.closeLink.lastErr = s.lastErr := rfl
@[simp] theorem State.closeLink_batches (s : State) : s.closeLink.batches = s.batches := rfl
@[simp] theorem State.closeLink_log (s : State) : s.closeLink.log = s.log := rfl
@[simp] theorem State.closeLink_hist (s : State) : s.closeLink.hist = s.hist ++ [⟨.closed, s.now⟩] := rfl
@[simp] theorem State.closeLink_misuse (s : State) : s.closeLink.misuse = s.misuse := rfl
@[simp] theorem State.closeLink_out (s : State) : s.closeLink.out = s.out := rfl
@[simp] theorem State.closeLink_presented (s : State) : s.closeLink.presented = s.presented := rfl
@[simp] theorem State.closeLink_turns (s : State) : s.closeLink.turns = s.turns := rfl
@[simp] theorem State.closeLink_draws (s : State) : s.closeLink.draws = s.draws := rfl
@[simp] theorem State.closeLink_past (s : State) : s.closeLink.past = s.past := rfl
@[simp] theorem State.closeLink_opens (s : State) : s.closeLink.opens = s.opens := rfl
@[simp] theorem State.closeLink_readies (s : State) : s.closeLink.readies = s.readies := rfl
@[simp] theorem State.closeLink_answers (s : State) : s.closeLink.answers = s.answers := rfl

/-! ### `setRst` -/

@[simp] theorem State.setRst_params (s : State) (l : Bool) : (s.setRst l).params = s.params := rfl
@[simp] theorem State.setRst_fsm (s : State) (l : Bool) : (s.setRst l).fsm = s.fsm := rfl
@[simp] theorem State.setRst_mode (s : State) (l : Bool) : (s.setRst l).mode = s.mode := rfl
@[simp] theorem State.setRst_linesOpen (s : State) (l : Bool) : (s.setRst l).linesOpen = s.linesOpen := rfl
@[simp] theorem State.setRst_rstO (s : State) (l : Bool) : (s.setRst l).rstO = some l := rfl
@[simp] theorem State.setRst_cmd (s : State) (l : Bool) : (s.setRst l).cmd = s.cmd := rfl
@[simp] theorem State.setRst_upc (s : State) (l : Bool) : (s.setRst l).upc = s.upc := rfl
@[simp] theorem State.setRst_settle (s : State) (l : Bool) : (s.setRst l).settle = s.settle := rfl
@[simp] theorem State.setRst_dly (s : State) (l : Bool) : (s.setRst l).dly = s.dly := rfl
@[simp] theorem State.setRst_pollT (s : State) (l : Bool) : (s.setRst l).pollT = s.pollT := rfl
@[simp] theorem State.setRst_now (s : State) (l : Bool) : (s.setRst l).now = s.now := rfl
@[simp] theorem State.setRst_rx (s : State) (l : Bool) : (s.setRst l).rx = s.rx := rfl
@[simp] theorem State.setRst_regv (s : State) (l : Bool) : (s.setRst l).regv = s.regv := rfl
@[simp] theorem State.setRst_decF (s : State) (l : Bool) : (s.setRst l).decF = s.decF := rfl
@[simp] theorem State.setRst_avgC (s : State) (l : Bool) : (s.setRst l).avgC = s.avgC := rfl
@[simp] theorem State.setRst_ax (s : State) (l : Bool) : (s.setRst l).ax = s.ax := rfl
@[simp] theorem State.setRst_i (s : State) (l : Bool) : (s.setRst l).i = s.i := rfl
@[simp] theorem State.setRst_b (s : State) (l : Bool) : (s.setRst l).b = s.b := rfl
@[simp] theorem State.setRst_w (s : State) (l : Bool) : (s.setRst l).w = s.w := rfl
@[simp] theorem State.setRst_k (s : State) (l : Bool) : (s.setRst l).k = s.k := rfl
@[simp] theorem State.setRst_mem (s : State) (l : Bool) : (s.setRst l).mem = s.mem := rfl
@[simp] theorem State.setRst_rspValid (s : State) (l : Bool) : (s.setRst l).rspValid = s.rspValid := rfl
@[simp] theorem State.setRst_rspStatus (s : State) (l : Bool) : (s.setRst l).rspStatus = s.rspStatus := rfl
@[simp] theorem State.setRst_rspData (s : State) (l : Bool) : (s.setRst l).rspData = s.rspData := rfl
@[simp] theorem State.setRst_lastErr (s : State) (l : Bool) : (s.setRst l).lastErr = s.lastErr := rfl
@[simp] theorem State.setRst_batches (s : State) (l : Bool) : (s.setRst l).batches = s.batches := rfl
@[simp] theorem State.setRst_log (s : State) (l : Bool) : (s.setRst l).log = s.log := rfl
@[simp] theorem State.setRst_hist (s : State) (l : Bool) : (s.setRst l).hist = s.hist ++ [⟨.rst l, s.now⟩] := rfl
@[simp] theorem State.setRst_misuse (s : State) (l : Bool) : (s.setRst l).misuse = s.misuse := rfl
@[simp] theorem State.setRst_out (s : State) (l : Bool) : (s.setRst l).out = s.out := rfl
@[simp] theorem State.setRst_presented (s : State) (l : Bool) : (s.setRst l).presented = s.presented := rfl
@[simp] theorem State.setRst_turns (s : State) (l : Bool) : (s.setRst l).turns = s.turns := rfl
@[simp] theorem State.setRst_draws (s : State) (l : Bool) : (s.setRst l).draws = s.draws := rfl
@[simp] theorem State.setRst_past (s : State) (l : Bool) : (s.setRst l).past = s.past := rfl
@[simp] theorem State.setRst_opens (s : State) (l : Bool) : (s.setRst l).opens = s.opens := rfl
@[simp] theorem State.setRst_readies (s : State) (l : Bool) : (s.setRst l).readies = s.readies := rfl
@[simp] theorem State.setRst_answers (s : State) (l : Bool) : (s.setRst l).answers = s.answers := rfl

/-! ### `refuseRead` -/

@[simp] theorem State.refuseRead_params (s : State) (r : RegAddr) : (s.refuseRead r).params = s.params := rfl
@[simp] theorem State.refuseRead_fsm (s : State) (r : RegAddr) : (s.refuseRead r).fsm = s.fsm := rfl
@[simp] theorem State.refuseRead_mode (s : State) (r : RegAddr) : (s.refuseRead r).mode = s.mode := rfl
@[simp] theorem State.refuseRead_linesOpen (s : State) (r : RegAddr) : (s.refuseRead r).linesOpen = s.linesOpen := rfl
@[simp] theorem State.refuseRead_rstO (s : State) (r : RegAddr) : (s.refuseRead r).rstO = s.rstO := rfl
@[simp] theorem State.refuseRead_cmd (s : State) (r : RegAddr) : (s.refuseRead r).cmd = s.cmd := rfl
@[simp] theorem State.refuseRead_upc (s : State) (r : RegAddr) : (s.refuseRead r).upc = s.upc := rfl
@[simp] theorem State.refuseRead_settle (s : State) (r : RegAddr) : (s.refuseRead r).settle = s.settle := rfl
@[simp] theorem State.refuseRead_dly (s : State) (r : RegAddr) : (s.refuseRead r).dly = s.dly := rfl
@[simp] theorem State.refuseRead_pollT (s : State) (r : RegAddr) : (s.refuseRead r).pollT = s.pollT := rfl
@[simp] theorem State.refuseRead_now (s : State) (r : RegAddr) : (s.refuseRead r).now = s.now := rfl
@[simp] theorem State.refuseRead_rx (s : State) (r : RegAddr) : (s.refuseRead r).rx = s.rx := rfl
@[simp] theorem State.refuseRead_regv (s : State) (r : RegAddr) : (s.refuseRead r).regv = 0 := rfl
@[simp] theorem State.refuseRead_decF (s : State) (r : RegAddr) : (s.refuseRead r).decF = s.decF := rfl
@[simp] theorem State.refuseRead_avgC (s : State) (r : RegAddr) : (s.refuseRead r).avgC = s.avgC := rfl
@[simp] theorem State.refuseRead_ax (s : State) (r : RegAddr) : (s.refuseRead r).ax = s.ax := rfl
@[simp] theorem State.refuseRead_i (s : State) (r : RegAddr) : (s.refuseRead r).i = s.i := rfl
@[simp] theorem State.refuseRead_b (s : State) (r : RegAddr) : (s.refuseRead r).b = s.b := rfl
@[simp] theorem State.refuseRead_w (s : State) (r : RegAddr) : (s.refuseRead r).w = s.w := rfl
@[simp] theorem State.refuseRead_k (s : State) (r : RegAddr) : (s.refuseRead r).k = s.k := rfl
@[simp] theorem State.refuseRead_mem (s : State) (r : RegAddr) : (s.refuseRead r).mem = s.mem := rfl
@[simp] theorem State.refuseRead_rspValid (s : State) (r : RegAddr) : (s.refuseRead r).rspValid = s.rspValid := rfl
@[simp] theorem State.refuseRead_rspStatus (s : State) (r : RegAddr) : (s.refuseRead r).rspStatus = s.rspStatus := rfl
@[simp] theorem State.refuseRead_rspData (s : State) (r : RegAddr) : (s.refuseRead r).rspData = s.rspData := rfl
@[simp] theorem State.refuseRead_lastErr (s : State) (r : RegAddr) : (s.refuseRead r).lastErr = ⟨.protocolMisuse, r.page, addr8 r, 0, 0⟩ := rfl
@[simp] theorem State.refuseRead_batches (s : State) (r : RegAddr) : (s.refuseRead r).batches = s.batches := rfl
@[simp] theorem State.refuseRead_log (s : State) (r : RegAddr) : (s.refuseRead r).log = s.log ++ [⟨.misuseRead r.page (addr8 r), s.now⟩] := rfl
@[simp] theorem State.refuseRead_hist (s : State) (r : RegAddr) : (s.refuseRead r).hist = s.hist := rfl
@[simp] theorem State.refuseRead_misuse (s : State) (r : RegAddr) : (s.refuseRead r).misuse = true := rfl
@[simp] theorem State.refuseRead_out (s : State) (r : RegAddr) : (s.refuseRead r).out = s.out := rfl
@[simp] theorem State.refuseRead_presented (s : State) (r : RegAddr) : (s.refuseRead r).presented = s.presented := rfl
@[simp] theorem State.refuseRead_turns (s : State) (r : RegAddr) : (s.refuseRead r).turns = s.turns := rfl
@[simp] theorem State.refuseRead_draws (s : State) (r : RegAddr) : (s.refuseRead r).draws = s.draws := rfl
@[simp] theorem State.refuseRead_past (s : State) (r : RegAddr) : (s.refuseRead r).past = s.past := rfl
@[simp] theorem State.refuseRead_opens (s : State) (r : RegAddr) : (s.refuseRead r).opens = s.opens := rfl
@[simp] theorem State.refuseRead_readies (s : State) (r : RegAddr) : (s.refuseRead r).readies = s.readies := rfl
@[simp] theorem State.refuseRead_answers (s : State) (r : RegAddr) : (s.refuseRead r).answers = s.answers := rfl

/-! ### `refuseWrite` -/

@[simp] theorem State.refuseWrite_params (s : State) (r : RegAddr) : (s.refuseWrite r).params = s.params := rfl
@[simp] theorem State.refuseWrite_fsm (s : State) (r : RegAddr) : (s.refuseWrite r).fsm = s.fsm := rfl
@[simp] theorem State.refuseWrite_mode (s : State) (r : RegAddr) : (s.refuseWrite r).mode = s.mode := rfl
@[simp] theorem State.refuseWrite_linesOpen (s : State) (r : RegAddr) : (s.refuseWrite r).linesOpen = s.linesOpen := rfl
@[simp] theorem State.refuseWrite_rstO (s : State) (r : RegAddr) : (s.refuseWrite r).rstO = s.rstO := rfl
@[simp] theorem State.refuseWrite_cmd (s : State) (r : RegAddr) : (s.refuseWrite r).cmd = s.cmd := rfl
@[simp] theorem State.refuseWrite_upc (s : State) (r : RegAddr) : (s.refuseWrite r).upc = s.upc := rfl
@[simp] theorem State.refuseWrite_settle (s : State) (r : RegAddr) : (s.refuseWrite r).settle = s.settle := rfl
@[simp] theorem State.refuseWrite_dly (s : State) (r : RegAddr) : (s.refuseWrite r).dly = s.dly := rfl
@[simp] theorem State.refuseWrite_pollT (s : State) (r : RegAddr) : (s.refuseWrite r).pollT = s.pollT := rfl
@[simp] theorem State.refuseWrite_now (s : State) (r : RegAddr) : (s.refuseWrite r).now = s.now := rfl
@[simp] theorem State.refuseWrite_rx (s : State) (r : RegAddr) : (s.refuseWrite r).rx = s.rx := rfl
@[simp] theorem State.refuseWrite_regv (s : State) (r : RegAddr) : (s.refuseWrite r).regv = s.regv := rfl
@[simp] theorem State.refuseWrite_decF (s : State) (r : RegAddr) : (s.refuseWrite r).decF = s.decF := rfl
@[simp] theorem State.refuseWrite_avgC (s : State) (r : RegAddr) : (s.refuseWrite r).avgC = s.avgC := rfl
@[simp] theorem State.refuseWrite_ax (s : State) (r : RegAddr) : (s.refuseWrite r).ax = s.ax := rfl
@[simp] theorem State.refuseWrite_i (s : State) (r : RegAddr) : (s.refuseWrite r).i = s.i := rfl
@[simp] theorem State.refuseWrite_b (s : State) (r : RegAddr) : (s.refuseWrite r).b = s.b := rfl
@[simp] theorem State.refuseWrite_w (s : State) (r : RegAddr) : (s.refuseWrite r).w = s.w := rfl
@[simp] theorem State.refuseWrite_k (s : State) (r : RegAddr) : (s.refuseWrite r).k = s.k := rfl
@[simp] theorem State.refuseWrite_mem (s : State) (r : RegAddr) : (s.refuseWrite r).mem = s.mem := rfl
@[simp] theorem State.refuseWrite_rspValid (s : State) (r : RegAddr) : (s.refuseWrite r).rspValid = s.rspValid := rfl
@[simp] theorem State.refuseWrite_rspStatus (s : State) (r : RegAddr) : (s.refuseWrite r).rspStatus = s.rspStatus := rfl
@[simp] theorem State.refuseWrite_rspData (s : State) (r : RegAddr) : (s.refuseWrite r).rspData = s.rspData := rfl
@[simp] theorem State.refuseWrite_lastErr (s : State) (r : RegAddr) : (s.refuseWrite r).lastErr = ⟨.protocolMisuse, r.page, addr8 r, 0, 0⟩ := rfl
@[simp] theorem State.refuseWrite_batches (s : State) (r : RegAddr) : (s.refuseWrite r).batches = s.batches := rfl
@[simp] theorem State.refuseWrite_log (s : State) (r : RegAddr) : (s.refuseWrite r).log = s.log ++ [⟨.misuseWrite r.page (addr8 r), s.now⟩] := rfl
@[simp] theorem State.refuseWrite_hist (s : State) (r : RegAddr) : (s.refuseWrite r).hist = s.hist := rfl
@[simp] theorem State.refuseWrite_misuse (s : State) (r : RegAddr) : (s.refuseWrite r).misuse = true := rfl
@[simp] theorem State.refuseWrite_out (s : State) (r : RegAddr) : (s.refuseWrite r).out = s.out := rfl
@[simp] theorem State.refuseWrite_presented (s : State) (r : RegAddr) : (s.refuseWrite r).presented = s.presented := rfl
@[simp] theorem State.refuseWrite_turns (s : State) (r : RegAddr) : (s.refuseWrite r).turns = s.turns := rfl
@[simp] theorem State.refuseWrite_draws (s : State) (r : RegAddr) : (s.refuseWrite r).draws = s.draws := rfl
@[simp] theorem State.refuseWrite_past (s : State) (r : RegAddr) : (s.refuseWrite r).past = s.past := rfl
@[simp] theorem State.refuseWrite_opens (s : State) (r : RegAddr) : (s.refuseWrite r).opens = s.opens := rfl
@[simp] theorem State.refuseWrite_readies (s : State) (r : RegAddr) : (s.refuseWrite r).readies = s.readies := rfl
@[simp] theorem State.refuseWrite_answers (s : State) (r : RegAddr) : (s.refuseWrite r).answers = s.answers := rfl

/-! ### `tick` -/

@[simp] theorem State.tick_params (s : State) : s.tick.params = s.params := rfl
@[simp] theorem State.tick_fsm (s : State) : s.tick.fsm = s.fsm := rfl
@[simp] theorem State.tick_mode (s : State) : s.tick.mode = s.mode := rfl
@[simp] theorem State.tick_linesOpen (s : State) : s.tick.linesOpen = s.linesOpen := rfl
@[simp] theorem State.tick_rstO (s : State) : s.tick.rstO = s.rstO := rfl
@[simp] theorem State.tick_cmd (s : State) : s.tick.cmd = s.cmd := rfl
@[simp] theorem State.tick_upc (s : State) : s.tick.upc = s.upc := rfl
@[simp] theorem State.tick_settle (s : State) : s.tick.settle = s.settle - 1 := rfl
@[simp] theorem State.tick_dly (s : State) : s.tick.dly = s.dly - 1 := rfl
@[simp] theorem State.tick_pollT (s : State) : s.tick.pollT = if s.polling then s.pollT + 1 else s.pollT := rfl
@[simp] theorem State.tick_now (s : State) : s.tick.now = s.now + 1 := rfl
@[simp] theorem State.tick_rx (s : State) : s.tick.rx = s.rx := rfl
@[simp] theorem State.tick_regv (s : State) : s.tick.regv = s.regv := rfl
@[simp] theorem State.tick_decF (s : State) : s.tick.decF = s.decF := rfl
@[simp] theorem State.tick_avgC (s : State) : s.tick.avgC = s.avgC := rfl
@[simp] theorem State.tick_ax (s : State) : s.tick.ax = s.ax := rfl
@[simp] theorem State.tick_i (s : State) : s.tick.i = s.i := rfl
@[simp] theorem State.tick_b (s : State) : s.tick.b = s.b := rfl
@[simp] theorem State.tick_w (s : State) : s.tick.w = s.w := rfl
@[simp] theorem State.tick_k (s : State) : s.tick.k = s.k := rfl
@[simp] theorem State.tick_mem (s : State) : s.tick.mem = s.mem := rfl
@[simp] theorem State.tick_rspValid (s : State) : s.tick.rspValid = s.rspValid := rfl
@[simp] theorem State.tick_rspStatus (s : State) : s.tick.rspStatus = s.rspStatus := rfl
@[simp] theorem State.tick_rspData (s : State) : s.tick.rspData = s.rspData := rfl
@[simp] theorem State.tick_lastErr (s : State) : s.tick.lastErr = s.lastErr := rfl
@[simp] theorem State.tick_batches (s : State) : s.tick.batches = s.batches := rfl
@[simp] theorem State.tick_log (s : State) : s.tick.log = s.log := rfl
@[simp] theorem State.tick_hist (s : State) : s.tick.hist = s.hist := rfl
@[simp] theorem State.tick_misuse (s : State) : s.tick.misuse = s.misuse := rfl
@[simp] theorem State.tick_out (s : State) : s.tick.out = s.out := rfl
@[simp] theorem State.tick_presented (s : State) : s.tick.presented = s.presented := rfl
@[simp] theorem State.tick_turns (s : State) : s.tick.turns = s.turns := rfl
@[simp] theorem State.tick_draws (s : State) : s.tick.draws = s.draws := rfl
@[simp] theorem State.tick_past (s : State) : s.tick.past = s.past := rfl
@[simp] theorem State.tick_opens (s : State) : s.tick.opens = s.opens := rfl
@[simp] theorem State.tick_readies (s : State) : s.tick.readies = s.readies := rfl
@[simp] theorem State.tick_answers (s : State) : s.tick.answers = s.answers := rfl

/-! ### `latch` -/

@[simp] theorem State.latch_params (s : State) (j : Instr) (c : CfgIn) : (s.latch j c).params = s.params := rfl
@[simp] theorem State.latch_fsm (s : State) (j : Instr) (c : CfgIn) : (s.latch j c).fsm = s.fsm := rfl
@[simp] theorem State.latch_mode (s : State) (j : Instr) (c : CfgIn) : (s.latch j c).mode = s.mode := rfl
@[simp] theorem State.latch_linesOpen (s : State) (j : Instr) (c : CfgIn) : (s.latch j c).linesOpen = s.linesOpen := rfl
@[simp] theorem State.latch_rstO (s : State) (j : Instr) (c : CfgIn) : (s.latch j c).rstO = s.rstO := rfl
@[simp] theorem State.latch_cmd (s : State) (j : Instr) (c : CfgIn) : (s.latch j c).cmd = some ⟨j, c⟩ := rfl
@[simp] theorem State.latch_upc (s : State) (j : Instr) (c : CfgIn) : (s.latch j c).upc = 0 := rfl
@[simp] theorem State.latch_settle (s : State) (j : Instr) (c : CfgIn) : (s.latch j c).settle = s.settle := rfl
@[simp] theorem State.latch_dly (s : State) (j : Instr) (c : CfgIn) : (s.latch j c).dly = s.dly := rfl
@[simp] theorem State.latch_pollT (s : State) (j : Instr) (c : CfgIn) : (s.latch j c).pollT = s.pollT := rfl
@[simp] theorem State.latch_now (s : State) (j : Instr) (c : CfgIn) : (s.latch j c).now = s.now := rfl
@[simp] theorem State.latch_rx (s : State) (j : Instr) (c : CfgIn) : (s.latch j c).rx = s.rx := rfl
@[simp] theorem State.latch_regv (s : State) (j : Instr) (c : CfgIn) : (s.latch j c).regv = s.regv := rfl
@[simp] theorem State.latch_decF (s : State) (j : Instr) (c : CfgIn) : (s.latch j c).decF = s.decF := rfl
@[simp] theorem State.latch_avgC (s : State) (j : Instr) (c : CfgIn) : (s.latch j c).avgC = s.avgC := rfl
@[simp] theorem State.latch_ax (s : State) (j : Instr) (c : CfgIn) : (s.latch j c).ax = s.ax := rfl
@[simp] theorem State.latch_i (s : State) (j : Instr) (c : CfgIn) : (s.latch j c).i = s.i := rfl
@[simp] theorem State.latch_b (s : State) (j : Instr) (c : CfgIn) : (s.latch j c).b = s.b := rfl
@[simp] theorem State.latch_w (s : State) (j : Instr) (c : CfgIn) : (s.latch j c).w = s.w := rfl
@[simp] theorem State.latch_k (s : State) (j : Instr) (c : CfgIn) : (s.latch j c).k = s.k := rfl
@[simp] theorem State.latch_mem (s : State) (j : Instr) (c : CfgIn) : (s.latch j c).mem = s.mem := rfl
@[simp] theorem State.latch_rspValid (s : State) (j : Instr) (c : CfgIn) : (s.latch j c).rspValid = s.rspValid := rfl
@[simp] theorem State.latch_rspStatus (s : State) (j : Instr) (c : CfgIn) : (s.latch j c).rspStatus = s.rspStatus := rfl
@[simp] theorem State.latch_rspData (s : State) (j : Instr) (c : CfgIn) : (s.latch j c).rspData = s.rspData := rfl
@[simp] theorem State.latch_lastErr (s : State) (j : Instr) (c : CfgIn) : (s.latch j c).lastErr = s.lastErr := rfl
@[simp] theorem State.latch_batches (s : State) (j : Instr) (c : CfgIn) : (s.latch j c).batches = s.batches := rfl
@[simp] theorem State.latch_log (s : State) (j : Instr) (c : CfgIn) : (s.latch j c).log = s.log := rfl
@[simp] theorem State.latch_hist (s : State) (j : Instr) (c : CfgIn) : (s.latch j c).hist = s.hist := rfl
@[simp] theorem State.latch_misuse (s : State) (j : Instr) (c : CfgIn) : (s.latch j c).misuse = false := rfl
@[simp] theorem State.latch_out (s : State) (j : Instr) (c : CfgIn) : (s.latch j c).out = s.out := rfl
@[simp] theorem State.latch_presented (s : State) (j : Instr) (c : CfgIn) : (s.latch j c).presented = s.presented := rfl
@[simp] theorem State.latch_turns (s : State) (j : Instr) (c : CfgIn) : (s.latch j c).turns = s.turns := rfl
@[simp] theorem State.latch_draws (s : State) (j : Instr) (c : CfgIn) : (s.latch j c).draws = s.draws := rfl
@[simp] theorem State.latch_past (s : State) (j : Instr) (c : CfgIn) : (s.latch j c).past = s.past := rfl
@[simp] theorem State.latch_opens (s : State) (j : Instr) (c : CfgIn) : (s.latch j c).opens = s.opens := rfl
@[simp] theorem State.latch_readies (s : State) (j : Instr) (c : CfgIn) : (s.latch j c).readies = s.readies := rfl
@[simp] theorem State.latch_answers (s : State) (j : Instr) (c : CfgIn) : (s.latch j c).answers = s.answers := rfl

/-! ### `takePresented` -/

@[simp] theorem State.takePresented_params (s : State) (l : List Presented) : (s.takePresented l).params = s.params := rfl
@[simp] theorem State.takePresented_fsm (s : State) (l : List Presented) : (s.takePresented l).fsm = s.fsm := rfl
@[simp] theorem State.takePresented_mode (s : State) (l : List Presented) : (s.takePresented l).mode = s.mode := rfl
@[simp] theorem State.takePresented_linesOpen (s : State) (l : List Presented) : (s.takePresented l).linesOpen = s.linesOpen := rfl
@[simp] theorem State.takePresented_rstO (s : State) (l : List Presented) : (s.takePresented l).rstO = s.rstO := rfl
@[simp] theorem State.takePresented_cmd (s : State) (l : List Presented) : (s.takePresented l).cmd = s.cmd := rfl
@[simp] theorem State.takePresented_upc (s : State) (l : List Presented) : (s.takePresented l).upc = s.upc := rfl
@[simp] theorem State.takePresented_settle (s : State) (l : List Presented) : (s.takePresented l).settle = s.settle := rfl
@[simp] theorem State.takePresented_dly (s : State) (l : List Presented) : (s.takePresented l).dly = s.dly := rfl
@[simp] theorem State.takePresented_pollT (s : State) (l : List Presented) : (s.takePresented l).pollT = s.pollT := rfl
@[simp] theorem State.takePresented_now (s : State) (l : List Presented) : (s.takePresented l).now = s.now := rfl
@[simp] theorem State.takePresented_rx (s : State) (l : List Presented) : (s.takePresented l).rx = s.rx := rfl
@[simp] theorem State.takePresented_regv (s : State) (l : List Presented) : (s.takePresented l).regv = s.regv := rfl
@[simp] theorem State.takePresented_decF (s : State) (l : List Presented) : (s.takePresented l).decF = s.decF := rfl
@[simp] theorem State.takePresented_avgC (s : State) (l : List Presented) : (s.takePresented l).avgC = s.avgC := rfl
@[simp] theorem State.takePresented_ax (s : State) (l : List Presented) : (s.takePresented l).ax = s.ax := rfl
@[simp] theorem State.takePresented_i (s : State) (l : List Presented) : (s.takePresented l).i = s.i := rfl
@[simp] theorem State.takePresented_b (s : State) (l : List Presented) : (s.takePresented l).b = s.b := rfl
@[simp] theorem State.takePresented_w (s : State) (l : List Presented) : (s.takePresented l).w = s.w := rfl
@[simp] theorem State.takePresented_k (s : State) (l : List Presented) : (s.takePresented l).k = s.k := rfl
@[simp] theorem State.takePresented_mem (s : State) (l : List Presented) : (s.takePresented l).mem = s.mem := rfl
@[simp] theorem State.takePresented_rspValid (s : State) (l : List Presented) : (s.takePresented l).rspValid = false := rfl
@[simp] theorem State.takePresented_rspStatus (s : State) (l : List Presented) : (s.takePresented l).rspStatus = s.rspStatus := rfl
@[simp] theorem State.takePresented_rspData (s : State) (l : List Presented) : (s.takePresented l).rspData = s.rspData := rfl
@[simp] theorem State.takePresented_lastErr (s : State) (l : List Presented) : (s.takePresented l).lastErr = s.lastErr := rfl
@[simp] theorem State.takePresented_batches (s : State) (l : List Presented) : (s.takePresented l).batches = s.batches := rfl
@[simp] theorem State.takePresented_log (s : State) (l : List Presented) : (s.takePresented l).log = s.log := rfl
@[simp] theorem State.takePresented_hist (s : State) (l : List Presented) : (s.takePresented l).hist = s.hist := rfl
@[simp] theorem State.takePresented_misuse (s : State) (l : List Presented) : (s.takePresented l).misuse = s.misuse := rfl
@[simp] theorem State.takePresented_out (s : State) (l : List Presented) : (s.takePresented l).out = s.out := rfl
@[simp] theorem State.takePresented_presented (s : State) (l : List Presented) : (s.takePresented l).presented = l := rfl
@[simp] theorem State.takePresented_turns (s : State) (l : List Presented) : (s.takePresented l).turns = s.turns := rfl
@[simp] theorem State.takePresented_draws (s : State) (l : List Presented) : (s.takePresented l).draws = s.draws := rfl
@[simp] theorem State.takePresented_past (s : State) (l : List Presented) : (s.takePresented l).past = s.past := rfl
@[simp] theorem State.takePresented_opens (s : State) (l : List Presented) : (s.takePresented l).opens = s.opens := rfl
@[simp] theorem State.takePresented_readies (s : State) (l : List Presented) : (s.takePresented l).readies = s.readies := rfl
@[simp] theorem State.takePresented_answers (s : State) (l : List Presented) : (s.takePresented l).answers = s.answers := rfl

/-! ### `coreReset` -/

@[simp] theorem State.coreReset_params (s : State) : s.coreReset.params = s.params := rfl
@[simp] theorem State.coreReset_fsm (s : State) : s.coreReset.fsm = (State.resetWith s.params).fsm := rfl
@[simp] theorem State.coreReset_mode (s : State) : s.coreReset.mode = (State.resetWith s.params).mode := rfl
@[simp] theorem State.coreReset_linesOpen (s : State) : s.coreReset.linesOpen = (State.resetWith s.params).linesOpen := rfl
@[simp] theorem State.coreReset_rstO (s : State) : s.coreReset.rstO = (State.resetWith s.params).rstO := rfl
@[simp] theorem State.coreReset_cmd (s : State) : s.coreReset.cmd = (State.resetWith s.params).cmd := rfl
@[simp] theorem State.coreReset_upc (s : State) : s.coreReset.upc = (State.resetWith s.params).upc := rfl
@[simp] theorem State.coreReset_settle (s : State) : s.coreReset.settle = (State.resetWith s.params).settle := rfl
@[simp] theorem State.coreReset_dly (s : State) : s.coreReset.dly = (State.resetWith s.params).dly := rfl
@[simp] theorem State.coreReset_pollT (s : State) : s.coreReset.pollT = (State.resetWith s.params).pollT := rfl
@[simp] theorem State.coreReset_now (s : State) : s.coreReset.now = (State.resetWith s.params).now := rfl
@[simp] theorem State.coreReset_rx (s : State) : s.coreReset.rx = (State.resetWith s.params).rx := rfl
@[simp] theorem State.coreReset_regv (s : State) : s.coreReset.regv = (State.resetWith s.params).regv := rfl
@[simp] theorem State.coreReset_decF (s : State) : s.coreReset.decF = (State.resetWith s.params).decF := rfl
@[simp] theorem State.coreReset_avgC (s : State) : s.coreReset.avgC = (State.resetWith s.params).avgC := rfl
@[simp] theorem State.coreReset_ax (s : State) : s.coreReset.ax = (State.resetWith s.params).ax := rfl
@[simp] theorem State.coreReset_i (s : State) : s.coreReset.i = (State.resetWith s.params).i := rfl
@[simp] theorem State.coreReset_b (s : State) : s.coreReset.b = (State.resetWith s.params).b := rfl
@[simp] theorem State.coreReset_w (s : State) : s.coreReset.w = (State.resetWith s.params).w := rfl
@[simp] theorem State.coreReset_k (s : State) : s.coreReset.k = (State.resetWith s.params).k := rfl
@[simp] theorem State.coreReset_mem (s : State) : s.coreReset.mem = (State.resetWith s.params).mem := rfl
@[simp] theorem State.coreReset_rspValid (s : State) : s.coreReset.rspValid = (State.resetWith s.params).rspValid := rfl
@[simp] theorem State.coreReset_rspStatus (s : State) : s.coreReset.rspStatus = (State.resetWith s.params).rspStatus := rfl
@[simp] theorem State.coreReset_rspData (s : State) : s.coreReset.rspData = (State.resetWith s.params).rspData := rfl
@[simp] theorem State.coreReset_lastErr (s : State) : s.coreReset.lastErr = (State.resetWith s.params).lastErr := rfl
@[simp] theorem State.coreReset_batches (s : State) : s.coreReset.batches = (State.resetWith s.params).batches := rfl
@[simp] theorem State.coreReset_log (s : State) : s.coreReset.log = (State.resetWith s.params).log := rfl
@[simp] theorem State.coreReset_hist (s : State) : s.coreReset.hist = (State.resetWith s.params).hist := rfl
@[simp] theorem State.coreReset_misuse (s : State) : s.coreReset.misuse = (State.resetWith s.params).misuse := rfl
@[simp] theorem State.coreReset_out (s : State) : s.coreReset.out = (State.resetWith s.params).out := rfl
@[simp] theorem State.coreReset_presented (s : State) : s.coreReset.presented = s.presented := rfl
@[simp] theorem State.coreReset_turns (s : State) : s.coreReset.turns = s.turns := rfl
@[simp] theorem State.coreReset_draws (s : State) : s.coreReset.draws = s.draws := rfl
@[simp] theorem State.coreReset_past (s : State) : s.coreReset.past = s.linkPast := rfl
@[simp] theorem State.coreReset_opens (s : State) : s.coreReset.opens = s.opens := rfl
@[simp] theorem State.coreReset_readies (s : State) : s.coreReset.readies = s.readies := rfl
@[simp] theorem State.coreReset_answers (s : State) : s.coreReset.answers = s.answers := rfl

/-! ### `errorEffect` and `raise`: the fields of the session -/

@[simp] theorem State.errorEffect_params (s : State) (c : Status) : (s.errorEffect c).params = s.params := by
  unfold State.errorEffect
  split <;> rfl
@[simp] theorem State.errorEffect_linesOpen (s : State) (c : Status) : (s.errorEffect c).linesOpen = s.linesOpen := by
  unfold State.errorEffect
  split <;> rfl
@[simp] theorem State.errorEffect_rstO (s : State) (c : Status) : (s.errorEffect c).rstO = s.rstO := by
  unfold State.errorEffect
  split <;> rfl
@[simp] theorem State.errorEffect_cmd (s : State) (c : Status) : (s.errorEffect c).cmd = s.cmd := by
  unfold State.errorEffect
  split <;> rfl
@[simp] theorem State.errorEffect_upc (s : State) (c : Status) : (s.errorEffect c).upc = s.upc := by
  unfold State.errorEffect
  split <;> rfl
@[simp] theorem State.errorEffect_settle (s : State) (c : Status) : (s.errorEffect c).settle = s.settle := by
  unfold State.errorEffect
  split <;> rfl
@[simp] theorem State.errorEffect_dly (s : State) (c : Status) : (s.errorEffect c).dly = s.dly := by
  unfold State.errorEffect
  split <;> rfl
@[simp] theorem State.errorEffect_pollT (s : State) (c : Status) : (s.errorEffect c).pollT = s.pollT := by
  unfold State.errorEffect
  split <;> rfl
@[simp] theorem State.errorEffect_now (s : State) (c : Status) : (s.errorEffect c).now = s.now := by
  unfold State.errorEffect
  split <;> rfl
@[simp] theorem State.errorEffect_rx (s : State) (c : Status) : (s.errorEffect c).rx = s.rx := by
  unfold State.errorEffect
  split <;> rfl
@[simp] theorem State.errorEffect_regv (s : State) (c : Status) : (s.errorEffect c).regv = s.regv := by
  unfold State.errorEffect
  split <;> rfl
@[simp] theorem State.errorEffect_decF (s : State) (c : Status) : (s.errorEffect c).decF = s.decF := by
  unfold State.errorEffect
  split <;> rfl
@[simp] theorem State.errorEffect_avgC (s : State) (c : Status) : (s.errorEffect c).avgC = s.avgC := by
  unfold State.errorEffect
  split <;> rfl
@[simp] theorem State.errorEffect_ax (s : State) (c : Status) : (s.errorEffect c).ax = s.ax := by
  unfold State.errorEffect
  split <;> rfl
@[simp] theorem State.errorEffect_i (s : State) (c : Status) : (s.errorEffect c).i = s.i := by
  unfold State.errorEffect
  split <;> rfl
@[simp] theorem State.errorEffect_b (s : State) (c : Status) : (s.errorEffect c).b = s.b := by
  unfold State.errorEffect
  split <;> rfl
@[simp] theorem State.errorEffect_w (s : State) (c : Status) : (s.errorEffect c).w = s.w := by
  unfold State.errorEffect
  split <;> rfl
@[simp] theorem State.errorEffect_k (s : State) (c : Status) : (s.errorEffect c).k = s.k := by
  unfold State.errorEffect
  split <;> rfl
@[simp] theorem State.errorEffect_mem (s : State) (c : Status) : (s.errorEffect c).mem = s.mem := by
  unfold State.errorEffect
  split <;> rfl
@[simp] theorem State.errorEffect_rspValid (s : State) (c : Status) : (s.errorEffect c).rspValid = s.rspValid := by
  unfold State.errorEffect
  split <;> rfl
@[simp] theorem State.errorEffect_rspStatus (s : State) (c : Status) : (s.errorEffect c).rspStatus = s.rspStatus := by
  unfold State.errorEffect
  split <;> rfl
@[simp] theorem State.errorEffect_rspData (s : State) (c : Status) : (s.errorEffect c).rspData = s.rspData := by
  unfold State.errorEffect
  split <;> rfl
@[simp] theorem State.errorEffect_lastErr (s : State) (c : Status) : (s.errorEffect c).lastErr = s.lastErr := by
  unfold State.errorEffect
  split <;> rfl
@[simp] theorem State.errorEffect_batches (s : State) (c : Status) : (s.errorEffect c).batches = s.batches := by
  unfold State.errorEffect
  split <;> rfl
@[simp] theorem State.errorEffect_log (s : State) (c : Status) : (s.errorEffect c).log = s.log := by
  unfold State.errorEffect
  split <;> rfl
@[simp] theorem State.errorEffect_hist (s : State) (c : Status) : (s.errorEffect c).hist = s.hist := by
  unfold State.errorEffect
  split <;> rfl
@[simp] theorem State.errorEffect_misuse (s : State) (c : Status) : (s.errorEffect c).misuse = s.misuse := by
  unfold State.errorEffect
  split <;> rfl
@[simp] theorem State.errorEffect_out (s : State) (c : Status) : (s.errorEffect c).out = s.out := by
  unfold State.errorEffect
  split <;> rfl
@[simp] theorem State.errorEffect_presented (s : State) (c : Status) : (s.errorEffect c).presented = s.presented := by
  unfold State.errorEffect
  split <;> rfl
@[simp] theorem State.errorEffect_turns (s : State) (c : Status) : (s.errorEffect c).turns = s.turns := by
  unfold State.errorEffect
  split <;> rfl
@[simp] theorem State.errorEffect_draws (s : State) (c : Status) : (s.errorEffect c).draws = s.draws := by
  unfold State.errorEffect
  split <;> rfl
@[simp] theorem State.errorEffect_past (s : State) (c : Status) : (s.errorEffect c).past = s.past := by
  unfold State.errorEffect
  split <;> rfl
@[simp] theorem State.errorEffect_opens (s : State) (c : Status) : (s.errorEffect c).opens = s.opens := by
  unfold State.errorEffect
  split <;> rfl
@[simp] theorem State.errorEffect_readies (s : State) (c : Status) : (s.errorEffect c).readies = s.readies := by
  unfold State.errorEffect
  split <;> rfl
@[simp] theorem State.errorEffect_answers (s : State) (c : Status) : (s.errorEffect c).answers = s.answers := by
  unfold State.errorEffect
  split <;> rfl
@[simp] theorem State.raise_params (s : State) (e : ErrRec) (d : Half) : (s.raise e d).params = s.params := by
  simp [State.raise]
@[simp] theorem State.raise_linesOpen (s : State) (e : ErrRec) (d : Half) : (s.raise e d).linesOpen = s.linesOpen := by
  simp [State.raise]
@[simp] theorem State.raise_rstO (s : State) (e : ErrRec) (d : Half) : (s.raise e d).rstO = s.rstO := by
  simp [State.raise]
@[simp] theorem State.raise_cmd (s : State) (e : ErrRec) (d : Half) : (s.raise e d).cmd = none := by
  simp [State.raise]
@[simp] theorem State.raise_upc (s : State) (e : ErrRec) (d : Half) : (s.raise e d).upc = 0 := by
  simp [State.raise]
@[simp] theorem State.raise_settle (s : State) (e : ErrRec) (d : Half) : (s.raise e d).settle = s.settle := by
  simp [State.raise]
@[simp] theorem State.raise_dly (s : State) (e : ErrRec) (d : Half) : (s.raise e d).dly = s.dly := by
  simp [State.raise]
@[simp] theorem State.raise_pollT (s : State) (e : ErrRec) (d : Half) : (s.raise e d).pollT = s.pollT := by
  simp [State.raise]
@[simp] theorem State.raise_now (s : State) (e : ErrRec) (d : Half) : (s.raise e d).now = s.now := by
  simp [State.raise]
@[simp] theorem State.raise_rx (s : State) (e : ErrRec) (d : Half) : (s.raise e d).rx = s.rx := by
  simp [State.raise]
@[simp] theorem State.raise_regv (s : State) (e : ErrRec) (d : Half) : (s.raise e d).regv = s.regv := by
  simp [State.raise]
@[simp] theorem State.raise_decF (s : State) (e : ErrRec) (d : Half) : (s.raise e d).decF = s.decF := by
  simp [State.raise]
@[simp] theorem State.raise_avgC (s : State) (e : ErrRec) (d : Half) : (s.raise e d).avgC = s.avgC := by
  simp [State.raise]
@[simp] theorem State.raise_ax (s : State) (e : ErrRec) (d : Half) : (s.raise e d).ax = s.ax := by
  simp [State.raise]
@[simp] theorem State.raise_i (s : State) (e : ErrRec) (d : Half) : (s.raise e d).i = s.i := by
  simp [State.raise]
@[simp] theorem State.raise_b (s : State) (e : ErrRec) (d : Half) : (s.raise e d).b = s.b := by
  simp [State.raise]
@[simp] theorem State.raise_w (s : State) (e : ErrRec) (d : Half) : (s.raise e d).w = s.w := by
  simp [State.raise]
@[simp] theorem State.raise_k (s : State) (e : ErrRec) (d : Half) : (s.raise e d).k = s.k := by
  simp [State.raise]
@[simp] theorem State.raise_mem (s : State) (e : ErrRec) (d : Half) : (s.raise e d).mem = s.mem := by
  simp [State.raise]
@[simp] theorem State.raise_rspValid (s : State) (e : ErrRec) (d : Half) : (s.raise e d).rspValid = true := by
  simp [State.raise]
@[simp] theorem State.raise_rspStatus (s : State) (e : ErrRec) (d : Half) : (s.raise e d).rspStatus = e.code := by
  simp [State.raise]
@[simp] theorem State.raise_rspData (s : State) (e : ErrRec) (d : Half) : (s.raise e d).rspData = d := by
  simp [State.raise]
@[simp] theorem State.raise_lastErr (s : State) (e : ErrRec) (d : Half) : (s.raise e d).lastErr = e := by
  simp [State.raise]
@[simp] theorem State.raise_batches (s : State) (e : ErrRec) (d : Half) : (s.raise e d).batches = s.batches := by
  simp [State.raise]
@[simp] theorem State.raise_log (s : State) (e : ErrRec) (d : Half) : (s.raise e d).log = s.log ++ [⟨.error e, s.now⟩] := by
  simp [State.raise]
@[simp] theorem State.raise_hist (s : State) (e : ErrRec) (d : Half) : (s.raise e d).hist = s.hist := by
  simp [State.raise]
@[simp] theorem State.raise_misuse (s : State) (e : ErrRec) (d : Half) : (s.raise e d).misuse = s.misuse := by
  simp [State.raise]
@[simp] theorem State.raise_out (s : State) (e : ErrRec) (d : Half) : (s.raise e d).out = none := by
  simp [State.raise]
@[simp] theorem State.raise_presented (s : State) (e : ErrRec) (d : Half) : (s.raise e d).presented = s.presented := by
  simp [State.raise]
@[simp] theorem State.raise_turns (s : State) (e : ErrRec) (d : Half) : (s.raise e d).turns = s.turns := by
  simp [State.raise]
@[simp] theorem State.raise_draws (s : State) (e : ErrRec) (d : Half) : (s.raise e d).draws = s.draws := by
  simp [State.raise]
@[simp] theorem State.raise_past (s : State) (e : ErrRec) (d : Half) : (s.raise e d).past = s.past := by
  simp [State.raise]
@[simp] theorem State.raise_opens (s : State) (e : ErrRec) (d : Half) : (s.raise e d).opens = s.opens := by
  simp [State.raise]
@[simp] theorem State.raise_readies (s : State) (e : ErrRec) (d : Half) : (s.raise e d).readies = s.readies := by
  simp [State.raise]
@[simp] theorem State.raise_answers (s : State) (e : ErrRec) (d : Half) : (s.raise e d).answers = s.answers := by
  simp [State.raise]

/-- A fatal error fails the session, any other leaves `fsm` (60_exceptions R274). -/
@[simp] theorem State.raise_fsm (s : State) (e : ErrRec) (d : Half) :
    (s.raise e d).fsm = if s.fatal e.code then .failed else s.fsm := by
  have h : ({ s with lastErr := e }.logEvent (.error e)).fatal e.code = s.fatal e.code := rfl
  simp only [State.raise, State.respond_fsm, State.errorEffect, h]
  split <;> rfl

/-- A fatal error clears the session mode, any other leaves it (60_exceptions R274). -/
@[simp] theorem State.raise_mode (s : State) (e : ErrRec) (d : Half) :
    (s.raise e d).mode = if s.fatal e.code then none else s.mode := by
  have h : ({ s with lastErr := e }.logEvent (.error e)).fatal e.code = s.fatal e.code := rfl
  simp only [State.raise, State.respond_mode, State.errorEffect, h]
  split <;> rfl

/-! ### `popTurn` -/

@[simp] theorem State.popTurn_params (s : State) : s.popTurn.params = s.params := by
  unfold State.popTurn
  split <;> rfl
@[simp] theorem State.popTurn_fsm (s : State) : s.popTurn.fsm = s.fsm := by
  unfold State.popTurn
  split <;> rfl
@[simp] theorem State.popTurn_mode (s : State) : s.popTurn.mode = s.mode := by
  unfold State.popTurn
  split <;> rfl
@[simp] theorem State.popTurn_linesOpen (s : State) : s.popTurn.linesOpen = s.linesOpen := by
  unfold State.popTurn
  split <;> rfl
@[simp] theorem State.popTurn_rstO (s : State) : s.popTurn.rstO = s.rstO := by
  unfold State.popTurn
  split <;> rfl
@[simp] theorem State.popTurn_cmd (s : State) : s.popTurn.cmd = s.cmd := by
  unfold State.popTurn
  split <;> rfl
@[simp] theorem State.popTurn_upc (s : State) : s.popTurn.upc = s.upc := by
  unfold State.popTurn
  split <;> rfl
@[simp] theorem State.popTurn_settle (s : State) : s.popTurn.settle = s.settle := by
  unfold State.popTurn
  split <;> rfl
@[simp] theorem State.popTurn_dly (s : State) : s.popTurn.dly = s.dly := by
  unfold State.popTurn
  split <;> rfl
@[simp] theorem State.popTurn_pollT (s : State) : s.popTurn.pollT = s.pollT := by
  unfold State.popTurn
  split <;> rfl
@[simp] theorem State.popTurn_now (s : State) : s.popTurn.now = s.now := by
  unfold State.popTurn
  split <;> rfl
@[simp] theorem State.popTurn_rx (s : State) : s.popTurn.rx = s.rx := by
  unfold State.popTurn
  split <;> rfl
@[simp] theorem State.popTurn_regv (s : State) : s.popTurn.regv = s.regv := by
  unfold State.popTurn
  split <;> rfl
@[simp] theorem State.popTurn_decF (s : State) : s.popTurn.decF = s.decF := by
  unfold State.popTurn
  split <;> rfl
@[simp] theorem State.popTurn_avgC (s : State) : s.popTurn.avgC = s.avgC := by
  unfold State.popTurn
  split <;> rfl
@[simp] theorem State.popTurn_ax (s : State) : s.popTurn.ax = s.ax := by
  unfold State.popTurn
  split <;> rfl
@[simp] theorem State.popTurn_i (s : State) : s.popTurn.i = s.i := by
  unfold State.popTurn
  split <;> rfl
@[simp] theorem State.popTurn_b (s : State) : s.popTurn.b = s.b := by
  unfold State.popTurn
  split <;> rfl
@[simp] theorem State.popTurn_w (s : State) : s.popTurn.w = s.w := by
  unfold State.popTurn
  split <;> rfl
@[simp] theorem State.popTurn_k (s : State) : s.popTurn.k = s.k := by
  unfold State.popTurn
  split <;> rfl
@[simp] theorem State.popTurn_mem (s : State) : s.popTurn.mem = s.mem := by
  unfold State.popTurn
  split <;> rfl
@[simp] theorem State.popTurn_rspValid (s : State) : s.popTurn.rspValid = s.rspValid := by
  unfold State.popTurn
  split <;> rfl
@[simp] theorem State.popTurn_rspStatus (s : State) : s.popTurn.rspStatus = s.rspStatus := by
  unfold State.popTurn
  split <;> rfl
@[simp] theorem State.popTurn_rspData (s : State) : s.popTurn.rspData = s.rspData := by
  unfold State.popTurn
  split <;> rfl
@[simp] theorem State.popTurn_lastErr (s : State) : s.popTurn.lastErr = s.lastErr := by
  unfold State.popTurn
  split <;> rfl
@[simp] theorem State.popTurn_batches (s : State) : s.popTurn.batches = s.batches := by
  unfold State.popTurn
  split <;> rfl
@[simp] theorem State.popTurn_log (s : State) : s.popTurn.log = s.log := by
  unfold State.popTurn
  split <;> rfl
@[simp] theorem State.popTurn_hist (s : State) : s.popTurn.hist = s.hist := by
  unfold State.popTurn
  split <;> rfl
@[simp] theorem State.popTurn_misuse (s : State) : s.popTurn.misuse = s.misuse := by
  unfold State.popTurn
  split <;> rfl
@[simp] theorem State.popTurn_out (s : State) : s.popTurn.out = s.out := by
  unfold State.popTurn
  split <;> rfl
@[simp] theorem State.popTurn_presented (s : State) : s.popTurn.presented = s.presented := by
  unfold State.popTurn
  split <;> rfl
@[simp] theorem State.popTurn_past (s : State) : s.popTurn.past = s.past := by
  unfold State.popTurn
  split <;> rfl
@[simp] theorem State.popTurn_opens (s : State) : s.popTurn.opens = s.opens := by
  unfold State.popTurn
  split <;> rfl
@[simp] theorem State.popTurn_readies (s : State) : s.popTurn.readies = s.readies := by
  unfold State.popTurn
  split <;> rfl
@[simp] theorem State.popTurn_answers (s : State) : s.popTurn.answers = s.answers := by
  unfold State.popTurn
  split <;> rfl

/-- With a turn in the tape, taking it leaves the rest of the tape. -/
theorem State.popTurn_of_cons (s : State) (t : Turn) (ts : List Turn) (h : s.turns = t :: ts) :
    s.popTurn = { s with turns := ts } := by
  simp only [State.popTurn, h]

/-- With a turn in the tape, it is the turn. -/
theorem State.turn_of_cons (s : State) (t : Turn) (ts : List Turn) (h : s.turns = t :: ts) : s.turn = t := by
  simp only [State.turn, h]

end Sys2Proof.Machine
end

