-- ==== Sys2Proof/Laws/Ops.lean ====
section
/-! SUPPORT. One lemma for each shared operation that says everything it can do: the micro-program step, the framer's
step, the exchange, and the instructions over them. -/

namespace Sys2Proof.Machine

/-! ### Micro-programs -/

/-- A micro-program answers with the event at `upc`. -/
theorem runProgram_next {prog : MicroProgram} {s t : State} (h : runProgram prog s = .next t) :
    ∃ f, prog[s.upc]? = some f ∧ t = f s := by
  unfold runProgram at h
  split at h
  · rename_i f hf
    exact ⟨f, hf, (Host.Outcome.next.inj h).symm⟩
  · exact absurd h (by simp)

/-- An event of a micro-program is a member of its list. -/
theorem runProgram_mem {prog : MicroProgram} {s t : State} (h : runProgram prog s = .next t) :
    ∃ f ∈ prog, t = f s := by
  obtain ⟨f, hf, ht⟩ := runProgram_next h
  exact ⟨f, List.mem_of_getElem? hf, ht⟩

/-- The event at a position of the micro-program is what it does. -/
theorem runProgram_at {prog : MicroProgram} {s : State} {f : State → State} (h : prog[s.upc]? = some f) :
    runProgram prog s = .next (f s) := by
  unfold runProgram
  rw [h]

/-- Inside the micro-program there is always a next state. -/
theorem runProgram_total {prog : MicroProgram} {s : State} (h : s.upc < prog.length) :
    ∃ t, runProgram prog s = .next t :=
  ⟨_, runProgram_at (List.getElem?_eq_getElem h)⟩

/-- A micro-program never refuses. -/
theorem runProgram_not_refused (prog : MicroProgram) (s : State) (r : Refusal) :
    runProgram prog s ≠ .refused r := by
  unfold runProgram
  split <;> simp

/-- The micro-program of a command in a state; link frames have none. -/
def programOf (i : Instr) (s : State) : MicroProgram :=
  match i with
  | .init => initProgram s
  | .activate m win decl cust fsel => activateProgram m win decl cust fsel s
  | .exttrig => exttrigProgram s
  | .trigger => triggerProgram s
  | .capture =>
    match s.mode with
    | some m => captureProgram m s
    | none => if s.fsm = .active then [] else [startIn [.active]]
  | .close => closeProgram
  | .rdreg r => rdregProgram (s.entry r)
  | .wrreg r v => wrregProgram (s.entry r) v
  | .xchg b0 b1 => xchgProgram (b0 ++ b1)
  | .xchgb b0 b1 => xchgbProgram (b0 ++ b1)
  | .pagesel _ => []
  | .raddr _ => []
  | .null => []
  | .wlo _ _ => []
  | .whi _ _ => []

/-- A command's next state is the event of its micro-program at `upc`. -/
theorem exec_command_next {i : Instr} {s t : State} (hi : i.isCommand = true) (h : exec i s = .next t) :
    ∃ f, (programOf i s)[s.upc]? = some f ∧ t = f s := by
  cases i <;> simp only [Instr.isCommand, Bool.false_eq_true] at hi <;> simp only [exec] at h
  case capture =>
    unfold execCapture at h
    unfold programOf
    split at h
    · rename_i m hm
      simp only [hm]
      exact runProgram_next h
    · rename_i hm
      simp only [hm]
      split at h
      · exact absurd h (by simp)
      · rename_i hf
        simp only [hf, if_false]
        exact runProgram_next h
  all_goals exact runProgram_next h

/-- The event of the micro-program at `upc` is what a command does. -/
theorem exec_command_at {i : Instr} {s : State} {f : State → State} (hi : i.isCommand = true)
    (h : (programOf i s)[s.upc]? = some f) : exec i s = .next (f s) := by
  cases i <;> simp only [Instr.isCommand, Bool.false_eq_true] at hi <;> simp only [exec]
  case capture =>
    unfold execCapture
    unfold programOf at h
    split
    · rename_i m hm
      simp only [hm] at h
      exact runProgram_at h
    · rename_i hm
      simp only [hm] at h
      split
      · rename_i hf
        simp [hf] at h
      · rename_i hf
        simp only [hf, if_false] at h
        exact runProgram_at h
  all_goals exact runProgram_at h

/-- The events of the commands' micro-programs: which command can do which. -/
inductive ProgramEvent : Instr → (State → State) → Prop where
  | startInit : ProgramEvent .init (startIn [.uninit])
  | openLink : ProgramEvent .init openLink
  | waitInit (us : Nat) : ProgramEvent .init (waitStart us)
  | resetEdge : ProgramEvent .init resetEdge
  | identityCheck : ProgramEvent .init identityCheck
  | startActivate (m : Mode) (win : BitVec 4) (decl : BitVec 3) (cust : Bool) (fsel : BitVec 3) :
    ProgramEvent (.activate m win decl cust fsel) startActivate
  | firstTap (m : Mode) (win : BitVec 4) (decl : BitVec 3) (cust : Bool) (fsel : BitVec 3) :
    ProgramEvent (.activate m win decl cust fsel) firstTap
  | nextTap (m : Mode) (win : BitVec 4) (decl : BitVec 3) (cust : Bool) (fsel : BitVec 3) :
    ProgramEvent (.activate m win decl cust fsel) nextTap
  | modeCheck (m : Mode) (win : BitVec 4) (decl : BitVec 3) (cust : Bool) (fsel : BitVec 3) :
    ProgramEvent (.activate m win decl cust fsel) (modeCheck m)
  | startExttrig : ProgramEvent .exttrig (startIn verified)
  | finishExttrig : ProgramEvent .exttrig finishWrite
  | startTrigger : ProgramEvent .trigger (startIn [.active])
  | triggerSent : ProgramEvent .trigger triggerSent
  | finishOk : ProgramEvent .trigger finishOk
  | startClose : ProgramEvent .close (startIn [.reset, .idv, .active, .failed])
  | releaseLines : ProgramEvent .close releaseLines
  | finishClose : ProgramEvent .close finishClose
  | startRdreg (r : RegName) : ProgramEvent (.rdreg r) (startIn verified)
  | finishRead (r : RegName) : ProgramEvent (.rdreg r) finishRead
  | startWrreg (r : RegName) (v : Half) : ProgramEvent (.wrreg r v) (startIn verified)
  | finishWrreg (r : RegName) (v : Half) : ProgramEvent (.wrreg r v) finishWrite
  | startXchg (b0 b1 : Byte) : ProgramEvent (.xchg b0 b1) (startIn verified)
  | xchg (b0 b1 : Byte) : ProgramEvent (.xchg b0 b1) (hostExchange (b0 ++ b1) false)
  | finishXchg (b0 b1 : Byte) : ProgramEvent (.xchg b0 b1) finishExchange
  | startXchgb (b0 b1 : Byte) : ProgramEvent (.xchgb b0 b1) (startIn verified)
  | pollStart (b0 b1 : Byte) : ProgramEvent (.xchgb b0 b1) pollStart
  | xchgb (b0 b1 : Byte) : ProgramEvent (.xchgb b0 b1) (hostExchange (b0 ++ b1) true)
  | finishXchgb (b0 b1 : Byte) : ProgramEvent (.xchgb b0 b1) finishExchange
  | startCapture : ProgramEvent .capture (startIn [.active])
  | latchDecF : ProgramEvent .capture latchDecF
  | latchAvgC : ProgramEvent .capture latchAvgC
  | firstAxis : ProgramEvent .capture firstAxis
  | firstWord : ProgramEvent .capture firstWord
  | storeWord (n : Nat) : ProgramEvent .capture (storeWord n)
  | storeLast (len : Nat) : ProgramEvent .capture (storeLast len)
  | firstBlock : ProgramEvent .capture firstBlock
  | storeBlockWord : ProgramEvent .capture storeBlockWord
  | parseCollected : ProgramEvent .capture parseCollected
  | emitBatch (m : Mode) : ProgramEvent .capture (emitBatch m)
  | sendRaw (f : LinkFrame) (page addr : Byte) : ProgramEvent .capture (send f false page addr)
  | readCheck (i : Instr) (r : RegAddr)
    (h : i = .init ∨ i = .capture ∨ (∃ m win decl cust fsel, i = .activate m win decl cust fsel) ∨ ∃ n, i = .rdreg n) :
    ProgramEvent i (readCheck r)
  | latchRegv (i : Instr)
    (h : i = .init ∨ i = .capture ∨ (∃ m win decl cust fsel, i = .activate m win decl cust fsel) ∨ ∃ n, i = .rdreg n) :
    ProgramEvent i latchRegv
  | writeCheck (i : Instr) (r : RegAddr)
    (h : i = .exttrig ∨ i = .trigger ∨ i = .capture ∨ (∃ m win decl cust fsel, i = .activate m win decl cust fsel) ∨
      ∃ n v, i = .wrreg n v) :
    ProgramEvent i (writeCheck r)
  | sendTo (i : Instr) (r : RegAddr) (f : LinkFrame)
    (h : i ≠ .close ∧ (∀ b0 b1, i ≠ .xchg b0 b1) ∧ ∀ b0 b1, i ≠ .xchgb b0 b1) : ProgramEvent i (sendTo r f)
  | waitHold (i : Instr) (h : i = .init ∨ i = .trigger) : ProgramEvent i waitHold
  | clearMisuse (i : Instr) (h : i = .init ∨ ∃ m win decl cust fsel, i = .activate m win decl cust fsel) :
    ProgramEvent i clearMisuse

/-- Every event of a command's micro-program is one of them. -/
theorem programOf_event {i : Instr} {s : State} {f : State → State} (h : f ∈ programOf i s) : ProgramEvent i f := by
  cases i
  case activate m win decl cust fsel =>
    have hprog : f ∈ [startActivate] ∨ f ∈ regWrite (s.entry .decCtrl) (decCtrlValue s.params decl) ∨
        f ∈ filterSetup cust fsel s ∨ f ∈ regWrite (s.entry .recCtrl) (recCtrlValue s.params m win) ∨
        f ∈ [clearMisuse] ∨ f ∈ regRead (s.entry .recCtrl) ∨ f ∈ [modeCheck m] := by
      simp only [programOf, activateProgram, List.mem_append] at h
      split at h
      · simp only [List.not_mem_nil] at h
        tauto
      · tauto
    have hfilter : f ∈ filterSetup cust fsel s →
        f = firstTap ∨ f = nextTap ∨ ∃ r v, f ∈ regWrite r v := by
      intro h
      unfold filterSetup at h
      split at h <;> simp only [List.mem_append, List.mem_singleton] at h
      · rcases h with h | (((h | h) | h) | h)
        · exact .inr (.inr ⟨_, _, h⟩)
        · exact .inl h
        · exact .inr (.inr ⟨_, _, h⟩)
        · exact .inr (.inl h)
        · exact .inr (.inr ⟨_, _, h⟩)
      · rcases h with h | h <;> exact .inr (.inr ⟨_, _, h⟩)
    have hwrite : ∀ r v, f ∈ regWrite r v → ProgramEvent (.activate m win decl cust fsel) f := by
      intro r v h
      simp only [regWrite, List.mem_cons, List.not_mem_nil, or_false] at h
      repeat' rcases h with rfl | h
      all_goals constructor; simp
    rcases hprog with h | h | h | h | h | h | h
    · simp only [List.mem_singleton] at h
      subst h
      constructor
    · exact hwrite _ _ h
    · rcases hfilter h with rfl | rfl | ⟨r, v, h⟩
      · constructor
      · constructor
      · exact hwrite _ _ h
    · exact hwrite _ _ h
    · simp only [List.mem_singleton] at h
      subst h
      constructor
      simp
    · simp only [regRead, List.mem_cons, List.not_mem_nil, or_false] at h
      repeat' rcases h with rfl | h
      all_goals constructor; simp
    · simp only [List.mem_singleton] at h
      subst h
      constructor
  case capture =>
    have hmode : ∃ m, f ∈ captureProgram m s ∨ f = startIn [.active] := by
      simp only [programOf] at h
      split at h
      · exact ⟨_, .inl h⟩
      · split at h
        · exact absurd h (by simp)
        · exact ⟨.rts, .inr (List.mem_singleton.1 h)⟩
    obtain ⟨m, h | h⟩ := hmode
    · cases m <;>
        simp only [captureProgram, captureRts, captureBuf, parameterReads, drainAxis, regRead, regWrite, if_true,
          Bool.false_eq_true, if_false, List.cons_append, List.nil_append, List.append_nil, List.mem_cons,
          List.not_mem_nil, or_false] at h
      all_goals repeat' rcases h with rfl | h
      all_goals first | (constructor; done) | (constructor; simp)
    · subst h
      constructor
  all_goals
    simp only [programOf, initProgram, exttrigProgram, triggerProgram, closeProgram, rdregProgram, wrregProgram,
      xchgProgram, xchgbProgram, regRead, regWrite, List.cons_append, List.nil_append, List.mem_cons,
      List.not_mem_nil, or_false] at h
    try (repeat' rcases h with rfl | h)
    all_goals first | (constructor; done) | (constructor; simp)

/-- What a command does is one of its events. -/
theorem exec_command_event {i : Instr} {s t : State} (hi : i.isCommand = true) (h : exec i s = .next t) :
    ∃ f, ProgramEvent i f ∧ t = f s := by
  obtain ⟨f, hf, ht⟩ := exec_command_next hi h
  exact ⟨f, programOf_event (List.mem_of_getElem? hf), ht⟩

/-- A link frame is the framer's step for its bits. -/
theorem exec_frame (f : LinkFrame) (s : State) : exec f.instr s = .next (s.sendFrame (f.bits s.params)) := by
  cases f <;> rfl

/-! ### The error entry -/

/-- The error entry: what an error writes, fatal or not (60_exceptions R273, R274). -/
theorem raise_eq (s : State) (e : ErrRec) (d : Half) :
    s.raise e d =
      { s with
        lastErr := e, log := s.log ++ [⟨.error e, s.now⟩], fsm := if s.fatal e.code then .failed else s.fsm,
        mode := if s.fatal e.code then none else s.mode, rspStatus := e.code, rspData := d, rspValid := true,
        cmd := none, upc := 0, out := none } := by
  have h : (({ s with lastErr := e } : State).logEvent (.error e)).fatal e.code = s.fatal e.code := rfl
  simp only [State.raise, State.errorEffect, h]
  split <;> rfl

/-! ### The framer -/

/-- The state after the exchange of a frame, before its answer is looked at. -/
def State.exchanged (s : State) (tx : Frame) (checked : Bool) : State :=
  { s with
    answers := s.answers.tail, hist := s.hist ++ [⟨.xfer tx (s.answer tx) checked, s.now⟩], settle := tSettle }

/-- The state after a poll. -/
def State.polled (s : State) : State :=
  { s with readies := s.readies.tail, hist := s.hist ++ [⟨.poll s.ready, s.now⟩] }

/-- An exchange: answered, or a transport error. -/
theorem exchange_eq (s : State) (tx : Frame) (checked : Bool) (page addr : Byte) :
    s.exchange tx checked page addr =
      match s.answer tx with
      | some rx => .done { s.exchanged tx checked with rx := rx }
      | none => .raised ((s.exchanged tx checked).raise ⟨.transport, page, addr, tx, 0⟩ 0) := rfl

/-- A framer step: a hold, a poll (ready: exchange; expired: timeout; else try again), or a raw exchange. -/
theorem framer_eq (s : State) (tx : Frame) (checked : Bool) (page addr : Byte) :
    s.framer tx checked page addr =
      if s.settle ≠ 0 then .waiting s
      else if checked then
        if s.ready then s.polled.exchange tx true page addr
        else if s.pollExpired then .raised (s.polled.raise ⟨.timeout, page, addr, tx, 0⟩ 0)
        else .waiting s.polled
      else s.exchange tx false page addr := by
  unfold State.framer
  rfl

/-- Everything a framer step can come to. -/
inductive FramerCase (s : State) (tx : Frame) (checked : Bool) (page addr : Byte) : LinkResult → Prop where
  /-- The settle gap is not over. -/
  | hold (h : s.settle ≠ 0) : FramerCase s tx checked page addr (.waiting s)
  /-- The device is busy. -/
  | busy (h : s.settle = 0) (hc : checked = true) (hr : s.ready = false) (he : s.pollExpired = false) :
    FramerCase s tx checked page addr (.waiting s.polled)
  /-- The device is busy and the timeout is over. -/
  | timeout (h : s.settle = 0) (hc : checked = true) (hr : s.ready = false) (he : s.pollExpired = true) :
    FramerCase s tx checked page addr (.raised (s.polled.raise ⟨.timeout, page, addr, tx, 0⟩ 0))
  /-- A busy-checked exchange is answered. -/
  | checkedDone (h : s.settle = 0) (hc : checked = true) (hr : s.ready = true) (rx : Frame)
      (ha : s.polled.answer tx = some rx) :
    FramerCase s tx checked page addr (.done { s.polled.exchanged tx true with rx := rx })
  /-- A busy-checked exchange fails. -/
  | checkedFails (h : s.settle = 0) (hc : checked = true) (hr : s.ready = true) (ha : s.polled.answer tx = none) :
    FramerCase s tx checked page addr
      (.raised ((s.polled.exchanged tx true).raise ⟨.transport, page, addr, tx, 0⟩ 0))
  /-- A raw exchange is answered. -/
  | rawDone (h : s.settle = 0) (hc : checked = false) (rx : Frame) (ha : s.answer tx = some rx) :
    FramerCase s tx checked page addr (.done { s.exchanged tx false with rx := rx })
  /-- A raw exchange fails. -/
  | rawFails (h : s.settle = 0) (hc : checked = false) (ha : s.answer tx = none) :
    FramerCase s tx checked page addr (.raised ((s.exchanged tx false).raise ⟨.transport, page, addr, tx, 0⟩ 0))

/-- A framer step is one of its cases. -/
theorem framer_cases (s : State) (tx : Frame) (checked : Bool) (page addr : Byte) :
    FramerCase s tx checked page addr (s.framer tx checked page addr) := by
  rw [framer_eq]
  by_cases h : s.settle = 0
  · rw [if_neg (by simpa using h)]
    cases checked with
    | true =>
      cases hr : s.ready with
      | true =>
        simp only [if_true, exchange_eq]
        cases ha : s.polled.answer tx with
        | some rx => exact .checkedDone h rfl hr rx ha
        | none => exact .checkedFails h rfl hr ha
      | false =>
        cases he : s.pollExpired with
        | true => simpa using .timeout h rfl hr he
        | false => simpa using .busy h rfl hr he
    | false =>
      simp only [Bool.false_eq_true, if_false, exchange_eq]
      cases ha : s.answer tx with
      | some rx => exact .rawDone h rfl rx ha
      | none => exact .rawFails h rfl ha
  · rw [if_pos h]
    exact .hold h

/-- The state of a framer step's result. -/
def LinkResult.state : LinkResult → State
  | .waiting s => s
  | .done s => s
  | .raised s => s

/-- Beside the history, the gap, `rx` and the device's tapes, a framer step changes only what the error entry changes. -/
theorem framer_frame (s : State) (tx : Frame) (checked : Bool) (page addr : Byte) :
    let t := (s.framer tx checked page addr).state
    t = { s with
      hist := t.hist, settle := t.settle, rx := t.rx, readies := t.readies, answers := t.answers, out := t.out,
      fsm := t.fsm, mode := t.mode, cmd := t.cmd, upc := t.upc, rspValid := t.rspValid, rspStatus := t.rspStatus,
      rspData := t.rspData, lastErr := t.lastErr, log := t.log } := by
  have h := framer_cases s tx checked page addr
  generalize s.framer tx checked page addr = r at h
  cases h <;> first | rfl | (simp only [LinkResult.state, State.raise, State.errorEffect]; split <;> rfl)

/-- What a framer step leaves of a transfer: an answered one is over. -/
def LinkResult.sent : LinkResult → State
  | .waiting t => t
  | .done t => { t with out := none }
  | .raised t => t

/-- What a framer step leaves of the host's own exchange: an answered one goes to the next position. -/
def LinkResult.hosted : LinkResult → State
  | .waiting t => t
  | .done t => t.advance
  | .raised t => t

/-- A frame's step is a framer step; the transfer in `out` says which. -/
theorem sendFrame_sent (s : State) (tx : Frame) :
    ∃ checked page addr, s.sendFrame tx = (s.framer tx checked page addr).sent ∧
      ∀ o, s.out = some o → checked = o.checked ∧ page = o.page ∧ addr = o.addr :=
  ⟨_, _, _, rfl, fun o ho => by simp [ho]⟩

/-- The framer's step of the transfer in progress. -/
theorem sendFrame_out {s : State} {o : Outgoing} (h : s.out = some o) (tx : Frame) :
    s.sendFrame tx = (s.framer tx o.checked o.page o.addr).sent := by
  unfold State.sendFrame
  simp only [h]
  rfl

/-- The host's own exchange is a framer step. -/
theorem hostExchange_hosted (tx : Frame) (checked : Bool) (s : State) :
    hostExchange tx checked s = (s.framer tx checked 0 0).hosted := rfl

/-- An instruction is a command or a link frame. -/
theorem command_or_frame (i : Instr) : i.isCommand = true ∨ ∃ f : LinkFrame, i = f.instr := by
  cases i
  case pagesel p => exact .inr ⟨.pagesel p, rfl⟩
  case raddr a => exact .inr ⟨.raddr a, rfl⟩
  case null => exact .inr ⟨.null, rfl⟩
  case wlo a d => exact .inr ⟨.wlo a d, rfl⟩
  case whi a d => exact .inr ⟨.whi a d, rfl⟩
  all_goals exact .inl rfl

end Sys2Proof.Machine
end

