-- ==== Sys2Proof/Laws/Events.lean ====
section
/-! SUPPORT. What each branching event of a micro-program can do, the memory its stores leave, and the lengths of the
micro-programs. -/

namespace Sys2Proof.Machine

/-! ### Events shared by the commands -/

/-- A command's check: the next position, or BAD_STATE. -/
theorem startIn_cases (legal : List Fsm) (s : State) :
    (s.fsm ∈ legal ∧ startIn legal s = s.advance) ∨ (s.fsm ∉ legal ∧ startIn legal s = s.raiseBadState) := by
  unfold startIn
  split <;> simp [*]

/-- The check of a read: the access, or the position behind it with the misuse recorded. -/
theorem readCheck_cases (r : RegAddr) (s : State) :
    (r.readFlag = true ∧ readCheck r s = s.advance) ∨
      (r.readFlag = false ∧ readCheck r s = (s.refuseRead r).skip 5) := by
  unfold readCheck
  split <;> simp_all

/-- The check of a write: the access, or the position behind it with the misuse recorded. -/
theorem writeCheck_cases (r : RegAddr) (s : State) :
    (r.writeFlag = true ∧ writeCheck r s = s.advance) ∨
      (r.writeFlag = false ∧ writeCheck r s = (s.refuseWrite r).skip 4) := by
  unfold writeCheck
  split <;> simp_all

/-- A wait: over, or a hold. -/
theorem waitHold_cases (s : State) :
    (s.dly = 0 ∧ waitHold s = s.advance) ∨ (s.dly ≠ 0 ∧ waitHold s = s) := by
  unfold waitHold
  split <;> simp [*]

/-- A completion after a register access. -/
theorem respondUnlessMisuse_cases (s : State) (d : Half) :
    (s.misuse = true ∧ s.respondUnlessMisuse d = s.respond .protocolMisuse 0) ∨
      (s.misuse = false ∧ s.respondUnlessMisuse d = s.respond .ok d) := by
  unfold State.respondUnlessMisuse
  split <;> simp_all

/-! ### The stores of CAPTURE -/

/-- The buffers after a checked word of a drain. -/
theorem storeWord_mem (n : Nat) (s : State) :
    (storeWord n s).mem = Memory.writeWord s.mem (.raw s.ax s.i) (be16 s.rx) := by
  unfold storeWord
  repeat' split
  all_goals rfl

/-- The buffers after the last word of an axis. -/
theorem storeLast_mem (len : Nat) (s : State) :
    (storeLast len s).mem = Memory.writeWord s.mem (.raw s.ax s.i) (be16 s.rx) := by
  unfold storeLast
  split <;> rfl

/-- The buffers after a streaming word. -/
theorem storeBlockWord_mem (s : State) : (storeBlockWord s).mem = Memory.writeWord s.mem (.blk s.w) (le16 s.rx) := by
  unfold storeBlockWord
  split <;> rfl

/-- The block that a capture collects has 100 words. -/
theorem State.block_length (s : State) : s.block.length = blkWords := by
  simp [State.block, blkWords]

/-- A capture's parse stores its block. -/
theorem parseCollected_eq (s : State) :
    parseCollected s =
      if h : s.b.val + 1 < 10 then
        { s with mem := storeBlock s.b s.block s.mem, b := ⟨s.b.val + 1, h⟩, w := 0 }.back 2
      else { s with mem := storeBlock s.b s.block s.mem }.advance := by
  simp only [parseCollected, parseBlock, State.block_length, if_true]

/-! ### Lengths -/

/-- The length of a command's micro-program. -/
theorem programOf_length {i : Instr} {s : State} (hi : i.isCommand = true) (h : s.mode ≠ none ↔ s.fsm = .active) :
    (programOf i s).length = programLength i s.mode := by
  cases i <;> simp only [Instr.isCommand, Bool.false_eq_true] at hi
  case activate m win decl cust fsel =>
    cases cust <;> by_cases hm : m = .rts <;>
      simp [hm, programOf, programLength, activateProgram, filterSetup, regRead, regWrite]
  case capture =>
    cases hm : s.mode with
    | none =>
      simp only [hm, ne_eq, not_true_eq_false, false_iff] at h
      simp [programOf, programLength, hm, h]
    | some m =>
      cases m <;>
        simp [hm, programOf, programLength, captureProgram, captureRts, captureBuf, parameterReads, regRead, regWrite,
          drainAxis]
  all_goals
    simp [programOf, programLength, initProgram, exttrigProgram, triggerProgram, closeProgram, rdregProgram,
      wrregProgram, xchgProgram, xchgbProgram, regRead, regWrite]

/-- Inside its micro-program a command always answers a next state. -/
theorem exec_command_total {i : Instr} {s : State} (hi : i.isCommand = true) (h : s.mode ≠ none ↔ s.fsm = .active)
    (hu : s.upc < programLength i s.mode) : ∃ t, exec i s = .next t := by
  rw [← programOf_length hi h] at hu
  exact ⟨_, exec_command_at hi (List.getElem?_eq_getElem hu)⟩

end Sys2Proof.Machine
end

