-- ==== Sys2Proof/Laws/Step.lean ====
section
/-! SUPPORT. Everything a step can do, by the agent that moves. -/

namespace Sys2Proof.Machine

/-- Everything a step that answers a next state can be. -/
inductive StepCase (s t : State) : Prop where
  /-- The Timebase moves. -/
  | tick (h : s.turn = .tick) (ht : t = s.popTurn.tick)
  /-- Core reset is asserted. -/
  | reset (h : s.turn = .reset) (ht : t = s.popTurn.coreReset)
  /-- The core's framer moves. -/
  | frame (h : s.turn = .core) (o : Outgoing) (ho : s.out = some o)
      (ht : t = s.popTurn.sendFrame (o.frame.bits s.params))
  /-- The latched command moves. -/
  | command (h : s.turn = .core) (ho : s.out = none) (c : Cmd) (hc : s.cmd = some c)
      (ht : exec c.instr s.popTurn = .next t)
  /-- The core is idle and nothing is presented. -/
  | idle (h : s.turn = .core) (ho : s.out = none) (hc : s.cmd = none) (hp : s.presented = []) (ht : t = s.popTurn)
  /-- A presented word is illegal. -/
  | illegal (h : s.turn = .core) (ho : s.out = none) (hc : s.cmd = none) (pr : Presented) (rest : List Presented)
      (hp : s.presented = pr :: rest) (e : DecodeError) (hd : decodeCmd s.params pr.word = .error e)
      (ht : t = (s.popTurn.takePresented rest).raiseBadCommand)
  /-- A presented command is accepted. -/
  | accept (h : s.turn = .core) (ho : s.out = none) (hc : s.cmd = none) (pr : Presented) (rest : List Presented)
      (hp : s.presented = pr :: rest) (i : Instr) (hd : decodeCmd s.params pr.word = .ok i)
      (ht : exec i ((s.popTurn.takePresented rest).latch i pr.cfg) = .next t)

/-- A core turn with well-formed parameters. -/
theorem step_core {s : State} (hp : paramsOk s.params = true) (h : s.turn = .core) :
    step s =
      match s.popTurn.coreTurn with
      | .run i t => exec i t
      | .settled t => .next t
      | .refuse r => .refused r := by
  unfold step State.nextAction State.guarded
  simp only [h, hp, if_true]
  all_goals rfl

/-- A Timebase turn with well-formed parameters. -/
theorem step_tick {s : State} (hp : paramsOk s.params = true) (h : s.turn = .tick) :
    step s = .next s.popTurn.tick := by
  unfold step State.nextAction State.guarded
  simp only [h, hp, if_true]

/-- A reset turn with well-formed parameters. -/
theorem step_reset {s : State} (hp : paramsOk s.params = true) (h : s.turn = .reset) :
    step s = .next s.popTurn.coreReset := by
  unfold step State.nextAction State.guarded
  simp only [h, hp, if_true]

/-- Only a machine with well-formed parameters takes a step. -/
theorem step_next_params {s t : State} (h : step s = .next t) : paramsOk s.params = true := by
  by_contra hp
  unfold step State.nextAction State.guarded at h
  cases ht : s.turn <;> simp [ht, hp] at h

/-- A step is one of its cases. -/
theorem step_cases {s t : State} (h : step s = .next t) : StepCase s t := by
  have hp := step_next_params h
  cases ht : s.turn with
  | tick =>
    rw [step_tick hp ht] at h
    exact .tick ht (Host.Outcome.next.inj h).symm
  | reset =>
    rw [step_reset hp ht] at h
    exact .reset ht (Host.Outcome.next.inj h).symm
  | core =>
    rw [step_core hp ht] at h
    unfold State.coreTurn at h
    simp only [State.popTurn_out, State.popTurn_cmd, State.popTurn_presented] at h
    cases ho : s.out with
    | some o =>
      simp only [ho, exec_frame, State.popTurn_params] at h
      exact .frame ht o ho (Host.Outcome.next.inj h).symm
    | none =>
      cases hc : s.cmd with
      | some c =>
        simp only [ho, hc] at h
        exact .command ht ho c hc h
      | none =>
        cases hpr : s.presented with
        | nil =>
          simp only [ho, hc, hpr] at h
          exact .idle ht ho hc hpr (Host.Outcome.next.inj h).symm
        | cons pr rest =>
          simp only [ho, hc, hpr, State.accept, State.popTurn_params] at h
          cases hd : decodeCmd s.params pr.word with
          | error e =>
            simp only [hd] at h
            exact .illegal ht ho hc pr rest hpr e hd (Host.Outcome.next.inj h).symm
          | ok i =>
            simp only [hd] at h
            exact .accept ht ho hc pr rest hpr i hd h

/-! ### Runs -/

/-- One step and then a run. -/
theorem runSteps_step {s t : State} (h : step s = .next t) (n : Nat) : runSteps (n + 1) s = runSteps n t := by
  conv => lhs; unfold runSteps
  rw [h]

/-- A run of `m + n` steps is a run of `m` steps and then one of `n`. -/
theorem runSteps_add {m : Nat} {s t : State} (h : runSteps m s = .next t) (n : Nat) :
    runSteps (m + n) s = runSteps n t := by
  induction m generalizing s with
  | zero =>
    rw [Nat.zero_add]
    rw [Host.Outcome.next.inj h]
  | succ m ih =>
    cases hs : step s with
    | next u =>
      rw [runSteps_step hs] at h
      rw [Nat.add_right_comm, runSteps_step hs]
      exact ih h
    | fault f =>
      unfold runSteps at h
      rw [hs] at h
      exact absurd h (by simp)
    | refused r =>
      unfold runSteps at h
      rw [hs] at h
      exact absurd h (by simp)

/-- `n` ticks in a row. -/
theorem runSteps_ticks (n : Nat) (s : State) (ts : List Turn) (hp : paramsOk s.params = true)
    (h : s.turns = List.replicate n .tick ++ ts) :
    runSteps n s =
      .next { s with
        now := s.now + n, settle := s.settle - n, dly := s.dly - n,
        pollT := if s.polling then s.pollT + n else s.pollT, turns := ts } := by
  induction n generalizing s with
  | zero =>
    simp only [List.replicate_zero, List.nil_append] at h
    subst h
    simp [runSteps]
  | succ n ih =>
    have ht : s.turn = .tick := by simp [State.turn, h, List.replicate_succ]
    have hpop : s.popTurn = { s with turns := List.replicate n .tick ++ ts } := by
      simp [State.popTurn, h, List.replicate_succ]
    rw [runSteps_step (step_tick hp ht), hpop]
    have hpol : ({ s with turns := List.replicate n .tick ++ ts } : State).polling = s.polling := rfl
    have hpol' : ({ s with turns := List.replicate n .tick ++ ts } : State).tick.polling = s.polling := rfl
    have hrun := ih ({ s with turns := List.replicate n .tick ++ ts } : State).tick hp rfl
    rw [hpol'] at hrun
    refine hrun.trans ?_
    simp only [State.tick, hpol]
    congr 1
    cases s.polling <;> simp only [Bool.false_eq_true, if_true, if_false] <;> congr 1 <;> omega

end Sys2Proof.Machine
end

