-- ==== Sys2Proof/Laws/History.lean ====
section
/-! SUPPORT. What an instruction and a step do to the link history, the settle counter and `rx`, and what no instruction
changes. -/

namespace Sys2Proof.Machine

/-- What no instruction changes: the parameters, the clock, the port, the schedule and the ended histories. -/
def Untouched (s t : State) : Prop :=
  t.params = s.params ∧ t.now = s.now ∧ t.presented = s.presented ∧ t.turns = s.turns ∧ t.draws = s.draws ∧
    t.past = s.past

/-- A framer step leaves them. -/
theorem framer_untouched (s : State) (tx : Frame) (checked : Bool) (page addr : Byte) :
    Untouched s (s.framer tx checked page addr).sent ∧ Untouched s (s.framer tx checked page addr).hosted := by
  have h := framer_frame s tx checked page addr
  cases hr : s.framer tx checked page addr <;> rw [hr] at h <;> simp only [LinkResult.state] at h <;>
    simp only [LinkResult.sent, LinkResult.hosted] <;> rw [h] <;> simp [Untouched]

/-- An event of a micro-program leaves them. -/
theorem event_untouched {i : Instr} {f : State → State} (h : ProgramEvent i f) (s : State) : Untouched s (f s) := by
  cases h
  case xchg b0 b1 => exact (framer_untouched s (b0 ++ b1) false 0 0).2
  case xchgb b0 b1 => exact (framer_untouched s (b0 ++ b1) true 0 0).2
  case storeWord n =>
    unfold storeWord
    repeat' split
    all_goals simp [Untouched]
  case storeLast len =>
    unfold storeLast
    split <;> simp [Untouched]
  case storeBlockWord =>
    unfold storeBlockWord
    split <;> simp [Untouched]
  case parseCollected =>
    rw [parseCollected_eq]
    split <;> simp [Untouched]
  all_goals
    simp only [startIn, openLink, resetEdge, identityCheck, startActivate, firstTap, nextTap, modeCheck, finishWrite,
      finishRead, finishExchange, State.respondUnlessMisuse, triggerSent, waitStart, waitHold, finishOk, releaseLines,
      finishClose, pollStart, clearMisuse, readCheck, writeCheck, latchRegv, sendTo, send, latchDecF, latchAvgC,
      firstAxis, firstWord, firstBlock, emitBatch, State.raiseBadState]
    repeat' split
    all_goals simp [Untouched]

/-- An instruction leaves them. -/
theorem exec_untouched {i : Instr} {s t : State} (h : exec i s = .next t) : Untouched s t := by
  rcases command_or_frame i with hi | ⟨f, rfl⟩
  · obtain ⟨f, hf, rfl⟩ := exec_command_event hi h
    exact event_untouched hf s
  · rw [exec_frame] at h
    rw [← Host.Outcome.next.inj h]
    obtain ⟨c, p, a, hs, -⟩ := sendFrame_sent s (f.bits s.params)
    rw [hs]
    exact (framer_untouched s _ c p a).1

/-- What an instruction can append to the link history, with the settle counter and `rx` it leaves, and where it comes
from. -/
inductive HistoryCase (i : Instr) (s t : State) : Prop where
  | same (h : t.hist = s.hist) (hs : t.settle = s.settle) (hr : t.rx = s.rx)
  | poll (ready : Bool) (h : t.hist = s.hist ++ [⟨.poll ready, s.now⟩]) (hs : t.settle = s.settle) (hr : t.rx = s.rx)
  | checked (tx : Frame) (rx : Option Frame)
      (h : t.hist = s.hist ++ [⟨.poll true, s.now⟩, ⟨.xfer tx rx true, s.now⟩]) (h0 : s.settle = 0)
      (hs : t.settle = tSettle) (hr : t.rx = rx.getD s.rx)
      (hi : (∃ f : LinkFrame, i = f.instr) ∨ ∃ b0 b1, i = .xchgb b0 b1)
  | raw (tx : Frame) (rx : Option Frame) (h : t.hist = s.hist ++ [⟨.xfer tx rx false, s.now⟩]) (h0 : s.settle = 0)
      (hs : t.settle = tSettle) (hr : t.rx = rx.getD s.rx)
      (hi : (∃ f : LinkFrame, i = f.instr) ∨ ∃ b0 b1, i = .xchg b0 b1)
  | opened (ok : Bool) (h : t.hist = s.hist ++ [⟨.opened ok, s.now⟩]) (hs : t.settle = if ok then 0 else s.settle)
      (hr : t.rx = s.rx) (hi : i = .init)
  | edge (h : t.hist = s.hist ++ [⟨.rst true, s.now⟩]) (hs : t.settle = s.settle) (hr : t.rx = s.rx) (hi : i = .init)
  | closed (h : t.hist = s.hist ++ [⟨.closed, s.now⟩]) (hs : t.settle = s.settle) (hr : t.rx = s.rx) (hi : i = .close)

/-- A state that agrees with a framer step's on the history, the settle counter and `rx`. -/
theorem framer_history {i : Instr} {s u : State} {tx : Frame} {checked : Bool} {page addr : Byte}
    (h : u.hist = (s.framer tx checked page addr).state.hist)
    (hs : u.settle = (s.framer tx checked page addr).state.settle)
    (hr : u.rx = (s.framer tx checked page addr).state.rx)
    (hi : (∃ f : LinkFrame, i = f.instr) ∨ (checked = true ∧ ∃ b0 b1, i = .xchgb b0 b1) ∨
      (checked = false ∧ ∃ b0 b1, i = .xchg b0 b1)) : HistoryCase i s u := by
  have hc := framer_cases s tx checked page addr
  generalize s.framer tx checked page addr = r at *
  cases hc with
  | hold => exact .same h hs hr
  | busy _ _ hb => exact .poll false (by rw [h, LinkResult.state, State.polled, hb]) hs hr
  | timeout _ _ hb =>
    refine .poll false ?_ ?_ ?_
    · rw [h, LinkResult.state, State.raise_hist, State.polled, hb]
    · rw [hs, LinkResult.state, State.raise_settle, State.polled]
    · rw [hr, LinkResult.state, State.raise_rx, State.polled]
  | checkedDone h0 hc hb rx ha =>
    refine .checked tx (some rx) ?_ h0 hs hr (by simpa [hc] using hi)
    rw [h]
    simp only [LinkResult.state, State.exchanged, ha]
    simp [State.polled, hb]
  | checkedFails h0 hc hb ha =>
    refine .checked tx none ?_ h0 ?_ ?_ (by simpa [hc] using hi)
    · rw [h]
      simp only [LinkResult.state, State.raise_hist, State.exchanged, ha]
      simp [State.polled, hb]
    · rw [hs, LinkResult.state, State.raise_settle, State.exchanged]
    · rw [hr, LinkResult.state, State.raise_rx, State.exchanged, State.polled, Option.getD_none]
  | rawDone h0 hc rx ha =>
    refine .raw tx (some rx) ?_ h0 hs hr (by simpa [hc] using hi)
    rw [h]
    simp only [LinkResult.state, State.exchanged, ha]
  | rawFails h0 hc ha =>
    refine .raw tx none ?_ h0 ?_ ?_ (by simpa [hc] using hi)
    · rw [h]
      simp only [LinkResult.state, State.raise_hist, State.exchanged, ha]
    · rw [hs, LinkResult.state, State.raise_settle, State.exchanged]
    · rw [hr, LinkResult.state, State.raise_rx, State.exchanged, Option.getD_none]

/-- An event of a micro-program is one of the cases. -/
theorem event_history {i : Instr} {f : State → State} (h : ProgramEvent i f) (s : State) : HistoryCase i s (f s) := by
  cases h
  case xchg b0 b1 =>
    refine framer_history (tx := b0 ++ b1) (checked := false) (page := 0) (addr := 0) ?_ ?_ ?_
      (.inr (.inr ⟨rfl, _, _, rfl⟩)) <;>
      rw [hostExchange_hosted] <;> cases s.framer (b0 ++ b1) false 0 0 <;> rfl
  case xchgb b0 b1 =>
    refine framer_history (tx := b0 ++ b1) (checked := true) (page := 0) (addr := 0) ?_ ?_ ?_
      (.inr (.inl ⟨rfl, _, _, rfl⟩)) <;>
      rw [hostExchange_hosted] <;> cases s.framer (b0 ++ b1) true 0 0 <;> rfl
  case openLink =>
    refine .opened s.opensOk ?_ ?_ ?_ rfl <;> unfold openLink <;> cases s.opensOk <;> simp
  case resetEdge => exact .edge rfl rfl rfl rfl
  case releaseLines =>
    cases hl : s.linesOpen
    · refine .same ?_ ?_ ?_ <;> simp [releaseLines, hl]
    · refine .closed ?_ ?_ ?_ rfl <;> simp [releaseLines, hl]
  case storeWord n =>
    refine .same ?_ ?_ ?_ <;> unfold storeWord <;> repeat' split
    all_goals simp
  case storeLast len => refine .same ?_ ?_ ?_ <;> unfold storeLast <;> split <;> simp
  case storeBlockWord => refine .same ?_ ?_ ?_ <;> unfold storeBlockWord <;> split <;> simp
  case parseCollected => refine .same ?_ ?_ ?_ <;> rw [parseCollected_eq] <;> split <;> simp
  all_goals
    refine .same ?_ ?_ ?_ <;>
      simp only [startIn, identityCheck, startActivate, firstTap, nextTap, modeCheck, finishWrite,
        finishRead, finishExchange, State.respondUnlessMisuse, triggerSent, waitStart, waitHold, finishOk,
        finishClose, pollStart, clearMisuse, readCheck, writeCheck, latchRegv, sendTo, send, latchDecF, latchAvgC,
        firstAxis, firstWord, firstBlock, emitBatch, State.raiseBadState] <;> repeat' split
    all_goals simp

/-- An instruction's effect on the link history. -/
theorem exec_history {i : Instr} {s t : State} (h : exec i s = .next t) : HistoryCase i s t := by
  rcases command_or_frame i with hi | ⟨f, rfl⟩
  · obtain ⟨f, hf, rfl⟩ := exec_command_event hi h
    exact event_history hf s
  · rw [exec_frame] at h
    rw [← Host.Outcome.next.inj h]
    obtain ⟨c, p, a, hs, -⟩ := sendFrame_sent s (f.bits s.params)
    refine framer_history (tx := f.bits s.params) (checked := c) (page := p) (addr := a) ?_ ?_ ?_ (.inl ⟨f, rfl⟩) <;>
      rw [hs] <;> cases s.framer (f.bits s.params) c p a <;> rfl

end Sys2Proof.Machine
end

