-- ==== Sys2Proof/Laws/PerInstr.lean ====
section
/-! SUPPORT. Per-instruction families: the encoder against spec/opcode_table.json. -/

namespace Sys2Proof.Laws

/-- The mask and match of an instruction's row of spec/opcode_table.json (frames with `PAGE_ADDR` 0x00, as the table
shows them). -/
def tableRow : Instr → Encoded × Encoded
  | .init => (.command 0xFFFFFFFF, .command 0x00000001)
  | .activate _ _ _ _ _ => (.command 0xFFF800CF, .command 0x00000002)
  | .exttrig => (.command 0xFFFFFFFF, .command 0x00000003)
  | .trigger => (.command 0xFFFFFFFF, .command 0x00000004)
  | .capture => (.command 0xFFFFFFFF, .command 0x00000005)
  | .close => (.command 0xFFFFFFFF, .command 0x00000006)
  | .rdreg _ => (.command 0xFFFF00FF, .command 0x00000007)
  | .wrreg _ _ => (.command 0x000000FF, .command 0x00000008)
  | .xchg _ _ => (.command 0x0000FFFF, .command 0x00000009)
  | .xchgb _ _ => (.command 0x0000FFFF, .command 0x0000000A)
  | .pagesel _ => (.frame 0xFF00, .frame 0x8000)
  | .raddr _ => (.frame 0x80FF, .frame 0x0000)
  | .null => (.frame 0xFFFF, .frame 0x0000)
  | .wlo _ _ => (.frame 0x8000, .frame 0x8000)
  | .whi _ _ => (.frame 0x8000, .frame 0x8000)

/-- A word under a mask of its width. -/
def masked : Encoded → Encoded → Option Encoded
  | .command w, .command m => some (.command (w &&& m))
  | .frame f, .frame m => some (.frame (f &&& m))
  | .command _, .frame _ => none
  | .frame _, .command _ => none

/-- The encoding of an instruction has its table row's width and fixed bits. -/
def EncodingMatchesTable.Statement (i : Instr) : Prop :=
  masked (encode Params.e0 i) (tableRow i).1 = some (tableRow i).2

/-- A 32-bit equation holds if it holds bit by bit. -/
theorem command_eq {w m v : Word} (h : ∀ i : Fin 32, (w.getLsbD i && m.getLsbD i) = v.getLsbD i) :
    masked (.command w) (.command m) = some (.command v) := by
  have e : w &&& m = v := by
    apply BitVec.eq_of_getLsbD_eq
    intro i hi
    rw [BitVec.getLsbD_and]
    exact h ⟨i, hi⟩
  simp only [masked, e]

/-- A 16-bit equation holds if it holds bit by bit. -/
theorem frame_eq {w m v : Frame} (h : ∀ i : Fin 16, (w.getLsbD i && m.getLsbD i) = v.getLsbD i) :
    masked (.frame w) (.frame m) = some (.frame v) := by
  have e : w &&& m = v := by
    apply BitVec.eq_of_getLsbD_eq
    intro i hi
    rw [BitVec.getLsbD_and]
    exact h ⟨i, hi⟩
  simp only [masked, e]

theorem EncodingMatchesTable.init : EncodingMatchesTable.Statement .init := rfl

theorem EncodingMatchesTable.activate (m : Mode) (win : BitVec 4) (decl : BitVec 3) (cust : Bool) (fsel : BitVec 3) :
    EncodingMatchesTable.Statement (.activate m win decl cust fsel) := by
  refine command_eq fun i => ?_
  rw [BitVec.getLsbD_append, BitVec.getLsbD_append, BitVec.getLsbD_append, BitVec.getLsbD_append,
    BitVec.getLsbD_append, BitVec.getLsbD_append, BitVec.getLsbD_append]
  fin_cases i <;> simp

theorem EncodingMatchesTable.exttrig : EncodingMatchesTable.Statement .exttrig := rfl

theorem EncodingMatchesTable.trigger : EncodingMatchesTable.Statement .trigger := rfl

theorem EncodingMatchesTable.capture : EncodingMatchesTable.Statement .capture := rfl

theorem EncodingMatchesTable.close : EncodingMatchesTable.Statement .close := rfl

theorem EncodingMatchesTable.rdreg (r : RegName) : EncodingMatchesTable.Statement (.rdreg r) := by
  refine command_eq fun i => ?_
  rw [rdregWord, BitVec.getLsbD_append, BitVec.getLsbD_append, BitVec.getLsbD_append]
  fin_cases i <;> simp

theorem EncodingMatchesTable.wrreg (r : RegName) (v : Half) : EncodingMatchesTable.Statement (.wrreg r v) := by
  refine command_eq fun i => ?_
  rw [wrregWord, BitVec.getLsbD_append, BitVec.getLsbD_append, BitVec.getLsbD_append]
  fin_cases i <;> simp

theorem EncodingMatchesTable.xchg (b0 b1 : Byte) : EncodingMatchesTable.Statement (.xchg b0 b1) := by
  refine command_eq fun i => ?_
  rw [BitVec.getLsbD_append, BitVec.getLsbD_append, BitVec.getLsbD_append]
  fin_cases i <;> simp

theorem EncodingMatchesTable.xchgb (b0 b1 : Byte) : EncodingMatchesTable.Statement (.xchgb b0 b1) := by
  refine command_eq fun i => ?_
  rw [BitVec.getLsbD_append, BitVec.getLsbD_append, BitVec.getLsbD_append]
  fin_cases i <;> simp

theorem EncodingMatchesTable.pagesel (page : Byte) : EncodingMatchesTable.Statement (.pagesel page) := by
  refine frame_eq fun i => ?_
  unfold fPage
  rw [BitVec.getLsbD_append, BitVec.getLsbD_append]
  fin_cases i <;> simp [Params.e0]

theorem EncodingMatchesTable.raddr (a : Offset) : EncodingMatchesTable.Statement (.raddr a) := by
  refine frame_eq fun i => ?_
  unfold fRaddr
  rw [BitVec.getLsbD_append, BitVec.getLsbD_append]
  fin_cases i <;> simp

theorem EncodingMatchesTable.null : EncodingMatchesTable.Statement .null := rfl

theorem EncodingMatchesTable.wlo (a : Offset) (d : Byte) : EncodingMatchesTable.Statement (.wlo a d) := by
  refine frame_eq fun i => ?_
  unfold fWrite
  rw [BitVec.getLsbD_append, BitVec.getLsbD_append]
  fin_cases i <;> simp

theorem EncodingMatchesTable.whi (a : Offset) (d : Byte) : EncodingMatchesTable.Statement (.whi a d) := by
  refine frame_eq fun i => ?_
  unfold fWrite
  rw [BitVec.getLsbD_append, BitVec.getLsbD_append]
  fin_cases i <;> simp

end Sys2Proof.Laws
end

