-- ==== Sys2Proof/Tests/Slice0.lean ====
section
/-! SUPPORT. Tests: expected values are those of spec/95_test_vectors (V1 to V104), of its programs, and of the
encoding tables; and, for each statement with hypotheses, a state and operands that meet them (its name begins with
test_meets). Decimal numbers of the vectors are written as their binary64 bits. -/

namespace Sys2Proof.Machine

/-! Each test is evaluated before the next one begins: tests that wait for the kernel side by side take a thread each. -/
set_option Elab.async false

/-! ### States the tests start from -/

/-- One fact about the next state; none if the machine stops. -/
def seen {α : Type} (o : Host.Outcome State Fault Refusal) (f : State → α) : Option α :=
  match o with
  | .next t => some (f t)
  | .fault _ => none
  | .refused _ => none

/-- After INIT. -/
def atIdv : State := { State.reset with fsm := .idv, linesOpen := true, rstO := some true, rspValid := true }

/-- After ACTIVATE. -/
def atActive (m : Mode) : State := { atIdv with fsm := .active, mode := some m }

/-- A command in progress at a position, the core to move. -/
def at_ (s : State) (i : Instr) (upc : Nat) : State :=
  { s with cmd := some ⟨i, CfgIn.default⟩, upc := upc, rspValid := false, turns := [.core] }

/-- A presented word, the core to move. -/
def showing (s : State) (w : Word) : State := { s with presented := [⟨w, CfgIn.default⟩], turns := [.core] }

/-- A frame in the framer, the core to move, with the device's tapes. -/
def framing (s : State) (o : Outgoing) (readies : List Bool) (answers : List (Option Frame)) : State :=
  { s with out := some o, readies := readies, answers := answers, turns := [.core] }

/-- The example parameters are well-formed (20_memory R78, 00_scope R10). -/
theorem test_e0_ok : paramsOk Params.e0 = true := by decide +kernel

/-! ### Well-formedness: each check refuses an ill-formed term -/

theorem test_wf_win : (Instr.activate .rts 4 0 false 0).wellFormed Params.e0 = false := by decide
theorem test_wf_raddr : (Instr.raddr 0x57).wellFormed Params.e0 = false := by decide
theorem test_wf_wlo : (Instr.wlo 0x1B 0).wellFormed Params.e0 = false := by decide
theorem test_wf_whi : (Instr.whi 0x1A 0).wellFormed Params.e0 = false := by decide
theorem test_unambiguous_raddr : (Instr.raddr 0).unambiguous Params.e0 = false := by decide
theorem test_unambiguous_wlo : (Instr.wlo 0 5).unambiguous Params.e0 = false := by decide

/-- 00_scope R10 (a): an odd offset. -/
theorem test_params_odd :
    paramsOk { Params.e0 with cat := { Catalog.e0 with prodId := ⟨0, 0x57, true, false⟩ } } = false := by decide +kernel

/-- 00_scope R10 (b): two equal mode codes. -/
theorem test_params_codes : paramsOk { Params.e0 with modeCode := ⟨3, 2, 2, 1⟩ } = false := by decide +kernel

/-- 00_scope R10 (c): overlapping fields. -/
theorem test_params_overlap : paramsOk { Params.e0 with winLsb := 1 } = false := by decide +kernel

/-- 00_scope R10 (d): a field beyond bit 15. -/
theorem test_params_width : paramsOk { Params.e0 with decSrcLsb := 14 } = false := by decide +kernel

/-! ### Decoding: words written out from 30_encoding R107 and R102 -/

theorem test_decode_init : decodeTableWord 32 0x00000001 = some .init := by decide
theorem test_decode_activate_V22 : decodeTableWord 32 0x0000B222 = some (.activate .mfft 2 3 true 0) := by decide
theorem test_decode_activate_V20 : decodeTableWord 32 0x00078002 = some (.activate .rts 0 0 true 7) := by decide
theorem test_decode_exttrig : decodeTableWord 32 0x00000003 = some .exttrig := by decide
theorem test_decode_trigger : decodeTableWord 32 0x00000004 = some .trigger := by decide
theorem test_decode_capture : decodeTableWord 32 0x00000005 = some .capture := by decide
theorem test_decode_close : decodeTableWord 32 0x00000006 = some .close := by decide
theorem test_decode_rdreg_V25 : decodeTableWord 32 0x00002F07 = some (.rdreg (.coef 31)) := by decide
theorem test_decode_wrreg_V31 : decodeTableWord 32 0x10020208 = some (.wrreg .recCtrl 0x1002) := by decide
theorem test_decode_xchg_V28 : decodeTableWord 32 0xFFFF0009 = some (.xchg 0xFF 0xFF) := by decide
theorem test_decode_xchgb_V36 : decodeTableWord 32 0x5600000A = some (.xchgb 0x56 0x00) := by decide
theorem test_decode_pagesel_V2 : decodeTableWord 16 0x8005 = some (.pagesel 5) := by decide
theorem test_decode_raddr_V4 : decodeTableWord 16 0x7E00 = some (.raddr 0x7E) := by decide
theorem test_decode_null : decodeTableWord 16 0x0000 = some .null := by decide
theorem test_decode_wlo_V7 : decodeTableWord 16 0x9A02 = some (.wlo 0x1A 0x02) := by decide
theorem test_decode_whi_V7 : decodeTableWord 16 0x9B10 = some (.whi 0x1B 0x10) := by decide

/-- V13 to V17, V19, V23, V24, V26, V27: the illegal words. -/
theorem test_illegal :
    ([0x00000000, 0x0000000B, 0x0000000F, 0x00000011, 0x00010001, 0x10000005, 0x00000042, 0x00000082, 0x000000F2,
      0x00000402, 0x00080002, 0x00010007, 0x00000E07, 0x00000F07, 0x00003007, 0x0000FF08, 0x00000019].all
      fun w => decodeTableWord 32 w == none) = true := by decide

/-- V21: the encoder. -/
theorem test_encode_V21 : encode Params.e0 (.activate .mtc 1 0 false 2) = .command 0x00020112 := by decide

/-! ### Frames and byte orders -/

theorem test_frame_V3 : (LinkFrame.pagesel 255).bits Params.e0 = 0x80FF := by decide
theorem test_frame_V6 :
    (LinkFrame.lowByte 0x7E 0xABCD).bits Params.e0 = 0xFECD ∧ (LinkFrame.highByte 0x7E 0xABCD).bits Params.e0 = 0xFFAB := by
  decide
theorem test_frame_V9 :
    (LinkFrame.lowByte 0x46 31).bits Params.e0 = 0xC61F ∧ (LinkFrame.highByte 0x46 31).bits Params.e0 = 0xC700 := by
  decide
theorem test_mux_V10 : be16 0x1234 = 0x1234 ∧ le16 0x1234 = 0x3412 := by decide
theorem test_mux_V12 : be16 0xFF00 = 0xFF00 ∧ le16 0xFF00 = 0x00FF := by decide

/-! ### INIT -/

/-- INIT is accepted from reset. -/
theorem test_init_accept :
    seen (step (State.reset.withFetchWord 32 0x00000001)) (fun t => (t.upc, t.cmd.map Cmd.instr, t.rspValid)) =
      some (1, some .init, false) := by decide +kernel

/-- V58: the identity 0x0BCE fails INIT for good. -/
theorem test_init_V58 :
    seen (exec .init { at_ State.reset .init 13 with fsm := .reset, linesOpen := true, regv := 0x0BCE })
        (fun t => (t.lastErrReg, t.responseReg, t.statusReg)) =
      some ((2, 0, 0x56, 0x0BCD, 0x0BCE), ⟨true, 2, 0x0BCE⟩, 0x0144) := by decide +kernel

/-! ### ACTIVATE -/

/-- V50: the mode bits of 0x0002 are not Streaming's. -/
theorem test_activate_V50 :
    seen (exec (.activate .rts 0 0 false 0) { at_ atIdv (.activate .rts 0 0 false 0) 15 with regv := 0x0002 })
        (fun t => (t.lastErrReg, t.responseReg, t.statusReg)) =
      some ((3, 0, 0x1A, 3, 2), ⟨true, 3, 2⟩, 0x0142) := by decide +kernel

/-- V51: the mode bits are Capture's. -/
theorem test_activate_V51 :
    seen (exec (.activate .mtc 0 0 false 0) { at_ atIdv (.activate .mtc 0 0 false 0) 23 with regv := 0x0002 })
        (fun t => (t.responseReg, t.statusReg)) = some (⟨true, 0, 0⟩, 0x015B) := by decide +kernel

/-- V54: the frame of tap 31 (COEF[31] is written with 31), and the last of FILT_CTRL's. -/
theorem test_activate_V54 :
    let i : Instr := .activate .mfft 2 3 true 0
    let s := { at_ atIdv i 13 with cmd := some ⟨i, ⟨4, Vector.ofFn fun k => BitVec.ofNat 16 k.val⟩⟩, k := 31 }
    seen (exec i s) (fun t => t.out.map fun o => o.frame.bits t.params) = some (some 0xC700) ∧
    seen (exec i { s with upc := 18 }) (fun t => t.out.map fun o => o.frame.bits t.params) = some (some 0x9D00) := by
  decide +kernel

/-! ### EXTTRIG, TRIGGER, CLOSE -/

/-- V55: the last frame of the write. -/
theorem test_exttrig_V55 :
    seen (exec .exttrig (at_ (atActive .mtc) .exttrig 4)) (fun t => t.out.map fun o => o.frame.bits t.params) =
      some (some 0xB501) := by decide +kernel

/-- V57: EXTTRIG runs in IDV. -/
theorem test_exttrig_V57 : seen (step (showing atIdv 0x00000003)) (fun t => t.upc) = some 1 := by decide +kernel

/-- V56: the last frame of the write. -/
theorem test_trigger_V56 :
    seen (exec .trigger (at_ (atActive .mtc) .trigger 4)) (fun t => t.out.map fun o => o.frame.bits t.params) =
      some (some 0xBF08) := by decide +kernel

/-- V57: TRIGGER does not run in IDV. -/
theorem test_trigger_V57 :
    seen (step (showing atIdv 0x00000004)) (fun t => (t.responseReg, t.lastErrReg)) =
      some (⟨true, 7, 0⟩, (7, 0, 0, 0, 0)) := by decide +kernel

/-- V58: CLOSE in FAILED stays in FAILED. -/
theorem test_close_V58 :
    seen (exec .close { at_ atIdv .close 2 with fsm := .failed, linesOpen := false, rstO := none })
        (fun t => (t.responseReg, t.statusReg)) = some (⟨true, 0, 0⟩, 0x0104) := by decide +kernel

/-- V59c: CLOSE does not run in UNINIT. -/
theorem test_close_V59c :
    seen (step (showing State.reset 0x00000006)) (fun t => (t.responseReg, t.hist)) = some (⟨true, 7, 0⟩, []) := by
  decide +kernel

/-! ### RDREG, WRREG, XCHG, XCHGB -/

/-- V38: a refused read. -/
theorem test_rdreg_V38 :
    seen (exec (.rdreg .globCmd) (at_ atIdv (.rdreg .globCmd) 1))
        (fun t => (t.log, t.lastErr, t.hist, t.upc)) =
      some ([⟨.misuseRead 0 0x3E, 0⟩], ⟨.protocolMisuse, 0, 0x3E, 0, 0⟩, [], 6) := by decide +kernel

/-- V30: the answer to the null frame is the value. -/
theorem test_rdreg_V30 :
    seen (exec (.rdreg .prodId) { at_ atIdv (.rdreg .prodId) 5 with rx := 0x0BCD }) (fun t => (t.regv, t.upc)) =
      some (0x0BCD, 6) := by decide +kernel

/-- V40: a refused write. -/
theorem test_wrreg_V40 :
    seen (exec (.wrreg .prodId 0x1234) (at_ atIdv (.wrreg .prodId 0x1234) 1)) (fun t => (t.log, t.lastErr, t.hist)) =
      some ([⟨.misuseWrite 0 0x56, 0⟩], ⟨.protocolMisuse, 0, 0x56, 0, 0⟩, []) := by decide +kernel

/-- V32: the low and the high byte's frames. -/
theorem test_wrreg_V32 :
    seen (exec (.wrreg .avgCtrl 0xBEEF) (at_ atIdv (.wrreg .avgCtrl 0xBEEF) 3))
        (fun t => t.out.map fun o => o.frame.bits t.params) = some (some 0x98EF) ∧
    seen (exec (.wrreg .avgCtrl 0xBEEF) (at_ atIdv (.wrreg .avgCtrl 0xBEEF) 4))
        (fun t => t.out.map fun o => o.frame.bits t.params) = some (some 0x99BE) := by decide +kernel

/-- V44: an unanswered exchange. -/
theorem test_xchg_V44 :
    seen (exec (.xchg 0x12 0x34) { at_ atIdv (.xchg 0x12 0x34) 1 with answers := [none] })
        (fun t => (t.lastErrReg, t.responseReg, t.fsm, t.linesOpen)) =
      some ((1, 0, 0, 0x1234, 0), ⟨true, 1, 0⟩, .failed, true) := by decide +kernel

/-- V35: a raw exchange, without a poll. -/
theorem test_xchg_V35 :
    seen (exec (.xchg 0 0) { at_ atIdv (.xchg 0 0) 1 with answers := [some 0x0BCD] }) (fun t => (t.hist, t.rx)) =
      some ([⟨.xfer 0 (some 0x0BCD) false, 0⟩], 0x0BCD) := by decide +kernel

/-- V36: a busy device is polled, a ready one gets the frame. -/
theorem test_xchgb_V36 :
    seen (exec (.xchgb 0x56 0) { at_ atIdv (.xchgb 0x56 0) 2 with readies := [false] }) (fun t => (t.hist, t.upc)) =
      some ([⟨.poll false, 0⟩], 2) ∧
    seen (exec (.xchgb 0x56 0) { at_ atIdv (.xchgb 0x56 0) 2 with readies := [true], answers := [some 0] })
        (fun t => (t.hist, t.upc)) =
      some ([⟨.poll true, 0⟩, ⟨.xfer 0x5600 (some 0) true, 0⟩], 3) := by decide +kernel

/-! ### CAPTURE -/

/-- V57: CAPTURE does not run in IDV. -/
theorem test_capture_V57 :
    seen (step (showing atIdv 0x00000005)) (fun t => t.responseReg) = some ⟨true, 7, 0⟩ := by decide +kernel

/-- V92: only bits 2 to 0 of DEC_STAT are the decimation. -/
theorem test_capture_V92 :
    seen (exec .capture { at_ (atActive .mtc) .capture 6 with regv := 0x00FB }) (fun t => t.decF) = some 8 := by
  decide +kernel

/-- V61: a block of 99 words. -/
theorem test_parse_V61 :
    (match parseBlock 0 (List.replicate 99 1) (at_ (atActive .rts) .capture 4) with
      | .raised t => some (t.lastErrReg, t.responseReg, t.fsm)
      | .stored _ => none) =
      some ((4, 0, 0, 100, 99), ⟨true, 4, 0⟩, .active) := by decide +kernel

/-- V60: the block of the source's example. -/
theorem test_parse_V60 :
    (match parseBlock 0 (5 :: (List.range 96).map (fun n => BitVec.ofNat 16 (n + 1)) ++ [7, 8, 9]) (atActive .rts) with
      | .raised _ => none
      | .stored t =>
        some ((Memory.rawAxis t.mem 0 32).head?, (Memory.rawAxis t.mem 1 32).getLast?, (Memory.rawAxis t.mem 2 32).head?,
          Memory.readWord t.mem (.info 0 0), Memory.readWord t.mem (.info 1 0), Memory.readWord t.mem (.info 2 0),
          Memory.readWord t.mem (.info 3 0))) =
      some (some 1, some 64, some 65, 5, 7, 8, 9) := by decide +kernel

/-! ### The link frames' own steps -/

/-- PAGESEL, busy-checked, at a ready device. -/
theorem test_pagesel :
    seen (step { State.reset.withFetchWord 16 0x8005 with readies := [true], answers := [some 0] })
        (fun t => (t.hist, t.settle, t.out)) =
      some ([⟨.poll true, 0⟩, ⟨.xfer 0x8005 (some 0) true, 0⟩], 40, none) := by decide +kernel

/-- RADDR waits for the settle gap. -/
theorem test_raddr :
    seen (step { State.reset.withFetchWord 16 0x5600 with settle := 1 }) (fun t => (t.hist, t.out.isSome)) =
      some ([], true) := by decide +kernel

/-- NULL, raw, does not poll. -/
theorem test_null :
    seen (step (framing (at_ (atActive .rts) .capture 3) ⟨.null, false, 0, 0⟩ [] [some 0x0500]))
        (fun t => (t.hist, t.rx)) = some ([⟨.xfer 0 (some 0x0500) false, 0⟩], 0x0500) := by decide +kernel

/-- V97: the unanswered low-byte write of BUF_PNTR. -/
theorem test_wlo_V97 :
    seen (step (framing (at_ (atActive .mtc) .capture 11) ⟨.wlo 0x0A 0, true, 0, 0x0A⟩ [true] [none]))
        (fun t => (t.lastErrReg, t.responseReg, t.fsm)) =
      some ((1, 0, 0x0A, 0x8A00, 0), ⟨true, 1, 0⟩, .failed) := by decide +kernel

/-- V98: the timeout of a high-byte write in a CAPTURE leaves ACTIVE. -/
theorem test_whi_V98 :
    seen (step { framing (at_ (atActive .mtc) .capture 12) ⟨.whi 0x0B 0, true, 0, 0x0A⟩ [false] [] with
          params := { Params.e0 with busyTimeout := some 100 }, pollT := 100 })
        (fun t => (t.lastErr, t.responseReg, t.fsm, t.mode)) =
      some (⟨.timeout, 0, 0x0A, 0x8B00, 0⟩, ⟨true, 6, 0⟩, .active, some .mtc) := by decide +kernel

/-! ### Numbers: V64 to V90 -/

theorem test_mtc_V64 : Conv.mtc.apply 1 = 0x3F5F400064EE85F4 := by decide +kernel
theorem test_mtc_V69a : Conv.mtc.apply 65535 = 0x405F3FE124EE2105 := by decide +kernel

/-- The Capture conversion of the smallest and the largest nonzero word, the bounds of R241. -/
theorem test_meets_SpectrumIsFinite :
    (1 : Half) ≠ 0 ∧ (0xFFFF : Half) ≠ 0 ∧ kCap.toNat ≤ (Conv.mtc.apply 0xFFFF).toNat ∧
      fNeg (convFft 0xFFFF 1) = false ∧ fExp (convFft 0xFFFF 0xFFFF) ≤ 2046 ∧
      (convFft 1 0xFFFF).toNat ≤ (convFft 0xFFFF 1).toNat := by decide +kernel

theorem test_fft_V72 : convFft 1 1 = 0x3FEE85B753091A67 := by decide +kernel
theorem test_fft_V76 : convFft 100 3 = 0x3FD50AA4597B81DB := by decide +kernel
theorem test_fft_V85 : convFft 65535 4 = 0x41CE806DC4C969D1 := by decide +kernel
theorem test_fft_V86 : convFft 1 0 = 0x7FF0000000000000 := by decide +kernel
theorem test_step_V88_mtc : stepSize .mtc 1 = 0x3ED310A508148DF2 := by decide +kernel
theorem test_step_V88_fft : stepSize .mfft 128 = 0x3FDADB0000000000 := by decide +kernel
theorem test_steps_V89 : (generateSteps (stepSize .rts 1) 320).getLast? = some 0x3F57C1BDA5119CE1 := by decide +kernel
theorem test_steps_V90 :
    generateSteps 0x3FE0000000000000 4 = [0, 0x3FE0000000000000, 0x3FF0000000000000, 0x3FF8000000000000] := by
  decide +kernel

/-! ### Memory, reset, assembler -/

/-- Writing the value an unlisted byte reads as removes the entry. -/
theorem test_memory_canonical :
    Memory.writeWord (Memory.writeWord [] (.raw 1 5) 0x1200) (.raw 1 5) 0 = [] ∧
      Memory.readWord (Memory.writeWord [] (.raw 2 4095) 0x1234) (.raw 2 4095) = 0x1234 := by decide +kernel

/-- V100: what the host reads after reset. -/
theorem test_reset_V100 :
    State.reset.statusReg = 0 ∧ State.reset.responseReg = ⟨false, 0, 0⟩ ∧ State.reset.lastErrReg = (0, 0, 0, 0, 0) := by
  decide +kernel

/-- V101: core reset during a CAPTURE. -/
theorem test_reset_V101 :
    seen (step { at_ (atActive .mtc) .capture 15 with turns := [.reset] }) (fun t => t.statusReg) = some 0 := by
  decide +kernel

/-- The lines of program P1 assemble to its words. -/
theorem test_assemble_P1 :
    (assemble Params.e0
      ["INIT", "ACTIVATE MTC, win=1, dec=0, fsel=2  ; cfg avg=1", "ACQUIRE", "CLOSE", "RDREG COEF[31]",
       "WRREG REC_CTRL, 0x1002"]).map (List.map Presented.word) =
      some [0x00000001, 0x00020112, 0x00000004, 0x00000005, 0x00000006, 0x00002F07, 0x10020208] := by decide +kernel

/-- The lines of program P2 assemble to its words, an index without a register among them; RDREG's word of it is illegal
(30_encoding R112). -/
theorem test_assemble_P2 :
    (assemble Params.e0
      ["WRREG AVG_CTRL, 0xBEEF", "RDREG AVG_CTRL", "RDREG GLOB_CMD  ; 0x00000307   write-only", "WRREG PROD_ID, 0x1234",
       "XCHG 0x00, 0x00", "RDREG 14", "CAPTURE"]).map (List.map Presented.word) =
      some [0xBEEF0A08, 0x00000A07, 0x00000307, 0x12340108, 0x00000009, 0x00000E07, 0x00000005] ∧
      (decodeCmd Params.e0 0x00000E07).toOption = none ∧ assemble Params.e0 ["RDREG 256"] = none := by decide +kernel

/-- A value that does not fit its field is refused (30_encoding R116). -/
theorem test_assemble_refused : assemble Params.e0 ["ACTIVATE RTS, win=16"] = none := by decide +kernel

/-! ### Encoding: a state and operands that meet each statement's hypotheses -/

theorem test_meets_DecodeEncodeAgree :
    ([.activate .afft 3 7 true 7, .wrreg (.coef 31) 0xFFFF, .raddr 0x7E, .wlo 0x7E 0xFF, .whi 0x7F 0xFF].all
      fun i : Instr => i.wellFormed Params.e0 && i.unambiguous Params.e0) = true := by decide

theorem test_meets_DecodedWordsEncodeBack :
    decodeCmd Params.e0 0x0000B222 = .ok (.activate .mfft 2 3 true 0) ∧ decodeFrame Params.e0 0x9B10 = .ok (.whi 0x1B 0x10) :=
  ⟨rfl, rfl⟩

theorem test_meets_FrameValues : (0x7E : Offset).toNat % 2 = 0 ∧ (0x7E : Offset).toNat ≤ 0x7E := by decide

theorem test_meets_ByteOrderMux : Memory.wf State.reset.mem = true := by decide

theorem test_meets_ComposedValues :
    paramsOk Params.e0 = true ∧ (3 : BitVec 4).toNat < 2 ^ Params.e0.winW := ⟨test_e0_ok, by decide⟩

/-! ### Steps -/

/-- The three sources of an instruction, and the two kinds of word that `withFetchWord` places. -/
theorem test_meets_StepRunsDecodedInstruction :
    (framing atIdv ⟨.null, true, 0, 0⟩ [] []).turn = .core ∧
    (at_ atIdv .exttrig 5).turn = .core ∧ (at_ atIdv .exttrig 5).out = none ∧
    (showing atIdv 0x00000003).turn = .core ∧ (showing atIdv 0x00000003).cmd = none ∧
    decodeCmd (showing atIdv 0x00000003).params 0x00000003 = .ok .exttrig ∧
    decodeCmd State.reset.params (BitVec.ofNat 32 5) = .ok .capture ∧
    decodeFrame State.reset.params (BitVec.ofNat 16 0x8005) = .ok (.pagesel 5) :=
  ⟨rfl, rfl, rfl, rfl, rfl, rfl, rfl, rfl⟩

theorem test_meets_IllegalWordAnswered :
    let s := showing State.reset 0x00000402
    s.turn = .core ∧ s.out = none ∧ s.cmd = none ∧ decodeCmd s.params 0x00000402 = .error .windowRange :=
  ⟨rfl, rfl, rfl, rfl⟩

/-- A busy-checked frame, XCHGB's own poll, and neither. -/
theorem test_meets_TickCounts :
    (({ framing atIdv ⟨.null, true, 0, 0⟩ [] [] with turns := [.tick] } : State).polling,
      ({ at_ atIdv (.xchgb 0 0) 2 with turns := [.tick] } : State).polling,
      ({ at_ atIdv (.xchgb 0 0) 1 with turns := [.tick] } : State).polling) = (true, true, false) := by decide

/-- An idle core in FAILED has the session invariant. -/
theorem test_failed_inv : SessionInv { atIdv with fsm := .failed, turns := [.core] } :=
  ⟨by simp [atIdv, State.reset, State.resetWith], by simp [atIdv, State.reset, State.resetWith]⟩

theorem test_meets_CoreReset :
    (at_ (atActive .mtc) .capture 15).cmd.isSome = true ∧
    ({ at_ (atActive .mtc) .capture 15 with turns := [.reset] } : State).turn = .reset ∧
    seen (step { atIdv with fsm := .failed, turns := [.core] }) State.fsm = some .failed := by decide +kernel

theorem test_meets_IdleAfterReset :
    ({ State.reset with turns := [.core] } : State).turn = .core ∧ ({ State.reset with turns := [.core] } : State).idle :=
  ⟨rfl, rfl, rfl⟩

/-- A CAPTURE's last step, which appends a batch. -/
theorem test_meets_OutputsOnlyGrow :
    (at_ (atActive .rts) .capture 5).turn = .core ∧
      seen (step (at_ (atActive .rts) .capture 5)) (fun t => t.batches.length) = some 1 := by decide +kernel

/-- A command in progress in IDV or ACTIVE, past its check. -/
theorem test_running_inv (u : Nat) (h : 1 ≤ u) : SessionInv (at_ atIdv (.rdreg .prodId) u) :=
  ⟨by simp [at_, atIdv, State.reset, State.resetWith], h, by simp [at_, atIdv, runningFsm],
    by simp [at_, atIdv, State.reset, State.resetWith]⟩

/-- The four cases: a running step, a command's last step, an acceptance, an idle step. -/
theorem test_meets_OneResponsePerCommand :
    seen (step (at_ atIdv (.rdreg .prodId) 1)) (fun t => t.cmd.isSome) = some true ∧
    seen (step (at_ atIdv (.rdreg .prodId) 6)) (fun t => t.cmd.isSome) = some false ∧
    seen (step (showing atIdv 0x00000107)) (fun t => t.cmd.isSome) = some true ∧
    seen (step { atIdv with turns := [.core] }) (fun t => (t.cmd.isSome, t.presented)) = some (false, []) := by
  decide +kernel

theorem test_meets_LegalityTable :
    (at_ atIdv .exttrig 0).upc = 0 ∧ (at_ atIdv .exttrig 0).mode = none ∧ (at_ atIdv .exttrig 0).fsm ≠ .active ∧
      legalIn .exttrig .idv = true ∧ legalIn .trigger .idv = false := by decide

/-- A timeout is fatal in INIT and not in RDREG. -/
theorem test_meets_ErrorEntry :
    ((at_ State.reset .init 9).fatal .timeout, (at_ atIdv (.rdreg .prodId) 3).fatal .timeout) = (true, false) := by decide

/-! ### Link frames and registers -/

/-- Checked and raw, the gap over. -/
theorem test_meets_FramesExchange :
    let s := framing atIdv ⟨.raddr 0x56, true, 0, 0x56⟩ [true] [some 5]
    let r := framing atIdv ⟨.null, false, 0, 0⟩ [] [some 5]
    s.settle = 0 ∧ s.ready = true ∧
      ({ s with hist := s.hist ++ [⟨.poll true, s.now⟩] } : State).answer 0x5600 = some 5 ∧ r.answer 0 = some 5 :=
  ⟨rfl, rfl, rfl, rfl⟩

/-- A gap, a busy device before and at its timeout, in and outside INIT, and no answer. -/
theorem test_meets_FramesWaitOrFail :
    let o : Outgoing := ⟨.null, true, 0, 0⟩
    let s := { framing atIdv o [false] [] with params := { Params.e0 with busyTimeout := some 100 } }
    ({ s with settle := 1 } : State).settle ≠ 0 ∧ s.ready = false ∧ s.params.busyTimeout = some 100 ∧
      ({ s with pollT := 99 } : State).pollT < 100 ∧ 100 ≤ ({ s with pollT := 100 } : State).pollT ∧
      ({ s with cmd := some ⟨.init, CfgIn.default⟩ } : State).cmd = some ⟨.init, CfgIn.default⟩ ∧
      (framing atIdv o [true] [none]).answer 0 = none :=
  ⟨by decide, rfl, rfl, by decide, by decide, rfl, rfl⟩

theorem test_meets_RefusedRead :
    (Params.e0.cat.entry .globCmd).readFlag = false ∧ (at_ atIdv (.rdreg .globCmd) 1).upc = 1 ∧
      ({ at_ atIdv (.rdreg .globCmd) 6 with misuse := true } : State).misuse = true := by decide

theorem test_meets_RefusedWrite :
    (Params.e0.cat.entry .prodId).writeFlag = false ∧ (at_ atIdv (.wrreg .prodId 0) 1).upc = 1 ∧
      ({ at_ atIdv (.wrreg .prodId 0) 5 with misuse := true } : State).misuse = true := by decide

theorem test_meets_RdregCompletes :
    (State.reset.params.cat.entry .prodId).readFlag = true ∧
      ((List.range 7).all fun u => (at_ atIdv (.rdreg .prodId) u).upc == u) = true ∧
      (at_ atIdv (.rdreg .prodId) 6).misuse = false := by decide

theorem test_meets_WrregCompletes :
    (State.reset.params.cat.entry .globCmd).writeFlag = true ∧
      ((List.range 6).all fun u => (at_ atIdv (.wrreg .globCmd 0xFFFF) u).upc == u) = true ∧
      (at_ atIdv (.wrreg .globCmd 0xFFFF) 5).misuse = false := by decide

/-- Answered, unanswered, busy, and a gap. -/
theorem test_meets_HostExchanges :
    let s := { at_ atIdv (.xchgb 0x12 0x34) 2 with readies := [true], answers := [some 7] }
    s.settle = 0 ∧ s.ready = true ∧ s.answer 0x1234 = some 7 ∧
      ({ s with hist := s.hist ++ [⟨.poll true, s.now⟩] } : State).answer (0x12#8 ++ 0x34#8) = some 7 ∧
      ({ s with answers := [none] } : State).answer (0x12#8 ++ 0x34#8) = none ∧
      ({ s with readies := [false] } : State).ready = false ∧ ({ s with settle := 40 } : State).settle ≠ 0 ∧
      s.params.busyTimeout = none ∧
      ({ s with hist := s.hist ++ [⟨.poll true, s.now⟩], answers := [none] } : State).answer (0x12#8 ++ 0x34#8) = none :=
  ⟨rfl, rfl, rfl, rfl, rfl, rfl, by decide, rfl, rfl⟩

/-- The TIMEOUT clause at its boundary: `pollT` equal to the timeout, the device not ready. -/
theorem test_meets_HostExchanges_timeout :
    let s := { at_ atIdv (.xchgb 0x12 0x34) 2 with
      params := { Params.e0 with busyTimeout := some 5 }, pollT := 5, readies := [false] }
    s.settle = 0 ∧ s.ready = false ∧ s.params.busyTimeout = some 5 ∧ 5 ≤ s.pollT ∧
      seen (exec (.xchgb 0x12 0x34) s) (fun t => t.lastErrReg) = some (6, 0, 0, 0x1234, 0) := by decide +kernel

/-- XCHGB ready and unanswered (60_exceptions R273). -/
theorem test_meets_HostExchanges_transport :
    seen (exec (.xchgb 0x12 0x34) { at_ atIdv (.xchgb 0x12 0x34) 2 with readies := [true], answers := [none] })
      (fun t => (t.lastErrReg, t.fsm)) = some ((1, 0, 0, 0x1234, 0), .failed) := by decide +kernel

/-- The state that `RdregRun` starts from. -/
def rdregStart : State :=
  { showing atIdv 0x00000107 with
    readies := [true, true, true], answers := [some 0, some 0, some 0x0BCD],
    turns := coreTurns 5 ++ ticks 40 ++ coreTurns 2 ++ ticks 40 ++ coreTurns 3 ++ [] }

theorem test_meets_RdregRun :
    rdregStart.idle ∧ rdregStart.fsm = .idv ∧ rdregStart.settle = 0 ∧
      decodeCmd rdregStart.params 0x00000107 = .ok (.rdreg .prodId) ∧
      (rdregStart.params.cat.entry .prodId).readFlag = true :=
  ⟨⟨rfl, rfl⟩, rfl, rfl, rfl, rfl⟩

/-- V30: the run's response. -/
theorem test_rdreg_run_V30 :
    seen (runSteps 90 rdregStart) (fun t => (t.responseReg, exchanges t.hist, t.now)) =
      some (⟨true, 0, 0x0BCD⟩, [(0x8000, true), (0x5600, true), (0x0000, true)], 80) := by decide +kernel

/-- The state that `WrregRun` starts from. -/
def wrregStart : State :=
  { showing atIdv 0x10020208 with
    readies := [true, true, true], answers := [some 0, some 0, some 0],
    turns := coreTurns 5 ++ ticks 40 ++ coreTurns 2 ++ ticks 40 ++ coreTurns 2 ++ [] }

theorem test_meets_WrregRun :
    wrregStart.idle ∧ wrregStart.fsm = .idv ∧ wrregStart.settle = 0 ∧
      decodeCmd wrregStart.params 0x10020208 = .ok (.wrreg .recCtrl 0x1002) ∧
      (wrregStart.params.cat.entry .recCtrl).writeFlag = true :=
  ⟨⟨rfl, rfl⟩, rfl, rfl, rfl, rfl⟩

theorem test_meets_EchoRoundTrip :
    let r := Params.e0.cat.entry .recCtrl
    r.addr ≠ 0 ∧ r.addr ≠ Params.e0.pageAddr ∧ r.addr + 1 ≠ Params.e0.pageAddr := by decide

/-! ### Configuration -/

theorem test_meets_InitCompletes :
    ({ at_ State.reset .init 1 with opens := [true] } : State).opensOk = true ∧
      ({ at_ State.reset .init 1 with opens := [false] } : State).opensOk = false ∧
      (at_ State.reset .init 13).misuse = false ∧
      ({ at_ State.reset .init 13 with regv := 0x0BCD } : State).regv = State.reset.params.prodIdExpected ∧
      ({ at_ State.reset .init 13 with regv := 0x0BCE } : State).regv ≠ State.reset.params.prodIdExpected ∧
      ({ at_ State.reset .init 3 with dly := 1 } : State).dly ≠ 0 ∧ (at_ State.reset .init 6).dly = 0 := by decide

/-- The identity read's first and last positions, with a readable and an unreadable PROD_ID. -/
theorem test_meets_InitCompletes_read :
    Params.e0.cat.prodId.readFlag = true ∧
      ({ Catalog.e0 with prodId := ⟨0, 0x56, false, false⟩ } : Catalog).prodId.readFlag = false ∧
      seen (exec .init { at_ State.reset .init 7 with misuse := true }) (fun t => (t.misuse, t.upc)) = some (false, 8) ∧
      seen (exec .init { at_ State.reset .init 12 with rx := 0x0BCD }) (fun t => (t.regv, t.upc)) =
        some (0x0BCD, 13) := by decide +kernel

/-- The state that `InitRun` starts from. -/
def initStart : State :=
  { showing State.reset 0x00000001 with
    opens := [true], readies := [true, true, true], answers := [some 0, some 0, some 0x0BCD],
    turns :=
      coreTurns 3 ++ ticks 200000 ++ coreTurns 3 ++ ticks 500000 ++ coreTurns 6 ++ ticks 40 ++
        coreTurns 2 ++ ticks 40 ++ coreTurns 3 ++ [] }

theorem test_meets_InitRun :
    initStart.idle ∧ initStart.fsm = .uninit ∧ decodeCmd initStart.params 0x00000001 = .ok .init ∧
      initStart.params.cat.prodId.readFlag = true ∧ initStart.opens = [true] ∧
      initStart.answers = [some 0, some 0, some initStart.params.prodIdExpected] :=
  ⟨⟨rfl, rfl⟩, rfl, rfl, rfl, rfl, rfl⟩

/-- The three forms' last positions; the mode's code, and Capture's for another mode. -/
theorem test_meets_ActivateCompletes :
    (at_ atIdv (.activate .rts 0 0 true 0) 15).upc = 15 ∧ (at_ atIdv (.activate .mfft 0 0 true 0) 29).upc = 29 ∧
      (at_ atIdv (.activate .afft 0 0 false 0) 23).upc = 23 ∧
      bitField 0x1003 Params.e0.modeLsb Params.e0.modeW = Params.e0.modeCode.code .rts ∧
      bitField 0x0002 Params.e0.modeLsb Params.e0.modeW = Params.e0.modeCode.code .mtc ∧
      bitField 0x0002 Params.e0.modeLsb Params.e0.modeW ≠ Params.e0.modeCode.code .rts := by decide

/-- The read-back's positions: the first and the last, with a readable and an unreadable REC_CTRL. -/
theorem test_meets_ActivateCompletes_read :
    (at_ atIdv (.activate .rts 0 0 false 0) 9).upc + 6 = 15 ∧ (at_ atIdv (.activate .mfft 0 0 true 0) 28).upc + 1 = 29 ∧
      Params.e0.cat.recCtrl.readFlag = true ∧
      ({ Catalog.e0 with recCtrl := ⟨0, 0x1A, false, true⟩ } : Catalog).recCtrl.readFlag = false ∧
      seen (exec (.activate .mfft 0 0 true 0) { at_ atIdv (.activate .mfft 0 0 true 0) 23 with misuse := true })
        (fun t => (t.misuse, t.upc)) = some (false, 24) ∧
      seen (exec (.activate .afft 0 0 false 0) { at_ atIdv (.activate .afft 0 0 false 0) 22 with rx := 0x1001 })
        (fun t => (t.regv, t.upc)) = some (0x1001, 23) := by decide +kernel

theorem test_meets_TriggersComplete :
    (at_ (atActive .mtc) .trigger 5).misuse = false ∧
      ({ at_ (atActive .mtc) .trigger 6 with dly := 12000 } : State).dly ≠ 0 ∧
      (at_ (atActive .mtc) .trigger 6).dly = 0 ∧ (at_ (atActive .mtc) .trigger 7).upc = 7 := by decide

/-- The write's check, allowed and refused, and its last frame. -/
theorem test_meets_TriggersComplete_write :
    Params.e0.cat.extCtrl.writeFlag = true ∧
      ({ Catalog.e0 with globCmd := ⟨0, 0x3E, false, false⟩ } : Catalog).globCmd.writeFlag = false ∧
      (at_ atIdv .exttrig 1).upc = 1 ∧ (at_ (atActive .mtc) .trigger 4).upc = 4 := by decide

theorem test_meets_CloseCompletes :
    (at_ atIdv .close 1).linesOpen = true ∧ (at_ State.reset .close 1).linesOpen = false ∧
      (at_ atIdv .close 2).fsm ≠ .failed ∧ ({ at_ atIdv .close 2 with fsm := .failed } : State).fsm = .failed := by
  decide

/-- An ACTIVATE that passes its latch check has the session invariant and changes `fsm` and the mode. -/
theorem test_meets_SessionTransitions :
    let s := { at_ atIdv (.activate .mtc 0 0 false 0) 23 with regv := 2 }
    SessionInv s ∧ seen (step s) (fun t => (t.fsm, t.mode)) = some (.active, some .mtc) :=
  ⟨⟨by simp [at_, atIdv, State.reset, State.resetWith], by simp [at_],
      by simp [at_, atIdv, runningFsm], by simp [at_, atIdv, State.reset, State.resetWith]⟩,
    by decide +kernel⟩

/-! ### Sampling -/

theorem test_meets_CaptureReadsParameters :
    (at_ (atActive .afft) .capture 6).mode = some .afft ∧ (at_ (atActive .afft) .capture 12).upc = 12 := by decide

/-- The reads' first and last positions, with a readable and an unreadable register. -/
theorem test_meets_CaptureReadsParameters_read :
    (at_ (atActive .mtc) .capture 1).upc = 1 ∧ (at_ (atActive .mfft) .capture 11).upc = 7 + 4 ∧
      (Params.e0.cat.entry Params.e0.decSrcReg).readFlag = true ∧
      (Params.e0.cat.entry ({ Params.e0 with decSrcReg := .globCmd } : Params).decSrcReg).readFlag = false ∧
      seen (exec .capture { at_ (atActive .mtc) .capture 5 with rx := 0x0003 }) (fun t => (t.regv, t.upc)) =
        some (3, 6) ∧
      seen (exec .capture { at_ (atActive .mfft) .capture 11 with rx := 0x0004 }) (fun t => (t.regv, t.upc)) =
        some (4, 12) := by decide +kernel

/-- The last checked word of an axis, the last axis, the last word of a block, the last block. -/
theorem test_meets_CaptureStores :
    ({ at_ (atActive .mtc) .capture 16 with i := 4094 } : State).i.val + 2 = 4096 ∧
      ({ at_ (atActive .mfft) .capture 22 with i := 2045 } : State).i.val + 2 < 2048 ∧
      ({ at_ (atActive .afft) .capture 24 with ax := 2 } : State).ax.val = 2 ∧
      ({ at_ (atActive .rts) .capture 3 with w := 99 } : State).w.val = 99 ∧
      ({ at_ (atActive .rts) .capture 4 with b := 9 } : State).b.val = 9 ∧
      Memory.wf (at_ (atActive .rts) .capture 3).mem = true := by decide

theorem test_meets_BlockStored :
    (List.replicate 99 (7 : Half)).length ≠ 100 ∧ (List.replicate 100 (7 : Half)).length = 100 ∧
      Memory.wf (atActive .rts).mem = true ∧
      (BufRef.blk 0 ≠ .info 0 0 ∧ BufRef.raw 0 32 ≠ blockSample 0 0 31) := by decide

theorem test_meets_MalformedBlock :
    (List.replicate 99 (7 : Half)).length ≠ 100 ∧
      seen (exec .capture { at_ (atActive .rts) .capture 1 with rspStatus := .malformedBlock }) State.rspStatus =
        some .malformedBlock := by decide +kernel

theorem test_meets_CaptureCompletes :
    (at_ (atActive .rts) .capture 5).upc = 5 ∧ (at_ (atActive .mtc) .capture 19).upc = 19 ∧
      (at_ (atActive .mfft) .capture 25).mode = some .mfft ∧ (at_ (atActive .afft) .capture 25).mode = some .afft := by
  decide

/-! ### Exchanges -/

theorem test_meets_ExchangesFollowTheProgram :
    SessionInv (at_ atIdv (.rdreg .prodId) 2) ∧
      seen (step (at_ atIdv (.rdreg .prodId) 2)) (fun t => (t.cmd.isSome, t.remaining.length)) = some (true, 3) ∧
      seen (step (at_ atIdv (.rdreg .prodId) 6)) (fun t => (t.cmd, t.rspStatus)) = some (none, .ok) :=
  ⟨test_running_inv 2 (by omega), by decide +kernel, by decide +kernel⟩

/-- With the example catalog no access of these commands is refused. -/
theorem test_meets_ExchangeTotals :
    ([.init, .exttrig, .trigger, .close, .rdreg .prodId, .wrreg .globCmd 0, .xchg 0 0, .xchgb 0 0,
        .activate .rts 0 0 true 0, .activate .mtc 0 0 false 0, .activate .afft 0 0 true 0].all
      fun i : Instr => (at_ atIdv i 1).accessesAllowed i && (at_ atIdv i 1).upc == 1) = true ∧
    ([.rts, .mtc, .mfft, .afft].all fun m : Mode => (at_ (atActive m) .capture 1).accessesAllowed .capture) = true := by
  decide +kernel

theorem test_meets_TapsBeforeSelection :
    (at_ atIdv (.activate .mfft 3 7 true 0) 1).accessesAllowed (.activate .mfft 3 7 true 0) = true ∧
      (at_ atIdv (.activate .mfft 3 7 true 0) 1).out = none := by decide +kernel

/-! ### Numbers: the operands' conditions -/

theorem test_meets_numbers : (0xFFFF : Half) ≠ 0 ∧ (1 : Half) ≠ 0 := by decide

/-! ### Invariants -/

/-- A stored word, and the capture that stores the next one. -/
theorem test_meets_MemoryStaysCanonical :
    let s := { at_ (atActive .mtc) .capture 16 with mem := Memory.writeWord [] (.raw 0 4) 0x1234, i := 5, rx := 0x0100 }
    Memory.wf s.mem = true ∧ seen (step s) (fun t => t.mem.length) = some 3 := by decide +kernel

theorem test_meets_SessionInvStays :
    SessionInv (at_ atIdv (.rdreg .prodId) 1) ∧
      seen (step (at_ atIdv (.rdreg .prodId) 1)) (fun t => t.upc) = some 2 :=
  ⟨test_running_inv 1 (by omega), by decide +kernel⟩

theorem test_meets_EveryStepAnswers : RunInv (at_ atIdv (.rdreg .prodId) 6) :=
  ⟨test_e0_ok, test_running_inv 6 (by omega), show (6 : Nat) < 7 by omega⟩

/-- One exchange at 10, 30 microseconds of its gap left at 20. -/
theorem test_meets_SettleLawStays :
    let s := { at_ atIdv (.rdreg .prodId) 4 with hist := [⟨.xfer 0 none true, 10⟩], now := 20, settle := 30 }
    SettleInv s ∧ seen (step s) (fun t => t.upc) = some 5 := by
  refine ⟨⟨?_, ?_⟩, by decide +kernel⟩
  · intro pre e mid x post h
    have := congrArg List.length h
    simp at this
    omega
  · intro pre e mid h _ _
    cases pre with
    | nil =>
      simp only [List.nil_append, List.cons.injEq] at h
      rw [← h.1]
      decide
    | cons a l => simp at h

theorem test_meets_BusyLawStays :
    BusyLaw [⟨.poll true, 3⟩, ⟨.xfer 0 none true, 3⟩] ∧
      seen (step { at_ atIdv (.xchgb 0 0) 2 with readies := [true], answers := [none] }) (fun t => t.hist.length) =
        some 2 := by
  refine ⟨?_, by decide +kernel⟩
  intro pre tx rx t post h
  cases pre with
  | nil => simp at h
  | cons a l =>
    cases l with
    | nil =>
      simp only [List.cons_append, List.nil_append, List.cons.injEq, Stamped.mk.injEq] at h
      exact ⟨[], by simp [← h.1, ← h.2.1.2]⟩
    | cons b l => simp at h

/-- INIT in its first wait, 100000 microseconds after the open. -/
theorem test_meets_ResetTimingLawStays :
    let s := { at_ State.reset .init 3 with hist := [⟨.opened true, 5⟩], now := 100005, dly := 100000, linesOpen := true }
    ResetTimingInv s ∧ seen (step s) (fun t => t.upc) = some 3 := by
  refine ⟨⟨⟨by simp [at_, State.reset, State.resetWith], by simp [at_], by simp [at_, State.reset, State.resetWith, runningFsm],
      by simp [at_, State.reset, State.resetWith]⟩, ⟨?_, ?_⟩, ?_, rfl, [], _, rfl, rfl, by decide⟩, by decide +kernel⟩
  · intro pre e post h he
    cases pre with
    | nil =>
      simp only [List.nil_append, List.cons.injEq] at h
      rw [← h.1] at he
      simp at he
    | cons a l => simp at h
  · intro pre e mid x post h
    have := congrArg List.length h
    simp at this
    omega
  · intro e he hev
    simp only [List.mem_singleton] at he
    rw [he] at hev
    simp at hev

/-- TRIGGER in its wait, and at its end. -/
theorem test_meets_TriggerLawStays :
    let s := { at_ (atActive .mtc) .trigger 6 with hist := [⟨.xfer 0 none true, 0⟩], now := 2000, dly := 10000 }
    let e := { at_ (atActive .mtc) .trigger 7 with hist := [⟨.xfer 0 none true, 0⟩], now := 12000 }
    TriggerInv s ∧ TriggerInv e ∧ seen (step s) (fun t => t.upc) = some 6 ∧
      seen (step e) (fun t => (t.cmd, t.rspStatus)) = some (none, .ok) := by
  refine ⟨⟨?_, rfl, ?_⟩, ⟨?_, rfl, ?_⟩, by decide +kernel, by decide +kernel⟩
  all_goals
    intro e he
    simp only [List.mem_singleton] at he
    rw [he]
    decide

/-- Stamps that rise, and `rx` the last answer. -/
theorem test_meets_StampsAndAnswerStay :
    let h : History := [⟨.poll true, 3⟩, ⟨.xfer 0 (some 7) true, 3⟩]
    let s := { at_ atIdv (.rdreg .prodId) 1 with hist := h, now := 9, rx := 7 }
    StampsInv s ∧ s.rx = lastAnswer s.hist ∧ seen (step s) (fun t => t.upc) = some 2 :=
  ⟨⟨by decide, by decide, by decide, by decide⟩, by decide, by decide +kernel⟩

/-- A command in progress over open lines, and its exchange. -/
theorem test_meets_LinesStay :
    LinesInv (at_ atIdv (.xchg 0 0) 1) ∧
      seen (step { at_ atIdv (.xchg 0 0) 1 with answers := [some 0] }) (fun t => (exchanges t.hist).length) = some 1 :=
  ⟨⟨⟨by simp [at_, atIdv, State.reset, State.resetWith], by simp [at_], by simp [at_, atIdv, runningFsm],
      by simp [at_, atIdv, State.reset, State.resetWith]⟩, by decide, rfl⟩, by decide +kernel⟩

/-! ### Frames -/

/-- A step that changes the buffers. -/
theorem test_meets_StepFrame :
    seen (step { at_ (atActive .mtc) .capture 16 with rx := 0x1234 }) (fun t => Memory.readByte t.mem 0) = some 0x12 := by
  decide +kernel

theorem test_meets_FrameOfLinkFrames :
    seen (exec LinkFrame.null.instr (framing (at_ atIdv (.rdreg .prodId) 5) ⟨.null, true, 0, 0⟩ [true] [some 1]))
      (fun t => (t.rx, t.cmd.isSome)) = some (1, true) := by decide +kernel

theorem test_meets_FrameOfCommands :
    seen (exec (.xchg 0 0) { at_ atIdv (.xchg 0 0) 1 with answers := [none] }) State.fsm = some .failed ∧
      seen (exec .close (at_ atIdv .close 1)) State.linesOpen = some false ∧
      seen (exec .init { at_ State.reset .init 1 with opens := [true] }) State.linesOpen = some true := by decide +kernel

/-- Each storing position, with an element it does not store to. -/
theorem test_meets_FrameOfCapture :
    seen (exec .capture (at_ (atActive .rts) .capture 3)) (fun t => t.w) = some 1 ∧ BufRef.raw 0 0 ≠ .blk 0 ∧
      seen (exec .capture (at_ (atActive .rts) .capture 4)) (fun t => t.b) = some 1 ∧
      BufRef.raw 0 32 ≠ blockSample 0 0 31 ∧
      seen (exec .capture (at_ (atActive .mtc) .capture 16)) (fun t => t.i) = some 1 ∧ BufRef.raw 0 1 ≠ .raw 0 0 ∧
      seen (exec .capture (at_ (atActive .afft) .capture 24)) (fun t => t.ax) = some 1 := by decide +kernel

end Sys2Proof.Machine
end

section
/-! What a core turn does to the command in progress, the session and the lines: the case lists for the events of the
micro-programs, the framer and a whole step, and the two invariants that rest on them (10_state R38, R39, R43). -/

namespace Sys2Proof.Machine

/-! ### What a core turn does to the command in progress -/

/-- The command goes on: it stays latched and the response does not change (10_state R37). -/
structure Continues (s t : State) : Prop where
  cmd : t.cmd = s.cmd
  rspValid : t.rspValid = s.rspValid
  rspStatus : t.rspStatus = s.rspStatus
  rspData : t.rspData = s.rspData

/-- The session does not change. -/
structure SameSession (s t : State) : Prop where
  fsm : t.fsm = s.fsm
  mode : t.mode = s.mode

/-- The lines do not change. -/
structure SameLines (s t : State) : Prop where
  linesOpen : t.linesOpen = s.linesOpen
  rstO : t.rstO = s.rstO

/-- The command goes on, with the session and the lines as they were. -/
structure Quiet (s t : State) : Prop extends Continues s t, SameSession s t, SameLines s t

/-- The fields that a quiet change keeps. -/
def State.quietFields (s : State) :
    Option Cmd × Bool × Status × Half × Fsm × Option Mode × Bool × Option Bool :=
  (s.cmd, s.rspValid, s.rspStatus, s.rspData, s.fsm, s.mode, s.linesOpen, s.rstO)

/-- A change that keeps them is quiet. -/
theorem Quiet.of_fields {s t : State} (h : t.quietFields = s.quietFields) : Quiet s t := by
  simp only [State.quietFields, Prod.mk.injEq] at h
  obtain ⟨hcmd, hvalid, hstatus, hdata, hfsm, hmode, hopen, hrst⟩ := h
  exact ⟨⟨hcmd, hvalid, hstatus, hdata⟩, ⟨hfsm, hmode⟩, ⟨hopen, hrst⟩⟩

/-- No change is quiet. -/
theorem Quiet.refl (s : State) : Quiet s s := .of_fields rfl

/-- One quiet change after another. -/
theorem Quiet.trans {s t u : State} (h : Quiet s t) (h' : Quiet t u) : Quiet s u :=
  .of_fields (by simp only [State.quietFields, h'.cmd, h'.rspValid, h'.rspStatus, h'.rspData, h'.fsm, h'.mode,
    h'.linesOpen, h'.rstO, h.cmd, h.rspValid, h.rspStatus, h.rspData, h.fsm, h.mode, h.linesOpen, h.rstO])

/-- Going to the next position is quiet. -/
theorem advance_quiet (s : State) : Quiet s s.advance := .of_fields rfl

/-- Taking the turn is quiet. -/
theorem popTurn_quiet (s : State) : Quiet s s.popTurn := .of_fields (by simp [State.quietFields])

/-- The command is over: `Respond` has run (10_state R37). -/
structure Ended (t : State) : Prop where
  cmd : t.cmd = none
  upc : t.upc = 0
  out : t.out = none
  rspValid : t.rspValid = true

/-- INIT stays on its side of the reset edge (position 4) and has no transfer before OpenLink (position 1) is done. -/
def KeepsStage (s t : State) : Prop :=
  (t.upc ≤ 4 ↔ s.upc ≤ 4) ∧ (2 ≤ t.upc ∨ t.out ≠ none → 2 ≤ s.upc ∨ s.out ≠ none)

/-- What a core turn on the command `i` in progress can do to the command, the session and the lines (41_configuration
R180 to R187). -/
inductive SessionCase (i : Instr) (s t : State) : Prop where
  /-- The command goes on and nothing of the session changes. -/
  | quiet (h : Quiet s t) (hinit : i = .init → KeepsStage s t)
      (hclose : i = .close → t.upc = s.upc + 1 ∧ t.out = s.out)
  /-- The command ends and nothing of the session changes; INIT does so at its check only, CLOSE in UNINIT only. -/
  | ended (he : Ended t) (hs : SameSession s t) (hl : SameLines s t) (hinit : i = .init → s.upc = 0)
      (hclose : i = .close → s.fsm = .uninit)
  /-- A fatal error. -/
  | failed (he : Ended t) (hf : t.fsm = .failed) (hm : t.mode = none) (hl : SameLines s t)
  /-- ACTIVATE passes its check. -/
  | leaves (hi : ∃ m win decl cust fsel, i = .activate m win decl cust fsel) (hc : Continues s t) (hf : t.fsm = .idv)
      (hm : t.mode = none) (hl : SameLines s t)
  /-- ACTIVATE's latch check passes. -/
  | activated (hi : ∃ m win decl cust fsel, i = .activate m win decl cust fsel) (he : Ended t) (hf : t.fsm = .active)
      (hm : t.mode ≠ none) (hl : SameLines s t)
  /-- INIT opens the link. -/
  | opened (hi : i = .init) (hu : s.upc = 1) (hc : Continues s t) (hs : SameSession s t) (hn : t.upc = 2)
      (ho : t.linesOpen = true) (hr : t.rstO = some false)
  /-- INIT raises the reset line. -/
  | edge (hi : i = .init) (hu : s.upc = 4) (hc : Continues s t) (hf : t.fsm = .reset) (hm : t.mode = s.mode)
      (hn : t.upc = 5) (hl : t.linesOpen = s.linesOpen) (hr : t.rstO = some true)
  /-- INIT's identity check passes. -/
  | identified (hi : i = .init) (hu : s.upc = 13) (he : Ended t) (hf : t.fsm = .idv) (hm : t.mode = s.mode)
      (hl : SameLines s t)
  /-- CLOSE releases the lines. -/
  | released (hi : i = .close) (hc : Continues s t) (hs : SameSession s t) (hn : t.upc = s.upc + 1) (ho : t.out = s.out)
      (hl : t.linesOpen = false) (hr : t.rstO = none)
  /-- CLOSE ends the session. -/
  | closed (hi : i = .close) (he : Ended t) (hf : t.fsm = .failed ∨ t.fsm = .uninit) (hm : t.mode = none)
      (hl : SameLines s t)

/-- For a command other than INIT and CLOSE a quiet turn has no further condition. -/
theorem Quiet.sessionCase {i : Instr} {s t : State} (h : Quiet s t) (hi : i ≠ .init) (hc : i ≠ .close) :
    SessionCase i s t :=
  .quiet h (fun h => absurd h hi) (fun h => absurd h hc)

/-- `Respond` ends the command. -/
theorem respond_ended (s : State) (c : Status) (d : Half) : Ended (s.respond c d) := ⟨rfl, rfl, rfl, rfl⟩

/-- A response ends a command, the session and the lines as they were. -/
theorem respond_sessionCase {i : Instr} (hi : i ≠ .init) (hc : i ≠ .close) (s : State) (c : Status) (d : Half) :
    SessionCase i s (s.respond c d) :=
  .ended (respond_ended s c d) ⟨rfl, rfl⟩ ⟨rfl, rfl⟩ (fun h => absurd h hi) (fun h => absurd h hc)

/-- The error entry ends the command. -/
theorem raise_ended (s : State) (e : ErrRec) (d : Half) : Ended (s.raise e d) := by constructor <;> simp

/-- BAD_STATE leaves the session and the lines (60_exceptions R275). -/
theorem raiseBadState_kept (s : State) : SameSession s s.raiseBadState ∧ SameLines s s.raiseBadState :=
  ⟨⟨State.raise_fsm .., State.raise_mode ..⟩, ⟨State.raise_linesOpen .., State.raise_rstO ..⟩⟩

/-- BAD_COMMAND leaves the session and the lines (60_exceptions R276). -/
theorem raiseBadCommand_kept (s : State) : SameSession s s.raiseBadCommand ∧ SameLines s s.raiseBadCommand :=
  ⟨⟨State.raise_fsm .., State.raise_mode ..⟩, ⟨State.raise_linesOpen .., State.raise_rstO ..⟩⟩

/-- The error entry after a quiet change; in INIT the error has to be fatal, or to be that of the check. -/
theorem raise_sessionCase {i : Instr} {s u : State} (h : Quiet s u) (e : ErrRec) (d : Half)
    (hinit : i = .init → u.fatal e.code = true ∨ s.upc = 0) (hclose : i = .close → s.fsm = .uninit) :
    SessionCase i s (u.raise e d) := by
  have hl : SameLines s (u.raise e d) := ⟨by simp [h.linesOpen], by simp [h.rstO]⟩
  cases hf : u.fatal e.code with
  | true => exact .failed (raise_ended u e d) (by simp [hf]) (by simp [hf]) hl
  | false =>
    refine .ended (raise_ended u e d) ⟨by simp [hf, h.fsm], by simp [hf, h.mode]⟩ hl ?_ hclose
    intro hi
    simpa [hf] using hinit hi

/-! ### The framer -/

/-- A poll changes nothing of the session. -/
theorem polled_quiet (s : State) : Quiet s s.polled := .of_fields rfl

/-- An exchange changes nothing of the session. -/
theorem exchanged_quiet (s : State) (tx : Frame) (checked : Bool) : Quiet s (s.exchanged tx checked) :=
  .of_fields rfl

/-- The framer's errors: those whose code is TRANSPORT or TIMEOUT. -/
def isLinkError (e : ErrRec) : Prop := e.code = .transport ∨ e.code = .timeout

/-- A framer step is quiet, at the same position, or raises an error after a quiet change. -/
theorem framer_session (s : State) (tx : Frame) (checked : Bool) (page addr : Byte) :
    (∃ t, (s.framer tx checked page addr = .waiting t ∨ s.framer tx checked page addr = .done t) ∧ Quiet s t ∧
      t.upc = s.upc ∧ t.out = s.out) ∨
    ∃ u e, s.framer tx checked page addr = .raised (u.raise e 0) ∧ Quiet s u ∧ isLinkError e := by
  have h := framer_cases s tx checked page addr
  generalize s.framer tx checked page addr = r at h
  cases h with
  | hold => exact .inl ⟨_, .inl rfl, Quiet.refl s, rfl, rfl⟩
  | busy => exact .inl ⟨_, .inl rfl, polled_quiet s, rfl, rfl⟩
  | checkedDone => exact .inl ⟨_, .inr rfl, .of_fields rfl, rfl, rfl⟩
  | rawDone => exact .inl ⟨_, .inr rfl, .of_fields rfl, rfl, rfl⟩
  | timeout => exact .inr ⟨_, _, rfl, polled_quiet s, .inr rfl⟩
  | checkedFails => exact .inr ⟨_, _, rfl, (polled_quiet s).trans (exchanged_quiet _ _ _), .inl rfl⟩
  | rawFails => exact .inr ⟨_, _, rfl, exchanged_quiet _ _ _, .inl rfl⟩

/-- The framer's errors are fatal in INIT (60_exceptions R277). -/
theorem linkError_fatal {u : State} {c : Cmd} {e : ErrRec} (hc : u.cmd = some c) (hi : c.instr = .init)
    (he : isLinkError e) : u.fatal e.code = true := by
  rcases he with he | he <;> simp [State.fatal, State.inInit, he, hc, hi]

/-- The framer's step of a transfer that belongs to the command in progress. -/
theorem sendFrame_session {s : State} {c : Cmd} (hc : s.cmd = some c) (hclose : c.instr ≠ .close) (tx : Frame) :
    SessionCase c.instr s (s.sendFrame tx) ∧ ((s.sendFrame tx).cmd = none ∨ (s.sendFrame tx).upc = s.upc) := by
  obtain ⟨checked, page, addr, hs, -⟩ := sendFrame_sent s tx
  rw [hs]
  rcases framer_session s tx checked page addr with ⟨t, ht | ht, hq, hu, ho⟩ | ⟨u, e, hr, hq, he⟩
  · rw [ht]
    exact ⟨.quiet hq (fun _ => by simp [KeepsStage, LinkResult.sent, hu, ho]) (fun h => absurd h hclose), .inr hu⟩
  · rw [ht]
    have hstage : KeepsStage s { t with out := none } :=
      ⟨by simp [hu], fun h => .inl (by simpa [hu] using h)⟩
    exact ⟨.quiet (hq.trans (.of_fields rfl)) (fun _ => hstage) (fun h => absurd h hclose), .inr hu⟩
  · rw [hr]
    have hfatal : c.instr = .init → u.fatal e.code = true := fun hi => linkError_fatal (hq.cmd.trans hc) hi he
    exact ⟨raise_sessionCase hq e 0 (fun hi => .inl (hfatal hi)) (fun h => absurd h hclose),
      .inl (State.raise_cmd u e 0)⟩

/-- The host's own exchange. -/
theorem hostExchange_session {i : Instr} (hi : i ≠ .init) (hclose : i ≠ .close) (tx : Frame) (checked : Bool)
    (s : State) : SessionCase i s (hostExchange tx checked s) := by
  rw [hostExchange_hosted]
  rcases framer_session s tx checked 0 0 with ⟨t, ht | ht, hq, -, -⟩ | ⟨u, e, hr, hq, he⟩
  · rw [ht]
    exact hq.sessionCase hi hclose
  · rw [ht]
    exact (hq.trans (advance_quiet t)).sessionCase hi hclose
  · rw [hr]
    exact raise_sessionCase hq e 0 (fun h => absurd h hi) (fun h => absurd h hclose)

/-! ### Micro-programs -/

/-- The events that change neither the session nor the lines and never end the command, with how many positions each
can go back. -/
inductive QuietEvent : Nat → (State → State) → Prop where
  | waitStart (us : Nat) : QuietEvent 0 (waitStart us)
  | waitHold : QuietEvent 0 waitHold
  | clearMisuse : QuietEvent 0 clearMisuse
  | readCheck (r : RegAddr) : QuietEvent 0 (readCheck r)
  | writeCheck (r : RegAddr) : QuietEvent 0 (writeCheck r)
  | send (f : LinkFrame) (checked : Bool) (page addr : Byte) : QuietEvent 0 (send f checked page addr)
  | latchRegv : QuietEvent 0 latchRegv
  | firstTap : QuietEvent 0 firstTap
  | nextTap : QuietEvent 4 nextTap
  | pollStart : QuietEvent 0 pollStart
  | latchDecF : QuietEvent 0 latchDecF
  | latchAvgC : QuietEvent 0 latchAvgC
  | firstAxis : QuietEvent 0 firstAxis
  | firstWord : QuietEvent 0 firstWord
  | storeWord (n : Nat) : QuietEvent 1 (storeWord n)
  | storeLast (len : Nat) : QuietEvent len (storeLast len)
  | firstBlock : QuietEvent 0 firstBlock
  | storeBlockWord : QuietEvent 1 storeBlockWord
  | parseCollected : QuietEvent 2 parseCollected

/-- The other events behind position 0: line primitives, the host's own exchange, checks of a value read,
completions. -/
inductive TurningEvent : (State → State) → Prop where
  | openLink : TurningEvent openLink
  | resetEdge : TurningEvent resetEdge
  | identityCheck : TurningEvent identityCheck
  | modeCheck (m : Mode) : TurningEvent (modeCheck m)
  | finishRead : TurningEvent finishRead
  | finishWrite : TurningEvent finishWrite
  | finishExchange : TurningEvent finishExchange
  | finishOk : TurningEvent finishOk
  | triggerSent : TurningEvent triggerSent
  | hostExchange (tx : Frame) (checked : Bool) : TurningEvent (hostExchange tx checked)
  | releaseLines : TurningEvent releaseLines
  | finishClose : TurningEvent finishClose
  | emitBatch (m : Mode) : TurningEvent (emitBatch m)

/-- A quiet event makes a quiet change. -/
theorem QuietEvent.quiet {n : Nat} {f : State → State} (h : QuietEvent n f) (s : State) : Quiet s (f s) := by
  cases h
  case parseCollected =>
    rw [parseCollected_eq]
    split <;> exact .of_fields rfl
  case waitHold | readCheck | writeCheck | nextTap | storeLast | storeBlockWord =>
    simp only [Machine.waitHold, Machine.readCheck, Machine.writeCheck, Machine.nextTap, Machine.storeLast,
      Machine.storeBlockWord]
    split <;> exact .of_fields rfl
  case storeWord =>
    unfold Machine.storeWord
    split
    · split <;> exact .of_fields rfl
    · exact .of_fields rfl
  all_goals exact .of_fields rfl

/-- The event ends the command or goes back at most `n` positions. -/
def BackAtMost (n : Nat) (f : State → State) : Prop := ∀ s, (f s).cmd = none ∨ s.upc ≤ (f s).upc + n

/-- How far a quiet event goes back. -/
theorem QuietEvent.back {n : Nat} {f : State → State} (h : QuietEvent n f) (s : State) : s.upc ≤ (f s).upc + n := by
  cases h
  case parseCollected =>
    rw [parseCollected_eq]
    split <;> simp <;> omega
  case storeWord =>
    unfold Machine.storeWord
    split
    · split <;> simp <;> omega
    · exact Nat.le_add_right_of_le (Nat.le_succ _)
  case waitHold | readCheck | writeCheck | nextTap | storeLast | storeBlockWord =>
    simp only [Machine.waitHold, Machine.readCheck, Machine.writeCheck, Machine.nextTap, Machine.storeLast,
      Machine.storeBlockWord]
    split <;> simp <;> omega
  all_goals exact Nat.le_succ _

/-- No other event goes back. -/
theorem TurningEvent.back {f : State → State} (h : TurningEvent f) : BackAtMost 0 f := by
  intro s
  cases h
  case hostExchange tx checked =>
    rw [hostExchange_hosted]
    rcases framer_session s tx checked 0 0 with ⟨t, ht | ht, -, hu, -⟩ | ⟨u, e, hr, -, -⟩
    · rw [ht]
      exact .inr hu.ge
    · rw [ht]
      exact .inr (Nat.le_succ_of_le hu.ge)
    · rw [hr]
      exact .inl (State.raise_cmd u e 0)
  case finishClose | finishOk | finishExchange | emitBatch => exact .inl rfl
  case resetEdge => exact .inr (Nat.le_succ _)
  case releaseLines =>
    unfold Machine.releaseLines
    split <;> exact .inr (Nat.le_succ _)
  case finishRead | finishWrite =>
    simp only [Machine.finishRead, Machine.finishWrite, State.respondUnlessMisuse]
    split <;> exact .inl rfl
  case openLink | identityCheck | modeCheck | triggerSent =>
    simp only [Machine.openLink, Machine.identityCheck, Machine.modeCheck, Machine.triggerSent]
    split <;> simp [Machine.waitStart]

/-- An event at position `u` goes back to no position before 1. -/
def StaysInside (u : Nat) (f : State → State) : Prop := ∃ n, n < u ∧ BackAtMost n f

/-- A quiet event that goes back less than its own position. -/
theorem QuietEvent.inside {n u : Nat} {f : State → State} (h : QuietEvent n f) (hn : n < u) : StaysInside u f :=
  ⟨n, hn, fun s => .inr (h.back s)⟩

/-- Any other event behind position 0. -/
theorem TurningEvent.inside {u : Nat} {f : State → State} (h : TurningEvent f) (hu : 0 < u) : StaysInside u f :=
  ⟨0, hu, h.back⟩

/-- The events of a part of a micro-program that begins at position `u` stay inside. -/
def LoopsInside : Nat → MicroProgram → Prop
  | _, [] => True
  | u, f :: fs => StaysInside u f ∧ LoopsInside (u + 1) fs

/-- A part that begins later stays inside too. -/
theorem LoopsInside.mono {u v : Nat} {prog : MicroProgram} (h : LoopsInside u prog) (huv : u ≤ v) :
    LoopsInside v prog := by
  induction prog generalizing u v with
  | nil => trivial
  | cons f fs ih =>
    obtain ⟨⟨n, hn, hf⟩, hfs⟩ := h
    exact ⟨⟨n, by omega, hf⟩, ih hfs (by omega)⟩

/-- Two parts, one after the other. -/
theorem LoopsInside.append {u : Nat} {p q : MicroProgram} (hp : LoopsInside u p) (hq : LoopsInside u q) :
    LoopsInside u (p ++ q) := by
  induction p generalizing u with
  | nil => exact hq
  | cons f fs ih => exact ⟨hp.1, ih hp.2 (hq.mono (Nat.le_succ u))⟩

/-- Each event of such a part. -/
theorem LoopsInside.getElem {u v : Nat} {prog : MicroProgram} {f : State → State} (h : LoopsInside u prog)
    (hf : prog[v]? = some f) : StaysInside (u + v) f := by
  induction prog generalizing u v with
  | nil => simp at hf
  | cons g gs ih =>
    obtain ⟨hg, hgs⟩ := h
    cases v with
    | zero => simpa [← Option.some.inj hf] using hg
    | succ v =>
      have := ih hgs (v := v) (by simpa using hf)
      rwa [Nat.add_right_comm] at this

/-- A single completion or check. -/
theorem TurningEvent.loopsInside {f : State → State} (h : TurningEvent f) : LoopsInside 1 [f] :=
  ⟨h.inside (by decide), trivial⟩

/-- A single quiet event. -/
theorem QuietEvent.loopsInside {f : State → State} (h : QuietEvent 0 f) : LoopsInside 1 [f] :=
  ⟨h.inside (by decide), trivial⟩

/-- A register read has no loop. -/
theorem regRead_loopsInside (r : RegAddr) : LoopsInside 1 (regRead r) :=
  ⟨QuietEvent.inside (.readCheck r) (by decide), QuietEvent.inside (.send ..) (by decide),
    QuietEvent.inside (.send ..) (by decide), QuietEvent.inside (.send ..) (by decide),
    QuietEvent.inside .latchRegv (by decide), trivial⟩

/-- A register write has no loop. -/
theorem regWrite_loopsInside (r : RegAddr) (v : Half) : LoopsInside 1 (regWrite r v) :=
  ⟨QuietEvent.inside (.writeCheck r) (by decide), QuietEvent.inside (.send ..) (by decide),
    QuietEvent.inside (.send ..) (by decide), QuietEvent.inside (.send ..) (by decide), trivial⟩

/-- The tap loop goes back four positions, to the tap's write check. -/
theorem filterSetup_loopsInside (cust : Bool) (fsel : BitVec 3) (s : State) :
    LoopsInside 1 (filterSetup cust fsel s) := by
  have hloop : ∀ r v, LoopsInside 1 ([firstTap] ++ regWrite r v ++ [nextTap]) := fun r v =>
    ⟨QuietEvent.inside .firstTap (by decide), QuietEvent.inside (.writeCheck r) (by decide),
      QuietEvent.inside (.send ..) (by decide), QuietEvent.inside (.send ..) (by decide),
      QuietEvent.inside (.send ..) (by decide), QuietEvent.inside .nextTap (by decide), trivial⟩
  unfold filterSetup
  refine (regWrite_loopsInside _ _).append ?_
  split
  · exact (hloop _ _).append (regWrite_loopsInside _ _)
  · exact regWrite_loopsInside _ _

/-- The axis loop goes back six positions, to the page select, and the word loop one. -/
theorem drainAxis_loopsInside (r : RegAddr) (n : Nat) : LoopsInside 1 (drainAxis r n) :=
  ⟨QuietEvent.inside (.send ..) (by decide), QuietEvent.inside (.send ..) (by decide),
    QuietEvent.inside .firstWord (by decide), QuietEvent.inside (.send ..) (by decide),
    QuietEvent.inside (.storeWord n) (by decide), QuietEvent.inside (.send ..) (by decide),
    QuietEvent.inside (.storeLast 6) (by decide), trivial⟩

/-- The block loop goes back two positions, the loop of its words one. -/
theorem captureRts_loopsInside : LoopsInside 1 captureRts :=
  ⟨QuietEvent.inside .firstBlock (by decide), QuietEvent.inside (.send ..) (by decide),
    QuietEvent.inside .storeBlockWord (by decide), QuietEvent.inside .parseCollected (by decide),
    TurningEvent.inside (.emitBatch .rts) (by decide), trivial⟩

/-- The loops of a buffer capture are those of the drain. -/
theorem captureBuf_loopsInside (m : Mode) (spectrum : Bool) (s : State) : LoopsInside 1 (captureBuf m spectrum s) := by
  have hreads : LoopsInside 1 (parameterReads spectrum s) := by
    unfold parameterReads
    refine ((regRead_loopsInside _).append QuietEvent.latchDecF.loopsInside).append ?_
    split
    · exact (regRead_loopsInside _).append QuietEvent.latchAvgC.loopsInside
    · trivial
  exact (((hreads.append (regWrite_loopsInside _ _)).append QuietEvent.firstAxis.loopsInside).append
    (drainAxis_loopsInside _ _)).append (TurningEvent.emitBatch m).loopsInside

/-- No loop of a command goes back to its check. -/
theorem programOf_loopsInside (i : Instr) (s : State) : LoopsInside 1 (programOf i s).tail := by
  cases i with
  | init =>
    have hwaits : LoopsInside 1
        [openLink, waitStart tPwr, waitHold, resetEdge, waitStart tRst, waitHold, clearMisuse] :=
      ⟨TurningEvent.openLink.inside (by decide), QuietEvent.inside (.waitStart _) (by decide),
        QuietEvent.waitHold.inside (by decide), TurningEvent.resetEdge.inside (by decide),
        QuietEvent.inside (.waitStart _) (by decide), QuietEvent.waitHold.inside (by decide),
        QuietEvent.clearMisuse.inside (by decide), trivial⟩
    exact (hwaits.append (regRead_loopsInside _)).append TurningEvent.identityCheck.loopsInside
  | activate m win decl cust fsel =>
    have hset : LoopsInside 1 (if m = .rts then [] else filterSetup cust fsel s) := by
      split
      · trivial
      · exact filterSetup_loopsInside cust fsel s
    exact (((((regWrite_loopsInside _ _).append hset).append (regWrite_loopsInside _ _)).append
      QuietEvent.clearMisuse.loopsInside).append (regRead_loopsInside _)).append (TurningEvent.modeCheck m).loopsInside
  | exttrig => exact (regWrite_loopsInside _ _).append TurningEvent.finishWrite.loopsInside
  | trigger =>
    exact (regWrite_loopsInside _ _).append ⟨TurningEvent.triggerSent.inside (by decide),
      QuietEvent.waitHold.inside (by decide), TurningEvent.finishOk.inside (by decide), trivial⟩
  | capture =>
    simp only [programOf]
    split
    · rename_i m _
      cases m with
      | rts => exact captureRts_loopsInside
      | mtc => exact captureBuf_loopsInside _ _ _
      | mfft => exact captureBuf_loopsInside _ _ _
      | afft => exact captureBuf_loopsInside _ _ _
    · split <;> trivial
  | close =>
    exact ⟨TurningEvent.releaseLines.inside (by decide), TurningEvent.finishClose.inside (by decide), trivial⟩
  | rdreg r => exact (regRead_loopsInside _).append TurningEvent.finishRead.loopsInside
  | wrreg r v => exact (regWrite_loopsInside _ _).append TurningEvent.finishWrite.loopsInside
  | xchg b0 b1 =>
    exact ⟨TurningEvent.inside (.hostExchange ..) (by decide), TurningEvent.finishExchange.inside (by decide), trivial⟩
  | xchgb b0 b1 =>
    exact ⟨QuietEvent.pollStart.inside (by decide), TurningEvent.inside (.hostExchange ..) (by decide),
      TurningEvent.finishExchange.inside (by decide), trivial⟩
  | pagesel | raddr | null | wlo | whi => trivial

/-- A command in progress never comes back to its check. -/
theorem exec_upc_pos {i : Instr} {s t : State} (hi : i.isCommand = true) (hu : 1 ≤ s.upc) (h : exec i s = .next t) :
    t.cmd = none ∨ 1 ≤ t.upc := by
  obtain ⟨f, hf, rfl⟩ := exec_command_next hi h
  obtain ⟨n, hn, hback⟩ := (programOf_loopsInside i s).getElem (v := s.upc - 1)
    (by rwa [List.getElem?_tail, Nat.sub_add_cancel hu])
  exact (hback s).imp_right fun h => by omega

/-! ### Position 0 -/

/-- What position 0 of a command comes to: the legality table (41_configuration R188). -/
inductive StartCase (i : Instr) (s t : State) : Prop where
  /-- The command runs in the state. -/
  | passes (hl : legalIn i s.fsm = true) (hi : ∀ m win decl cust fsel, i ≠ .activate m win decl cust fsel)
      (ht : t = s.advance)
  /-- ACTIVATE runs in the state, and leaves ACTIVE. -/
  | leaves (hl : legalIn i s.fsm = true) (hi : ∃ m win decl cust fsel, i = .activate m win decl cust fsel)
      (ht : t = ({ s with mode := none, fsm := .idv } : State).advance)
  /-- BAD_STATE. -/
  | refused (hl : legalIn i s.fsm = false) (ht : t = s.raiseBadState)

/-- The check of a command that is not ACTIVATE. -/
theorem startIn_start {i : Instr} {legal : List Fsm} {s : State} (hl : s.fsm ∈ legal ↔ legalIn i s.fsm = true)
    (hi : ∀ m win decl cust fsel, i ≠ .activate m win decl cust fsel) : StartCase i s (startIn legal s) := by
  rcases startIn_cases legal s with ⟨h, ht⟩ | ⟨h, ht⟩
  · exact .passes (hl.1 h) hi ht
  · exact .refused (by simpa using mt hl.2 h) ht

/-- A command at position 0. -/
theorem exec_start {i : Instr} {s t : State} (hi : i.isCommand = true) (hu : s.upc = 0) (h : exec i s = .next t) :
    StartCase i s t := by
  obtain ⟨f, hf, rfl⟩ := exec_command_next hi h
  rw [hu] at hf
  cases i with
  | activate m win decl cust fsel =>
    obtain rfl : startActivate = f := Option.some.inj hf
    unfold startActivate
    split
    · rename_i hv
      exact .leaves (by simpa [verified, legalIn] using hv) ⟨m, win, decl, cust, fsel, rfl⟩ rfl
    · rename_i hv
      exact .refused (by simpa [verified, legalIn] using hv) rfl
  | capture =>
    have : f = startIn [.active] := by
      simp only [programOf] at hf
      split at hf
      · exact (Option.some.inj hf).symm
      · split at hf
        · exact absurd hf (by simp)
        · exact (Option.some.inj hf).symm
    rw [this]
    exact startIn_start (by simp [legalIn]) (by simp)
  | pagesel | raddr | null | wlo | whi => exact absurd hi Bool.false_ne_true
  | close =>
    rw [← Option.some.inj hf]
    exact startIn_start (by cases s.fsm <;> decide) (by simp)
  | _ =>
    rw [← Option.some.inj hf]
    exact startIn_start (by simp [legalIn, verified]) (by simp)

/-! ### A core turn on the command in progress -/

/-- The check of a command other than INIT, ACTIVATE and CLOSE. -/
theorem startIn_session {i : Instr} (hi : i ≠ .init) (hc : i ≠ .close) (legal : List Fsm) (s : State) :
    SessionCase i s (startIn legal s) := by
  rcases startIn_cases legal s with ⟨-, ht⟩ | ⟨-, ht⟩ <;> rw [ht]
  · exact (advance_quiet s).sessionCase hi hc
  · exact raise_sessionCase (Quiet.refl s) _ _ (fun h => absurd h hi) (fun h => absurd h hc)

/-- A completion after a register access. -/
theorem respondUnlessMisuse_session {i : Instr} (hi : i ≠ .init) (hc : i ≠ .close) (s : State) (d : Half) :
    SessionCase i s (s.respondUnlessMisuse d) := by
  rcases respondUnlessMisuse_cases s d with ⟨-, ht⟩ | ⟨-, ht⟩ <;> rw [ht] <;> exact respond_sessionCase hi hc ..

/-- ACTIVATE's check. -/
theorem startActivate_session (m : Mode) (win : BitVec 4) (decl : BitVec 3) (cust : Bool) (fsel : BitVec 3)
    (s : State) : SessionCase (.activate m win decl cust fsel) s (startActivate s) := by
  unfold startActivate
  split
  · exact .leaves ⟨m, win, decl, cust, fsel, rfl⟩ ⟨rfl, rfl, rfl, rfl⟩ rfl rfl ⟨rfl, rfl⟩
  · exact raise_sessionCase (Quiet.refl s) _ _ (by simp) (by simp)

/-- ACTIVATE's latch check. -/
theorem modeCheck_session (m : Mode) (win : BitVec 4) (decl : BitVec 3) (cust : Bool) (fsel : BitVec 3) (s : State) :
    SessionCase (.activate m win decl cust fsel) s (modeCheck m s) := by
  unfold modeCheck
  split
  · exact raise_sessionCase (Quiet.refl s) _ _ (by simp) (by simp)
  · exact .activated ⟨m, win, decl, cust, fsel, rfl⟩ ⟨rfl, rfl, rfl, rfl⟩ rfl (Option.some_ne_none m) ⟨rfl, rfl⟩

/-- CLOSE's check, which refuses it in UNINIT only. -/
theorem startClose_session (s : State) : SessionCase .close s (startIn [.reset, .idv, .active, .failed] s) := by
  rcases startIn_cases [.reset, .idv, .active, .failed] s with ⟨-, ht⟩ | ⟨hf, ht⟩ <;> rw [ht]
  · exact .quiet (advance_quiet s) (by simp) fun _ => ⟨rfl, rfl⟩
  · refine raise_sessionCase (Quiet.refl s) _ _ (by simp) fun _ => ?_
    revert hf
    cases s.fsm <;> decide

/-- CLOSE's release of the lines. -/
theorem releaseLines_session (s : State) : SessionCase .close s (releaseLines s) := by
  unfold releaseLines
  split
  · exact .released rfl ⟨rfl, rfl, rfl, rfl⟩ ⟨rfl, rfl⟩ rfl rfl rfl rfl
  · exact .quiet (advance_quiet s) (by simp) fun _ => ⟨rfl, rfl⟩

/-- CLOSE's end. -/
theorem finishClose_session (s : State) : SessionCase .close s (finishClose s) := by
  refine .closed rfl ⟨rfl, rfl, rfl, rfl⟩ ?_ rfl ⟨rfl, rfl⟩
  by_cases hf : s.fsm = .failed <;> simp [finishClose, hf]

/-- TRIGGER's response without a trigger, or its wait. -/
theorem triggerSent_session (s : State) : SessionCase .trigger s (triggerSent s) := by
  unfold triggerSent
  split
  · exact respond_sessionCase (by simp) (by simp) ..
  · exact ((QuietEvent.waitStart tTrig).quiet s).sessionCase (by simp) (by simp)

/-- An event of a command other than INIT. -/
theorem event_session {i : Instr} {f : State → State} (h : ProgramEvent i f) (hi : i ≠ .init) (s : State) :
    SessionCase i s (f s) := by
  have quiet : ∀ {n f}, QuietEvent n f → i ≠ .close → SessionCase i s (f s) := fun h hc =>
    (h.quiet s).sessionCase hi hc
  cases h
  case startInit | openLink | waitInit | resetEdge | identityCheck => exact absurd rfl hi
  case startActivate m win decl cust fsel => exact startActivate_session m win decl cust fsel s
  case modeCheck m win decl cust fsel => exact modeCheck_session m win decl cust fsel s
  case startExttrig | startTrigger | startRdreg | startWrreg | startXchg | startXchgb | startCapture =>
    exact startIn_session hi (by simp) _ s
  case finishExttrig | finishRead | finishWrreg => exact respondUnlessMisuse_session hi (by simp) s _
  case finishOk | finishXchg | finishXchgb => exact respond_sessionCase hi (by simp) ..
  case emitBatch m => exact .ended ⟨rfl, rfl, rfl, rfl⟩ ⟨rfl, rfl⟩ ⟨rfl, rfl⟩ (fun h => absurd h hi) (by simp)
  case triggerSent => exact triggerSent_session s
  case xchg b0 b1 | xchgb b0 b1 => exact hostExchange_session hi (by simp) _ _ s
  case startClose => exact startClose_session s
  case releaseLines => exact releaseLines_session s
  case finishClose => exact finishClose_session s
  case firstTap => exact quiet .firstTap (by simp)
  case nextTap => exact quiet .nextTap (by simp)
  case pollStart => exact quiet .pollStart (by simp)
  case latchDecF => exact quiet .latchDecF (by simp)
  case latchAvgC => exact quiet .latchAvgC (by simp)
  case firstAxis => exact quiet .firstAxis (by simp)
  case firstWord => exact quiet .firstWord (by simp)
  case storeWord n => exact quiet (.storeWord n) (by simp)
  case storeLast len => exact quiet (.storeLast len) (by simp)
  case firstBlock => exact quiet .firstBlock (by simp)
  case storeBlockWord => exact quiet .storeBlockWord (by simp)
  case parseCollected => exact quiet .parseCollected (by simp)
  case sendRaw => exact quiet (.send ..) (by simp)
  case readCheck r h => exact quiet (.readCheck r) (by rintro rfl; simp at h)
  case latchRegv h => exact quiet .latchRegv (by rintro rfl; simp at h)
  case writeCheck r h => exact quiet (.writeCheck r) (by rintro rfl; simp at h)
  case sendTo r f h => exact quiet (.send ..) h.1
  case waitHold h => exact quiet .waitHold (by rintro rfl; simp at h)
  case clearMisuse h => exact quiet .clearMisuse (by rintro rfl; simp at h)

/-- What INIT does at each of its positions. -/
inductive InitEvent : Nat → (State → State) → Prop where
  | check : InitEvent 0 (startIn [.uninit])
  | opening : InitEvent 1 openLink
  | powerWait : InitEvent 2 (waitStart tPwr)
  | powerHold : InitEvent 3 waitHold
  | edge : InitEvent 4 resetEdge
  /-- The wait after the edge, and the identity read. -/
  | reading {u : Nat} {f : State → State} (hu : 5 ≤ u) (h : QuietEvent 0 f) : InitEvent u f
  | identity : InitEvent 13 identityCheck

/-- INIT's micro-program by position. -/
theorem initProgram_event {s : State} {u : Nat} {f : State → State} (h : (initProgram s)[u]? = some f) :
    InitEvent u f := by
  have reading : ∀ {v g}, QuietEvent 0 g → 5 ≤ v → some g = some f → InitEvent v f := by
    intro v g hg hv hgf
    rw [← Option.some.inj hgf]
    exact .reading hv hg
  match u, h with
  | 0, h => exact Option.some.inj h ▸ .check
  | 1, h => exact Option.some.inj h ▸ .opening
  | 2, h => exact Option.some.inj h ▸ .powerWait
  | 3, h => exact Option.some.inj h ▸ .powerHold
  | 4, h => exact Option.some.inj h ▸ .edge
  | 5, h => exact reading (.waitStart tRst) (by decide) h
  | 6, h => exact reading .waitHold (by decide) h
  | 7, h => exact reading .clearMisuse (by decide) h
  | 8, h => exact reading (.readCheck _) (by decide) h
  | 9, h => exact reading (.send ..) (by decide) h
  | 10, h => exact reading (.send ..) (by decide) h
  | 11, h => exact reading (.send ..) (by decide) h
  | 12, h => exact reading .latchRegv (by decide) h
  | 13, h => exact Option.some.inj h ▸ .identity
  | n + 14, h => simp [initProgram, regRead] at h

/-- INIT. -/
theorem init_session {s t : State} (h : exec .init s = .next t) : SessionCase .init s t := by
  obtain ⟨f, hf, rfl⟩ := exec_command_next rfl h
  have hev := initProgram_event hf
  generalize hu : s.upc = u at hev
  have hne : Instr.init ≠ .close := by simp
  cases hev with
  | check =>
    rcases startIn_cases [.uninit] s with ⟨-, ht⟩ | ⟨-, ht⟩ <;> rw [ht]
    · exact .quiet (.of_fields rfl) (fun _ => by simp [KeepsStage, hu]) (fun h => absurd h hne)
    · exact raise_sessionCase (Quiet.refl s) _ _ (fun _ => .inr hu) (fun h => absurd h hne)
  | opening =>
    unfold openLink
    cases s.opensOk
    · exact raise_sessionCase (.of_fields (by rfl)) _ _ (fun _ => .inl (by rfl)) (fun h => absurd h hne)
    · exact .opened rfl hu ⟨rfl, rfl, rfl, rfl⟩ ⟨rfl, rfl⟩ (by simp [hu]) rfl rfl
  | powerWait =>
    refine .quiet ((QuietEvent.waitStart tPwr).quiet s) (fun _ => ?_) (fun h => absurd h hne)
    simp [KeepsStage, waitStart, hu]
  | powerHold =>
    refine .quiet (QuietEvent.waitHold.quiet s) (fun _ => ?_) (fun h => absurd h hne)
    rcases waitHold_cases s with ⟨-, ht⟩ | ⟨-, ht⟩ <;> simp [KeepsStage, ht, hu]
  | edge => exact .edge rfl hu ⟨rfl, rfl, rfl, rfl⟩ rfl rfl (by simp [resetEdge, hu]) rfl rfl
  | reading h5 hq =>
    refine .quiet (hq.quiet s) (fun _ => ?_) (fun h => absurd h hne)
    have hle : s.upc ≤ (f s).upc := hq.back s
    exact ⟨by omega, fun _ => .inl (by omega)⟩
  | identity =>
    unfold identityCheck
    split
    · exact raise_sessionCase (Quiet.refl s) _ _ (fun _ => .inl rfl) (fun h => absurd h hne)
    · exact .identified rfl hu ⟨rfl, rfl, rfl, rfl⟩ rfl rfl ⟨rfl, rfl⟩

/-- A core turn on a command. -/
theorem exec_session {i : Instr} {s t : State} (hi : i.isCommand = true) (h : exec i s = .next t) :
    SessionCase i s t := by
  by_cases hinit : i = .init
  · subst hinit
    exact init_session h
  · obtain ⟨f, hf, rfl⟩ := exec_command_event hi h
    exact event_session hf hinit s

/-! ### Steps -/

/-- A command in progress. -/
theorem SessionInv.running {s : State} {c : Cmd} (h : SessionInv s) (hc : s.cmd = some c) :
    1 ≤ s.upc ∧ runningFsm c.instr s.upc s.fsm = true ∧ (s.out ≠ none → c.instr ≠ .close) := by
  simpa only [SessionInv, hc] using h.2

/-- An idle core. -/
theorem SessionInv.idle {s : State} (h : SessionInv s) (hc : s.cmd = none) : s.fsm ≠ .reset ∧ s.out = none := by
  simpa only [SessionInv, hc] using h.2

/-- The session invariant of a command in progress. -/
theorem SessionInv.of_running {s : State} {c : Cmd} (hm : s.mode ≠ none ↔ s.fsm = .active) (hc : s.cmd = some c)
    (hu : 1 ≤ s.upc) (hf : runningFsm c.instr s.upc s.fsm = true) (ho : s.out ≠ none → c.instr ≠ .close) :
    SessionInv s := by
  simp only [SessionInv, hc]
  exact ⟨hm, hu, hf, ho⟩

/-- The session invariant of an idle core. -/
theorem SessionInv.of_idle {s : State} (hm : s.mode ≠ none ↔ s.fsm = .active) (hc : s.cmd = none)
    (hf : s.fsm ≠ .reset) (ho : s.out = none) : SessionInv s := by
  simp only [SessionInv, hc]
  exact ⟨hm, hf, ho⟩

/-- An error that leaves the session keeps the invariant, outside RESET. -/
theorem SessionInv.of_ended {s t : State} (hm : s.mode ≠ none ↔ s.fsm = .active) (hf : s.fsm ≠ .reset)
    (hs : SameSession s t) (he : Ended t) : SessionInv t :=
  .of_idle (by rw [hs.mode, hs.fsm, hm]) he.cmd (by rwa [hs.fsm]) he.out

/-- INIT runs in UNINIT up to the reset edge, and in RESET behind it. -/
theorem runningFsm_init {u : Nat} {f : Fsm} :
    runningFsm .init u f = true ↔ (u ≤ 4 ∧ f = .uninit) ∨ (4 < u ∧ f = .reset) := by
  by_cases hu : u ≤ 4
  · simp [runningFsm, hu]
  · simp [runningFsm, hu]
    omega

/-- The position matters to INIT only. -/
theorem runningFsm_congr {i : Instr} {u v : Nat} {f : Fsm} (h : i = .init → (v ≤ 4 ↔ u ≤ 4)) :
    runningFsm i v f = runningFsm i u f := by
  cases i with
  | init => simp [runningFsm, h rfl]
  | _ => rfl

/-- Only INIT runs in RESET. -/
theorem runningFsm_ne_reset {i : Instr} {u : Nat} {f : Fsm} (h : runningFsm i u f = true) (hi : i ≠ .init) :
    f ≠ .reset := by
  rintro rfl
  cases i <;> simp_all [runningFsm]

/-- A link frame is never latched. -/
theorem runningFsm_isCommand {i : Instr} {u : Nat} {f : Fsm} (h : runningFsm i u f = true) : i.isCommand = true := by
  cases i <;> simp_all [runningFsm, Instr.isCommand]

/-- A command that passes its check runs, its state being no RESET. -/
theorem legalIn_running {i : Instr} {f : Fsm} (h : legalIn i f = true) (hf : f ≠ .reset)
    (hi : ∀ m win decl cust fsel, i ≠ .activate m win decl cust fsel) : runningFsm i 1 f = true := by
  cases i
  case activate => exact (hi _ _ _ _ _ rfl).elim
  all_goals cases f <;> simp_all [legalIn, runningFsm]

/-- A core turn on the command in progress keeps the session invariant. -/
theorem SessionCase.sessionInv {s t : State} {c : Cmd} (h : SessionCase c.instr s t) (hs : SessionInv s)
    (hc : s.cmd = some c) (hpos : t.cmd = none ∨ 1 ≤ t.upc) : SessionInv t := by
  obtain ⟨hu, hrun, hout⟩ := hs.running hc
  have hm := hs.1
  have hpos' : t.cmd = s.cmd → 1 ≤ t.upc := fun h => hpos.resolve_left (by simp [h, hc])
  cases h with
  | quiet h hinit hclose =>
    refine .of_running (by rw [h.mode, h.fsm, hm]) (h.cmd.trans hc) (hpos' h.cmd) ?_ fun ho hi => ?_
    · rwa [h.fsm, runningFsm_congr fun hi => (hinit hi).1]
    · rw [(hclose hi).2] at ho
      exact hout ho hi
  | ended he h _ hinit _ =>
    refine .of_ended hm (runningFsm_ne_reset hrun fun hi => ?_) h he
    have := hinit hi
    omega
  | failed he hf hm _ => exact .of_idle (by simp [hf, hm]) he.cmd (by simp [hf]) he.out
  | leaves hi hc' hf hm _ =>
    obtain ⟨m, win, decl, cust, fsel, hi⟩ := hi
    exact .of_running (by simp [hf, hm]) (hc'.cmd.trans hc) (hpos' hc'.cmd) (by simp [hi, hf, runningFsm])
      (by simp [hi])
  | activated _ he hf hm _ => exact .of_idle (by simp [hf, hm]) he.cmd (by simp [hf]) he.out
  | opened hi hu' hc' h hn _ _ =>
    refine .of_running (by rw [h.mode, h.fsm, hm]) (hc'.cmd.trans hc) (hpos' hc'.cmd) ?_ (by simp [hi])
    rwa [h.fsm, runningFsm_congr (u := s.upc) fun _ => by omega]
  | edge hi hu' hc' hf hm' hn _ _ =>
    rw [hi, runningFsm_init] at hrun
    have hun : s.fsm = .uninit := (hrun.resolve_right (by omega)).2
    exact .of_running (by simpa [hm', hf, hun] using hm) (hc'.cmd.trans hc) (hpos' hc'.cmd)
      (by simp [hi, runningFsm_init, hf, hn]) (by simp [hi])
  | identified hi hu' he hf hm' _ =>
    rw [hi, runningFsm_init] at hrun
    have hres : s.fsm = .reset := (hrun.resolve_left (by omega)).2
    exact .of_idle (by simpa [hm', hf, hres] using hm) he.cmd (by simp [hf]) he.out
  | released hi hc' h hn ho _ _ =>
    refine .of_running (by rw [h.mode, h.fsm, hm]) (hc'.cmd.trans hc) (hpos' hc'.cmd) ?_ (by rwa [ho])
    rwa [h.fsm, runningFsm_congr fun h => by simp [hi] at h]
  | closed _ he hf hm _ => rcases hf with hf | hf <;> exact .of_idle (by simp [hf, hm]) he.cmd (by simp [hf]) he.out

/-- A step that leaves the command, its position, its transfer and the session keeps the invariant. -/
theorem SessionInv.of_quiet {s t : State} (h : SessionInv s) (hq : Quiet s t) (hu : t.upc = s.upc)
    (ho : t.out = s.out) : SessionInv t := by
  simpa only [SessionInv, hq.mode, hq.fsm, hq.cmd, hu, ho] using h

/-- What a step can do to the command and the session, from a state of the session invariant. -/
inductive TurnCase (s t : State) : Prop where
  /-- A tick, or an idle core with nothing presented. -/
  | still (hq : Quiet s t) (hu : t.upc = s.upc) (ho : t.out = s.out) (hh : t.hist = s.hist)
  /-- Core reset. -/
  | reset (h : s.turn = .reset) (ht : t = s.popTurn.coreReset)
  /-- The core works on the command in progress: on its frame in the framer, or on its position. -/
  | works (c : Cmd) (hc : s.cmd = some c) (h : SessionCase c.instr s.popTurn t) (hpos : t.cmd = none ∨ 1 ≤ t.upc)
      (i : Instr) (hx : exec i s.popTurn = .next t) (hi : s.out ≠ none ∨ i = c.instr)
  /-- A presented word is illegal. -/
  | rejects (hc : s.cmd = none) (pr : Presented) (rest : List Presented) (hp : s.presented = pr :: rest)
      (ht : t = (s.popTurn.takePresented rest).raiseBadCommand)
  /-- A presented command is accepted. -/
  | accepts (hc : s.cmd = none) (pr : Presented) (rest : List Presented) (hp : s.presented = pr :: rest) (i : Instr)
      (h : StartCase i ((s.popTurn.takePresented rest).latch i pr.cfg) t)

/-- The session invariant does not depend on the turns. -/
theorem SessionInv.popTurn {s : State} (h : SessionInv s) : SessionInv s.popTurn :=
  h.of_quiet (popTurn_quiet s) (State.popTurn_upc s) (State.popTurn_out s)

/-- From a state of the session invariant a step is one of these. -/
theorem step_turn {s t : State} (hs : SessionInv s) (h : step s = .next t) : TurnCase s t := by
  cases step_cases h with
  | tick _ ht =>
    subst ht
    exact .still ((popTurn_quiet s).trans (.of_fields rfl)) (by simp) (by simp) (by simp)
  | reset hr ht => exact .reset hr ht
  | frame _ o ho ht =>
    cases hc : s.cmd with
    | none => exact absurd ho (by simp [(hs.idle hc).2])
    | some c =>
      obtain ⟨hu, -, hout⟩ := hs.running hc
      obtain ⟨hcase, hpos⟩ := sendFrame_session (s := s.popTurn) (c := c) (by simp [hc]) (hout (by simp [ho]))
        (o.frame.bits s.params)
      rw [← ht] at hcase hpos
      refine .works c hc hcase (hpos.imp_right fun h => by simpa [h] using hu) o.frame.instr ?_ (.inl (by simp [ho]))
      rw [exec_frame, State.popTurn_params, ht]
  | command _ ho c hc hx =>
    obtain ⟨hu, hrun, -⟩ := hs.running hc
    have hi := runningFsm_isCommand hrun
    exact .works c hc (exec_session hi hx) (exec_upc_pos hi (by simpa using hu) hx) c.instr hx (.inr rfl)
  | idle _ _ _ _ ht =>
    subst ht
    exact .still (popTurn_quiet s) (by simp) (by simp) (by simp)
  | illegal _ _ hc pr rest hp _ _ ht => exact .rejects hc pr rest hp ht
  | accept _ _ hc pr rest hp i hd hx => exact .accepts hc pr rest hp i (exec_start (decodeCmd_ok hd).2.1 rfl hx)

/-- The session invariant after a command's check. -/
theorem StartCase.sessionInv {i : Instr} {s t : State} {cfg : CfgIn} (h : StartCase i s t)
    (hm : s.mode ≠ none ↔ s.fsm = .active) (hf : s.fsm ≠ .reset) (hc : s.cmd = some ⟨i, cfg⟩) (hu : s.upc = 0)
    (ho : s.out = none) : SessionInv t := by
  cases h with
  | passes hl hi ht =>
    subst ht
    exact .of_running hm hc (Nat.succ_pos _) (by simpa [hu] using legalIn_running hl hf hi) (by simp [ho])
  | leaves hl hi ht =>
    obtain ⟨m, win, decl, cust, fsel, hi⟩ := hi
    subst ht
    exact .of_running (by simp) hc (Nat.succ_pos _) (by simp [hi, runningFsm]) (by simp [ho])
  | refused hl ht =>
    subst ht
    exact .of_ended hm hf (raiseBadState_kept s).1 (raise_ended ..)

/-- Settles O48: every step keeps the session invariant, by the cases of a step. -/
theorem sessionInvStays : Obligations.SessionInvStays := by
  intro s t hs h
  cases step_turn hs h with
  | still hq hu ho _ => exact hs.of_quiet hq hu ho
  | reset _ ht =>
    subst ht
    exact .of_idle (by simp [State.resetWith]) rfl (by simp [State.resetWith]) rfl
  | works c hc hcase hpos => exact hcase.sessionInv hs.popTurn (by simpa using hc) hpos
  | rejects hc pr rest _ ht =>
    subst ht
    obtain ⟨hf, -⟩ := hs.idle hc
    exact .of_ended (by simpa using hs.1) (by simpa using hf) (raiseBadCommand_kept _).1 (raise_ended ..)
  | accepts hc pr rest _ i hstart =>
    obtain ⟨hf, ho⟩ := hs.idle hc
    exact hstart.sessionInv (by simpa using hs.1) (by simpa using hf) rfl rfl (by simpa using ho)

/-! ### The lines -/

/-- The lines of an idle core. -/
theorem linesInv_idle {s : State} (hc : s.cmd = none) :
    LinesInv s ↔ SessionInv s ∧ (s.rstO = none ↔ s.linesOpen = false) ∧
      (s.fsm = .idv ∨ s.fsm = .active → s.linesOpen = true) := by
  simp only [LinesInv, hc]

/-- The lines while a command is in progress. -/
theorem linesInv_running {s : State} {c : Cmd} (hc : s.cmd = some c) :
    LinesInv s ↔ SessionInv s ∧ (s.rstO = none ↔ s.linesOpen = false) ∧
      (c.instr = .init → 2 ≤ s.upc ∨ s.out ≠ none → s.linesOpen = true) ∧
      (c.instr = .close → s.upc = 1 → s.fsm ≠ .failed → s.linesOpen = true) ∧
      (c.instr ≠ .init → c.instr ≠ .close → s.linesOpen = true) := by
  simp only [LinesInv, hc]
  cases c.instr <;> simp

/-- A command that ends in IDV or ACTIVE over open lines, with the lines as they were. -/
theorem LinesInv.of_ended {s t : State} (hrst : s.rstO = none ↔ s.linesOpen = false) (hl : SameLines s t) (he : Ended t)
    (ht : SessionInv t) (hopen : t.fsm = .idv ∨ t.fsm = .active → s.linesOpen = true) : LinesInv t :=
  (linesInv_idle he.cmd).2 ⟨ht, by rw [hl.rstO, hl.linesOpen, hrst], fun hf => hl.linesOpen.trans (hopen hf)⟩

/-- A command that passes its check does so in IDV or ACTIVE, if it is not INIT or CLOSE. -/
theorem legalIn_session {i : Instr} {f : Fsm} (h : legalIn i f = true) (hi : i ≠ .init) (hc : i ≠ .close) :
    f = .idv ∨ f = .active := by
  cases i <;> simp_all [legalIn]

/-- A core turn on the command in progress keeps the lines' invariant. -/
theorem SessionCase.linesInv {s t : State} {c : Cmd} (h : SessionCase c.instr s t) (hl : LinesInv s)
    (hc : s.cmd = some c) (ht : SessionInv t) : LinesInv t := by
  obtain ⟨hs, hrst, hinit, hclose, hother⟩ := (linesInv_running hc).1 hl
  obtain ⟨hu, hrun, -⟩ := hs.running hc
  cases h with
  | quiet h hkeep hnext =>
    refine (linesInv_running (h.cmd.trans hc)).2 ⟨ht, by rw [h.rstO, h.linesOpen, hrst], ?_, ?_, ?_⟩ <;>
      rw [h.linesOpen]
    · exact fun hi hpast => hinit hi ((hkeep hi).2 hpast)
    · intro hi hone
      have := (hnext hi).1
      omega
    · exact hother
  | ended he h hl hcheck hun =>
    refine .of_ended hrst hl he ht fun hf => hother (fun hi => ?_) (fun hi => ?_)
    · have := hcheck hi
      omega
    · rw [h.fsm, hun hi] at hf
      simp at hf
  | failed he hf _ hl => exact .of_ended hrst hl he ht (by simp [hf])
  | leaves hi hc' _ _ hl =>
    obtain ⟨m, win, decl, cust, fsel, hi⟩ := hi
    have hopen := hother (by simp [hi]) (by simp [hi])
    exact (linesInv_running (hc'.cmd.trans hc)).2 ⟨ht, by rw [hl.rstO, hl.linesOpen, hrst],
      by simp [hl.linesOpen, hopen]⟩
  | activated hi he _ _ hl =>
    obtain ⟨m, win, decl, cust, fsel, hi⟩ := hi
    have hopen := hother (by simp [hi]) (by simp [hi])
    exact .of_ended hrst hl he ht fun _ => hopen
  | opened _ _ hc' _ _ ho hr => exact (linesInv_running (hc'.cmd.trans hc)).2 ⟨ht, by simp [ho, hr], by simp [ho]⟩
  | edge hi hu' hc' _ _ _ hl hr =>
    have hopen := hinit hi (.inl (by omega))
    exact (linesInv_running (hc'.cmd.trans hc)).2 ⟨ht, by simp [hl, hopen, hr], by simp [hl, hopen]⟩
  | identified hi hu' he _ _ hl =>
    have hopen := hinit hi (.inl (by omega))
    exact .of_ended hrst hl he ht fun _ => hopen
  | released hi hc' _ hn _ hl hr =>
    exact (linesInv_running (hc'.cmd.trans hc)).2
      ⟨ht, by simp [hl, hr], by simp [hi], fun _ _ => by omega, by simp [hi]⟩
  | closed _ he hf _ hl =>
    exact .of_ended hrst hl he ht (by rcases hf with hf | hf <;> simp [hf])

/-- A command's check keeps the lines' invariant. -/
theorem StartCase.linesInv {i : Instr} {s t : State} {cfg : CfgIn} (h : StartCase i s t)
    (hrst : s.rstO = none ↔ s.linesOpen = false) (hopen : s.fsm = .idv ∨ s.fsm = .active → s.linesOpen = true)
    (hf : s.fsm ≠ .reset) (hc : s.cmd = some ⟨i, cfg⟩) (hu : s.upc = 0) (ho : s.out = none) (ht : SessionInv t) :
    LinesInv t := by
  cases h with
  | passes hl _ heq =>
    subst heq
    refine (linesInv_running (c := ⟨i, cfg⟩) ?_).2 ⟨ht, hrst, ?_, ?_, fun hi hc => hopen (legalIn_session hl hi hc)⟩
    · exact hc
    · intro _ h
      simp [hu, ho] at h
    · rintro rfl _ hfail
      refine hopen ?_
      rw [State.advance_fsm] at hfail
      revert hl hf hfail
      cases s.fsm <;> decide
  | leaves hl hi heq =>
    obtain ⟨m, win, decl, cust, fsel, rfl⟩ := hi
    subst heq
    have := hopen (legalIn_session hl (by simp) (by simp))
    refine (linesInv_running (c := ⟨.activate m win decl cust fsel, cfg⟩) ?_).2 ⟨ht, hrst, by simp [this]⟩
    exact hc
  | refused hl heq =>
    subst heq
    obtain ⟨hsame, hl⟩ := raiseBadState_kept s
    exact .of_ended hrst hl (raise_ended ..) ht (by rwa [hsame.fsm])

/-- A step that leaves the command, its position, its transfer and the lines keeps the invariant. -/
theorem LinesInv.of_quiet {s t : State} (h : LinesInv s) (hq : Quiet s t) (hu : t.upc = s.upc) (ho : t.out = s.out) :
    LinesInv t := by
  obtain ⟨hs, h⟩ := h
  refine ⟨hs.of_quiet hq hu ho, ?_⟩
  simpa only [hq.fsm, hq.cmd, hq.linesOpen, hq.rstO, hu, ho] using h

/-- Every step keeps the lines' invariant. -/
theorem step_linesInv {s t : State} (hl : LinesInv s) (h : step s = .next t) : LinesInv t := by
  have ht := sessionInvStays s t hl.1 h
  cases step_turn hl.1 h with
  | still hq hu ho _ => exact hl.of_quiet hq hu ho
  | reset _ heq =>
    subst heq
    exact (linesInv_idle rfl).2 ⟨ht, by simp [State.resetWith], by simp [State.resetWith]⟩
  | works c hc hcase _ =>
    have hpop := hl.of_quiet (popTurn_quiet s) (State.popTurn_upc s) (State.popTurn_out s)
    exact hcase.linesInv hpop (by simpa using hc) ht
  | rejects hc pr rest _ heq =>
    subst heq
    obtain ⟨-, hrst, hopen⟩ := (linesInv_idle hc).1 hl
    obtain ⟨hsame, hlines⟩ := raiseBadCommand_kept (s.popTurn.takePresented rest)
    exact .of_ended (by simpa using hrst) hlines (raise_ended ..) ht (by rw [hsame.fsm]; simpa using hopen)
  | accepts hc pr rest _ i hstart =>
    obtain ⟨hs, hrst, hopen⟩ := (linesInv_idle hc).1 hl
    obtain ⟨hf, ho⟩ := hs.idle hc
    exact hstart.linesInv (by simpa using hrst) (by simpa using hopen) (by simpa using hf) rfl rfl (by simpa using ho)
      ht

/-- A command's check makes no link event. -/
theorem StartCase.hist {i : Instr} {s t : State} (h : StartCase i s t) : t.hist = s.hist := by
  cases h with
  | passes _ _ ht => simp [ht]
  | leaves _ _ ht => simp [ht]
  | refused _ ht => simp [ht, State.raiseBadState]

/-- Only a link frame, XCHG and XCHGB make an exchange. -/
theorem HistoryCase.exchanger {i : Instr} {s t : State} (h : HistoryCase i s t)
    (hne : exchanges t.hist ≠ exchanges s.hist) :
    (∃ f : LinkFrame, i = f.instr) ∨ (∃ b0 b1, i = .xchg b0 b1) ∨ ∃ b0 b1, i = .xchgb b0 b1 := by
  cases h with
  | checked _ _ _ _ _ _ hi => exact hi.imp_right .inr
  | raw _ _ _ _ _ _ hi => exact hi.imp_right .inl
  | same h | poll _ h | opened _ h | edge h | closed h => exact absurd (by simp [exchanges, h]) hne

/-- The lines are open where a command in progress makes an exchange: with a transfer in the framer, or as one of the
commands that run over an open link. -/
theorem LinesInv.open_of {s : State} {c : Cmd} (hl : LinesInv s) (hc : s.cmd = some c)
    (h : s.out ≠ none ∨ c.instr ≠ .init ∧ c.instr ≠ .close) : s.linesOpen = true := by
  obtain ⟨hs, -, hinit, -, hother⟩ := (linesInv_running hc).1 hl
  by_cases hi : c.instr = .init
  · exact hinit hi (.inr (h.resolve_right fun h => h.1 hi))
  · refine hother hi ?_
    rcases h with ho | ⟨-, hn⟩
    · obtain ⟨-, -, hout⟩ := hs.running hc
      exact hout ho
    · exact hn

/-- An exchange is made only over an open link. -/
theorem step_exchange_open {s t : State} (hl : LinesInv s) (h : step s = .next t) (hr : s.turn ≠ .reset)
    (hne : exchanges t.hist ≠ exchanges s.hist) : s.linesOpen = true := by
  cases step_turn hl.1 h with
  | still _ _ _ hh => exact absurd (by rw [hh]) hne
  | reset hr' _ => exact absurd hr' hr
  | works c hc _ _ i hx hi =>
    refine hl.open_of hc (hi.imp_right ?_)
    rintro rfl
    obtain ⟨-, hrun, -⟩ := hl.1.running hc
    have hcmd := runningFsm_isCommand hrun
    rcases (exec_history hx).exchanger (by simpa using hne) with ⟨f, hf⟩ | ⟨b0, b1, hx⟩ | ⟨b0, b1, hx⟩
    · rw [hf] at hcmd
      cases f <;> exact absurd hcmd Bool.false_ne_true
    · simp [hx]
    · simp [hx]
  | rejects _ pr rest _ ht => exact absurd (by simp [ht, State.raiseBadCommand]) hne
  | accepts _ pr rest _ i hstart => exact absurd (by simp [hstart.hist]) hne

/-- Settles O55: every step keeps the lines' invariant, and an exchange is made only over an open link. -/
theorem linesStay : Obligations.LinesStay :=
  ⟨fun _ _ => step_linesInv, fun _ _ => step_exchange_open⟩

end Sys2Proof.Machine
end

section
/-! What a step records: the response, the batches, the log, the history and its stamps (10_state R34, R37,
R45, R52). -/

namespace Sys2Proof.Machine

/-! ### The response (10_state R37) -/

/-- A core turn on the command in progress lets it go on, or ends it with a response. -/
theorem SessionCase.continues_or_ended {i : Instr} {s t : State} (h : SessionCase i s t) : Continues s t ∨ Ended t := by
  cases h with
  | quiet h => exact .inl h.toContinues
  | leaves _ hc => exact .inl hc
  | opened _ _ hc => exact .inl hc
  | edge _ _ hc => exact .inl hc
  | released _ hc => exact .inl hc
  | ended he => exact .inr he
  | failed he => exact .inr he
  | activated _ he => exact .inr he
  | identified _ _ he => exact .inr he
  | closed _ he => exact .inr he

/-- An accepted command is in progress without a response, or refused; the presentation is taken. -/
theorem StartCase.response {i : Instr} {s t : State} (h : StartCase i s t) :
    (Continues s t ∨ t.cmd = none) ∧ t.presented = s.presented := by
  cases h with
  | passes _ _ ht =>
    subst ht
    exact ⟨.inl ⟨rfl, rfl, rfl, rfl⟩, rfl⟩
  | leaves _ _ ht =>
    subst ht
    exact ⟨.inl ⟨rfl, rfl, rfl, rfl⟩, rfl⟩
  | refused _ ht =>
    subst ht
    exact ⟨.inr (State.raise_cmd ..), State.raise_presented ..⟩

/-- Settles O15: a core turn lets the command in progress go on or ends it with a response, and a response is cleared
only where a presentation is taken. -/
theorem oneResponsePerCommand : Obligations.OneResponsePerCommand := by
  refine ⟨fun _ _ _ => rfl, fun s t hs h hr => ?_⟩
  cases step_turn hs h with
  | still hq =>
    have hrsp := And.intro hq.rspValid (And.intro hq.rspStatus hq.rspData)
    rw [hq.cmd]
    exact ⟨fun _ _ => hrsp, fun h h' => absurd h' h, fun h h' => absurd h h', fun _ _ _ => hrsp⟩
  | reset hr' => exact absurd hr' hr
  | works c hc hcase =>
    rcases hcase.continues_or_ended with h | h
    · simp [hc, h.cmd, h.rspValid, h.rspStatus, h.rspData]
    · simp [hc, h.cmd, h.upc, h.out, h.rspValid]
  | rejects hc pr rest hp ht => simp [hc, ht, State.raiseBadCommand, hp]
  | accepts hc pr rest hp i hstart =>
    obtain ⟨h | h, hpres⟩ := hstart.response
    · simp [hc, h.cmd, h.rspValid, h.rspStatus, h.rspData, hpres, hp]
    · simp [hc, h, hpres, hp]

/-! ### Batches and log (10_state R34) -/

/-- What an instruction can append to the batches and to the log. -/
inductive OutputCase (i : Instr) (s t : State) : Prop where
  | silent (hb : t.batches = s.batches) (hl : t.log = s.log)
  | logs (ev : LogEvent) (hb : t.batches = s.batches) (hl : t.log = s.log ++ [⟨ev, s.now⟩])
  | emits (b : SampleBatch) (hi : i = .capture) (hb : t.batches = s.batches ++ [b]) (hl : t.log = s.log)
      (he : Ended t) (hs : t.rspStatus = .ok)

/-- The error entry appends one log event. -/
theorem raise_output {i : Instr} {s u : State} (hb : u.batches = s.batches) (hl : u.log = s.log) (hn : u.now = s.now)
    (e : ErrRec) (d : Half) : OutputCase i s (u.raise e d) :=
  .logs (.error e) (by simp [hb]) (by simp [hl, hn])

/-- A framer step appends no batch, and a log event where it raises an error. -/
theorem framer_output {i : Instr} (s : State) (tx : Frame) (checked : Bool) (page addr : Byte) :
    OutputCase i s (s.framer tx checked page addr).sent ∧ OutputCase i s (s.framer tx checked page addr).hosted := by
  have h := framer_cases s tx checked page addr
  generalize s.framer tx checked page addr = r at h
  cases h with
  | hold | busy | checkedDone | rawDone => exact ⟨.silent rfl rfl, .silent rfl rfl⟩
  | timeout | checkedFails | rawFails =>
    exact ⟨raise_output (by rfl) (by rfl) (by rfl) _ _, raise_output (by rfl) (by rfl) (by rfl) _ _⟩

/-- An event of a micro-program is one of the cases. -/
theorem event_output {i : Instr} {f : State → State} (h : ProgramEvent i f) (s : State) : OutputCase i s (f s) := by
  have start : ∀ legal, OutputCase i s (startIn legal s) := by
    intro legal
    rcases startIn_cases legal s with ⟨-, ht⟩ | ⟨-, ht⟩ <;> rw [ht]
    · exact .silent rfl rfl
    · exact raise_output rfl rfl rfl ..
  cases h
  case xchg b0 b1 => exact (framer_output s (b0 ++ b1) false 0 0).2
  case xchgb b0 b1 => exact (framer_output s (b0 ++ b1) true 0 0).2
  case emitBatch m => exact .emits (s.batch m) rfl rfl rfl ⟨rfl, rfl, rfl, rfl⟩ rfl
  case startInit | startExttrig | startTrigger | startClose | startRdreg | startWrreg | startXchg | startXchgb |
      startCapture => exact start _
  case openLink =>
    unfold openLink
    cases s.opensOk
    · exact raise_output (by rfl) (by rfl) (by rfl) _ _
    · exact .silent rfl rfl
  case startActivate =>
    unfold startActivate
    split
    · exact .silent rfl rfl
    · exact raise_output rfl rfl rfl ..
  case modeCheck m _ _ _ _ =>
    unfold modeCheck
    split
    · exact raise_output rfl rfl rfl ..
    · exact .silent rfl rfl
  case identityCheck =>
    unfold identityCheck
    split
    · exact raise_output rfl rfl rfl ..
    · exact .silent rfl rfl
  case readCheck r h =>
    rcases readCheck_cases r s with ⟨-, ht⟩ | ⟨-, ht⟩ <;> rw [ht]
    · exact .silent rfl rfl
    · exact .logs _ rfl rfl
  case writeCheck r h =>
    rcases writeCheck_cases r s with ⟨-, ht⟩ | ⟨-, ht⟩ <;> rw [ht]
    · exact .silent rfl rfl
    · exact .logs _ rfl rfl
  case parseCollected =>
    rw [parseCollected_eq]
    split <;> exact .silent rfl rfl
  case storeWord n =>
    unfold storeWord
    split
    · split <;> exact .silent rfl rfl
    · exact .silent rfl rfl
  case finishExttrig | finishRead | finishWrreg | triggerSent | waitHold | releaseLines | nextTap | storeLast |
      storeBlockWord =>
    simp only [finishWrite, finishRead, State.respondUnlessMisuse, triggerSent, waitHold, releaseLines, nextTap,
      storeLast, storeBlockWord]
    split <;> exact .silent rfl rfl
  all_goals exact .silent rfl rfl

/-- An instruction's effect on the batches and the log. -/
theorem exec_output {i : Instr} {s t : State} (h : exec i s = .next t) : OutputCase i s t := by
  rcases command_or_frame i with hi | ⟨f, rfl⟩
  · obtain ⟨f, hf, rfl⟩ := exec_command_event hi h
    exact event_output hf s
  · rw [exec_frame] at h
    rw [← Host.Outcome.next.inj h]
    obtain ⟨c, p, a, hs, -⟩ := sendFrame_sent s (f.bits s.params)
    rw [hs]
    exact (framer_output s _ c p a).1

/-! ### Steps -/

/-- The records a step appends to, and `rx`, do not change. -/
structure SameRecords (s t : State) : Prop where
  batches : t.batches = s.batches
  log : t.log = s.log
  hist : t.hist = s.hist
  rx : t.rx = s.rx

/-- A step that is no core reset, as far as the records are concerned. -/
inductive RecordCase (s t : State) : Prop where
  /-- A tick, or an idle core with nothing presented. -/
  | still (hs : SameRecords s t) (hn : s.now ≤ t.now)
  /-- A presented word is illegal. -/
  | rejects (u : State) (hs : SameRecords s u) (hn : u.now = s.now) (ht : t = u.raiseBadCommand)
  /-- An instruction runs: a frame, the latched command, or an accepted command at position 0. -/
  | runs (i : Instr) (u : State) (hs : SameRecords s u) (hn : u.now = s.now) (hx : exec i u = .next t)
      (hi : (∃ f : LinkFrame, i = f.instr) ∨ s.cmd.map Cmd.instr = some i ∨ (i.isCommand = true ∧ u.upc = 0))

/-- Taking the turn changes no record. -/
theorem popTurn_records (s : State) : SameRecords s s.popTurn := by constructor <;> simp

/-- A step is one of these. -/
theorem step_records {s t : State} (h : step s = .next t) (hr : s.turn ≠ .reset) : RecordCase s t := by
  cases step_cases h with
  | tick _ ht =>
    subst ht
    exact .still (by constructor <;> simp) (by simp [State.tick])
  | reset hr' => exact absurd hr' hr
  | frame _ o ho ht =>
    refine .runs o.frame.instr s.popTurn (popTurn_records s) (State.popTurn_now s) ?_ (.inl ⟨o.frame, rfl⟩)
    rw [exec_frame, State.popTurn_params, ht]
  | command _ _ c hc hx =>
    exact .runs c.instr s.popTurn (popTurn_records s) (State.popTurn_now s) hx (.inr (.inl (by simp [hc])))
  | idle _ _ _ _ ht =>
    subst ht
    exact .still (popTurn_records s) (State.popTurn_now s).ge
  | illegal _ _ _ pr rest _ _ _ ht => exact .rejects _ (by constructor <;> simp) (by simp) ht
  | accept _ _ _ pr rest _ i hd hx =>
    exact .runs i _ (by constructor <;> simp) (by simp) hx (.inr (.inr ⟨(decodeCmd_ok hd).2.1, rfl⟩))

/-- Time does not go back. -/
theorem RecordCase.now_le {s t : State} (h : RecordCase s t) : s.now ≤ t.now := by
  cases h with
  | still _ hn => exact hn
  | rejects u _ hn ht => simp [ht, State.raiseBadCommand, hn]
  | runs i u _ hn hx =>
    obtain ⟨-, hnow, -⟩ := exec_untouched hx
    rw [hnow, hn]

/-- An instruction appends at most a poll and its exchange to the history. -/
theorem HistoryCase.appends {i : Instr} {s t : State} (h : HistoryCase i s t) :
    ∃ hs, t.hist = s.hist ++ hs ∧ hs.length ≤ 2 ∧ ∀ e ∈ hs, e.time = s.now := by
  cases h with
  | same h => exact ⟨[], by simp [h]⟩
  | poll _ h | raw _ _ h | opened _ h | edge h | closed h | checked _ _ h => exact ⟨_, h, by simp, by simp⟩

/-- An instruction appends at most one log event. -/
theorem OutputCase.appends_log {i : Instr} {s t : State} (h : OutputCase i s t) :
    ∃ ls, t.log = s.log ++ ls ∧ ls.length ≤ 1 ∧ ∀ e ∈ ls, e.time = s.now := by
  cases h with
  | silent _ h | emits _ _ _ h => exact ⟨[], by simp [h]⟩
  | logs _ _ h => exact ⟨_, h, by simp, by simp⟩

/-- An instruction appends at most one batch, and that with CAPTURE's OK response. -/
theorem OutputCase.appends_batch {i : Instr} {s t : State} (h : OutputCase i s t) :
    ∃ bs, t.batches = s.batches ++ bs ∧ bs.length ≤ 1 ∧
      (bs ≠ [] → i = .capture ∧ t.cmd = none ∧ t.rspValid = true ∧ t.rspStatus = .ok) := by
  cases h with
  | silent h | logs _ h => exact ⟨[], by simp [h]⟩
  | emits b hi h _ he hs => exact ⟨[b], h, by simp, fun _ => ⟨hi, he.cmd, he.rspValid, hs⟩⟩

/-- A command's check makes no batch. -/
theorem StartCase.batches {i : Instr} {s t : State} (h : StartCase i s t) : t.batches = s.batches := by
  cases h with
  | passes _ _ ht => simp [ht]
  | leaves _ _ ht => simp [ht]
  | refused _ ht => simp [ht, State.raiseBadState]

/-- Settles O14: a tick and an idle step append nothing, an illegal word a log event, and an instruction what its
effect on the history, the log and the batches says. -/
theorem outputsOnlyGrow : Obligations.OutputsOnlyGrow := by
  intro s t h hr
  cases step_records h hr with
  | still hs => exact ⟨[], [], [], by simp [hs.batches, hs.log, hs.hist]⟩
  | rejects u hs hn ht =>
    refine ⟨[], [⟨.error ⟨.badCommand, 0, 0, 0, 0⟩, s.now⟩], [], ?_⟩
    simp [ht, State.raiseBadCommand, hs.batches, hs.log, hs.hist, hn]
  | runs i u hs hn hx hi =>
    obtain ⟨hist, hh, hhlen, hhtime⟩ := (exec_history hx).appends
    obtain ⟨ls, hl, hllen, hltime⟩ := (exec_output hx).appends_log
    obtain ⟨bs, hb, hblen, hcap⟩ := (exec_output hx).appends_batch
    rw [hn] at hhtime hltime
    refine ⟨bs, ls, hist, by rw [hb, hs.batches], by rw [hl, hs.log], by rw [hh, hs.hist], hblen, hllen, hhlen,
      hltime, hhtime, fun hne => ?_⟩
    obtain ⟨hi', hend⟩ := hcap hne
    rcases hi with ⟨f, hf⟩ | hi | ⟨hi, hu⟩
    · cases f <;> simp [hi', LinkFrame.instr] at hf
    · exact ⟨by rw [hi, hi'], hend⟩
    · have := (exec_start hi hu hx).batches
      rw [hb] at this
      simp [hne] at this

/-! ### Stamps and `rx` (10_state R45, R52) -/

/-- Events with the current stamp, appended to a list whose stamps rise up to now. -/
theorem stamps_append {α : Type} {l new : List (Stamped α)} {now : Nat} (hp : (l.map Stamped.time).Pairwise (· ≤ ·))
    (hl : ∀ e ∈ l, e.time ≤ now) (hnew : ∀ e ∈ new, e.time = now) :
    ((l ++ new).map Stamped.time).Pairwise (· ≤ ·) := by
  rw [List.map_append, List.pairwise_append]
  refine ⟨hp, List.pairwise_map.2 (List.pairwise_of_forall_mem_list fun a ha b hb => ?_), ?_⟩
  · exact ((hnew a ha).trans (hnew b hb).symm).le
  · simp only [List.mem_map]
    rintro _ ⟨a, ha, rfl⟩ _ ⟨b, hb, rfl⟩
    exact (hl a ha).trans (hnew b hb).ge

/-- After such events no stamp is in the future. -/
theorem stamps_le_append {α : Type} {l new : List (Stamped α)} {now later : Nat} (hl : ∀ e ∈ l, e.time ≤ now)
    (hnew : ∀ e ∈ new, e.time = now) (hn : now ≤ later) : ∀ e ∈ l ++ new, e.time ≤ later := by
  intro e he
  rcases List.mem_append.1 he with he | he
  · exact (hl e he).trans hn
  · exact (hnew e he).le.trans hn

/-- Every step keeps the stamps in order. -/
theorem step_stampsInv {s t : State} (hs : StampsInv s) (h : step s = .next t) : StampsInv t := by
  obtain ⟨hhist, hlog, hhist_le, hlog_le⟩ := hs
  by_cases hr : s.turn = .reset
  · rw [step_reset (step_next_params h) hr] at h
    rw [← Host.Outcome.next.inj h]
    simp [StampsInv, State.resetWith]
  · have hn := (step_records h hr).now_le
    obtain ⟨-, ls, hs, -, hl, hh, -, -, -, hltime, hhtime, -⟩ := outputsOnlyGrow s t h hr
    rw [StampsInv, hl, hh]
    exact ⟨stamps_append hhist hhist_le hhtime, stamps_append hlog hlog_le hltime,
      stamps_le_append hhist_le hhtime hn, stamps_le_append hlog_le hltime hn⟩

/-- The last answer after further events. -/
theorem lastAnswer_append (h es : History) :
    lastAnswer (h ++ es) = es.foldl (fun r e => LinkEvent.answerOr e.ev r) (lastAnswer h) :=
  List.foldl_append

/-- An instruction keeps `rx` the last answer. -/
theorem HistoryCase.rx_eq {i : Instr} {s t : State} (h : HistoryCase i s t) (hs : s.rx = lastAnswer s.hist) :
    t.rx = lastAnswer t.hist := by
  cases h with
  | same h _ hr => rw [hr, h, hs]
  | poll _ h _ hr | opened _ h _ hr | edge h _ hr | closed h _ hr => rw [hr, h, lastAnswer_append, ← hs]; rfl
  | checked _ _ h _ _ hr | raw _ _ h _ _ hr => rw [hr, h, lastAnswer_append, ← hs]; rfl

/-- Every step keeps `rx` the last answer. -/
theorem step_rx {s t : State} (hs : s.rx = lastAnswer s.hist) (h : step s = .next t) : t.rx = lastAnswer t.hist := by
  by_cases hr : s.turn = .reset
  · rw [step_reset (step_next_params h) hr] at h
    rw [← Host.Outcome.next.inj h]
    rfl
  · cases step_records h hr with
    | still hsame => rw [hsame.rx, hsame.hist, hs]
    | rejects u hsame _ ht =>
      rw [ht, State.raiseBadCommand, State.raise_rx, State.raise_hist, hsame.rx, hsame.hist, hs]
    | runs i u hsame _ hx => exact (exec_history hx).rx_eq (by rw [hsame.rx, hsame.hist, hs])

/-- Settles O54: what a step appends has the current stamp, and only an answered exchange changes `rx`. -/
theorem stampsAndAnswerStay : Obligations.StampsAndAnswerStay :=
  ⟨fun _ _ => step_stampsInv, fun _ _ => step_rx⟩

end Sys2Proof.Machine
end

section
/-! Single steps: the source of the next instruction and the tick; the status word as a number; the reset state. -/

namespace Sys2Proof.Machine

/-! ### The source of the next instruction (10_state R31) -/

/-- A core turn with a frame in the framer. -/
theorem step_of_out {s : State} {o : Outgoing} (hp : paramsOk s.params = true) (h : s.turn = .core)
    (ho : s.out = some o) : step s = exec o.frame.instr s.popTurn := by
  rw [step_core hp h]
  simp [State.coreTurn, ho]

/-- A core turn with a command in progress. -/
theorem step_of_cmd {s : State} {c : Cmd} (hp : paramsOk s.params = true) (h : s.turn = .core) (ho : s.out = none)
    (hc : s.cmd = some c) : step s = exec c.instr s.popTurn := by
  rw [step_core hp h]
  simp [State.coreTurn, ho, hc]

/-- A core turn with a legal word presented. -/
theorem step_of_presented {s : State} {pr : Presented} {rest : List Presented} {i : Instr}
    (hp : paramsOk s.params = true) (h : s.turn = .core) (ho : s.out = none) (hc : s.cmd = none)
    (hpr : s.presented = pr :: rest) (hd : decodeCmd s.params pr.word = .ok i) :
    step s = exec i ((s.popTurn.takePresented rest).latch i pr.cfg) := by
  rw [step_core hp h]
  simp [State.coreTurn, ho, hc, hpr, State.accept, hd]

/-- A presented word is taken by the next core turn. -/
theorem step_presentWord {s : State} {w : Word} {i : Instr} (hp : paramsOk s.params = true)
    (hd : decodeCmd s.params w = .ok i) :
    step (s.presentWord w) =
      exec i { s with out := none, rspValid := false, cmd := some ⟨i, CfgIn.default⟩, upc := 0, misuse := false } := by
  rw [step_of_presented (s := s.presentWord w) (rest := s.presented) hp rfl rfl rfl rfl hd,
    State.popTurn_of_cons (s.presentWord w) .core s.turns rfl]
  rfl

/-- A frame held in the framer is sent by the next core turn. -/
theorem step_holdFrame {s : State} {f : LinkFrame} (hp : paramsOk s.params = true) :
    step (s.holdFrame f) = exec f.instr { s with out := some ⟨f, true, 0, 0⟩ } := by
  rw [step_of_out (s := s.holdFrame f) hp rfl rfl, State.popTurn_of_cons (s.holdFrame f) .core s.turns rfl]
  rfl

/-- Settles O9: the three sources of an instruction; a word placed is presented, or held in the framer. -/
theorem stepRunsDecodedInstruction : Obligations.StepRunsDecodedInstruction := by
  refine ⟨fun s hp h => ⟨fun o => step_of_out hp h, fun c => step_of_cmd hp h, ?_⟩, ?_, ?_⟩
  · intro pr rest i ho hc hpr hd
    rw [step_of_presented hp h ho hc hpr hd]
    rfl
  · intro s w i hp hd
    exact step_presentWord hp hd
  · intro s w f hp hd
    have hplace : s.withFetchWord 16 w = s.holdFrame f := by simp only [State.withFetchWord, State.place, hd]
    rw [hplace, step_holdFrame hp]

/-! ### The tick (10_state R33, R42) -/

/-- The polling positions. -/
theorem polling_iff (s : State) :
    s.polling = true ↔ (∃ o, s.out = some o ∧ o.checked = true) ∨
      (s.out = none ∧ ∃ c b0 b1, s.cmd = some c ∧ c.instr = .xchgb b0 b1 ∧ s.upc = 2) := by
  unfold State.polling
  cases s.out with
  | some o => simp
  | none =>
    cases s.cmd with
    | none => simp
    | some c =>
      cases hi : c.instr with
      | xchgb b0 b1 =>
        have hpos : decide (s.upc = xchgbPollPosition) = true ↔ s.upc = 2 := decide_eq_true_iff
        simp [hi, hpos]
      | _ => simp [hi]

/-- The turn does not matter to the polling positions. -/
theorem popTurn_polling (s : State) : s.popTurn.polling = s.polling := by
  rw [Bool.eq_iff_iff, polling_iff, polling_iff]
  simp

/-- Settles O11: one tick, at a polling position and elsewhere. -/
theorem tickCounts : Obligations.TickCounts := by
  intro s hp h
  rw [← polling_iff, ← popTurn_polling, step_tick hp h]
  constructor
  · intro hpoll
    simp [State.tick, hpoll]
  · intro hpoll
    simp only [State.tick, hpoll, State.popTurn_now, State.popTurn_settle, State.popTurn_dly]
    rfl

/-! ### STATUS (10_state R46) -/

/-- A concatenation as a number. -/
theorem toNat_concat {m n : Nat} (x : BitVec m) (y : BitVec n) : (x ++ y).toNat = x.toNat * 2 ^ n + y.toNat := by
  rw [BitVec.toNat_append, Nat.shiftLeft_eq, Nat.mul_comm, Nat.two_pow_add_eq_or_of_lt y.isLt]

/-- A flag's bit as a number. -/
theorem toNat_flag (b : Bool) (k : Nat) : (BitVec.ofBool b).toNat * k = if b = true then k else 0 := by
  cases b <;> simp

/-- The code of the configuration state. -/
theorem fsm_code_toNat (f : Fsm) :
    f.code.toNat = match f with | .uninit => 0 | .reset => 1 | .idv => 2 | .active => 3 | .failed => 4 := by
  cases f <;> rfl

/-- Bits 5 to 3: the mode code and the session bit. -/
theorem mode_bits_toNat (m : Option Mode) :
    (modeField m ++ BitVec.ofBool m.isSome).toNat * 8 =
      match m with
      | none => 0 | some .rts => 8 | some .mtc => 8 + 16 | some .mfft => 8 + 32 | some .afft => 8 + 48 := by
  rcases m with _ | m
  · rfl
  · cases m <;> rfl

/-- STATUS as a sum of its fields. -/
theorem statusReg_toNat (s : State) :
    s.statusReg.toNat =
      s.fsm.code.toNat + (modeField s.mode ++ BitVec.ofBool s.mode.isSome).toNat * 8 +
        (BitVec.ofBool s.linesOpen).toNat * 64 + (BitVec.ofBool s.cmd.isSome).toNat * 128 +
        (BitVec.ofBool s.rspValid).toNat * 256 := by
  simp only [State.statusReg, toNat_concat, BitVec.toNat_zero]
  omega

/-- Settles O18: STATUS is the sum of its fields at their weights. -/
theorem statusLayout : Obligations.StatusLayout := by
  refine ⟨fun p => BitVec.eq_of_toNat_eq ?_, fun s => ?_⟩
  · simp [statusReg_toNat, State.resetWith, Fsm.code, modeField]
  · rw [statusReg_toNat, fsm_code_toNat, mode_bits_toNat, toNat_flag, toNat_flag, toNat_flag]
    cases s.cmd <;> rfl

/-! ### The reset state (10_state R56) -/

/-- The example parameters are well-formed (20_memory R78). -/
theorem paramsOk_e0 : paramsOk Params.e0 = true := by decide

/-- The reset state is idle in UNINIT, without a mode. -/
theorem sessionInv_reset (p : Params) : SessionInv (State.resetWith p) := by
  simp [SessionInv, State.resetWith]

/-- The empty history has no exchange. -/
theorem settleInv_reset (p : Params) : SettleInv (State.resetWith p) := by
  refine ⟨fun pre e mid x post h => ?_, fun pre e mid h => ?_⟩ <;> simp [State.resetWith] at h

/-- The empty history has no exchange to poll for. -/
theorem busyLaw_nil : BusyLaw [] := fun pre tx rx t post h => by simp at h

/-- The empty history has no reset edge. -/
theorem resetTimingLaw_nil : ResetTimingLaw [] :=
  ⟨fun pre e post h => by simp at h, fun pre e mid x post h => by simp at h⟩

/-- No reset edge lies behind the reset state. -/
theorem resetTimingInv_reset (p : Params) : ResetTimingInv (State.resetWith p) :=
  ⟨sessionInv_reset p, resetTimingLaw_nil, fun e he => by simp [State.resetWith] at he⟩

/-- Settles O56: the reset state is idle in UNINIT over closed lines, its records and its buffers are empty. -/
theorem invariantsHoldAtReset : Obligations.InvariantsHoldAtReset := by
  refine ⟨fun p => ⟨rfl, sessionInv_reset p, settleInv_reset p, busyLaw_nil, resetTimingInv_reset p, ?_, ?_, rfl, ?_⟩,
    paramsOk_e0, sessionInv_reset _, trivial⟩
  · simp [TriggerInv, State.resetWith]
  · simp [StampsInv, State.resetWith]
  · exact ⟨sessionInv_reset p, by simp [State.resetWith], by simp [State.resetWith]⟩

end Sys2Proof.Machine
end

section
/-! What a step stores in the sample buffers, and their canonical form (20_memory R80). -/

namespace Sys2Proof.Machine

/-- What an instruction can store in the buffers. -/
inductive MemoryCase (s t : State) : Prop where
  | same (h : t.mem = s.mem)
  | word (r : BufRef) (v : Half) (h : t.mem = Memory.writeWord s.mem r v)
  | block (b : Fin 10) (blk : List Half) (h : t.mem = storeBlock b blk s.mem)

/-- A framer step stores nothing. -/
theorem framer_mem (s : State) (tx : Frame) (checked : Bool) (page addr : Byte) :
    (s.framer tx checked page addr).sent.mem = s.mem ∧ (s.framer tx checked page addr).hosted.mem = s.mem := by
  have h := congrArg State.mem (framer_frame s tx checked page addr)
  cases hr : s.framer tx checked page addr <;> rw [hr] at h <;> exact ⟨h, h⟩

/-- Four events of CAPTURE store, a word or a block; no other event does. -/
theorem event_memory {i : Instr} {f : State → State} (h : ProgramEvent i f) (s : State) : MemoryCase s (f s) := by
  cases h
  case storeWord n => exact .word _ _ (storeWord_mem n s)
  case storeLast len => exact .word _ _ (storeLast_mem len s)
  case storeBlockWord => exact .word _ _ (storeBlockWord_mem s)
  case parseCollected =>
    refine .block s.b s.block ?_
    rw [parseCollected_eq]
    split <;> simp
  case xchg b0 b1 => exact .same (framer_mem s (b0 ++ b1) false 0 0).2
  case xchgb b0 b1 => exact .same (framer_mem s (b0 ++ b1) true 0 0).2
  all_goals
    refine .same ?_
    simp only [startIn, openLink, resetEdge, identityCheck, startActivate, firstTap, nextTap, modeCheck, finishWrite,
      finishRead, finishExchange, State.respondUnlessMisuse, triggerSent, waitStart, waitHold, finishOk, releaseLines,
      finishClose, pollStart, clearMisuse, readCheck, writeCheck, latchRegv, sendTo, send, latchDecF, latchAvgC,
      firstAxis, firstWord, firstBlock, emitBatch, State.raiseBadState]
    repeat' split
    all_goals simp

/-- What an instruction stores. -/
theorem exec_memory {i : Instr} {s t : State} (h : exec i s = .next t) : MemoryCase s t := by
  rcases command_or_frame i with hi | ⟨f, rfl⟩
  · obtain ⟨f, hf, rfl⟩ := exec_command_event hi h
    exact event_memory hf s
  · rw [exec_frame] at h
    rw [← Host.Outcome.next.inj h]
    obtain ⟨c, p, a, hs, -⟩ := sendFrame_sent s (f.bits s.params)
    rw [hs]
    exact .same (framer_mem s _ c p a).1

/-- Stores keep the canonical form. -/
theorem MemoryCase.wf {s t : State} (h : MemoryCase s t) (hs : Memory.wf s.mem = true) : Memory.wf t.mem = true := by
  cases h with
  | same h => rwa [h]
  | word r v h => exact h ▸ Memory.wf_writeWord _ r v hs
  | block b blk h => exact h ▸ Memory.wf_storeBlock b blk _ hs

/-- Settles O47: core reset empties the buffers, an instruction's stores keep the form, nothing else writes. -/
theorem memoryStaysCanonical : Obligations.MemoryStaysCanonical := by
  intro s t hs h
  by_cases hr : s.turn = .reset
  · rw [step_reset (step_next_params h) hr] at h
    rw [← Host.Outcome.next.inj h]
    exact Memory.wf_nil
  cases step_cases h with
  | tick _ ht | idle _ _ _ _ ht => simpa [ht] using hs
  | reset hr' _ => exact absurd hr' hr
  | frame _ o _ ht =>
    have hx : exec o.frame.instr s.popTurn = .next t := by rw [exec_frame, State.popTurn_params, ht]
    exact (exec_memory hx).wf (by simpa using hs)
  | command _ _ _ _ hx => exact (exec_memory hx).wf (by simpa using hs)
  | illegal _ _ _ _ _ _ _ _ ht => simpa [ht, State.raiseBadCommand] using hs
  | accept _ _ _ _ _ _ _ _ hx => exact (exec_memory hx).wf (by simpa using hs)

end Sys2Proof.Machine
end

section
/-! The positions of a micro-program against the exchanges they have still to make: each part of a program and its
stretch of exchanges, event by event, and the whole program from its parts (20_memory R83). -/

namespace Sys2Proof.Machine

/-! ### Exchanges made, and the one in the framer -/

/-- The exchange in the framer. -/
def State.inFramer (s : State) : List Planned :=
  match s.out with
  | some o => [(o.frame.bits s.params, o.checked)]
  | none => []

/-- The exchanges made and the one in the framer. -/
def State.begun (s : State) : List Planned := exchanges s.hist ++ s.inFramer

/-- With an empty framer the exchanges begun are those made. -/
theorem begun_of_out_none {s : State} (ho : s.out = none) : s.begun = exchanges s.hist := by
  simp [State.begun, State.inFramer, ho]

/-- The exchanges made and still to be made, while a command is in progress. -/
theorem remaining_of_cmd {s : State} {c : Cmd} (hc : s.cmd = some c) :
    exchanges s.hist ++ s.remaining = s.begun ++ exchangesLeft (stretches c.instr s) s.upc := by
  cases ho : s.out <;> simp [State.begun, State.inFramer, State.remaining, hc, ho]

/-- The statuses of a command that ends without a link error, of those that can end it behind its check. -/
def Completes (c : Status) : Prop :=
  c = .ok ∨ c = .protocolMisuse ∨ c = .identityMismatch ∨ c = .modeMismatch

/-! ### Stretches -/

/-- What the stretches of a command depend on beside the loop counters and the session mode. -/
structure SamePlan (s t : State) : Prop where
  params : t.params = s.params
  cmd : t.cmd = s.cmd

/-- The exchanges left in a stretch from a position on, none behind its last. -/
def Stretch.leftFrom (g : Stretch) (n : Nat) : List Planned := if n < g.size then g.left n else []

/-- All the exchanges of stretches that are not empty. -/
theorem exchangesLeft_zero {gs : List Stretch} (h : ∀ g ∈ gs, 0 < g.size) :
    exchangesLeft gs 0 = gs.flatMap fun g => g.left 0 := by
  cases gs with
  | nil => rfl
  | cons g gs => simp [exchangesLeft, h g]

/-- From a position of the first stretch, or the one behind it. -/
theorem exchangesLeft_first {g : Stretch} {gs : List Stretch} {n : Nat} (hn : n ≤ g.size)
    (h : ∀ g' ∈ gs, 0 < g'.size) :
    exchangesLeft (g :: gs) n = g.leftFrom n ++ gs.flatMap fun g => g.left 0 := by
  rcases Nat.lt_or_eq_of_le hn with hn | rfl
  · simp [exchangesLeft, Stretch.leftFrom, hn]
  · simp [exchangesLeft, Stretch.leftFrom, exchangesLeft_zero h]

/-- From a position behind the first stretch. -/
theorem exchangesLeft_later {g : Stretch} {gs : List Stretch} {n : Nat} (hn : g.size ≤ n) :
    exchangesLeft (g :: gs) n = exchangesLeft gs (n - g.size) := by
  simp [exchangesLeft, Nat.not_lt.2 hn]

/-- A read has the same exchanges under the same parameters. -/
theorem readStretch_congr {s t : State} (h : t.params = s.params) (r : RegName) :
    readStretch t r = readStretch s r := by
  simp only [readStretch, State.entry, h]

/-- A write has the same exchanges under the same parameters. -/
theorem writeStretch_congr {s t : State} (h : t.params = s.params) (r : RegName) (v : Half) :
    writeStretch t r v = writeStretch s r v := by
  simp only [writeStretch, State.entry, h]

/-- The configuration of the command in progress stays. -/
theorem SamePlan.cfg {s t : State} (h : SamePlan s t) : t.cfg = s.cfg := by
  simp only [State.cfg, h.cmd]

/-- The taps have the same exchanges while the command goes on. -/
theorem tapsFrom_congr {s t : State} (h : SamePlan s t) (n : Nat) : tapsFrom t n = tapsFrom s n := by
  simp only [tapsFrom, writeStretch_congr h.params, h.cfg]

/-- The axes have the same exchanges under the same parameters. -/
theorem axesFrom_congr {s t : State} (h : t.params = s.params) (count n : Nat) :
    axesFrom t count n = axesFrom s count n := by
  simp only [axesFrom, State.entry, h]

/-- The first of a rest of indices. -/
theorem finRange_drop {n : Nat} (k : Fin n) : (List.finRange n).drop k = k :: (List.finRange n).drop (k + 1) := by
  rw [List.drop_eq_getElem_cons (by simp)]
  simp

/-- The exchanges from a tap on are its own and those from the next one on. -/
theorem tapsFrom_eq (s : State) (k : Fin 32) :
    tapsFrom s k = (writeStretch s (.coef k) s.cfg.taps[k]).left 0 ++ tapsFrom s (k + 1) := by
  rw [tapsFrom, finRange_drop, List.flatMap_cons]
  rfl

/-- The exchanges from an axis on are its own and those from the next one on. -/
theorem axesFrom_eq (s : State) (count : Nat) (ax : Fin 3) :
    axesFrom s count ax = drainFrames s.params (s.entry (axisReg ax)) count ++ axesFrom s count (ax + 1) := by
  rw [axesFrom, finRange_drop, List.flatMap_cons]
  rfl

/-! ### What an event does to the plan -/

/-- What an event at position `n` of a part of `size` positions can do, where `left` are the exchanges left in the part:
the command goes on inside the part (or right behind it, if it is not the `last`), a link error or a refusal ends it, or
it ends, which happens in the last part only. -/
inductive PlanCase (last : Bool) (size : Nat) (left : State → Nat → List Planned) (s t : State) (n : Nat) : Prop where
  | goes (n' : Nat) (hin : n' < size ∨ (last = false ∧ n' = size)) (hk : SamePlan s t) (hu : t.upc + n = s.upc + n')
      (hp : t.begun ++ left t n' = exchanges s.hist ++ left s n)
  | fails (hc : t.cmd = none) (hs : ¬ Completes t.rspStatus)
  | ends (hl : last = true) (hc : t.cmd = none) (hp : exchanges t.hist = exchanges s.hist ++ left s n)

/-- The events of a part of a micro-program from position `n` on do what is left of the plan. -/
def FitFrom (last : Bool) (size : Nat) (left : State → Nat → List Planned) (s : State) : Nat → MicroProgram → Prop
  | _, [] => True
  | n, f :: fs => (n ≤ s.upc → PlanCase last size left s (f s) n) ∧ FitFrom last size left s (n + 1) fs

/-- An event of such a part. -/
theorem FitFrom.event {last : Bool} {size : Nat} {left : State → Nat → List Planned} {s : State} {n m : Nat}
    {fs : MicroProgram} {f : State → State} (h : FitFrom last size left s n fs) (hf : fs[m]? = some f)
    (hm : n + m ≤ s.upc) : PlanCase last size left s (f s) (n + m) := by
  induction fs generalizing n m with
  | nil => simp at hf
  | cons g gs ih =>
    obtain ⟨hg, hgs⟩ := h
    cases m with
    | zero =>
      obtain rfl : g = f := by simpa using hf
      exact hg hm
    | succ m =>
      have := ih hgs (m := m) (by simpa using hf) (by omega)
      rwa [Nat.add_right_comm] at this

/-- A part of a micro-program and its stretch of exchanges, which may depend on loop counters. -/
structure Part where
  events : MicroProgram
  plan : State → Stretch

/-- The exchanges left in a part. -/
def Part.left (p : Part) (s : State) (n : Nat) : List Planned := (p.plan s).leftFrom n

/-- Each event of the part does what the stretch says. -/
structure Part.Fits (last : Bool) (s : State) (p : Part) : Prop where
  size : ∀ t, (p.plan t).size = p.events.length
  pos : p.events ≠ []
  stable : ∀ t, SamePlan s t → (p.plan t).left 0 = (p.plan s).left 0
  events : FitFrom last p.events.length p.left s 0 p.events

/-- Each part fits, and only the last may end the command. -/
def AllFit (s : State) : List Part → Prop
  | [] => True
  | p :: ps => p.Fits ps.isEmpty s ∧ AllFit s ps

/-- The micro-program of consecutive parts. -/
def eventsOf (ps : List Part) : MicroProgram := ps.flatMap Part.events

/-- The exchanges left in consecutive parts. -/
def leftOf (ps : List Part) (s : State) (n : Nat) : List Planned := exchangesLeft (ps.map fun p => p.plan s) n

/-- Parts that fit have positions. -/
theorem AllFit.plan_pos {s : State} {ps : List Part} (h : AllFit s ps) (t : State) :
    ∀ g ∈ ps.map (fun p => p.plan t), 0 < g.size := by
  induction ps with
  | nil => simp
  | cons p ps ih =>
    obtain ⟨hp, hps⟩ := h
    simpa [hp.size, List.length_pos_iff, hp.pos] using ih hps

/-- The exchanges of parts not yet begun stay. -/
theorem AllFit.stable {s t : State} {ps : List Part} (h : AllFit s ps) (hk : SamePlan s t) :
    (ps.map fun p => p.plan t).flatMap (fun g => g.left 0) = (ps.map fun p => p.plan s).flatMap fun g => g.left 0 := by
  induction ps with
  | nil => rfl
  | cons p ps ih =>
    obtain ⟨hp, hps⟩ := h
    simp only [List.map_cons, List.flatMap_cons, hp.stable t hk, ih hps]

/-- What is left at a position of the first part, or right behind it. -/
theorem AllFit.leftOf_first {s t : State} {p : Part} {ps : List Part} (h : AllFit s (p :: ps)) {n : Nat}
    (hn : n ≤ p.events.length) :
    leftOf (p :: ps) t n = p.left t n ++ (ps.map fun p => p.plan t).flatMap fun g => g.left 0 :=
  exchangesLeft_first (by rwa [h.1.size]) (h.2.plan_pos t)

/-- What is left at a position behind the first part. -/
theorem AllFit.leftOf_later {s t : State} {p : Part} {ps : List Part} (h : AllFit s (p :: ps)) {n : Nat}
    (hn : p.events.length ≤ n) : leftOf (p :: ps) t n = leftOf ps t (n - p.events.length) := by
  rw [leftOf, List.map_cons, exchangesLeft_later (by rwa [h.1.size]), h.1.size, leftOf]

/-- An event of the first part, in the whole program. -/
theorem AllFit.event_first {s t : State} {p : Part} {ps : List Part} (h : AllFit s (p :: ps)) {n : Nat}
    (hn : n < p.events.length) (hc : PlanCase ps.isEmpty p.events.length p.left s t n) :
    PlanCase true (eventsOf (p :: ps)).length (leftOf (p :: ps)) s t n := by
  have hlen : (eventsOf (p :: ps)).length = p.events.length + (eventsOf ps).length := by simp [eventsOf]
  have hs := h.leftOf_first (t := s) hn.le
  cases hc with
  | goes n' hin hk hu hp =>
    refine .goes n' (.inl ?_) hk hu ?_
    · rcases hin with hin | ⟨hl, rfl⟩
      · omega
      · obtain ⟨q, qs, rfl⟩ := List.exists_cons_of_ne_nil (l := ps) (by simpa using hl)
        have := List.length_pos_iff.2 h.2.1.pos
        simp only [eventsOf, List.flatMap_cons, List.length_append]
        omega
    · rw [hs, h.leftOf_first (by omega), h.2.stable hk, ← List.append_assoc, hp, List.append_assoc]
  | fails hc hs => exact .fails hc hs
  | ends hl hc hp =>
    obtain rfl : ps = [] := by simpa using hl
    exact .ends rfl hc (by simpa [hs] using hp)

/-- An event behind the first part, in the whole program. -/
theorem AllFit.event_later {s t : State} {p : Part} {ps : List Part} (h : AllFit s (p :: ps)) {n : Nat}
    (hn : p.events.length ≤ n) (hc : PlanCase true (eventsOf ps).length (leftOf ps) s t (n - p.events.length)) :
    PlanCase true (eventsOf (p :: ps)).length (leftOf (p :: ps)) s t n := by
  have hlen : (eventsOf (p :: ps)).length = p.events.length + (eventsOf ps).length := by simp [eventsOf]
  have hs := h.leftOf_later (t := s) hn
  cases hc with
  | goes n' hin hk hu hp =>
    refine .goes (p.events.length + n') (.inl ?_) hk (by omega) ?_
    · rcases hin with hin | ⟨hl, -⟩
      · omega
      · exact absurd hl (by decide)
    · rw [hs, h.leftOf_later (by omega), Nat.add_sub_cancel_left, hp]
  | fails hc hs => exact .fails hc hs
  | ends hl hc hp => exact .ends hl hc (by rw [hs, hp])

/-- An event of a program whose parts fit does what the stretches say. -/
theorem AllFit.event {s : State} {ps : List Part} (h : AllFit s ps) {n : Nat} {f : State → State}
    (hf : (eventsOf ps)[n]? = some f) (hn : n ≤ s.upc) :
    PlanCase true (eventsOf ps).length (leftOf ps) s (f s) n := by
  induction ps generalizing n with
  | nil => simp [eventsOf] at hf
  | cons p ps ih =>
    rw [eventsOf, List.flatMap_cons] at hf
    rcases Nat.lt_or_ge n p.events.length with hlt | hge
    · rw [List.getElem?_append_left hlt] at hf
      exact h.event_first hlt (by simpa using h.1.events.event hf (by simpa using hn))
    · rw [List.getElem?_append_right hge] at hf
      exact h.event_later hge (ih h.2 hf (by omega))

end Sys2Proof.Machine
end

section
/-! The parts of the micro-programs and their stretches: quiet positions, register accesses, the loops of ACTIVATE and
CAPTURE, the host's own exchange (40_register_protocol R144 to R148, 41_configuration R183, 42_sampling R224, R226). -/

namespace Sys2Proof.Machine

/-! ### Events by what they do to the plan -/

/-- The parameters and the command as they are. -/
theorem SamePlan.refl (s : State) : SamePlan s s := ⟨rfl, rfl⟩

/-- An event that makes no exchange and leaves the framer empty goes to a position with as much left. -/
theorem PlanCase.silent {last : Bool} {size : Nat} {left : State → Nat → List Planned} {s t : State} {n n' : Nat}
    (ho : s.out = none) (hin : n' < size ∨ (last = false ∧ n' = size)) (hk : SamePlan s t) (hout : t.out = s.out)
    (hh : exchanges t.hist = exchanges s.hist) (hu : t.upc + n = s.upc + n') (hl : left t n' = left s n) :
    PlanCase last size left s t n :=
  .goes n' hin hk hu (by rw [begun_of_out_none (hout.trans ho), hh, hl])

/-- Handing a frame to the framer begins the next exchange of the plan. -/
theorem PlanCase.send {last : Bool} {size : Nat} {left : State → Nat → List Planned} {s : State} {f : LinkFrame}
    {checked : Bool} {page addr : Byte} {n : Nat} (hin : n + 1 < size ∨ (last = false ∧ n + 1 = size))
    (hl : left s n = (f.bits s.params, checked) :: left (send f checked page addr s) (n + 1)) :
    PlanCase last size left s (send f checked page addr s) n := by
  refine .goes (n + 1) hin ⟨rfl, rfl⟩ (Nat.add_right_comm ..) ?_
  have hb : (Machine.send f checked page addr s).begun = exchanges s.hist ++ [(f.bits s.params, checked)] := rfl
  rw [hb, hl, List.append_assoc, List.singleton_append]

/-- A response ends the last part where nothing is left. -/
theorem PlanCase.response {size : Nat} {left : State → Nat → List Planned} {s t : State} {n : Nat}
    (hc : t.cmd = none) (hh : t.hist = s.hist) (hl : left s n = []) : PlanCase true size left s t n :=
  .ends rfl hc (by rw [hh, hl, List.append_nil])

/-- The case depends on the exchanges left in states of the same plan only. -/
theorem PlanCase.congr {last : Bool} {size : Nat} {left left' : State → Nat → List Planned} {s t : State} {n : Nat}
    (h : PlanCase last size left s t n) (hl : ∀ u m, SamePlan s u → left' u m = left u m) :
    PlanCase last size left' s t n := by
  cases h with
  | goes n' hin hk hu hp => exact .goes n' hin hk hu (by rw [hl t n' hk, hl s n (.refl s), hp])
  | fails hc hs => exact .fails hc hs
  | ends hlast hc hp => exact .ends hlast hc (by rw [hl s n (.refl s), hp])

/-- A part inside a larger one, `d` positions on and with `rest` behind it. -/
theorem PlanCase.inside {last : Bool} {size size' d n : Nat} {left left' : State → Nat → List Planned} {s t : State}
    {rest : List Planned} (h : PlanCase false size left s t n) (hd : size + d < size')
    (hs : left' s (n + d) = left s n ++ rest)
    (ht : SamePlan s t → ∀ m, m ≤ size → left' t (m + d) = left t m ++ rest) :
    PlanCase last size' left' s t (n + d) := by
  cases h with
  | goes n' hin hk hu hp =>
    exact .goes (n' + d) (.inl (by omega)) hk (by omega)
      (by rw [ht hk n' (by omega), hs, ← List.append_assoc, hp, List.append_assoc])
  | fails hc hs => exact .fails hc hs
  | ends hl => exact absurd hl (by decide)

/-! ### Quiet positions -/

/-- An event without an exchange that holds, goes to the next position, or fails. -/
inductive Moves (s t : State) : Prop where
  | goes (hk : SamePlan s t) (ho : t.out = s.out) (hh : exchanges t.hist = exchanges s.hist)
      (hu : t.upc = s.upc ∨ t.upc = s.upc + 1)
  | fails (hc : t.cmd = none) (hs : ¬ Completes t.rspStatus)

/-- Positions without an exchange. -/
def quietPart (fs : MicroProgram) : Part := ⟨fs, fun _ => quiet fs.length⟩

/-- Nothing is left in them. -/
@[simp] theorem quietPart_left (fs : MicroProgram) (s : State) (n : Nat) : (quietPart fs).left s n = [] :=
  ite_self []

/-- A move inside a quiet part, or out of it if another part follows. -/
theorem Moves.planCase {last : Bool} {size : Nat} {left : State → Nat → List Planned} {s t : State} {n : Nat}
    (h : Moves s t) (ho : s.out = none) (hin : n + 1 < size ∨ (last = false ∧ n + 1 = size))
    (hl : ∀ u m, left u m = []) : PlanCase last size left s t n := by
  cases h with
  | goes hk hout hh hu =>
    rcases hu with hu | hu
    · exact .silent ho (n' := n) (.inl (by omega)) hk hout hh (by omega) (by rw [hl, hl])
    · exact .silent ho hin hk hout hh (by omega) (by rw [hl, hl])
  | fails hc hs => exact .fails hc hs

/-- Moves of a quiet part that another part follows. -/
theorem Moves.fitFrom {s : State} {n : Nat} {all fs : MicroProgram} (ho : s.out = none)
    (h : ∀ f ∈ fs, Moves s (f s)) (hin : n + fs.length ≤ all.length) :
    FitFrom false all.length (quietPart all).left s n fs := by
  induction fs generalizing n with
  | nil => trivial
  | cons f fs ih =>
    rw [List.length_cons] at hin
    have hnext : n + 1 < all.length ∨ false = false ∧ n + 1 = all.length := by
      simp only [true_and]
      omega
    exact ⟨fun _ => (h f List.mem_cons_self).planCase ho hnext (quietPart_left all),
      ih (fun g hg => h g (List.mem_cons_of_mem f hg)) (by omega)⟩

/-- A quiet part that another part follows. -/
theorem quietPart_fits {s : State} {fs : MicroProgram} (ho : s.out = none) (hne : fs ≠ [])
    (h : ∀ f ∈ fs, Moves s (f s)) : (quietPart fs).Fits false s where
  size _ := rfl
  pos := hne
  stable _ _ := rfl
  events := Moves.fitFrom ho h (Nat.zero_add _).le

/-- A part of one position that ends the command. -/
theorem finish_fits {s : State} {f : State → State} (hc : (f s).cmd = none) (hh : (f s).hist = s.hist) :
    (quietPart [f]).Fits true s where
  size _ := rfl
  pos := List.cons_ne_nil _ _
  stable _ _ := rfl
  events := ⟨fun _ => .response hc hh (quietPart_left ..), trivial⟩

/-- An event that goes to the next position and leaves the parameters, the command, the framer and the history. -/
theorem Moves.next {s t : State} (hp : t.params = s.params) (hc : t.cmd = s.cmd) (ho : t.out = s.out)
    (hh : t.hist = s.hist) (hu : t.upc = s.upc + 1) : Moves s t :=
  .goes ⟨hp, hc⟩ ho (by rw [hh]) (.inr hu)

/-- BAD_STATE completes nothing. -/
theorem raiseBadState_moves (s : State) : Moves s s.raiseBadState :=
  .fails (State.raise_cmd ..) (by simp [State.raiseBadState, Completes])

/-- A command's check. -/
theorem startIn_moves (legal : List Fsm) (s : State) : Moves s (startIn legal s) := by
  rcases startIn_cases legal s with ⟨-, ht⟩ | ⟨-, ht⟩ <;> rw [ht]
  · exact .next rfl rfl rfl rfl rfl
  · exact raiseBadState_moves s

/-- ACTIVATE's check. -/
theorem startActivate_moves (s : State) : Moves s (startActivate s) := by
  unfold startActivate
  split
  · exact .next rfl rfl rfl rfl rfl
  · exact raiseBadState_moves s

/-- INIT's opening is an event of the history, and no exchange. -/
theorem openLink_moves (s : State) : Moves s (openLink s) := by
  unfold openLink
  cases s.opensOk
  · exact .fails (State.raise_cmd ..) (by simp [Completes])
  · exact .goes ⟨rfl, rfl⟩ rfl (by simp [exchanges]) (.inr rfl)

/-- INIT's reset edge is an event of the history, and no exchange. -/
theorem resetEdge_moves (s : State) : Moves s (resetEdge s) :=
  .goes ⟨rfl, rfl⟩ rfl (by simp [resetEdge, exchanges]) (.inr rfl)

/-- CLOSE's release is an event of the history, and no exchange. -/
theorem releaseLines_moves (s : State) : Moves s (releaseLines s) := by
  unfold releaseLines
  split
  · exact .goes ⟨rfl, rfl⟩ rfl (by simp [exchanges]) (.inr rfl)
  · exact .next rfl rfl rfl rfl rfl

/-- A wait holds, or is over. -/
theorem waitHold_moves (s : State) : Moves s (waitHold s) := by
  rcases waitHold_cases s with ⟨-, ht⟩ | ⟨-, ht⟩ <;> rw [ht]
  · exact .next rfl rfl rfl rfl rfl
  · exact .goes (.refl s) rfl rfl (.inl rfl)

/-- A completion after a register access. -/
theorem respondUnlessMisuse_ends (s : State) (d : Half) :
    (s.respondUnlessMisuse d).cmd = none ∧ (s.respondUnlessMisuse d).hist = s.hist := by
  unfold State.respondUnlessMisuse
  split <;> exact ⟨rfl, rfl⟩

/-- INIT's identity check ends it. -/
theorem identityCheck_ends (s : State) : (identityCheck s).cmd = none ∧ (identityCheck s).hist = s.hist := by
  unfold identityCheck
  split
  · exact ⟨State.raise_cmd .., State.raise_hist ..⟩
  · exact ⟨rfl, rfl⟩

/-- ACTIVATE's latch check ends it. -/
theorem modeCheck_ends (m : Mode) (s : State) : (modeCheck m s).cmd = none ∧ (modeCheck m s).hist = s.hist := by
  unfold modeCheck
  split
  · exact ⟨State.raise_cmd .., State.raise_hist ..⟩
  · exact ⟨rfl, rfl⟩

/-- TRIGGER's wait and its end, or its end right away when no trigger was sent. -/
theorem triggerEnd_fits {s : State} (ho : s.out = none) :
    (quietPart [triggerSent, waitHold, finishOk]).Fits true s where
  size _ := rfl
  pos := List.cons_ne_nil _ _
  stable _ _ := rfl
  events := by
    refine ⟨fun _ => ?_, fun _ => (waitHold_moves s).planCase ho (.inl (by decide)) (quietPart_left _),
      fun _ => .response rfl rfl (quietPart_left ..), trivial⟩
    unfold triggerSent
    split
    · exact .response rfl rfl (quietPart_left ..)
    · have hwait : Moves s (waitStart tTrig s) := .next rfl rfl rfl rfl rfl
      exact hwait.planCase ho (.inl (by decide)) (quietPart_left _)

/-- CLOSE makes no exchange. -/
theorem close_fits {s : State} (ho : s.out = none) : (quietPart closeProgram).Fits true s where
  size _ := rfl
  pos := List.cons_ne_nil _ _
  stable _ _ := rfl
  events :=
    ⟨fun _ => (startIn_moves _ s).planCase ho (.inl (by decide)) (quietPart_left _),
      fun _ => (releaseLines_moves s).planCase ho (.inl (by decide)) (quietPart_left _),
      fun _ => .response rfl rfl (quietPart_left ..), trivial⟩

/-! ### Register accesses -/

/-- A fit depends on the exchanges left in states of the same plan only. -/
theorem FitFrom.congr {last : Bool} {size n : Nat} {left left' : State → Nat → List Planned} {s : State}
    {fs : MicroProgram} (h : FitFrom last size left s n fs) (hl : ∀ u m, SamePlan s u → left' u m = left u m) :
    FitFrom last size left' s n fs := by
  induction fs generalizing n with
  | nil => trivial
  | cons f fs ih => exact ⟨fun hn => (h.1 hn).congr hl, ih h.2⟩

/-- Two parts of one stretch. -/
theorem FitFrom.append {last : Bool} {size n : Nat} {left : State → Nat → List Planned} {s : State}
    {fs gs : MicroProgram} (hf : FitFrom last size left s n fs) (hg : FitFrom last size left s (n + fs.length) gs) :
    FitFrom last size left s n (fs ++ gs) := by
  induction fs generalizing n with
  | nil => exact hg
  | cons f fs ih =>
    refine ⟨hf.1, ih hf.2 ?_⟩
    rwa [Nat.add_right_comm]

/-- A read makes its three exchanges, or none if it is refused. -/
theorem regRead_fitFrom {s : State} (ho : s.out = none) (r : RegName) :
    FitFrom false 5 (fun _ => (readStretch s r).leftFrom) s 0 (regRead (s.entry r)) := by
  refine ⟨fun _ => ?_, fun _ => .send (.inl (by decide)) rfl, fun _ => .send (.inl (by decide)) rfl,
    fun _ => .send (.inl (by decide)) rfl, fun _ => .silent ho (n' := 5) (.inr (by decide)) ⟨rfl, rfl⟩ rfl
      rfl rfl rfl, trivial⟩
  rcases readCheck_cases (s.entry r) s with ⟨hr, ht⟩ | ⟨hr, ht⟩ <;> rw [ht]
  · refine .silent ho (n' := 1) (.inl (by decide)) ⟨rfl, rfl⟩ rfl rfl rfl ?_
    simp [Stretch.leftFrom, readStretch, access, hr]
  · refine .silent ho (n' := 5) (.inr (by decide)) ⟨rfl, rfl⟩ rfl rfl rfl ?_
    simp [Stretch.leftFrom, readStretch, access, hr]

/-- A write makes its three exchanges, or none if it is refused. -/
theorem regWrite_fitFrom {s : State} (ho : s.out = none) (r : RegName) (v : Half) :
    FitFrom false 4 (fun _ => (writeStretch s r v).leftFrom) s 0 (regWrite (s.entry r) v) := by
  refine ⟨fun _ => ?_, fun _ => .send (.inl (by decide)) rfl, fun _ => .send (.inl (by decide)) rfl,
    fun _ => .send (.inr (by decide)) rfl, trivial⟩
  rcases writeCheck_cases (s.entry r) s with ⟨hr, ht⟩ | ⟨hr, ht⟩ <;> rw [ht]
  · refine .silent ho (n' := 1) (.inl (by decide)) ⟨rfl, rfl⟩ rfl rfl rfl ?_
    simp [Stretch.leftFrom, writeStretch, access, hr]
  · refine .silent ho (n' := 4) (.inr (by decide)) ⟨rfl, rfl⟩ rfl rfl rfl ?_
    simp [Stretch.leftFrom, writeStretch, access, hr]

/-- A register read. -/
def readPart (s : State) (r : RegName) : Part := ⟨regRead (s.entry r), fun u => readStretch u r⟩

/-- A register write, of a value that the parameters and the command determine. -/
def writePart (s : State) (r : RegName) (v : State → Half) : Part :=
  ⟨regWrite (s.entry r) (v s), fun u => writeStretch u r (v u)⟩

/-- A read does what its stretch says. -/
theorem readPart_fits {s : State} (ho : s.out = none) (r : RegName) : (readPart s r).Fits false s where
  size _ := rfl
  pos := List.cons_ne_nil _ _
  stable t hk := by simp only [readPart, readStretch_congr hk.params]
  events := (regRead_fitFrom ho r).congr fun u m hk => by simp only [Part.left, readPart, readStretch_congr hk.params]

/-- A write does what its stretch says. -/
theorem writePart_fits {s : State} (ho : s.out = none) (r : RegName) (v : State → Half)
    (hv : ∀ t, SamePlan s t → v t = v s) : (writePart s r v).Fits false s where
  size _ := rfl
  pos := List.cons_ne_nil _ _
  stable t hk := by simp only [writePart, writeStretch_congr hk.params, hv t hk]
  events := (regWrite_fitFrom ho r (v s)).congr fun u m hk => by
    simp only [Part.left, writePart, writeStretch_congr hk.params, hv u hk]

/-! ### The tap loop (41_configuration R183) -/

/-- The loop over the taps. -/
def tapsPart (s : State) : Part :=
  ⟨[firstTap] ++ regWrite (s.entry (.coef s.k)) s.cfg.taps[s.k] ++ [nextTap], tapsStretch⟩

/-- The events of a write leave the tap's index. -/
theorem regWrite_k {r : RegAddr} {v : Half} {f : State → State} (h : f ∈ regWrite r v) (s : State) :
    (f s).k = s.k := by
  simp only [regWrite, List.mem_cons, List.not_mem_nil, or_false] at h
  rcases h with rfl | rfl | rfl | rfl
  · unfold writeCheck
    split <;> rfl
  all_goals rfl

/-- At the positions of a tap's write, and behind it, its exchanges and those of the later taps are left. -/
theorem tapsStretch_leftFrom {s t : State} (hk : SamePlan s t) (hi : t.k = s.k) {m : Nat} (hm : m ≤ 4) :
    (tapsStretch t).leftFrom (m + 1) =
      (writeStretch s (.coef s.k) s.cfg.taps[s.k]).leftFrom m ++ tapsFrom s (s.k.val + 1) := by
  rcases Nat.lt_or_eq_of_le hm with hm | rfl
  · have hsize : m + 1 < (tapsStretch t).size := by simp only [tapsStretch]; omega
    have hwrite : m < (writeStretch s (.coef s.k) s.cfg.taps[s.k]).size := hm
    have hne : m + 1 ≠ 5 := by omega
    simp only [Stretch.leftFrom, hsize, hwrite, if_true]
    simp [tapsStretch, hne, tapsFrom_congr hk, writeStretch_congr hk.params, hk.cfg, hi]
  · simp [Stretch.leftFrom, tapsStretch, writeStretch, access, tapsFrom_congr hk, hi]

/-- The events of a tap's write, inside the loop. -/
theorem FitFrom.inTaps {s : State} {n : Nat} {fs : MicroProgram}
    (h : FitFrom false 4 (fun _ => (writeStretch s (.coef s.k) s.cfg.taps[s.k]).leftFrom) s n fs)
    (hn : n + fs.length ≤ 4) (hkeep : ∀ f ∈ fs, (f s).k = s.k) :
    FitFrom false 6 (tapsPart s).left s (n + 1) fs := by
  induction fs generalizing n with
  | nil => trivial
  | cons f fs ih =>
    obtain ⟨hf, hfs⟩ := h
    rw [List.length_cons] at hn
    refine ⟨fun hu => (hf (by omega)).inside (rest := tapsFrom s (s.k.val + 1)) (by decide) ?_ ?_, ih hfs (by omega) ?_⟩
    · exact tapsStretch_leftFrom (.refl s) rfl (by omega)
    · exact fun hk m hm => tapsStretch_leftFrom hk (hkeep f List.mem_cons_self) hm
    · exact fun g hg => hkeep g (List.mem_cons_of_mem f hg)

/-- The first tap is tap 0. -/
theorem firstTap_planCase {s : State} (ho : s.out = none) :
    PlanCase false 6 (tapsPart s).left s (firstTap s) 0 := by
  refine .silent ho (n' := 1) (.inl (by decide)) ⟨rfl, rfl⟩ rfl rfl rfl ?_
  exact (tapsFrom_eq s 0).symm

/-- Behind a tap the next one's write is left, or nothing. -/
theorem nextTap_planCase {s : State} (ho : s.out = none) (hu : 5 ≤ s.upc) :
    PlanCase false 6 (tapsPart s).left s (nextTap s) 5 := by
  unfold nextTap
  split
  · rename_i h
    refine .silent ho (n' := 1) (.inl (by decide)) ⟨rfl, rfl⟩ rfl rfl ?_ ?_
    · simp only [State.back_upc]
      omega
    · exact (tapsFrom_eq s ⟨s.k.val + 1, h⟩).symm
  · rename_i h
    refine .silent ho (n' := 6) (.inr (by decide)) ⟨rfl, rfl⟩ rfl rfl rfl ?_
    have hrest : (List.finRange 32).drop (s.k.val + 1) = [] := List.drop_eq_nil_of_le (by simp; omega)
    simp [Part.left, tapsPart, Stretch.leftFrom, tapsStretch, tapsFrom, hrest]

/-- The tap loop does what its stretch says. -/
theorem tapsPart_fits {s : State} (ho : s.out = none) : (tapsPart s).Fits false s where
  size _ := rfl
  pos := List.cons_ne_nil _ _
  stable _ hk := tapsFrom_congr hk 0
  events := FitFrom.append
    ⟨fun _ => firstTap_planCase ho, (regWrite_fitFrom ho _ _).inTaps (Nat.le_refl 4) fun _ hf => regWrite_k hf s⟩
    ⟨nextTap_planCase ho, trivial⟩

/-! ### The axis loop (42_sampling R224) -/

/-- The drain of the three axes. -/
def drainPart (s : State) (count : Nat) : Part :=
  ⟨firstAxis :: drainAxis (s.entry (axisReg s.ax)) count, fun u => drainStretch u count⟩

/-- The exchanges left in an axis with `m` checked words to go. -/
def wordsLeft (s : State) (count m : Nat) : List Planned :=
  List.replicate m (fRaddr (s.entry (axisReg s.ax)).addr, true) ++ [(fNull, false)] ++
    axesFrom s count (s.ax.val + 1)

/-- The first word is word 0. -/
theorem firstWord_planCase {s : State} (ho : s.out = none) {count : Nat} (hcount : 2 ≤ count) :
    PlanCase false 8 (drainPart s count).left s (firstWord s) 3 := by
  refine .silent ho (n' := 4) (.inl (by decide)) ⟨rfl, rfl⟩ rfl rfl rfl ?_
  have hwords : 1 + (count - 2 - 0) = count - 1 := by omega
  change wordsLeft s count (1 + (count - 2 - 0)) = _
  rw [hwords]
  rfl

/-- A checked word's frame. -/
theorem sendWord_planCase {s : State} {count : Nat} {f : State → State}
    (hf : f = sendTo (s.entry (axisReg s.ax)) (.raddr (s.entry (axisReg s.ax)).addr)) :
    PlanCase false 8 (drainPart s count).left s (f s) 4 := by
  subst hf
  refine .send (.inl (by decide)) ?_
  change wordsLeft s count (1 + (count - 2 - s.i.val)) = _ :: wordsLeft s count (count - 2 - s.i.val)
  rw [wordsLeft, Nat.add_comm 1, List.replicate_succ]
  rfl

/-- Behind a checked word the next one is left, or the final one. -/
theorem storeWord_planCase {s : State} (ho : s.out = none) {count : Nat} (hcount : count ≤ 4096) (hu : 5 ≤ s.upc) :
    PlanCase false 8 (drainPart s count).left s (storeWord count s) 5 := by
  have final : ∀ t : State, t.out = s.out → SamePlan s t → t.hist = s.hist → t.upc = s.upc + 1 → t.ax = s.ax →
      s.i.val + 2 ≥ count → PlanCase false 8 (drainPart s count).left s t 5 := by
    intro t hout hk hh hu hax hi
    refine .silent ho (n' := 6) (.inl (by decide)) hk hout (by rw [hh]) (by omega) ?_
    have hzero : count - 2 - s.i.val = 0 := by omega
    change wordsLeft t count 0 = wordsLeft s count (count - 2 - s.i.val)
    rw [hzero, wordsLeft, wordsLeft, hax, axesFrom_congr hk.params]
    rfl
  unfold storeWord
  split
  · split
    · rename_i hi
      refine .silent ho (n' := 4) (.inl (by decide)) ⟨rfl, rfl⟩ rfl rfl ?_ ?_
      · simp only [State.back_upc, State.memWrite_upc]
        omega
      · have hnext : 1 + (count - 2 - (s.i.val + 1)) = count - 2 - s.i.val := by omega
        change wordsLeft s count (1 + (count - 2 - (s.i.val + 1))) = wordsLeft s count (count - 2 - s.i.val)
        rw [hnext]
    · rename_i hi
      exact final _ rfl ⟨rfl, rfl⟩ rfl rfl rfl (by omega)
  · exact final _ rfl ⟨rfl, rfl⟩ rfl rfl rfl (by omega)

/-- Behind the final word of an axis the next axis is left, or nothing. -/
theorem storeLast_planCase {s : State} (ho : s.out = none) {count : Nat} (hu : 7 ≤ s.upc) :
    PlanCase false 8 (drainPart s count).left s (storeLast 6 s) 7 := by
  unfold storeLast
  split
  · rename_i h
    refine .silent ho (n' := 1) (.inl (by decide)) ⟨rfl, rfl⟩ rfl rfl ?_ ?_
    · simp only [State.back_upc, State.memWrite_upc]
      omega
    · exact (axesFrom_eq s count ⟨s.ax.val + 1, h⟩).symm
  · rename_i h
    refine .silent ho (n' := 8) (.inr (by decide)) ⟨rfl, rfl⟩ rfl rfl rfl ?_
    have hrest : (List.finRange 3).drop (s.ax.val + 1) = [] := List.drop_eq_nil_of_le (by simp; omega)
    simp [Part.left, drainPart, Stretch.leftFrom, drainStretch, axesFrom, hrest]

/-- The axis loop does what its stretch says. -/
theorem drainPart_fits {s : State} (ho : s.out = none) {count : Nat} (hlow : 2 ≤ count) (hhigh : count ≤ 4096) :
    (drainPart s count).Fits false s where
  size _ := rfl
  pos := List.cons_ne_nil _ _
  stable _ hk := axesFrom_congr hk.params count 0
  events := by
    change FitFrom false 8 (drainPart s count).left s 0 (firstAxis :: drainAxis (s.entry (axisReg s.ax)) count)
    refine ⟨fun _ => ?_, fun _ => .send (.inl (by decide)) rfl, fun _ => .send (.inl (by decide)) rfl,
      fun _ => firstWord_planCase ho hlow, fun _ => sendWord_planCase rfl, storeWord_planCase ho hhigh,
      fun _ => .send (.inl (by decide)) rfl, storeLast_planCase ho, trivial⟩
    exact .silent ho (n' := 1) (.inl (by decide)) ⟨rfl, rfl⟩ rfl rfl rfl (axesFrom_eq s count 0).symm

/-! ### The block loop (42_sampling R226) -/

/-- The loop over the blocks and words of a Streaming capture. -/
def blocksPart : Part := ⟨[firstBlock, send .null false 0 0, storeBlockWord, parseCollected], blocksStretch⟩

/-- Behind a word of a block the next one is left, or the parse. -/
theorem storeBlockWord_planCase {s : State} (ho : s.out = none) (hu : 2 ≤ s.upc) :
    PlanCase false 4 blocksPart.left s (storeBlockWord s) 2 := by
  unfold storeBlockWord
  split
  · refine .silent ho (n' := 1) (.inl (by decide)) ⟨rfl, rfl⟩ rfl rfl ?_ ?_
    · simp only [State.back_upc, State.memWrite_upc]
      omega
    · have hnext : 1 + (99 - (s.w.val + 1)) = 99 - s.w.val := by omega
      change List.replicate (1 + (99 - (s.w.val + 1)) + 100 * (9 - s.b.val)) _ = _
      rw [hnext]
      rfl
  · refine .silent ho (n' := 3) (.inl (by decide)) ⟨rfl, rfl⟩ rfl rfl rfl ?_
    have hlast : 99 - s.w.val = 0 := by omega
    simp [Part.left, blocksPart, Stretch.leftFrom, blocksStretch, hlast]

/-- Behind a block the next one is left, or nothing. -/
theorem parseCollected_planCase {s : State} (ho : s.out = none) (hu : 3 ≤ s.upc) :
    PlanCase false 4 blocksPart.left s (parseCollected s) 3 := by
  rw [parseCollected_eq]
  split
  · refine .silent ho (n' := 1) (.inl (by decide)) ⟨rfl, rfl⟩ rfl rfl ?_ ?_
    · simp only [State.back_upc]
      omega
    · have hnext : 1 + (99 - 0) + 100 * (9 - (s.b.val + 1)) = 100 * (9 - s.b.val) := by omega
      change List.replicate (1 + (99 - 0) + 100 * (9 - (s.b.val + 1))) _ = _
      rw [hnext]
      rfl
  · refine .silent ho (n' := 4) (.inr (by decide)) ⟨rfl, rfl⟩ rfl rfl rfl ?_
    have hlast : 9 - s.b.val = 0 := by omega
    simp [Part.left, blocksPart, Stretch.leftFrom, blocksStretch, hlast]

/-- The block loop does what its stretch says. -/
theorem blocksPart_fits {s : State} (ho : s.out = none) : blocksPart.Fits false s where
  size _ := rfl
  pos := List.cons_ne_nil _ _
  stable _ _ := rfl
  events := by
    refine ⟨fun _ => ?_, fun _ => ?_, storeBlockWord_planCase ho, parseCollected_planCase ho, trivial⟩
    · exact .silent ho (n' := 1) (.inl (by decide)) ⟨rfl, rfl⟩ rfl rfl rfl rfl
    · refine .send (.inl (by decide)) ?_
      simp only [Part.left, blocksPart, Stretch.leftFrom, blocksStretch]
      rw [Nat.add_assoc, Nat.add_comm 1]
      rfl

end Sys2Proof.Machine
end

section
/-! The framer's step and every command's micro-program as consecutive parts (10_state R36, 20_memory R83). -/

namespace Sys2Proof.Machine

/-! ### The framer -/

/-- The fields that a command's stretches and position depend on. -/
def State.planFields (s : State) :
    Params × Option Cmd × Option Mode × Nat × Fin 3 × Fin 4096 × Fin 10 × Fin 100 × Fin 32 :=
  (s.params, s.cmd, s.mode, s.upc, s.ax, s.i, s.b, s.w, s.k)

/-- The stretches of a command depend on those fields only. -/
theorem stretches_congr {s t : State} (h : t.planFields = s.planFields) (i : Instr) :
    stretches i t = stretches i s := by
  simp only [State.planFields, Prod.mk.injEq] at h
  obtain ⟨hp, hc, hm, -, hax, hi, hb, hw, hk⟩ := h
  have hplan : SamePlan s t := ⟨hp, hc⟩
  have htaps : tapsStretch t = tapsStretch s := by
    simp only [tapsStretch, tapsFrom_congr hplan, writeStretch_congr hp, hplan.cfg, hk]
  have hdrain : ∀ count, drainStretch t count = drainStretch s count := fun count => by
    simp only [drainStretch, axesFrom_congr hp, State.entry, hp, hax, hi]
  have hblocks : blocksStretch t = blocksStretch s := by simp only [blocksStretch, hb, hw]
  cases i <;>
    simp only [stretches, readStretch_congr hp, writeStretch_congr hp, htaps, hdrain, hblocks, hplan.cfg, hp, hm]

/-- What a framer step does to the plan. -/
inductive FramerPlan (s : State) (tx : Frame) (checked : Bool) : LinkResult → Prop where
  | waits (t : State) (hf : t.planFields = s.planFields) (ho : t.out = s.out)
      (hh : exchanges t.hist = exchanges s.hist) : FramerPlan s tx checked (.waiting t)
  | answered (t : State) (hf : t.planFields = s.planFields) (ho : t.out = s.out)
      (hh : exchanges t.hist = exchanges s.hist ++ [(tx, checked)]) : FramerPlan s tx checked (.done t)
  | fails (t : State) (hc : t.cmd = none) (hs : ¬ Completes t.rspStatus) : FramerPlan s tx checked (.raised t)

/-- A poll is no exchange. -/
theorem polled_exchanges (s : State) : exchanges s.polled.hist = exchanges s.hist := by
  simp [State.polled, exchanges]

/-- An exchange is one. -/
theorem exchanged_exchanges (s : State) (tx : Frame) (checked : Bool) :
    exchanges (s.exchanged tx checked).hist = exchanges s.hist ++ [(tx, checked)] := by
  simp [State.exchanged, exchanges]

/-- A framer step waits, makes its exchange, or fails with TRANSPORT or TIMEOUT. -/
theorem framer_plan (s : State) (tx : Frame) (checked : Bool) (page addr : Byte) :
    FramerPlan s tx checked (s.framer tx checked page addr) := by
  have h := framer_cases s tx checked page addr
  generalize s.framer tx checked page addr = r at h
  cases h with
  | hold => exact .waits s rfl rfl rfl
  | busy => exact .waits _ rfl rfl (polled_exchanges s)
  | checkedDone _ hc =>
    refine .answered _ rfl rfl ?_
    rw [hc, ← polled_exchanges s]
    exact exchanged_exchanges s.polled tx true
  | rawDone _ hc =>
    refine .answered _ rfl rfl ?_
    rw [hc]
    exact exchanged_exchanges s tx false
  | timeout | checkedFails | rawFails => exact .fails _ (State.raise_cmd ..) (by simp [Completes])

/-! ### The host's own exchange (40_register_protocol R154, R155) -/

/-- The host's exchange at its position. -/
theorem hostExchange_planCase {size pos : Nat} {tx : Frame} {checked : Bool} {s : State} (ho : s.out = none)
    (hpos : pos + 1 < size) :
    PlanCase true size (fun _ => (hostStretch size pos tx checked).leftFrom) s (hostExchange tx checked s) pos := by
  rw [hostExchange_hosted]
  have hplan := framer_plan s tx checked 0 0
  generalize s.framer tx checked 0 0 = r at hplan
  have hnow : (hostStretch size pos tx checked).leftFrom pos = [(tx, checked)] := by
    simp [Stretch.leftFrom, hostStretch, Nat.lt_of_succ_lt hpos]
  have hnext : (hostStretch size pos tx checked).leftFrom (pos + 1) = [] := by
    simp [Stretch.leftFrom, hostStretch]
  cases hplan with
  | waits t hf hout hh =>
    simp only [State.planFields, Prod.mk.injEq] at hf
    obtain ⟨hp, hc, -, hu, -⟩ := hf
    exact .silent ho (n' := pos) (.inl (Nat.lt_of_succ_lt hpos)) ⟨hp, hc⟩ hout hh (by rw [LinkResult.hosted, hu]) rfl
  | answered t hf hout hh =>
    simp only [State.planFields, Prod.mk.injEq] at hf
    obtain ⟨hp, hc, -, hu, -⟩ := hf
    refine .goes (pos + 1) (.inl hpos) ⟨hp, hc⟩ ?_ ?_
    · simp only [LinkResult.hosted, State.advance_upc, hu]
      omega
    · have hbegun : (LinkResult.done t).hosted.begun = exchanges t.hist := begun_of_out_none (hout.trans ho)
      rw [hbegun, hh, hnow, hnext, List.append_nil]
  | fails t hc hs => exact .fails hc hs

/-- The program of a host's exchange. -/
def hostPart (fs : MicroProgram) (pos : Nat) (tx : Frame) (checked : Bool) : Part :=
  ⟨fs, fun _ => hostStretch fs.length pos tx checked⟩

/-- A move before the host's exchange. -/
theorem Moves.before_host {size pos n : Nat} {tx : Frame} {checked : Bool} {s t : State} (h : Moves s t)
    (ho : s.out = none) (hn : n < pos) (hpos : pos < size) :
    PlanCase true size (fun _ => (hostStretch size pos tx checked).leftFrom) s t n := by
  have hleft : ∀ m, m ≤ pos → (hostStretch size pos tx checked).leftFrom m = [(tx, checked)] := fun m hm => by
    simp [Stretch.leftFrom, hostStretch, hm, Nat.lt_of_le_of_lt hm hpos]
  cases h with
  | goes hk hout hh hu =>
    rcases hu with hu | hu
    · exact .silent ho (n' := n) (.inl (by omega)) hk hout hh (by omega) rfl
    · exact .silent ho (n' := n + 1) (.inl (by omega)) hk hout hh (by omega)
        (by rw [hleft n hn.le, hleft (n + 1) hn])
  | fails hc hs => exact .fails hc hs

/-- XCHG. -/
theorem xchg_fits {s : State} (ho : s.out = none) (tx : Frame) :
    (hostPart (xchgProgram tx) 1 tx false).Fits true s where
  size _ := rfl
  pos := List.cons_ne_nil _ _
  stable _ _ := rfl
  events := by
    change FitFrom true 3 (fun _ => (hostStretch 3 1 tx false).leftFrom) s 0 (xchgProgram tx)
    exact ⟨fun _ => (startIn_moves _ s).before_host ho (by decide) (by decide),
      fun _ => hostExchange_planCase ho (by decide), fun _ => .response rfl rfl rfl, trivial⟩

/-- XCHGB. -/
theorem xchgb_fits {s : State} (ho : s.out = none) (tx : Frame) :
    (hostPart (xchgbProgram tx) 2 tx true).Fits true s where
  size _ := rfl
  pos := List.cons_ne_nil _ _
  stable _ _ := rfl
  events := by
    change FitFrom true 4 (fun _ => (hostStretch 4 2 tx true).leftFrom) s 0 (xchgbProgram tx)
    have hpoll : Moves s (pollStart s) := .next rfl rfl rfl rfl rfl
    exact ⟨fun _ => (startIn_moves _ s).before_host ho (by decide) (by decide),
      fun _ => hpoll.before_host ho (by decide) (by decide),
      fun _ => hostExchange_planCase ho (by decide), fun _ => .response rfl rfl rfl, trivial⟩

/-! ### The micro-programs from their parts -/

/-- Before INIT's identity read. -/
def initWaits : MicroProgram :=
  [startIn [.uninit], openLink, waitStart tPwr, waitHold, resetEdge, waitStart tRst, waitHold, clearMisuse]

/-- The average and filter setup. -/
def filterParts (cust : Bool) (fsel : BitVec 3) (s : State) : List Part :=
  if cust then
    [writePart s .avgCtrl fun u => u.cfg.avg, tapsPart s, writePart s .filtCtrl fun u => customFiltCtrlValue u.params]
  else [writePart s .avgCtrl fun u => u.cfg.avg, writePart s .filtCtrl fun u => filtCtrlValue u.params fsel]

/-- The parts of ACTIVATE before its latch check. -/
def activateParts (m : Mode) (win : BitVec 4) (decl : BitVec 3) (cust : Bool) (fsel : BitVec 3) (s : State) :
    List Part :=
  [quietPart [startActivate], writePart s .decCtrl fun u => decCtrlValue u.params decl] ++
    (if m = .rts then [] else filterParts cust fsel s) ++
    [writePart s .recCtrl fun u => recCtrlValue u.params m win, quietPart [clearMisuse], readPart s .recCtrl]

/-- The parts of CAPTURE before its batch. -/
def captureParts (m : Mode) (s : State) : List Part :=
  match m with
  | .rts => [quietPart [startIn [.active]], blocksPart]
  | .mtc =>
    [quietPart [startIn [.active]], readPart s s.params.decSrcReg, quietPart [latchDecF],
      writePart s .bufPntr fun _ => 0, drainPart s 4096]
  | .mfft | .afft =>
    [quietPart [startIn [.active]], readPart s s.params.decSrcReg, quietPart [latchDecF],
      readPart s s.params.avgSrc.reg, quietPart [latchAvgC], writePart s .bufPntr fun _ => 0, drainPart s 2048]

/-- The parts of a command that cannot complete it, and the last one, which can. -/
def partsOf (i : Instr) (s : State) : List Part × Part :=
  match i with
  | .init => ([quietPart initWaits, readPart s .prodId], quietPart [identityCheck])
  | .activate m win decl cust fsel => (activateParts m win decl cust fsel s, quietPart [modeCheck m])
  | .exttrig =>
    ([quietPart [startIn verified], writePart s .extCtrl fun u => u.params.extMask], quietPart [finishWrite])
  | .trigger =>
    ([quietPart [startIn [.active]], writePart s .globCmd fun u => u.params.trigMask],
      quietPart [triggerSent, waitHold, finishOk])
  | .capture =>
    match s.mode with
    | some m => (captureParts m s, quietPart [emitBatch m])
    | none => ([], quietPart [])
  | .close => ([], quietPart closeProgram)
  | .rdreg r => ([quietPart [startIn verified], readPart s r], quietPart [finishRead])
  | .wrreg r v => ([quietPart [startIn verified], writePart s r fun _ => v], quietPart [finishWrite])
  | .xchg b0 b1 => ([], hostPart (xchgProgram (b0 ++ b1)) 1 (b0 ++ b1) false)
  | .xchgb b0 b1 => ([], hostPart (xchgbProgram (b0 ++ b1)) 2 (b0 ++ b1) true)
  | .pagesel _ | .raddr _ | .null | .wlo _ _ | .whi _ _ => ([], quietPart [])

/-- The parts in order. -/
def allParts (i : Instr) (s : State) : List Part := (partsOf i s).1 ++ [(partsOf i s).2]

/-- A command in progress dispatches on what is there: CAPTURE on the session mode. -/
def Dispatches (i : Instr) (s : State) : Prop := i.isCommand = true ∧ (i = .capture → s.mode ≠ none)

/-- The parts make up the micro-program. -/
theorem eventsOf_allParts {i : Instr} {s : State} (hi : Dispatches i s) : eventsOf (allParts i s) = programOf i s := by
  obtain ⟨hcmd, hmode⟩ := hi
  cases i with
  | activate m win decl cust fsel =>
    by_cases hm : m = .rts
    · subst hm
      rfl
    · cases cust <;>
        simp [allParts, partsOf, activateParts, filterParts, hm, eventsOf, quietPart, writePart, readPart, tapsPart,
          programOf, activateProgram, filterSetup]
  | capture =>
    obtain ⟨m, hm⟩ := Option.ne_none_iff_exists'.1 (hmode rfl)
    simp only [allParts, partsOf, programOf, hm]
    cases m <;> rfl
  | pagesel | raddr | null | wlo | whi => exact absurd hcmd Bool.false_ne_true
  | _ => rfl

/-- The parts' stretches are the command's. -/
theorem plans_allParts {i : Instr} {s t : State} (hi : Dispatches i s) (hk : SamePlan s t)
    (ht : i = .capture → t.mode = s.mode) : (allParts i s).map (fun p => p.plan t) = stretches i t := by
  obtain ⟨hcmd, hmode⟩ := hi
  cases i with
  | activate m win decl cust fsel =>
    by_cases hm : m = .rts
    · subst hm
      rfl
    · cases cust <;>
        simp [allParts, partsOf, activateParts, filterParts, hm, quietPart, writePart, readPart, tapsPart, stretches]
  | capture =>
    obtain ⟨m, hm⟩ := Option.ne_none_iff_exists'.1 (hmode rfl)
    simp only [allParts, partsOf, stretches, hm, ht rfl]
    cases m <;> simp [captureParts, quietPart, readPart, writePart, drainPart, blocksPart, hk.params]
  | pagesel | raddr | null | wlo | whi => exact absurd hcmd Bool.false_ne_true
  | _ => rfl

/-- Parts that cannot complete the command, and a last one. -/
theorem allFit_append {s : State} {ps : List Part} {q : Part} (h : ∀ p ∈ ps, p.Fits false s) (hq : q.Fits true s) :
    AllFit s (ps ++ [q]) := by
  induction ps with
  | nil => exact ⟨hq, trivial⟩
  | cons p ps ih =>
    refine ⟨?_, ih fun p' hp => h p' (List.mem_cons_of_mem p hp)⟩
    have hne : (ps.append [q]).isEmpty = false := by cases ps <;> rfl
    rw [hne]
    exact h p List.mem_cons_self

/-- Two parts that fit. -/
theorem fit_pair {s : State} {p q : Part} (hp : p.Fits false s) (hq : q.Fits false s) :
    ∀ x ∈ [p, q], x.Fits false s :=
  List.forall_mem_cons.2 ⟨hp, List.forall_mem_singleton.2 hq⟩

/-- The first position of a command whose check is a list of states. -/
theorem startPart_fits {s : State} (ho : s.out = none) (legal : List Fsm) :
    (quietPart [startIn legal]).Fits false s :=
  quietPart_fits ho (List.cons_ne_nil _ _) (by simpa using startIn_moves legal s)

/-- A quiet position between two accesses. -/
theorem nextPart_fits {s : State} (ho : s.out = none) {f : State → State} (h : Moves s (f s)) :
    (quietPart [f]).Fits false s :=
  quietPart_fits ho (List.cons_ne_nil _ _) (by simpa using h)

/-- INIT's waits. -/
theorem initWaits_fits {s : State} (ho : s.out = none) : (quietPart initWaits).Fits false s := by
  refine quietPart_fits ho (List.cons_ne_nil _ _) ?_
  have hwait : ∀ us, Moves s (waitStart us s) := fun us => .next rfl rfl rfl rfl rfl
  have hclear : Moves s (clearMisuse s) := .next rfl rfl rfl rfl rfl
  simp [initWaits, startIn_moves, openLink_moves, hwait, waitHold_moves, resetEdge_moves, hclear]

/-- The filter setup does what its stretches say. -/
theorem filterParts_fit {s : State} (ho : s.out = none) (cust : Bool) (fsel : BitVec 3) :
    ∀ p ∈ filterParts cust fsel s, p.Fits false s := by
  have havg := writePart_fits ho .avgCtrl (fun u => u.cfg.avg) fun t hk => by rw [hk.cfg]
  have hfilt := fun v : Params → Half =>
    writePart_fits ho .filtCtrl (fun u => v u.params) fun t hk => by rw [hk.params]
  cases cust
  · simpa [filterParts] using ⟨havg, hfilt fun p => filtCtrlValue p fsel⟩
  · simpa [filterParts] using ⟨havg, tapsPart_fits ho, hfilt customFiltCtrlValue⟩

/-- ACTIVATE's parts do what their stretches say. -/
theorem activateParts_fit {s : State} (ho : s.out = none) (m : Mode) (win : BitVec 4) (decl : BitVec 3) (cust : Bool)
    (fsel : BitVec 3) : ∀ p ∈ activateParts m win decl cust fsel s, p.Fits false s := by
  have hstart := nextPart_fits ho (startActivate_moves s)
  have hdec := writePart_fits ho .decCtrl (fun u => decCtrlValue u.params decl) fun t hk => by rw [hk.params]
  have hrec := writePart_fits ho .recCtrl (fun u => recCtrlValue u.params m win) fun t hk => by rw [hk.params]
  have hclear := nextPart_fits ho (f := clearMisuse) (.next rfl rfl rfl rfl rfl)
  have hread := readPart_fits ho .recCtrl
  intro p hp
  simp only [activateParts, List.mem_append, List.mem_cons, List.not_mem_nil, or_false] at hp
  rcases hp with ((rfl | rfl) | hp) | rfl | rfl | rfl
  · exact hstart
  · exact hdec
  · split at hp
    · exact absurd hp List.not_mem_nil
    · exact filterParts_fit ho cust fsel p hp
  · exact hrec
  · exact hclear
  · exact hread

/-- CAPTURE's parts do what their stretches say. -/
theorem captureParts_fit {s : State} (ho : s.out = none) (m : Mode) : ∀ p ∈ captureParts m s, p.Fits false s := by
  have hstart := startPart_fits ho [.active]
  have hdecF := nextPart_fits ho (f := latchDecF) (.next rfl rfl rfl rfl rfl)
  have havgC := nextPart_fits ho (f := latchAvgC) (.next rfl rfl rfl rfl rfl)
  have hpntr := writePart_fits ho .bufPntr (fun _ => 0) fun _ _ => rfl
  have hread := readPart_fits ho
  have hdrain : ∀ count, 2 ≤ count → count ≤ 4096 → (drainPart s count).Fits false s := fun _ => drainPart_fits ho
  intro p hp
  cases m <;> simp only [captureParts, List.mem_cons, List.not_mem_nil, or_false] at hp
  case rts =>
    rcases hp with rfl | rfl
    · exact hstart
    · exact blocksPart_fits ho
  case mtc =>
    rcases hp with rfl | rfl | rfl | rfl | rfl
    exacts [hstart, hread _, hdecF, hpntr, hdrain 4096 (by decide) (by decide)]
  all_goals
    rcases hp with rfl | rfl | rfl | rfl | rfl | rfl | rfl
    exacts [hstart, hread _, hdecF, hread _, havgC, hpntr, hdrain 2048 (by decide) (by decide)]

/-- Every command's parts do what their stretches say. -/
theorem allParts_fit {i : Instr} {s : State} (hi : Dispatches i s) (ho : s.out = none) : AllFit s (allParts i s) := by
  obtain ⟨hcmd, hmode⟩ := hi
  have params : ∀ (r : RegName) (v : Params → Half), (writePart s r fun u => v u.params).Fits false s := fun r v =>
    writePart_fits ho r _ fun t hk => by rw [hk.params]
  have finish : ∀ d, (s.respondUnlessMisuse d).cmd = none ∧ (s.respondUnlessMisuse d).hist = s.hist :=
    respondUnlessMisuse_ends s
  cases i with
  | init =>
    obtain ⟨hc, hh⟩ := identityCheck_ends s
    exact allFit_append (fit_pair (initWaits_fits ho) (readPart_fits ho _)) (finish_fits hc hh)
  | activate m win decl cust fsel =>
    obtain ⟨hc, hh⟩ := modeCheck_ends m s
    exact allFit_append (activateParts_fit ho m win decl cust fsel) (finish_fits hc hh)
  | exttrig =>
    exact allFit_append (fit_pair (startPart_fits ho verified) (params .extCtrl Params.extMask))
      (finish_fits (finish 0).1 (finish 0).2)
  | trigger =>
    exact allFit_append (fit_pair (startPart_fits ho [.active]) (params .globCmd Params.trigMask))
      (triggerEnd_fits ho)
  | capture =>
    obtain ⟨m, hm⟩ := Option.ne_none_iff_exists'.1 (hmode rfl)
    simp only [allParts, partsOf, hm]
    exact allFit_append (captureParts_fit ho m) (finish_fits rfl rfl)
  | close => exact ⟨close_fits ho, trivial⟩
  | rdreg r =>
    exact allFit_append (fit_pair (startPart_fits ho verified) (readPart_fits ho r))
      (finish_fits (finish s.regv).1 (finish s.regv).2)
  | wrreg r v =>
    exact allFit_append (fit_pair (startPart_fits ho verified) (params r fun _ => v))
      (finish_fits (finish 0).1 (finish 0).2)
  | xchg b0 b1 => exact ⟨xchg_fits ho (b0 ++ b1), trivial⟩
  | xchgb b0 b1 => exact ⟨xchgb_fits ho (b0 ++ b1), trivial⟩
  | pagesel | raddr | null | wlo | whi => exact absurd hcmd Bool.false_ne_true

end Sys2Proof.Machine
end

section
/-! A step leaves the exchanges made and still to be made as one list (20_memory R83). -/

namespace Sys2Proof.Machine

/-! ### A core turn on the command in progress -/

/-- What a command's position does to the plan. -/
theorem exec_planCase {i : Instr} {s t : State} (hi : Dispatches i s) (ho : s.out = none) (h : exec i s = .next t) :
    PlanCase true (programOf i s).length (leftOf (allParts i s)) s t s.upc := by
  obtain ⟨f, hf, rfl⟩ := exec_command_next hi.1 h
  rw [← eventsOf_allParts hi] at hf ⊢
  exact (allParts_fit hi ho).event hf (Nat.le_refl _)

/-- The session mode does not change while CAPTURE goes on. -/
theorem SessionCase.capture_mode {i : Instr} {s t : State} (h : SessionCase i s t) (hi : i = .capture)
    (hc : t.cmd ≠ none) : t.mode = s.mode := by
  subst hi
  cases h with
  | quiet h => exact h.mode
  | ended he | failed he | activated _ he | identified _ _ he | closed _ he => exact absurd he.cmd hc
  | leaves hi | opened hi | edge hi | released hi => simp at hi

/-- A command in progress has what it dispatches on. -/
theorem SessionInv.dispatches {s : State} {c : Cmd} (hs : SessionInv s) (hc : s.cmd = some c) :
    Dispatches c.instr s := by
  obtain ⟨-, hrun, -⟩ := hs.running hc
  refine ⟨runningFsm_isCommand hrun, fun hi => hs.1.2 ?_⟩
  simpa [hi, runningFsm] using hrun

/-- What is made and left of the plan of the command `c`, from one state to the next. -/
def KeepsPlan (c : Cmd) (s t : State) : Prop :=
  (t.cmd = some c → exchanges t.hist ++ t.remaining = exchanges s.hist ++ s.remaining) ∧
    (t.cmd = none → Completes t.rspStatus → exchanges t.hist = exchanges s.hist ++ s.remaining)

/-- The command's own position keeps the plan. -/
theorem command_keepsPlan {s t : State} {c : Cmd} (hs : SessionInv s) (hc : s.cmd = some c) (ho : s.out = none)
    (h : exec c.instr s = .next t) : KeepsPlan c s t := by
  have hi := hs.dispatches hc
  have hleft : ∀ u, SamePlan s u → (c.instr = .capture → u.mode = s.mode) →
      leftOf (allParts c.instr s) u = exchangesLeft (stretches c.instr u) := fun u hk hm =>
    congrArg exchangesLeft (plans_allParts hi hk hm)
  have hplan : exchanges s.hist ++ s.remaining = exchanges s.hist ++ leftOf (allParts c.instr s) s s.upc := by
    rw [remaining_of_cmd hc, begun_of_out_none ho, hleft s (.refl s) fun _ => rfl]
  rw [KeepsPlan, hplan]
  cases exec_planCase hi ho h with
  | goes n' _ hk hu hp =>
    have htc : t.cmd = some c := hk.cmd.trans hc
    have hm := fun hcap => (exec_session hi.1 h).capture_mode hcap (by simp [htc])
    have hn : t.upc = n' := by omega
    refine ⟨fun _ => ?_, fun hnone => by simp [htc] at hnone⟩
    rw [remaining_of_cmd htc, ← hleft t hk hm, hn, hp]
  | fails hnone hstatus => exact ⟨fun hsome => by simp [hnone] at hsome, fun _ h => absurd h hstatus⟩
  | ends _ hnone hp => exact ⟨fun hsome => by simp [hnone] at hsome, fun _ _ => hp⟩

/-- The framer's step of the transfer in progress keeps the plan. -/
theorem frame_keepsPlan {s : State} {c : Cmd} {o : Outgoing} (hc : s.cmd = some c) (ho : s.out = some o) :
    KeepsPlan c s (s.sendFrame (o.frame.bits s.params)) := by
  rw [KeepsPlan, sendFrame_out ho, remaining_of_cmd hc]
  have hplan := framer_plan s (o.frame.bits s.params) o.checked o.page o.addr
  generalize s.framer (o.frame.bits s.params) o.checked o.page o.addr = r at hplan
  have hbegun : s.begun = exchanges s.hist ++ [(o.frame.bits s.params, o.checked)] := by
    simp only [State.begun, State.inFramer, ho]
  have kept : ∀ {t u : State}, t.planFields = s.planFields → u.planFields = t.planFields → u.begun = s.begun →
      u.cmd = some c ∧
        exchanges u.hist ++ u.remaining = s.begun ++ exchangesLeft (stretches c.instr s) s.upc := by
    intro t u ht hu hb
    have hf := hu.trans ht
    have hstretches := stretches_congr hf c.instr
    simp only [State.planFields, Prod.mk.injEq] at hf
    obtain ⟨-, hcmd, -, hupc, -⟩ := hf
    have huc := hcmd.trans hc
    exact ⟨huc, by rw [remaining_of_cmd huc, hb, hstretches, hupc]⟩
  cases hplan with
  | waits t hf hout hh =>
    have hparams : t.params = s.params := congrArg Prod.fst hf
    obtain ⟨htc, hk⟩ := kept hf (u := t) rfl (by simp only [State.begun, State.inFramer, hout, hh, hparams])
    exact ⟨fun _ => hk, fun hnone => absurd (htc.symm.trans hnone) (Option.some_ne_none c)⟩
  | answered t hf _ hh =>
    obtain ⟨htc, hk⟩ := kept hf (u := { t with out := none }) rfl
      (by rw [begun_of_out_none rfl, hbegun, hh])
    exact ⟨fun _ => hk, fun hnone => absurd (htc.symm.trans hnone) (Option.some_ne_none c)⟩
  | fails t hnone hs => exact ⟨fun hsome => by simp [LinkResult.sent, hnone] at hsome, fun _ h => absurd h hs⟩

/-- The plan does not depend on the turns. -/
theorem popTurn_remaining (s : State) : s.popTurn.remaining = s.remaining := by
  unfold State.popTurn
  split <;> rfl

/-- Settles O40: each position of a micro-program begins the exchanges its stretch says, the framer makes the one handed
to it, and a tick makes none. -/
theorem exchangesFollowTheProgram : Obligations.ExchangesFollowTheProgram := by
  intro s t c hs hc h hr
  have pop : KeepsPlan c s.popTurn t → KeepsPlan c s t := by
    rw [KeepsPlan, KeepsPlan, State.popTurn_hist, popTurn_remaining]
    exact id
  refine pop ?_
  have hc' : s.popTurn.cmd = some c := (State.popTurn_cmd s).trans hc
  cases step_cases h with
  | tick _ ht =>
    subst ht
    exact ⟨fun _ => rfl, fun hnone => absurd (hc'.symm.trans hnone) (Option.some_ne_none c)⟩
  | reset hr' _ => exact absurd hr' hr
  | frame _ o ho ht =>
    rw [ht, ← State.popTurn_params s]
    exact frame_keepsPlan hc' ((State.popTurn_out s).trans ho)
  | command _ ho c' hcc ht =>
    obtain rfl : c = c' := Option.some.inj (hc.symm.trans hcc)
    exact command_keepsPlan hs.popTurn hc' ((State.popTurn_out s).trans ho) ht
  | idle _ _ hnone | illegal _ _ hnone | accept _ _ hnone =>
    exact absurd (hc.symm.trans hnone) (Option.some_ne_none c)

end Sys2Proof.Machine
end

section
/-! A step always answers, at a position of the micro-program (10_state R36, 20_memory R70). -/

namespace Sys2Proof.Machine

/-- The length of a micro-program depends on the session mode for CAPTURE only. -/
theorem programLength_congr {i : Instr} {m m' : Option Mode} (h : i = .capture → m' = m) :
    programLength i m' = programLength i m := by
  cases i with
  | capture => rw [h rfl]
  | _ => rfl

/-- A command has a position behind its check; CAPTURE with a session mode. -/
theorem one_lt_programLength {i : Instr} (hi : i.isCommand = true) {m : Option Mode} (hm : i = .capture → m ≠ none) :
    1 < programLength i m := by
  cases i with
  | activate m _ _ cust _ =>
    simp only [programLength]
    repeat' split
    all_goals decide
  | capture =>
    obtain ⟨m, rfl⟩ := Option.ne_none_iff_exists'.1 (hm rfl)
    cases m <;> decide
  | pagesel | raddr | null | wlo | whi => exact absurd hi Bool.false_ne_true
  | _ => simp [programLength]

/-- Every command has a position for its check. -/
theorem programLength_pos {i : Instr} (hi : i.isCommand = true) (m : Option Mode) : 0 < programLength i m := by
  by_cases h : i = .capture ∧ m = none
  · obtain ⟨rfl, rfl⟩ := h
    decide
  · exact Nat.zero_lt_of_lt (one_lt_programLength hi fun hc hm => h ⟨hc, hm⟩)

/-- The command in progress, if there is one, is at a position of its micro-program. -/
def InProgram (s : State) : Prop := ∀ c, s.cmd = some c → s.upc < programLength c.instr s.mode

/-- An idle core is at no position. -/
theorem InProgram.of_idle {s : State} (h : s.cmd = none) : InProgram s := fun c hc => by simp [h] at hc

/-- The invariant of a run. -/
theorem runInv_iff (s : State) : RunInv s ↔ paramsOk s.params = true ∧ SessionInv s ∧ InProgram s := by
  cases hc : s.cmd <;> simp [RunInv, InProgram, hc]

/-- A framer step stays at the position it is called from. -/
theorem frame_inProgram {s : State} {c : Cmd} (hc : s.cmd = some c) (hclose : c.instr ≠ .close) (hs : InProgram s)
    (tx : Frame) : InProgram (s.sendFrame tx) := by
  obtain ⟨hcase, hnone | hu⟩ := sendFrame_session hc hclose tx
  · exact .of_idle hnone
  rcases hcase.continues_or_ended with h | h
  · intro c' hc'
    obtain rfl : c = c' := Option.some.inj (hc.symm.trans (h.cmd.symm.trans hc'))
    have hm := fun hcap => hcase.capture_mode hcap (by simp [hc'])
    rw [hu, programLength_congr hm]
    exact hs c hc
  · exact .of_idle h.cmd

/-- A command's position leads to one inside its micro-program, or ends it. -/
theorem command_inProgram {s t : State} {c : Cmd} (hs : SessionInv s) (hc : s.cmd = some c) (ho : s.out = none)
    (h : exec c.instr s = .next t) : InProgram t := by
  have hi := hs.dispatches hc
  cases exec_planCase hi ho h with
  | goes n' hin hk hu =>
    intro c' hc'
    obtain rfl : c = c' := Option.some.inj (hc.symm.trans (hk.cmd.symm.trans hc'))
    have hm := fun hcap => (exec_session hi.1 h).capture_mode hcap (by simp [hc'])
    have hlt : n' < (programOf c.instr s).length := hin.resolve_right fun h => absurd h.1 (by decide)
    rw [programOf_length hi.1 hs.1] at hlt
    rw [programLength_congr hm]
    omega
  | fails hnone | ends _ hnone => exact .of_idle hnone

/-- A command that passes its check is at position 1. -/
theorem StartCase.inProgram {i : Instr} {s t : State} {cfg : CfgIn} (h : StartCase i s t)
    (hm : s.mode ≠ none ↔ s.fsm = .active) (hi : i.isCommand = true) (hc : s.cmd = some ⟨i, cfg⟩) (hu : s.upc = 0) :
    InProgram t := by
  cases h with
  | passes hl _ ht =>
    subst ht
    intro c hc'
    obtain rfl : ⟨i, cfg⟩ = c := Option.some.inj (hc.symm.trans hc')
    rw [State.advance_upc, hu]
    refine one_lt_programLength hi fun hcap => hm.2 ?_
    simpa [show i = .capture from hcap, legalIn] using hl
  | leaves _ hact ht =>
    subst ht
    obtain ⟨m, win, decl, cust, fsel, rfl⟩ := hact
    intro c hc'
    obtain rfl : ⟨.activate m win decl cust fsel, cfg⟩ = c := Option.some.inj (hc.symm.trans hc')
    rw [State.advance_upc, hu]
    exact one_lt_programLength hi (by simp)
  | refused _ ht =>
    subst ht
    exact .of_idle (State.raise_cmd ..)

/-- Every step leaves the command in progress at a position of its micro-program. -/
theorem step_inProgram {s t : State} (hs : SessionInv s) (hpos : InProgram s) (h : step s = .next t) :
    InProgram t := by
  have hpop : InProgram s.popTurn := by simpa [InProgram] using hpos
  cases step_cases h with
  | tick _ ht =>
    subst ht
    exact hpop
  | reset _ ht =>
    subst ht
    exact .of_idle rfl
  | frame _ o ho ht =>
    subst ht
    cases hc : s.cmd with
    | none => exact absurd ho (by simp [(hs.idle hc).2])
    | some c =>
      obtain ⟨-, -, hout⟩ := hs.running hc
      exact frame_inProgram (c := c) (by simpa using hc) (hout (by simp [ho])) hpop _
  | command _ ho c hc ht => exact command_inProgram hs.popTurn (by simpa using hc) (by simpa using ho) ht
  | idle _ _ hc _ ht => exact .of_idle (by simpa [ht] using hc)
  | illegal _ _ _ _ _ _ _ _ ht => exact .of_idle (by simp [ht, State.raiseBadCommand])
  | accept _ _ hc pr rest _ i hd ht =>
    have hi := (decodeCmd_ok hd).2.1
    exact (exec_start hi rfl ht).inProgram (by simpa using hs.1) hi rfl rfl

/-- A step never changes the parameters. -/
theorem step_params {s t : State} (h : step s = .next t) : t.params = s.params := by
  cases step_cases h with
  | tick _ ht | reset _ ht | idle _ _ _ _ ht => simp [ht]
  | frame _ o _ ht =>
    have hx : exec o.frame.instr s.popTurn = .next t := by rw [exec_frame, State.popTurn_params, ht]
    simpa using (exec_untouched hx).1
  | command _ _ _ _ ht => simpa using (exec_untouched ht).1
  | illegal _ _ _ _ _ _ _ _ ht => simp [ht, State.raiseBadCommand]
  | accept _ _ _ _ _ _ _ _ ht => simpa using (exec_untouched ht).1

/-- A core turn answers: at a frame, at a position of the micro-program, and at a presented word. -/
theorem step_core_answers {s : State} (hp : paramsOk s.params = true) (hs : SessionInv s) (hpos : InProgram s)
    (hturn : s.turn = .core) : ∃ t, step s = .next t := by
  cases ho : s.out with
  | some o => exact ⟨_, (step_of_out hp hturn ho).trans (exec_frame ..)⟩
  | none =>
    cases hc : s.cmd with
    | some c =>
      rw [step_of_cmd hp hturn ho hc]
      exact exec_command_total (hs.dispatches hc).1 hs.popTurn.1 (by simpa using hpos c hc)
    | none =>
      cases hpr : s.presented with
      | nil => exact ⟨s.popTurn, by simp [step_core hp hturn, State.coreTurn, ho, hc, hpr]⟩
      | cons pr rest =>
        cases hd : decodeCmd s.params pr.word with
        | error e =>
          exact ⟨(s.popTurn.takePresented rest).raiseBadCommand, by
            simp [step_core hp hturn, State.coreTurn, ho, hc, hpr, State.accept, hd]⟩
        | ok i =>
          rw [step_of_presented hp hturn ho hc hpr hd]
          have hi := (decodeCmd_ok hd).2.1
          exact exec_command_total hi (by simpa using hs.1) (programLength_pos hi _)

/-- Settles O49: whoever moves there is a next state, and it keeps the parameters, the session invariant and a position
inside the micro-program. -/
theorem everyStepAnswers : Obligations.EveryStepAnswers := by
  intro s h
  obtain ⟨hp, hs, hpos⟩ := (runInv_iff s).1 h
  obtain ⟨t, ht⟩ : ∃ t, step s = .next t := by
    cases hturn : s.turn with
    | tick => exact ⟨_, step_tick hp hturn⟩
    | reset => exact ⟨_, step_reset hp hturn⟩
    | core => exact step_core_answers hp hs hpos hturn
  refine ⟨t, ht, (runInv_iff t).2 ⟨?_, sessionInvStays s t hs ht, step_inProgram hs hpos ht⟩⟩
  rwa [step_params ht]

end Sys2Proof.Machine
end

section
/-! Encoding and decoding as inverses of each other (30_encoding R102, R107, R111, R112): the layouts read back field
by field, the words each opcode accepts, and the frames by write bit. -/

namespace Sys2Proof

/-! ### Layouts read back field by field -/

/-- A word is a concatenation exactly if its two parts are the concatenated ones. -/
theorem eq_append_iff {m n : Nat} {hi : BitVec m} {lo : BitVec n} {w : BitVec (m + n)} :
    w = hi ++ lo ↔ w.extractLsb' n m = hi ∧ w.extractLsb' 0 n = lo := by
  constructor
  · rintro rfl
    exact ⟨BitVec.extractLsb'_append_eq_left, BitVec.extractLsb'_append_eq_right⟩
  · rintro ⟨rfl, rfl⟩
    rw [BitVec.extractLsb'_append_extractLsb'_eq_extractLsb' (by omega), BitVec.extractLsb'_eq_self]

/-- A field of a field is a field of the word. -/
theorem extractLsb'_of_extractLsb' {k s m t n : Nat} (w : BitVec k) (h : t + n ≤ m) :
    (w.extractLsb' s m).extractLsb' t n = w.extractLsb' (s + t) n := by
  ext i hi
  have hlt : t + i < m := by omega
  simp only [BitVec.getElem_extractLsb', BitVec.getLsbD_extractLsb', hlt, decide_true, Bool.true_and, Nat.add_assoc]

/-- A field is a concatenation exactly if its two parts are the concatenated ones. -/
theorem extractLsb'_eq_append_iff {k s m n : Nat} {hi : BitVec m} {lo : BitVec n} {w : BitVec k} :
    w.extractLsb' s (m + n) = hi ++ lo ↔ w.extractLsb' (s + n) m = hi ∧ w.extractLsb' s n = lo := by
  rw [eq_append_iff, extractLsb'_of_extractLsb' w (by omega), extractLsb'_of_extractLsb' w (by omega), Nat.add_zero]

/-- The fields of the word of a command without operands. -/
theorem eq_operandless_iff {op : BitVec 4} {w : Word} :
    w = 0#28 ++ op ↔ w.extractLsb' 4 28 = 0 ∧ w.extractLsb' 0 4 = op :=
  eq_append_iff (m := 28) (n := 4)

/-- The fields of ACTIVATE's word. -/
theorem eq_activateWord_iff {fsel decl : BitVec 3} {cust : Bool} {win : BitVec 4} {code : BitVec 2} {w : Word} :
    w = 0#13 ++ fsel ++ BitVec.ofBool cust ++ decl ++ win ++ 0#2 ++ code ++ 2#4 ↔
      w.extractLsb' 19 13 = 0 ∧ w.extractLsb' 16 3 = fsel ∧ w.extractLsb' 15 1 = BitVec.ofBool cust ∧
        w.extractLsb' 12 3 = decl ∧ w.extractLsb' 8 4 = win ∧ w.extractLsb' 6 2 = 0 ∧ w.extractLsb' 4 2 = code ∧
        w.extractLsb' 0 4 = 2 := by
  refine (eq_append_iff (m := 13 + 3 + 1 + 3 + 4 + 2 + 2) (n := 4)).trans ?_
  simp only [extractLsb'_eq_append_iff, and_assoc]
  rfl

/-- The fields of RDREG's word. -/
theorem eq_rdregWord_iff {id : Byte} {w : Word} :
    w = rdregWord id ↔
      w.extractLsb' 16 16 = 0 ∧ w.extractLsb' 8 8 = id ∧ w.extractLsb' 4 4 = 0 ∧ w.extractLsb' 0 4 = 7 := by
  refine (eq_append_iff (m := 16 + 8 + 4) (n := 4)).trans ?_
  simp only [extractLsb'_eq_append_iff, and_assoc]
  rfl

/-- The fields of WRREG's word. -/
theorem eq_wrregWord_iff {id : Byte} {v : Half} {w : Word} :
    w = wrregWord id v ↔
      w.extractLsb' 16 16 = v ∧ w.extractLsb' 8 8 = id ∧ w.extractLsb' 4 4 = 0 ∧ w.extractLsb' 0 4 = 8 := by
  refine (eq_append_iff (m := 16 + 8 + 4) (n := 4)).trans ?_
  simp only [extractLsb'_eq_append_iff, and_assoc]
  rfl

/-- The fields of the word of a raw exchange, XCHG or XCHGB. -/
theorem eq_rawWord_iff {b0 b1 : Byte} {op : BitVec 4} {w : Word} :
    w = b0 ++ b1 ++ 0#12 ++ op ↔
      w.extractLsb' 24 8 = b0 ∧ w.extractLsb' 16 8 = b1 ∧ w.extractLsb' 4 12 = 0 ∧ w.extractLsb' 0 4 = op := by
  refine (eq_append_iff (m := 8 + 8 + 12) (n := 4)).trans ?_
  simp only [extractLsb'_eq_append_iff, and_assoc]
  rfl

/-- The fields of a frame (30_encoding R101). -/
theorem eq_frame_iff {b : BitVec 1} {a : Offset} {d : Byte} {f : Frame} :
    f = b ++ a ++ d ↔ f.extractLsb' 15 1 = b ∧ f.extractLsb' 8 7 = a ∧ f.extractLsb' 0 8 = d := by
  refine (eq_append_iff (m := 1 + 7) (n := 8)).trans ?_
  rw [extractLsb'_eq_append_iff, and_assoc]

/-! ### What each opcode accepts -/

theorem opcode_of_field {w : Word} {op : BitVec 4} (h : w.extractLsb' 0 4 = op) : opcode w = op.toNat :=
  congrArg BitVec.toNat h

theorem field_of_opcode (op : BitVec 4) {w : Word} (h : opcode w = op.toNat) : w.extractLsb' 0 4 = op :=
  BitVec.eq_of_toNat_eq h

/-- An opcode is reserved or one of the ten commands' (30_encoding R106). -/
theorem opcode_cases (w : Word) :
    (opcode w = 0 ∨ 11 ≤ opcode w) ∨ opcode w = 1 ∨ opcode w = 2 ∨ opcode w = 3 ∨ opcode w = 4 ∨ opcode w = 5 ∨
      opcode w = 6 ∨ opcode w = 7 ∨ opcode w = 8 ∨ opcode w = 9 ∨ opcode w = 10 := by
  omega

/-- A word whose operand fields are checked by `c` only decodes to `i` alone. -/
theorem decodeWord_ok_iff_of_guard {w : Word} {c : Prop} [Decidable c] {i j : Instr} {e : DecodeError}
    (h : decodeWord w = if c then .ok i else .error e) : decodeWord w = .ok j ↔ c ∧ i = j := by
  rw [h]
  split <;> simp [*]

theorem RegName.ofRegId_eq_some_iff {id : Byte} {r : RegName} : RegName.ofRegId id = some r ↔ r.regId = id :=
  ⟨RegName.regId_ofRegId, fun h => h ▸ RegName.ofRegId_regId r⟩

theorem decodeWord_rdreg_ok_iff {w : Word} (h : opcode w = 7) {j : Instr} :
    decodeWord w = .ok j ↔
      (w.extractLsb' 16 16 = 0 ∧ w.extractLsb' 4 4 = 0) ∧ ∃ r : RegName, r.regId = w.extractLsb' 8 8 ∧ .rdreg r = j := by
  rw [decodeWord_rdreg h]
  simp only [← RegName.ofRegId_eq_some_iff]
  split
  next hz => cases RegName.ofRegId (w.extractLsb' 8 8) <;> simp [hz]
  next hz => simp only [hz, reduceCtorEq, false_and]

theorem decodeWord_wrreg_ok_iff {w : Word} (h : opcode w = 8) {j : Instr} :
    decodeWord w = .ok j ↔
      w.extractLsb' 4 4 = 0 ∧ ∃ r : RegName, r.regId = w.extractLsb' 8 8 ∧ .wrreg r (w.extractLsb' 16 16) = j := by
  rw [decodeWord_wrreg h]
  simp only [← RegName.ofRegId_eq_some_iff]
  split
  next hz => cases RegName.ofRegId (w.extractLsb' 8 8) <;> simp [hz]
  next hz => simp only [hz, reduceCtorEq, false_and]

/-! ### Command words: decoded exactly from what is encoded -/

/-- The word of a command without operands decodes to it. -/
theorem decodeWord_of_operandless (op : BitVec 4) {w : Word} {i : Instr} {e : DecodeError}
    (hd : opcode w = op.toNat → decodeWord w = if w.extractLsb' 4 28 = 0 then .ok i else .error e)
    (h : w = 0#28 ++ op) : decodeWord w = .ok i := by
  obtain ⟨hz, hop⟩ := eq_operandless_iff.1 h
  exact (decodeWord_ok_iff_of_guard (hd (opcode_of_field hop))).2 ⟨hz, rfl⟩

/-- An encoded command decodes to that command. -/
theorem decodeWord_of_encode {p : Params} {i : Instr} {w : Word} (h : encode p i = .command w) : decodeWord w = .ok i := by
  cases i with
  | pagesel | raddr | null | wlo | whi => cases h
  | init => exact decodeWord_of_operandless 1 decodeWord_init (Encoded.command.inj h).symm
  | exttrig => exact decodeWord_of_operandless 3 decodeWord_exttrig (Encoded.command.inj h).symm
  | trigger => exact decodeWord_of_operandless 4 decodeWord_trigger (Encoded.command.inj h).symm
  | capture => exact decodeWord_of_operandless 5 decodeWord_capture (Encoded.command.inj h).symm
  | close => exact decodeWord_of_operandless 6 decodeWord_close (Encoded.command.inj h).symm
  | activate m win decl cust fsel =>
    obtain ⟨hz, rfl, hcust, rfl, rfl, hz', hm, hop⟩ := eq_activateWord_iff.1 (Encoded.command.inj h).symm
    refine (decodeWord_ok_iff_of_guard (decodeWord_activate (opcode_of_field hop))).2 ⟨⟨hz, hz'⟩, ?_⟩
    rw [hm, hcust, hostMode_hostCode]
    cases cust <;> rfl
  | rdreg r =>
    obtain ⟨hz, hid, hz', hop⟩ := eq_rdregWord_iff.1 (Encoded.command.inj h).symm
    exact (decodeWord_rdreg_ok_iff (opcode_of_field hop)).2 ⟨⟨hz, hz'⟩, r, hid.symm, rfl⟩
  | wrreg r v =>
    obtain ⟨rfl, hid, hz, hop⟩ := eq_wrregWord_iff.1 (Encoded.command.inj h).symm
    exact (decodeWord_wrreg_ok_iff (opcode_of_field hop)).2 ⟨hz, r, hid.symm, rfl⟩
  | xchg b0 b1 =>
    obtain ⟨rfl, rfl, hz, hop⟩ := eq_rawWord_iff.1 (Encoded.command.inj h).symm
    exact (decodeWord_ok_iff_of_guard (decodeWord_xchg (opcode_of_field hop))).2 ⟨hz, rfl⟩
  | xchgb b0 b1 =>
    obtain ⟨rfl, rfl, hz, hop⟩ := eq_rawWord_iff.1 (Encoded.command.inj h).symm
    exact (decodeWord_ok_iff_of_guard (decodeWord_xchgb (opcode_of_field hop))).2 ⟨hz, rfl⟩

theorem ofBool_beq_one : ∀ b : BitVec 1, BitVec.ofBool (b == 1#1) = b := by
  decide

/-- A word that decodes is the word of the command it decodes to. -/
theorem encode_of_decodeWord {p : Params} {i : Instr} {w : Word} (h : decodeWord w = .ok i) : encode p i = .command w := by
  have word {v : Word} (hv : w = v) : Encoded.command v = .command w := congrArg _ hv.symm
  rcases opcode_cases w with hc | hc | hc | hc | hc | hc | hc | hc | hc | hc | hc
  · rw [decodeWord_reserved hc] at h
    contradiction
  · obtain ⟨hz, rfl⟩ := (decodeWord_ok_iff_of_guard (decodeWord_init hc)).1 h
    exact word (eq_operandless_iff.2 ⟨hz, field_of_opcode 1 hc⟩)
  · obtain ⟨⟨hz, hz'⟩, rfl⟩ := (decodeWord_ok_iff_of_guard (decodeWord_activate hc)).1 h
    exact word (eq_activateWord_iff.2 ⟨hz, rfl, (ofBool_beq_one _).symm, rfl, rfl, hz', (hostCode_hostMode _).symm,
      field_of_opcode 2 hc⟩)
  · obtain ⟨hz, rfl⟩ := (decodeWord_ok_iff_of_guard (decodeWord_exttrig hc)).1 h
    exact word (eq_operandless_iff.2 ⟨hz, field_of_opcode 3 hc⟩)
  · obtain ⟨hz, rfl⟩ := (decodeWord_ok_iff_of_guard (decodeWord_trigger hc)).1 h
    exact word (eq_operandless_iff.2 ⟨hz, field_of_opcode 4 hc⟩)
  · obtain ⟨hz, rfl⟩ := (decodeWord_ok_iff_of_guard (decodeWord_capture hc)).1 h
    exact word (eq_operandless_iff.2 ⟨hz, field_of_opcode 5 hc⟩)
  · obtain ⟨hz, rfl⟩ := (decodeWord_ok_iff_of_guard (decodeWord_close hc)).1 h
    exact word (eq_operandless_iff.2 ⟨hz, field_of_opcode 6 hc⟩)
  · obtain ⟨⟨hz, hz'⟩, r, hid, rfl⟩ := (decodeWord_rdreg_ok_iff hc).1 h
    exact word (eq_rdregWord_iff.2 ⟨hz, hid.symm, hz', field_of_opcode 7 hc⟩)
  · obtain ⟨hz, r, hid, rfl⟩ := (decodeWord_wrreg_ok_iff hc).1 h
    exact word (eq_wrregWord_iff.2 ⟨rfl, hid.symm, hz, field_of_opcode 8 hc⟩)
  · obtain ⟨hz, rfl⟩ := (decodeWord_ok_iff_of_guard (decodeWord_xchg hc)).1 h
    exact word (eq_rawWord_iff.2 ⟨rfl, rfl, hz, field_of_opcode 9 hc⟩)
  · obtain ⟨hz, rfl⟩ := (decodeWord_ok_iff_of_guard (decodeWord_xchgb hc)).1 h
    exact word (eq_rawWord_iff.2 ⟨rfl, rfl, hz, field_of_opcode 10 hc⟩)

/-! ### Frames by write bit -/

/-- A frame with the write bit (log 7). -/
theorem decodeFrame_fWrite (p : Params) (a : Offset) (d : Byte) :
    decodeFrame p (fWrite a d) =
      if a = p.pageAddr then .ok (.pagesel d) else if a.toNat % 2 = 1 then .ok (.whi a d) else .ok (.wlo a d) := by
  obtain ⟨hb, ha, hd⟩ := fWrite_fields a d
  simp only [decodeFrame, hb, ha, hd, if_true]

/-- A frame without the write bit. -/
theorem decodeFrame_readFrame (p : Params) (a : Offset) (d : Byte) :
    decodeFrame p (0#1 ++ a ++ d) =
      if d = 0 then (if a = 0 then .ok .null else .ok (.raddr a)) else .error .notAFrame := by
  obtain ⟨hb, ha, hd⟩ := eq_frame_iff.1 (rfl : (0#1 ++ a ++ d : Frame) = _)
  simp only [decodeFrame, hb, ha, hd]
  rfl

/-- An address frame, or the null frame (30_encoding R103). -/
theorem decodeFrame_fRaddr (p : Params) (a : Offset) :
    decodeFrame p (fRaddr a) = if a = 0 then .ok .null else .ok (.raddr a) :=
  (decodeFrame_readFrame p a 0).trans (if_pos rfl)

/-- A frame is a write frame or a frame without the write bit. -/
theorem frame_cases (f : Frame) : ∃ (a : Offset) (d : Byte), f = fWrite a d ∨ f = 0#1 ++ a ++ d := by
  refine ⟨f.extractLsb' 8 7, f.extractLsb' 0 8, ?_⟩
  rcases BitVec.eq_zero_or_eq_one (f.extractLsb' 15 1) with hb | hb
  · exact .inr (eq_frame_iff.2 ⟨hb, rfl, rfl⟩)
  · exact .inl (eq_frame_iff.2 ⟨hb, rfl, rfl⟩)

/-- A legal frame is the frame of the kind it decodes to. -/
theorem bits_of_decodeFrame {p : Params} {f : Frame} {fr : LinkFrame} (h : decodeFrame p f = .ok fr) : fr.bits p = f := by
  obtain ⟨a, d, rfl | rfl⟩ := frame_cases f
  · rw [decodeFrame_fWrite] at h
    split at h
    case isTrue ha =>
      cases h
      rw [ha]
      rfl
    case isFalse => split at h <;> cases h <;> rfl
  · rw [decodeFrame_readFrame] at h
    split at h
    case isTrue hd =>
      subst hd
      split at h
      case isTrue ha => cases h; subst ha; rfl
      case isFalse => cases h; rfl
    case isFalse => contradiction

/-- A command's word decodes, for well-formed operands. -/
theorem decode_command {p : Params} {i : Instr} {w : Word} (hw : i.wellFormed p = true) (h : encode p i = .command w) :
    decode p (encode p i) = .ok i := by
  rw [h]
  simp only [decode, decodeCmd, decodeWord_of_encode h, hw, if_true]

/-- A legal frame is read as its kind's instruction. -/
theorem decode_frame {p : Params} {f : Frame} {fr : LinkFrame} (h : decodeFrame p f = .ok fr) :
    decode p (.frame f) = .ok fr.instr := by
  rw [decode, h]
  rfl

/-- Settles O1: a command's word by its fields, a frame by its write bit and by what well-formedness and
unambiguity say of its offset. -/
theorem decodeEncodeAgree : Obligations.DecodeEncodeAgree := by
  intro p i hw hu
  cases i with
  | pagesel d => exact decode_frame ((decodeFrame_fWrite p p.pageAddr d).trans (if_pos rfl))
  | raddr a =>
    have ha : a ≠ 0 := by simpa [Instr.unambiguous] using hu
    exact decode_frame ((decodeFrame_fRaddr p a).trans (if_neg ha))
  | null => exact decode_frame (decodeFrame_fRaddr p 0)
  | wlo a d =>
    have ha : a ≠ p.pageAddr := by simpa [Instr.unambiguous] using hu
    have heven : a.toNat % 2 = 0 := by simpa [Instr.wellFormed] using hw
    refine decode_frame (fr := .wlo a d) ?_
    rw [decodeFrame_fWrite, if_neg ha, if_neg (by omega)]
  | whi a d =>
    have ha : a ≠ p.pageAddr := by simpa [Instr.unambiguous] using hu
    have hodd : a.toNat % 2 = 1 := by simpa [Instr.wellFormed] using hw
    refine decode_frame (fr := .whi a d) ?_
    rw [decodeFrame_fWrite, if_neg ha, if_pos hodd]
  | _ => exact decode_command hw rfl

/-- Settles O2. -/
theorem decodedWordsEncodeBack : Obligations.DecodedWordsEncodeBack := by
  refine ⟨fun p w i h => ?_, fun p f fr h => bits_of_decodeFrame h⟩
  obtain ⟨hd, hc, hwf⟩ := decodeCmd_ok h
  exact ⟨hc, hwf, encode_of_decodeWord hd⟩

end Sys2Proof
end

section
/-! Words and frames as numbers: the illegal command words, the words of the encoding tables, and the values of the
frame kinds (30_encoding R101 to R103, R107, R112). -/

namespace Sys2Proof

/-! ### Fields as numbers -/

theorem toNat_field {n : Nat} (w : BitVec n) (s m : Nat) : (w.extractLsb' s m).toNat = w.toNat / 2 ^ s % 2 ^ m := by
  rw [BitVec.extractLsb'_toNat, Nat.shiftRight_eq_div_pow]

theorem field_eq_zero_iff {n : Nat} (w : BitVec n) (s m : Nat) :
    w.extractLsb' s m = 0 ↔ w.toNat / 2 ^ s % 2 ^ m = 0 := by
  rw [← toNat_field, BitVec.toNat_eq]
  rfl

theorem opcode_eq (w : Word) : opcode w = w.toNat % 16 := by
  rw [opcode, toNat_field]
  omega

/-- An index has a name unless it is one of the unassigned (20_memory R77). -/
theorem exists_regId_iff :
    ∀ id : Byte, (∃ r : RegName, r.regId = id) ↔ ¬(id.toNat = 14 ∨ id.toNat = 15 ∨ 48 ≤ id.toNat) := by
  simp only [← RegName.ofRegId_eq_some_iff, ← Option.isSome_iff_exists]
  decide +kernel

/-! ### Illegal words -/

/-- A word is illegal unless it decodes to a well-formed command. -/
theorem decodeCmd_error_iff {p : Params} {w : Word} :
    (∃ e, decodeCmd p w = .error e) ↔ ∀ i, decodeWord w = .ok i → ¬i.wellFormed p = true := by
  unfold decodeCmd
  cases decodeWord w with
  | error e => simp
  | ok i => by_cases hw : i.wellFormed p = true <;> simp [hw]

/-- An illegal word of a command that checks its operand fields by `c` only. -/
theorem decodeCmd_error_iff_of_guard {p : Params} {w : Word} {c : Prop} [Decidable c] {i : Instr} {e : DecodeError}
    (h : decodeWord w = if c then .ok i else .error e) :
    (∃ e, decodeCmd p w = .error e) ↔ ¬(c ∧ i.wellFormed p = true) := by
  simp only [decodeCmd_error_iff, decodeWord_ok_iff_of_guard h]
  constructor
  · rintro hall ⟨hc, hw⟩
    exact hall i ⟨hc, rfl⟩ hw
  · rintro hn j ⟨hc, rfl⟩ hw
    exact hn ⟨hc, hw⟩

/-- An illegal word of a command that checks its operand fields by `c` and names a register. -/
theorem decodeCmd_error_iff_of_register {p : Params} {w : Word} {c : Prop} {id : Byte} {f : RegName → Instr}
    (h : ∀ i, decodeWord w = .ok i ↔ c ∧ ∃ r : RegName, r.regId = id ∧ f r = i)
    (hf : ∀ r, (f r).wellFormed p = true) :
    (∃ e, decodeCmd p w = .error e) ↔ ¬c ∨ (id.toNat = 14 ∨ id.toNat = 15 ∨ 48 ≤ id.toNat) := by
  rw [← not_not (a := id.toNat = 14 ∨ _), ← exists_regId_iff, ← not_and_or]
  simp only [decodeCmd_error_iff, h]
  constructor
  · rintro hall ⟨hc, r, hid⟩
    exact hall _ ⟨hc, r, hid, rfl⟩ (hf r)
  · rintro hn i ⟨hc, r, hid, -⟩ -
    exact hn ⟨hc, r, hid⟩

/-- The five commands without operands: bits 31 to 4 are reserved. -/
theorem decodeCmd_error_operandless_iff {p : Params} {w : Word} {i : Instr} {e : DecodeError}
    (h : decodeWord w = if w.extractLsb' 4 28 = 0 then .ok i else .error e) (hi : i.wellFormed p = true) :
    (∃ e, decodeCmd p w = .error e) ↔ w.toNat / 16 ≠ 0 := by
  rw [decodeCmd_error_iff_of_guard h, field_eq_zero_iff]
  simp only [hi, and_true]
  omega

theorem decodeCmd_error_activate_iff {p : Params} {w : Word} (h : opcode w = 2) :
    (∃ e, decodeCmd p w = .error e) ↔
      w.toNat / 64 % 4 ≠ 0 ∨ w.toNat / 2 ^ 19 ≠ 0 ∨ 2 ^ p.winW ≤ w.toNat / 256 % 16 := by
  rw [decodeCmd_error_iff_of_guard (decodeWord_activate h)]
  simp only [field_eq_zero_iff, Instr.wellFormed, decide_eq_true_eq, toNat_field]
  omega

theorem decodeCmd_error_rdreg_iff {p : Params} {w : Word} (h : opcode w = 7) :
    (∃ e, decodeCmd p w = .error e) ↔
      w.toNat / 16 % 16 ≠ 0 ∨ w.toNat / 2 ^ 16 ≠ 0 ∨
        (w.toNat / 256 % 256 = 14 ∨ w.toNat / 256 % 256 = 15 ∨ 48 ≤ w.toNat / 256 % 256) := by
  rw [decodeCmd_error_iff_of_register (fun _ => decodeWord_rdreg_ok_iff h) fun _ => rfl]
  simp only [field_eq_zero_iff, toNat_field]
  omega

theorem decodeCmd_error_wrreg_iff {p : Params} {w : Word} (h : opcode w = 8) :
    (∃ e, decodeCmd p w = .error e) ↔
      w.toNat / 16 % 16 ≠ 0 ∨
        (w.toNat / 256 % 256 = 14 ∨ w.toNat / 256 % 256 = 15 ∨ 48 ≤ w.toNat / 256 % 256) := by
  rw [decodeCmd_error_iff_of_register (fun _ => decodeWord_wrreg_ok_iff h) fun _ => rfl]
  simp only [field_eq_zero_iff, toNat_field]
  omega

/-- XCHG and XCHGB: bits 15 to 4 are reserved. -/
theorem decodeCmd_error_raw_iff {p : Params} {w : Word} {i : Instr} {e : DecodeError}
    (h : decodeWord w = if w.extractLsb' 4 12 = 0 then .ok i else .error e) (hi : i.wellFormed p = true) :
    (∃ e, decodeCmd p w = .error e) ↔ w.toNat / 16 % 4096 ≠ 0 := by
  rw [decodeCmd_error_iff_of_guard h, field_eq_zero_iff]
  simp only [hi, and_true]
  rfl

/-- Settles O3: opcode by opcode, the one clause of the list that speaks of it. -/
theorem illegalWordsExactly : Obligations.IllegalWordsExactly := by
  intro p w
  dsimp only
  rw [← opcode_eq]
  rcases opcode_cases w with hc | hc | hc | hc | hc | hc | hc | hc | hc | hc | hc
  · exact iff_of_true (decodeCmd_error_iff.2 fun i h => by simp [decodeWord_reserved hc] at h) (.inl hc)
  · rw [decodeCmd_error_operandless_iff (decodeWord_init hc) rfl]
    simp [hc]
  · rw [decodeCmd_error_activate_iff hc]
    simp [hc]
  · rw [decodeCmd_error_operandless_iff (decodeWord_exttrig hc) rfl]
    simp [hc]
  · rw [decodeCmd_error_operandless_iff (decodeWord_trigger hc) rfl]
    simp [hc]
  · rw [decodeCmd_error_operandless_iff (decodeWord_capture hc) rfl]
    simp [hc]
  · rw [decodeCmd_error_operandless_iff (decodeWord_close hc) rfl]
    simp [hc]
  · rw [decodeCmd_error_rdreg_iff hc]
    simp [hc]
  · rw [decodeCmd_error_wrreg_iff hc]
    simp [hc]
  · rw [decodeCmd_error_raw_iff (decodeWord_xchg hc) rfl]
    simp [hc]
  · rw [decodeCmd_error_raw_iff (decodeWord_xchgb hc) rfl]
    simp [hc]

/-! ### Words of the encoding tables -/

/-- The encoding of a well-formed instruction decodes to it. -/
theorem toOption_decode_of_encode {p : Params} {i : Instr} {x : Encoded} (hw : i.wellFormed p = true)
    (hu : i.unambiguous p = true) (h : encode p i = x) : (decode p x).toOption = some i := by
  rw [← h, decodeEncodeAgree p i hw hu]
  rfl

/-- A command word of the tables that is an instruction's encoding decodes to it. -/
theorem decodeTableWord_command {w : Nat} {i : Instr} (hw : i.wellFormed Params.e0 = true)
    (hu : i.unambiguous Params.e0 = true) (h : encode Params.e0 i = .command (BitVec.ofNat 32 w)) :
    decodeTableWord 32 w = some i :=
  toOption_decode_of_encode hw hu h

/-- A frame of the tables that is an instruction's encoding decodes to it. -/
theorem decodeTableWord_frame {w : Nat} {i : Instr} (hw : i.wellFormed Params.e0 = true)
    (hu : i.unambiguous Params.e0 = true) (h : encode Params.e0 i = .frame (BitVec.ofNat 16 w)) :
    decodeTableWord 16 w = some i :=
  toOption_decode_of_encode hw hu h

/-- Settles O4: each word is the encoding of its instruction, so it decodes to it. -/
theorem wordsDecodeRight : Obligations.WordsDecodeRight :=
  ⟨decodeTableWord_command rfl rfl rfl, decodeTableWord_command rfl rfl rfl, decodeTableWord_command rfl rfl rfl,
    decodeTableWord_command rfl rfl rfl, decodeTableWord_command rfl rfl rfl, decodeTableWord_command rfl rfl rfl,
    decodeTableWord_command rfl rfl rfl, decodeTableWord_command rfl rfl rfl, decodeTableWord_command rfl rfl rfl,
    decodeTableWord_command rfl rfl rfl, decodeTableWord_frame rfl rfl rfl, decodeTableWord_frame rfl rfl rfl,
    decodeTableWord_frame rfl rfl rfl, decodeTableWord_frame rfl rfl rfl, decodeTableWord_frame rfl rfl rfl⟩

/-! ### Values of the frames -/

theorem frame_toNat (b : BitVec 1) (a : Offset) (d : Byte) :
    (b ++ a ++ d : Frame).toNat = 0x8000 * b.toNat + 256 * a.toNat + d.toNat := by
  obtain ⟨hb, ha, hd⟩ := eq_frame_iff.1 (rfl : (b ++ a ++ d : Frame) = _)
  have hlt := (b ++ a ++ d : Frame).isLt
  have hb' := toNat_field (b ++ a ++ d : Frame) 15 1
  have ha' := toNat_field (b ++ a ++ d : Frame) 8 7
  have hd' := toNat_field (b ++ a ++ d : Frame) 0 8
  rw [hb] at hb'
  rw [ha] at ha'
  rw [hd] at hd'
  omega

theorem fWrite_toNat (a : Offset) (d : Byte) : (fWrite a d).toNat = 0x8000 + 256 * a.toNat + d.toNat :=
  frame_toNat 1#1 a d

/-- Settles O5: the value of a frame by its three fields, and of an offset plus 1 that stays below the write bit. -/
theorem frameValues : Obligations.FrameValues := by
  refine ⟨fun p page => fWrite_toNat p.pageAddr page, fun p a => ?_, fun p => rfl, fun p a v => ?_,
    fun p a v _ ha => ?_⟩
  · exact (frame_toNat 0#1 a 0#8).trans (by simp)
  · rw [LinkFrame.lowByte, LinkFrame.bits, fWrite_toNat, toNat_field]
    omega
  · have hlt := v.isLt
    have hnext : (a + 1).toNat = a.toNat + 1 := BitVec.toNat_add_of_lt (by simp; omega)
    rw [LinkFrame.highByte, LinkFrame.bits, fWrite_toNat, toNat_field, hnext]
    omega

/-- Settles O6: the low byte of an extended page is the page. -/
theorem frameKindsOverlap : Obligations.FrameKindsOverlap := by
  refine ⟨fun p page => ?_, fun p => rfl⟩
  have hlow : (page.setWidth 16).extractLsb' 0 8 = page := by
    rw [BitVec.extractLsb'_setWidth_of_le (by omega), BitVec.extractLsb'_eq_self]
  rw [LinkFrame.lowByte, hlow]
  rfl

end Sys2Proof
end

section
/-! The register values the core composes, field by field (30_encoding R113, R114). -/

namespace Sys2Proof.Machine

/-! ### Bit fields -/

/-- A bit of an extracted field. -/
theorem bitField_getLsbD (v : Half) (lsb width i : Nat) :
    (bitField v lsb width).getLsbD i = (decide (i < 16) && (decide (i < width) && v.getLsbD (lsb + i))) := by
  rw [bitField, BitVec.getLsbD_ofNat, Nat.testBit_mod_two_pow, BitVec.testBit_toNat, BitVec.getLsbD_ushiftRight]

/-- A value of at most `w` bits has no bit from `w` on. -/
theorem getLsbD_of_lt {n w i : Nat} {v : BitVec n} (hv : v.toNat < 2 ^ w) (hi : w ≤ i) : v.getLsbD i = false := by
  rw [← BitVec.testBit_toNat]
  exact Nat.testBit_lt_two_pow (hv.trans_le (Nat.pow_le_pow_right (by decide) hi))

/-- A value placed at a position of the word is read back there. -/
theorem bitField_shiftLeft_same {v : Half} {l w : Nat} (hv : v.toNat < 2 ^ w) (hw : l + w ≤ 16) :
    bitField (v <<< l) l w = v := by
  refine BitVec.eq_of_getLsbD_eq fun i hi => ?_
  rw [bitField_getLsbD, BitVec.getLsbD_shiftLeft]
  by_cases hiw : i < w
  · simp [hi, hiw, show l + i < 16 by omega]
  · simp [hiw, getLsbD_of_lt hv (Nat.le_of_not_lt hiw)]

/-- A value placed in one field has no bit in a disjoint one. -/
theorem bitField_shiftLeft_disjoint {v : Half} {l w l' w' : Nat} (hv : v.toNat < 2 ^ w)
    (hd : fieldsDisjoint l w l' w' = true) : bitField (v <<< l) l' w' = 0 := by
  simp only [fieldsDisjoint, decide_eq_true_eq] at hd
  refine BitVec.eq_of_getLsbD_eq fun i hi => BitVec.getLsbD_zero.symm ▸ ?_
  rw [bitField_getLsbD, BitVec.getLsbD_shiftLeft]
  by_cases hiw : i < w'
  · rcases hd with hd | hd
    · rw [getLsbD_of_lt hv (by omega)]
      simp
    · simp [show l' + i < l by omega]
  · simp [hiw]

theorem bitField_or (u v : Half) (l w : Nat) : bitField (u ||| v) l w = bitField u l w ||| bitField v l w := by
  refine BitVec.eq_of_getLsbD_eq fun i hi => ?_
  simp only [bitField_getLsbD, BitVec.getLsbD_or, Bool.and_or_distrib_left]

theorem shiftLeft_toNat {v : Half} {l w : Nat} (hv : v.toNat < 2 ^ w) (hw : l + w ≤ 16) :
    (v <<< l).toNat = v.toNat * 2 ^ l := by
  have hlt : v.toNat * 2 ^ l < 2 ^ 16 := calc
    v.toNat * 2 ^ l < 2 ^ w * 2 ^ l := Nat.mul_lt_mul_of_pos_right hv (Nat.two_pow_pos l)
    _ = 2 ^ (l + w) := by rw [← Nat.pow_add, Nat.add_comm]
    _ ≤ 2 ^ 16 := Nat.pow_le_pow_right (by decide) hw
  rw [BitVec.toNat_shiftLeft, Nat.shiftLeft_eq, Nat.mod_eq_of_lt hlt]

/-- Two values placed in disjoint fields share no bit. -/
theorem and_of_disjoint {u v : Half} {l w l' w' : Nat} (hu : u.toNat < 2 ^ w) (hv : v.toNat < 2 ^ w')
    (hd : fieldsDisjoint l w l' w' = true) : u <<< l &&& v <<< l' = 0#16 := by
  simp only [fieldsDisjoint, decide_eq_true_eq] at hd
  refine BitVec.eq_of_getLsbD_eq fun i hi => ?_
  rw [BitVec.getLsbD_and, BitVec.getLsbD_shiftLeft, BitVec.getLsbD_shiftLeft, BitVec.getLsbD_zero]
  rcases hd with hd | hd
  · by_cases hil : i < l'
    · simp [hil]
    · simp [getLsbD_of_lt hu (show w ≤ i - l by omega)]
  · by_cases hil : i < l
    · simp [hil]
    · simp [getLsbD_of_lt hv (show w' ≤ i - l' by omega)]

theorem or_toNat_of_disjoint {u v : Half} (h : u &&& v = 0#16) : (u ||| v).toNat = u.toNat + v.toNat := by
  rw [← BitVec.add_eq_or_of_and_eq_zero u v h, BitVec.toNat_add_of_and_eq_zero h]

/-! ### What the parameter check says of the fields (00_scope R10) -/

/-- Well-formed parameters: the fields of REC_CTRL are disjoint and inside the word, like those of DEC_CTRL and
FILT_CTRL, and the mode codes fit theirs. -/
structure FieldsOk (p : Params) : Prop where
  modeWin : fieldsDisjoint p.modeLsb p.modeW p.winLsb p.winW = true
  modeSrt : fieldsDisjoint p.modeLsb p.modeW p.srtLsb p.srtW = true
  winSrt : fieldsDisjoint p.winLsb p.winW p.srtLsb p.srtW = true
  mode : p.modeLsb + p.modeW ≤ 16
  win : p.winLsb + p.winW ≤ 16
  dec : p.decLsb + 3 ≤ 16
  fsel : p.fselLsb + 3 ≤ 16
  bank : p.customBank < 8
  code : ∀ m, (p.modeCode.code m).toNat < 2 ^ p.modeW

theorem fieldsOk_of_paramsOk {p : Params} (h : paramsOk p = true) : FieldsOk p := by
  simp only [paramsOk, modeCodesOk, Bool.and_eq_true, decide_eq_true_eq, List.all_cons, List.all_nil] at h
  obtain ⟨⟨⟨⟨⟨⟨⟨⟨⟨⟨⟨⟨⟨-, hcodes⟩, hmw⟩, hms⟩, hws⟩, hmode⟩, hwin⟩, -⟩, hdec⟩, hfsel⟩, hbank⟩, -⟩, -⟩, -⟩ := h
  obtain ⟨-, hrts, hmtc, hmfft, hafft, -⟩ := hcodes
  refine ⟨hmw, hms, hws, hmode, hwin, by omega, by omega, hbank, fun m => ?_⟩
  cases m <;> assumption

/-! ### The composed values -/

/-- REC_CTRL: the sample-rate tap is 0. -/
theorem recCtrlValue_eq (p : Params) (m : Mode) (win : BitVec 4) :
    recCtrlValue p m win = p.modeCode.code m <<< p.modeLsb ||| win.setWidth 16 <<< p.winLsb := by
  rw [recCtrlValue, BitVec.zero_shiftLeft, BitVec.or_zero]

/-- A 3-bit value placed in a field of the word: DEC_CTRL, FILT_CTRL. -/
theorem shiftLeft_bits3_toNat (v : BitVec 3) {l : Nat} (h : l + 3 ≤ 16) :
    ((v.setWidth 16 : Half) <<< l).toNat = v.toNat * 2 ^ l := by
  have hv : (v.setWidth 16 : Half).toNat = v.toNat := BitVec.toNat_setWidth_of_le (by decide)
  rw [shiftLeft_toNat (hv ▸ v.isLt) h, hv]

/-- Settles O8: the mode and the window setting lie in disjoint fields, so their sum is the value, and each field of
it is read by itself. -/
theorem composedValues : Obligations.ComposedValues := by
  intro p hp
  have ok := fieldsOk_of_paramsOk hp
  refine ⟨fun m win hwin => ?_, fun decl => shiftLeft_bits3_toNat decl ok.dec,
    fun bank => shiftLeft_bits3_toNat bank ok.fsel, ?_⟩
  · have hext : (win.setWidth 16 : Half).toNat = win.toNat := BitVec.toNat_setWidth_of_le (by decide)
    have hwin' : (win.setWidth 16 : Half).toNat < 2 ^ p.winW := hext.symm ▸ hwin
    have hcode := ok.code m
    have hwinMode : fieldsDisjoint p.winLsb p.winW p.modeLsb p.modeW = true := by
      simpa [fieldsDisjoint, or_comm] using ok.modeWin
    rw [recCtrlValue_eq, modeBits, bitField_or, bitField_or]
    refine ⟨?_, ?_, ?_⟩
    · rw [or_toNat_of_disjoint (and_of_disjoint hcode hwin' ok.modeWin), shiftLeft_toNat hcode ok.mode,
        shiftLeft_toNat hwin' ok.win, hext]
    · rw [bitField_shiftLeft_same hcode ok.mode, bitField_shiftLeft_disjoint hwin' hwinMode]
      exact BitVec.or_zero
    · rw [bitField_shiftLeft_disjoint hcode ok.modeSrt, bitField_shiftLeft_disjoint hwin' ok.winSrt]
      rfl
  · have hbank : (BitVec.ofNat 3 p.customBank).toNat = p.customBank := Nat.mod_eq_of_lt ok.bank
    rw [customFiltCtrlValue, filtCtrlValue, shiftLeft_bits3_toNat _ ok.fsel, hbank]

end Sys2Proof.Machine
end

section
/-! The framer's step and the micro-program positions with their outcomes written out: link frames, the host's own
exchanges, register accesses; the byte order (40_register_protocol R140 to R155). -/

namespace Sys2Proof.Machine

/-! ### Byte order (R150) -/

/-- Settles O7: the value by its two bytes, and the word just stored. -/
theorem byteOrderMux : Obligations.ByteOrderMux := by
  refine ⟨fun rx => ?_, fun rx => ?_, rfl, rfl, fun _ => rfl, fun s n h => ?_, fun s len h => ?_, fun s h => ?_⟩
  · exact (Nat.div_add_mod rx.toNat 256).symm
  · have hlt := rx.isLt
    rw [le16, toNat_concat, toNat_field, toNat_field]
    omega
  · rw [storeWord_mem, Memory.readWord_writeWord_same _ _ _ h]
  · rw [storeLast_mem, Memory.readWord_writeWord_same _ _ _ h]
  · rw [storeBlockWord_mem, Memory.readWord_writeWord_same _ _ _ h]

/-! ### The framer by outcome (R140, R141) -/

/-- The state in which an exchange is made: behind the ready poll, if the exchange is busy-checked. -/
def State.cleared (s : State) (checked : Bool) : State :=
  { s with
    hist := if checked then s.hist ++ [⟨.poll true, s.now⟩] else s.hist,
    readies := if checked then s.readies.tail else s.readies }

theorem framer_gap {s : State} (h : s.settle ≠ 0) (tx : Frame) (checked : Bool) (page addr : Byte) :
    s.framer tx checked page addr = .waiting s := by
  rw [framer_eq, if_pos h]

/-- With the gap over and no busy device, a framer step is the exchange. -/
theorem framer_exchange {s : State} {checked : Bool} (h : s.settle = 0) (hr : checked = true → s.ready = true)
    (tx : Frame) (page addr : Byte) :
    s.framer tx checked page addr = (s.cleared checked).exchange tx checked page addr := by
  rw [framer_eq, if_neg (not_not_intro h)]
  cases checked with
  | false => rfl
  | true => simp only [if_true, hr rfl, State.polled, State.cleared]

theorem framer_answered {s : State} {tx rx : Frame} {checked : Bool} (h : s.settle = 0)
    (hr : checked = true → s.ready = true) (ha : (s.cleared checked).answer tx = some rx) (page addr : Byte) :
    s.framer tx checked page addr =
      .done { s.cleared checked with
        answers := s.answers.tail, hist := (s.cleared checked).hist ++ [⟨.xfer tx (some rx) checked, s.now⟩],
        settle := 40, rx := rx } := by
  rw [framer_exchange h hr, exchange_eq]
  simp only [ha, State.exchanged]
  rfl

theorem framer_unanswered {s : State} {tx : Frame} {checked : Bool} (h : s.settle = 0)
    (hr : checked = true → s.ready = true) (ha : (s.cleared checked).answer tx = none) (page addr : Byte) :
    s.framer tx checked page addr =
      .raised (({ s.cleared checked with
        answers := s.answers.tail, hist := (s.cleared checked).hist ++ [⟨.xfer tx none checked, s.now⟩],
        settle := 40 } : State).raise ⟨.transport, page, addr, tx, 0⟩ 0) := by
  rw [framer_exchange h hr, exchange_eq]
  simp only [ha, State.exchanged]
  rfl

theorem polled_of_busy {s : State} (h : s.ready = false) :
    s.polled = { s with hist := s.hist ++ [⟨.poll false, s.now⟩], readies := s.readies.tail } := by
  rw [State.polled, h]

theorem pollExpired_eq_true_iff {s : State} :
    s.pollExpired = true ↔ ∃ t, s.params.busyTimeout = some t ∧ t ≤ s.pollT := by
  unfold State.pollExpired
  split <;> simp [*]

theorem pollExpired_eq_false_iff {s : State} :
    s.pollExpired = false ↔ ∀ t, s.params.busyTimeout = some t → s.pollT < t := by
  simp [← Bool.not_eq_true, pollExpired_eq_true_iff]

theorem framer_busy {s : State} (h : s.settle = 0) (hr : s.ready = false)
    (hn : ∀ t, s.params.busyTimeout = some t → s.pollT < t) (tx : Frame) (page addr : Byte) :
    s.framer tx true page addr =
      .waiting { s with hist := s.hist ++ [⟨.poll false, s.now⟩], readies := s.readies.tail } := by
  rw [framer_eq, if_neg (not_not_intro h)]
  simp [hr, pollExpired_eq_false_iff.2 hn, polled_of_busy]

theorem framer_timeout {s : State} (h : s.settle = 0) (hr : s.ready = false)
    (he : ∃ t, s.params.busyTimeout = some t ∧ t ≤ s.pollT) (tx : Frame) (page addr : Byte) :
    s.framer tx true page addr =
      .raised (({ s with hist := s.hist ++ [⟨.poll false, s.now⟩], readies := s.readies.tail } : State).raise
        ⟨.timeout, page, addr, tx, 0⟩ 0) := by
  rw [framer_eq, if_neg (not_not_intro h)]
  simp [hr, pollExpired_eq_true_iff.2 he, polled_of_busy]

/-! ### The error entry by kind (60_exceptions R273, R274, R277) -/

theorem raise_of_fatal {s : State} {e : ErrRec} (h : s.fatal e.code = true) (d : Half) :
    s.raise e d =
      { s with
        lastErr := e, log := s.log ++ [⟨.error e, s.now⟩], fsm := .failed, mode := none, rspStatus := e.code,
        rspData := d, rspValid := true, cmd := none, upc := 0, out := none } := by
  rw [raise_eq, if_pos h, if_pos h]

theorem raise_of_not_fatal {s : State} {e : ErrRec} (h : ¬s.fatal e.code = true) (d : Half) :
    s.raise e d =
      { s with
        lastErr := e, log := s.log ++ [⟨.error e, s.now⟩], rspStatus := e.code, rspData := d, rspValid := true,
        cmd := none, upc := 0, out := none } := by
  rw [raise_eq, if_neg h, if_neg h]

theorem timeout_fatal_iff {s : State} : s.fatal .timeout = true ↔ ∃ cfg, s.cmd = some ⟨.init, cfg⟩ := by
  simp only [State.fatal, State.inInit]
  split
  next c hc =>
    obtain ⟨i, cfg⟩ := c
    simp [hc]
  next hc => simp [hc]

/-! ### Link frames -/

/-- A frame in the framer: its step is a framer step. -/
theorem exec_frame_sent (f : LinkFrame) {s : State} {o : Outgoing} (ho : s.out = some o) :
    exec f.instr s = .next (s.framer (f.bits s.params) o.checked o.page o.addr).sent := by
  rw [exec_frame, sendFrame_out ho]

/-- Settles O19: the framer step of an answered exchange, which empties the framer. -/
theorem framesExchange : Obligations.FramesExchange := by
  intro f s o rx ho h hr ha
  rw [exec_frame_sent f ho, framer_answered h hr ha]
  rfl

/-- Settles O20: the framer step by its outcome, and the error entry by whether the error is fatal. -/
theorem framesWaitOrFail : Obligations.FramesWaitOrFail := by
  refine ⟨fun f s h => ?_, fun f s o ho hc h hr hn => ?_, fun f s o ho h hr ha => ?_,
    fun f s o t ho hc h hr ht hle => ?_⟩
  · obtain ⟨checked, page, addr, hs, -⟩ := sendFrame_sent s (f.bits s.params)
    rw [exec_frame, hs, framer_gap h]
    rfl
  · rw [exec_frame_sent f ho, hc, framer_busy h hr hn]
    rfl
  · rw [exec_frame_sent f ho, framer_unanswered h hr ha, LinkResult.sent, raise_of_fatal rfl]
    rfl
  · rw [exec_frame_sent f ho, hc, framer_timeout h hr ⟨t, ht, hle⟩, LinkResult.sent]
    refine ⟨fun hi => ?_, fun hi => ?_⟩
    · exact congrArg _ (raise_of_fatal (timeout_fatal_iff.2 hi) 0)
    · exact congrArg _ (raise_of_not_fatal (mt timeout_fatal_iff.1 hi) 0)

/-! ### Positions of a micro-program -/

/-- A command at a known position does that position's event. -/
theorem exec_of_upc {i : Instr} {s : State} {n : Nat} {f : State → State} (hi : i.isCommand = true) (hu : s.upc = n)
    (h : (programOf i s)[n]? = some f) : exec i s = .next (f s) :=
  exec_command_at hi (hu ▸ h)

theorem advance_of_upc {s : State} {n : Nat} (hu : s.upc = n) : s.advance = { s with upc := n + 1 } := by
  rw [State.advance, hu]

/-- A position that hands a frame to the framer. -/
theorem exec_sendTo {i : Instr} {s : State} {n : Nat} {r : RegAddr} {f : LinkFrame} (hi : i.isCommand = true)
    (hu : s.upc = n) (h : (programOf i s)[n]? = some (sendTo r f)) :
    exec i s =
      .next { s with out := some ⟨f, true, r.page, r.addr.setWidth 8⟩, pollT := 0, upc := n + 1 } := by
  rw [exec_of_upc hi hu h, ← hu]
  rfl

theorem readCheck_allowed {r : RegAddr} (h : r.readFlag = true) (s : State) : readCheck r s = s.advance := if_pos h

theorem writeCheck_allowed {r : RegAddr} (h : r.writeFlag = true) (s : State) : writeCheck r s = s.advance := if_pos h

theorem readCheck_refused {r : RegAddr} (h : r.readFlag = false) (s : State) :
    readCheck r s = (s.refuseRead r).skip 5 :=
  if_neg (by simp [h])

theorem writeCheck_refused {r : RegAddr} (h : r.writeFlag = false) (s : State) :
    writeCheck r s = (s.refuseWrite r).skip 4 :=
  if_neg (by simp [h])

theorem respondUnlessMisuse_of_misuse {s : State} (h : s.misuse = true) (d : Half) :
    s.respondUnlessMisuse d = s.respond .protocolMisuse 0 :=
  if_pos h

theorem respondUnlessMisuse_of_clear {s : State} (h : s.misuse = false) (d : Half) :
    s.respondUnlessMisuse d = s.respond .ok d :=
  if_neg (by simp [h])

/-! ### Register accesses (R144 to R148, R152, R153) -/

/-- Settles O21. -/
theorem refusedRead : Obligations.RefusedRead := by
  refine ⟨fun r s hr => readCheck_refused hr s, fun r s _ hu => exec_of_upc rfl hu rfl, fun r s hu hm => ?_⟩
  rw [exec_of_upc (f := finishRead) rfl hu rfl, finishRead, respondUnlessMisuse_of_misuse hm]

/-- Settles O22. -/
theorem refusedWrite : Obligations.RefusedWrite := by
  refine ⟨fun r s hr => writeCheck_refused hr s, fun r v s _ hu => exec_of_upc rfl hu rfl, fun r v s hu hm => ?_⟩
  rw [exec_of_upc (f := finishWrite) rfl hu rfl, finishWrite, respondUnlessMisuse_of_misuse hm]

theorem lowByte_eq (v : Half) : v.extractLsb' 0 8 = BitVec.ofNat 8 (v.toNat % 256) := by
  refine BitVec.eq_of_toNat_eq ?_
  rw [toNat_field, BitVec.toNat_ofNat]
  omega

theorem highByte_eq (v : Half) : v.extractLsb' 8 8 = BitVec.ofNat 8 (v.toNat / 256) := by
  refine BitVec.eq_of_toNat_eq ?_
  rw [toNat_field, BitVec.toNat_ofNat]
  rfl

/-- Settles O23: the event at each position of RDREG's micro-program. -/
theorem rdregCompletes : Obligations.RdregCompletes := by
  rintro r s e rfl hr
  refine ⟨fun hu => ?_, fun hu => exec_sendTo rfl hu rfl, fun hu => exec_sendTo rfl hu rfl,
    fun hu => exec_sendTo rfl hu rfl, fun hu => ?_, fun hu hm => ?_⟩
  · rw [exec_of_upc (f := readCheck (s.params.cat.entry r)) rfl hu rfl, readCheck_allowed hr, advance_of_upc hu]
  · rw [exec_of_upc (f := latchRegv) rfl hu rfl, latchRegv, State.advance, hu]
    rfl
  · rw [exec_of_upc (f := finishRead) rfl hu rfl, finishRead, respondUnlessMisuse_of_clear hm]

/-- Settles O24: the event at each position of WRREG's micro-program. -/
theorem wrregCompletes : Obligations.WrregCompletes := by
  rintro r v s e rfl hw
  rw [← lowByte_eq, ← highByte_eq]
  refine ⟨fun hu => ?_, fun hu => exec_sendTo rfl hu rfl, fun hu => exec_sendTo rfl hu rfl,
    fun hu => exec_sendTo rfl hu rfl, fun hu hm => ?_⟩
  · rw [exec_of_upc (f := writeCheck (s.params.cat.entry r)) rfl hu rfl, writeCheck_allowed hw, advance_of_upc hu]
  · rw [exec_of_upc (f := finishWrite) rfl hu rfl, finishWrite, respondUnlessMisuse_of_clear hm]

/-! ### The host's own exchanges (R154, R155) -/

/-- XCHG at its exchange. -/
theorem exec_xchg_hosted {s : State} (hu : s.upc = 1) (b0 b1 : Byte) :
    exec (.xchg b0 b1) s = .next (s.framer (b0 ++ b1) false 0 0).hosted :=
  exec_of_upc (f := hostExchange (b0 ++ b1) false) rfl hu rfl

/-- XCHGB at its exchange. -/
theorem exec_xchgb_hosted {s : State} (hu : s.upc = 2) (b0 b1 : Byte) :
    exec (.xchgb b0 b1) s = .next (s.framer (b0 ++ b1) true 0 0).hosted :=
  exec_of_upc (f := hostExchange (b0 ++ b1) true) rfl hu rfl

/-- Settles O25: the framer step at the exchange's position by its outcome, and the positions around it. -/
theorem hostExchanges : Obligations.HostExchanges := by
  refine ⟨fun b0 b1 s rx hu h ha => ?_, fun b0 b1 s hu => exec_of_upc (f := finishExchange) rfl hu rfl,
    fun b0 b1 s hu => ?_, fun b0 b1 s rx hu h hr ha => ?_,
    fun b0 b1 s hu => exec_of_upc (f := finishExchange) rfl hu rfl, fun b0 b1 s h => ⟨fun hu => ?_, fun hu => ?_⟩,
    fun b0 b1 s hu h ha => ?_, fun b0 b1 s hu h hr ha => ?_,
    fun b0 b1 s hu h hr => ⟨fun hn => ?_, fun he => ?_⟩⟩
  · rw [exec_xchg_hosted hu, framer_answered (checked := false) h nofun ha]
    simp [LinkResult.hosted, State.advance, State.cleared, hu]
  · rw [exec_of_upc (f := pollStart) rfl hu rfl, pollStart, State.advance, hu]
  · rw [exec_xchgb_hosted hu, framer_answered (checked := true) h (fun _ => hr) ha]
    simp [LinkResult.hosted, State.advance, State.cleared, hu]
  · rw [exec_xchg_hosted hu, framer_gap h, LinkResult.hosted]
  · rw [exec_xchgb_hosted hu, framer_gap h, LinkResult.hosted]
  · rw [exec_xchg_hosted hu, framer_unanswered (checked := false) h nofun ha]
    rfl
  · rw [exec_xchgb_hosted hu, framer_unanswered (checked := true) h (fun _ => hr) ha]
    simp [State.cleared, LinkResult.hosted]
  · rw [exec_xchgb_hosted hu, framer_busy h hr hn, LinkResult.hosted]
  · rw [exec_xchgb_hosted hu, framer_timeout h hr he, LinkResult.hosted]

end Sys2Proof.Machine
end

section
/-! RDREG and WRREG as runs on the fastest schedule, and the round trip through the echo device (10_state R40,
40_register_protocol R144, R147, R149). -/

namespace Sys2Proof.Machine

/-! ### Single steps on a tape of turns -/

/-- A core turn on the command in progress. -/
theorem step_command {s t : State} {c : Cmd} {ts : List Turn} (hp : paramsOk s.params = true)
    (ht : s.turns = .core :: ts) (ho : s.out = none) (hc : s.cmd = some c)
    (hx : exec c.instr { s with turns := ts } = .next t) : step s = .next t := by
  rw [step_of_cmd hp (s.turn_of_cons _ _ ht) ho hc, s.popTurn_of_cons _ _ ht, hx]

/-- A core turn that accepts a command. -/
theorem step_accept {s t : State} {pr : Presented} {rest : List Presented} {i : Instr} {ts : List Turn}
    (hp : paramsOk s.params = true) (ht : s.turns = .core :: ts) (hidle : s.idle) (hpr : s.presented = pr :: rest)
    (hd : decodeCmd s.params pr.word = .ok i)
    (hx : exec i { s with
      presented := rest, rspValid := false, cmd := some ⟨i, pr.cfg⟩, upc := 0, misuse := false, turns := ts } =
        .next t) : step s = .next t := by
  rw [step_of_presented hp (s.turn_of_cons _ _ ht) hidle.2 hidle.1 hpr hd, s.popTurn_of_cons _ _ ht]
  exact hx

/-- A core turn on a busy-checked frame that the device is ready for and answers. -/
theorem step_frame {s : State} {f : LinkFrame} {page addr : Byte} {x : Frame} {rds : List Bool}
    {as : List (Option Frame)} {ts : List Turn} (hp : paramsOk s.params = true) (ht : s.turns = .core :: ts)
    (ho : s.out = some ⟨f, true, page, addr⟩) (hs : s.settle = 0) (hr : s.readies = true :: rds)
    (ha : s.answers = some x :: as) :
    step s = .next { s with
      hist := s.hist ++ [⟨.poll true, s.now⟩, ⟨.xfer (f.bits s.params) (some x) true, s.now⟩], settle := 40, rx := x,
      out := none, readies := rds, answers := as, turns := ts } := by
  rw [step_of_out hp (s.turn_of_cons _ _ ht) ho, s.popTurn_of_cons _ _ ht,
    framesExchange f { s with turns := ts } ⟨f, true, page, addr⟩ x ho hs (fun _ => by simp [State.ready, hr])
      (by simp [State.answer, ha])]
  simp [hr, ha]

/-- A step and the run behind it. -/
theorem runSteps_of_step {s t : State} {n : Nat} {r : Host.Outcome State Fault Refusal} (h : step s = .next t)
    (hr : runSteps n t = r) : runSteps (n + 1) s = r :=
  (runSteps_step h n).trans hr

/-- A run of `m` steps and the run of `n` steps behind it. -/
theorem runSteps_of_run {m : Nat} {s t : State} {r : Host.Outcome State Fault Refusal} (n : Nat)
    (h : runSteps m s = .next t) (hr : runSteps n t = r) : runSteps (m + n) s = r :=
  (runSteps_add h n).trans hr

/-! ### Register accesses as runs -/

/-- The command `i` checks its state, then its access to `e` is allowed and hands the frames `f1`, `f2`, `f3` to the
framer (log 1). -/
structure Accesses (i : Instr) (p : Params) (e : RegAddr) (f1 f2 f3 : LinkFrame) : Prop where
  start (s : State) (hp : s.params = p) (hu : s.upc = 0) (hf : s.fsm = .idv ∨ s.fsm = .active) :
    exec i s = .next { s with upc := 1 }
  check (s : State) (hp : s.params = p) (hu : s.upc = 1) : exec i s = .next { s with upc := 2 }
  first (s : State) (hp : s.params = p) (hu : s.upc = 2) :
    exec i s = .next { s with out := some ⟨f1, true, e.page, e.addr.setWidth 8⟩, pollT := 0, upc := 3 }
  second (s : State) (hp : s.params = p) (hu : s.upc = 3) :
    exec i s = .next { s with out := some ⟨f2, true, e.page, e.addr.setWidth 8⟩, pollT := 0, upc := 4 }
  third (s : State) (hp : s.params = p) (hu : s.upc = 4) :
    exec i s = .next { s with out := some ⟨f3, true, e.page, e.addr.setWidth 8⟩, pollT := 0, upc := 5 }

theorem exec_start_verified {i : Instr} {s : State} (hi : i.isCommand = true)
    (h : (programOf i s)[0]? = some (startIn verified)) (hu : s.upc = 0) (hf : s.fsm = .idv ∨ s.fsm = .active) :
    exec i s = .next { s with upc := 1 } := by
  have hv : s.fsm ∈ verified := by simpa [verified] using hf
  rw [exec_of_upc hi hu h, startIn, if_pos hv, advance_of_upc hu]

theorem rdreg_accesses {p : Params} {r : RegName} (h : (p.cat.entry r).readFlag = true) :
    Accesses (.rdreg r) p (p.cat.entry r) (.pagesel (p.cat.entry r).page) (.raddr (p.cat.entry r).addr) .null := by
  refine ⟨fun s hp => exec_start_verified rfl rfl, ?_, ?_, ?_, ?_⟩ <;> rintro s rfl hu <;>
    obtain ⟨hcheck, hpage, haddr, hnull, -⟩ := rdregCompletes r s _ rfl h
  · exact hcheck hu
  · exact hpage hu
  · exact haddr hu
  · exact hnull hu

theorem wrreg_accesses {p : Params} {r : RegName} (v : Half) (h : (p.cat.entry r).writeFlag = true) :
    Accesses (.wrreg r v) p (p.cat.entry r) (.pagesel (p.cat.entry r).page) (.lowByte (p.cat.entry r).addr v)
      (.highByte (p.cat.entry r).addr v) := by
  simp only [LinkFrame.lowByte, LinkFrame.highByte, lowByte_eq, highByte_eq]
  refine ⟨fun s hp => exec_start_verified rfl rfl, ?_, ?_, ?_, ?_⟩ <;> rintro s rfl hu <;>
    obtain ⟨hcheck, hpage, hlow, hhigh, -⟩ := wrregCompletes r v s _ rfl h
  · exact hcheck hu
  · exact hpage hu
  · exact hlow hu
  · exact hhigh hu

/-- Acceptance, the check of the catalog's flag, and the first frame. -/
theorem Accesses.begin {i : Instr} {e : RegAddr} {f1 f2 f3 : LinkFrame} {s : State} {pr : Presented}
    {rest : List Presented} {ts : List Turn} (h : Accesses i s.params e f1 f2 f3) (hp : paramsOk s.params = true)
    (hidle : s.idle) (hf : s.fsm = .idv ∨ s.fsm = .active) (hpr : s.presented = pr :: rest)
    (hd : decodeCmd s.params pr.word = .ok i) (ht : s.turns = .core :: .core :: .core :: ts) :
    runSteps 3 s = .next { s with
      presented := rest, rspValid := false, cmd := some ⟨i, pr.cfg⟩, misuse := false, turns := ts,
      out := some ⟨f1, true, e.page, e.addr.setWidth 8⟩, pollT := 0, upc := 3 } := by
  refine runSteps_of_step (step_accept hp ht hidle hpr hd (h.start _ rfl rfl hf)) ?_
  refine runSteps_of_step (step_command hp rfl hidle.2 rfl (h.check _ rfl rfl)) ?_
  exact runSteps_of_step (step_command hp rfl hidle.2 rfl (h.first _ rfl rfl)) rfl

/-- A frame is exchanged, the command hands the next one to the framer, and the settle gap passes. -/
theorem runSteps_exchange_next {i : Instr} {cfg : CfgIn} {f g : LinkFrame} {page addr : Byte} {n : Nat} {s : State}
    {x : Frame} {rds : List Bool} {as : List (Option Frame)} {ts : List Turn}
    (hsend : ∀ u : State, u.params = s.params → u.upc = n →
      exec i u = .next { u with out := some ⟨g, true, page, addr⟩, pollT := 0, upc := n + 1 })
    (hp : paramsOk s.params = true) (hc : s.cmd = some ⟨i, cfg⟩) (hu : s.upc = n)
    (ho : s.out = some ⟨f, true, page, addr⟩) (hs : s.settle = 0) (hr : s.readies = true :: rds)
    (ha : s.answers = some x :: as) (ht : s.turns = .core :: .core :: (ticks 40 ++ ts)) :
    runSteps 42 s = .next { s with
      hist := s.hist ++ [⟨.poll true, s.now⟩, ⟨.xfer (f.bits s.params) (some x) true, s.now⟩], now := s.now + 40,
      settle := 0, dly := s.dly - 40, pollT := 40, rx := x, out := some ⟨g, true, page, addr⟩, upc := n + 1,
      readies := rds, answers := as, turns := ts } := by
  refine runSteps_of_step (step_frame hp ht ho hs hr ha) ?_
  refine runSteps_of_step (step_command hp rfl rfl hc (hsend _ rfl hu)) ?_
  exact runSteps_ticks 40 _ ts hp rfl

/-- The run of a register access up to the answer to its third frame. -/
theorem Accesses.run {i : Instr} {e : RegAddr} {f1 f2 f3 : LinkFrame} {s : State} {pr : Presented}
    {rest : List Presented} {a1 a2 a3 : Frame} {rds : List Bool} {as : List (Option Frame)} {ts : List Turn}
    (h : Accesses i s.params e f1 f2 f3) (hp : paramsOk s.params = true) (hidle : s.idle)
    (hf : s.fsm = .idv ∨ s.fsm = .active) (hs : s.settle = 0) (hpr : s.presented = pr :: rest)
    (hd : decodeCmd s.params pr.word = .ok i) (hr : s.readies = true :: true :: true :: rds)
    (ha : s.answers = some a1 :: some a2 :: some a3 :: as)
    (ht : s.turns = coreTurns 5 ++ ticks 40 ++ coreTurns 2 ++ ticks 40 ++ coreTurns 1 ++ ts) :
    runSteps 88 s = .next { s with
      hist := s.hist ++
        [⟨.poll true, s.now⟩, ⟨.xfer (f1.bits s.params) (some a1) true, s.now⟩,
         ⟨.poll true, s.now + 40⟩, ⟨.xfer (f2.bits s.params) (some a2) true, s.now + 40⟩,
         ⟨.poll true, s.now + 80⟩, ⟨.xfer (f3.bits s.params) (some a3) true, s.now + 80⟩],
      now := s.now + 80, settle := 40, dly := s.dly - 80, pollT := 40, rx := a3, rspValid := false,
      cmd := some ⟨i, pr.cfg⟩, upc := 5, out := none, misuse := false, presented := rest, readies := rds,
      answers := as, turns := ts } := by
  have ht' : s.turns = .core :: .core :: .core ::
      .core :: .core :: (ticks 40 ++ .core :: .core :: (ticks 40 ++ .core :: ts)) := by
    rw [ht]
    simp only [coreTurns, List.replicate, List.append_assoc, List.cons_append, List.nil_append]
  refine runSteps_of_run 85 (h.begin hp hidle hf hpr hd ht') ?_
  refine runSteps_of_run 43 (runSteps_exchange_next h.second hp rfl rfl rfl hs hr ha rfl) ?_
  refine runSteps_of_run 1 (runSteps_exchange_next h.third hp rfl rfl rfl rfl rfl rfl rfl) ?_
  refine runSteps_of_step (step_frame hp rfl rfl rfl rfl rfl) ?_
  simp [runSteps, Nat.sub_sub]

/-- The answer to the null frame is the value read. -/
theorem rdreg_latches {r : RegName} {s : State} (h : (s.params.cat.entry r).readFlag = true) (hu : s.upc = 5) :
    exec (.rdreg r) s = .next { s with regv := s.rx, upc := 6 } := by
  obtain ⟨-, -, -, -, hlatch, -⟩ := rdregCompletes r s _ rfl h
  exact hlatch hu

theorem rdreg_responds {r : RegName} {s : State} (h : (s.params.cat.entry r).readFlag = true) (hu : s.upc = 6)
    (hm : s.misuse = false) : exec (.rdreg r) s = .next (s.respond .ok s.regv) := by
  obtain ⟨-, -, -, -, -, hend⟩ := rdregCompletes r s _ rfl h
  exact hend hu hm

theorem wrreg_responds {r : RegName} {v : Half} {s : State} (h : (s.params.cat.entry r).writeFlag = true)
    (hu : s.upc = 5) (hm : s.misuse = false) : exec (.wrreg r v) s = .next (s.respond .ok 0) := by
  obtain ⟨-, -, -, -, hend⟩ := wrregCompletes r v s _ rfl h
  exact hend hu hm

/-- Settles O26: the access, the answer to the null frame latched, and the response. -/
theorem rdregRun : Obligations.RdregRun := by
  rintro s pr rest r e a1 a2 v rds as ts hp hidle hf hs hpr hd rfl hr hrd ha ht
  have hrun := (rdreg_accesses hr).run (ts := .core :: .core :: ts) hp hidle hf hs hpr hd hrd ha (by
    rw [ht]
    simp [coreTurns, List.replicate])
  refine runSteps_of_run 2 hrun ?_
  refine runSteps_of_step (step_command hp rfl rfl rfl (rdreg_latches hr rfl)) ?_
  exact runSteps_of_step (step_command hp rfl rfl rfl (rdreg_responds hr rfl rfl)) rfl

/-- Settles O27: the access, and the response. -/
theorem wrregRun : Obligations.WrregRun := by
  rintro s pr rest r w e a1 a2 a3 rds as ts hp hidle hf hs hpr hd rfl hw hrd ha ht
  have hrun := (wrreg_accesses w hw).run (ts := .core :: ts) hp hidle hf hs hpr hd hrd ha (by
    rw [ht]
    simp [coreTurns, List.replicate])
  refine runSteps_of_run 1 hrun ?_
  exact runSteps_of_step (step_command hp rfl rfl rfl (wrreg_responds hw rfl rfl)) rfl

/-! ### The echo device (R149) -/

/-- A frame whose write bit or offset is set is not the null frame. -/
theorem frame_ne_zero {b : BitVec 1} {a : Offset} {d : Byte} (h : b = 1#1 ∨ a ≠ 0) : (b ++ a ++ d : Frame) ≠ 0 := by
  intro hz
  obtain ⟨hb, ha, -⟩ := eq_frame_iff.1 hz.symm
  rcases h with h | h
  · rw [h] at hb
    exact absurd hb (by decide)
  · exact h (ha.symm.trans (by decide))

theorem EchoDevice.receive_fPage (pageAddr : Offset) (d : EchoDevice) (page : Byte) :
    d.receive pageAddr (fPage pageAddr page) = { d with page := page, pending := none } := by
  have hne : fWrite pageAddr page ≠ 0 := frame_ne_zero (.inl rfl)
  obtain ⟨hb, ha, hd⟩ := fWrite_fields pageAddr page
  change d.receive pageAddr (fWrite pageAddr page) = _
  simp only [EchoDevice.receive, hne, hb, ha, hd, if_true, if_false]

theorem EchoDevice.receive_fWrite {pageAddr a : Offset} (h : a ≠ pageAddr) (d : EchoDevice) (v : Byte) :
    d.receive pageAddr (fWrite a v) = { d with bytes := ((d.page, a), v) :: d.bytes, pending := none } := by
  have hne : fWrite a v ≠ 0 := frame_ne_zero (.inl rfl)
  obtain ⟨hb, ha, hd⟩ := fWrite_fields a v
  simp only [EchoDevice.receive, hne, hb, ha, hd, h, if_true, if_false]

theorem EchoDevice.receive_fRaddr (pageAddr : Offset) {a : Offset} (h : a ≠ 0) (d : EchoDevice) :
    d.receive pageAddr (fRaddr a) = { d with pending := some (d.page, a) } := by
  have hne : fRaddr a ≠ 0 := frame_ne_zero (.inr h)
  obtain ⟨hb, ha, -⟩ := eq_frame_iff.1 (rfl : fRaddr a = _)
  have hread : ¬(0#1 = 1#1) := by decide
  simp only [EchoDevice.receive, hne, hb, ha, hread, if_false]

theorem EchoDevice.answer_of_pending {d : EchoDevice} {page : Byte} {a : Offset} (h : d.pending = some (page, a)) :
    d.answer = d.byte page (a + 1) ++ d.byte page a := by
  rw [EchoDevice.answer, h]

/-- The byte written last to an offset of a page. -/
theorem EchoDevice.byte_cons (cur page : Byte) (bytes : List ((Byte × Offset) × Byte))
    (pending : Option (Byte × Offset)) (a b : Offset) (v : Byte) :
    EchoDevice.byte ⟨cur, ((page, a), v) :: bytes, pending⟩ page b =
      if a = b then v else EchoDevice.byte ⟨cur, bytes, pending⟩ page b := by
  by_cases h : a = b <;> simp [EchoDevice.byte, h]

/-- The last answer to a sequence of frames is formed behind all frames but the last. -/
theorem EchoDevice.getLast?_answers (pageAddr : Offset) (d : EchoDevice) (txs : List Frame) (tx : Frame) :
    (EchoDevice.answers pageAddr d (txs ++ [tx])).getLast? =
      some (txs.foldl (EchoDevice.receive pageAddr) d).answer := by
  induction txs generalizing d with
  | nil => rfl
  | cons t txs ih =>
    rw [List.foldl_cons, ← ih (d.receive pageAddr t), List.cons_append, EchoDevice.answers]
    cases txs <;> rfl

/-- Settles O28: the page select and the two writes leave the bytes of the value, the address frame asks for them. -/
theorem echoRoundTrip : Obligations.EchoRoundTrip := by
  intro p r v d hnull hpage hpage'
  have hnext : r.addr + 1 ≠ r.addr := by simp
  have hv : v.extractLsb' 8 8 ++ v.extractLsb' 0 8 = v := (eq_append_iff (m := 8) (n := 8)).2 ⟨rfl, rfl⟩ |>.symm
  have hframes : (writeFrames p r v ++ readFrames p r).map Prod.fst =
      [fPage p.pageAddr r.page, fWrite r.addr (v.extractLsb' 0 8), fWrite (r.addr + 1) (v.extractLsb' 8 8),
        fPage p.pageAddr r.page, fRaddr r.addr] ++ [fNull] := rfl
  rw [hframes, EchoDevice.getLast?_answers]
  simp only [List.foldl_cons, List.foldl_nil, EchoDevice.receive_fPage, EchoDevice.receive_fWrite hpage,
    EchoDevice.receive_fWrite hpage', EchoDevice.receive_fRaddr _ hnull]
  rw [EchoDevice.answer_of_pending rfl, EchoDevice.byte_cons, if_pos rfl, EchoDevice.byte_cons, if_neg hnext,
    EchoDevice.byte_cons, if_pos rfl, hv]

end Sys2Proof.Machine
end

section
/-! What the link frames and the commands but CAPTURE leave unchanged, from what each event of the micro-programs
writes beside the books of the command (40_register_protocol R140 to R155, 41_configuration R182 to R186). -/

namespace Sys2Proof.Machine

/-! ### Link frames -/

/-- Beside the history, the gap, `rx` and the device's tapes, the framer's step of a frame changes only what the error
entry changes. -/
theorem sent_frame (s : State) (tx : Frame) (checked : Bool) (page addr : Byte) :
    let t := (s.framer tx checked page addr).sent
    t = { s with
      hist := t.hist, settle := t.settle, rx := t.rx, readies := t.readies, answers := t.answers, out := t.out,
      fsm := t.fsm, mode := t.mode, cmd := t.cmd, upc := t.upc, rspValid := t.rspValid, rspStatus := t.rspStatus,
      rspData := t.rspData, lastErr := t.lastErr, log := t.log } := by
  have h := framer_frame s tx checked page addr
  cases hr : s.framer tx checked page addr with
  | waiting t | raised t =>
    rw [hr] at h
    exact h
  | done t =>
    rw [hr] at h
    exact congrArg (fun u : State => { u with out := none }) h

/-- A framer step that no error ends leaves the command, the session, the response and the log. -/
theorem sent_goes_on {s : State} {tx : Frame} {checked : Bool} {page addr : Byte}
    (hc : (s.framer tx checked page addr).sent.cmd ≠ none) :
    let t := (s.framer tx checked page addr).sent
    t.cmd = s.cmd ∧ t.fsm = s.fsm ∧ t.mode = s.mode ∧ t.upc = s.upc ∧ t.rspValid = s.rspValid ∧
      t.rspStatus = s.rspStatus ∧ t.rspData = s.rspData ∧ t.lastErr = s.lastErr ∧ t.log = s.log := by
  have h := framer_cases s tx checked page addr
  generalize s.framer tx checked page addr = r at h hc
  cases h with
  | hold | busy | checkedDone | rawDone => exact ⟨rfl, rfl, rfl, rfl, rfl, rfl, rfl, rfl, rfl⟩
  | timeout | checkedFails | rawFails => exact absurd (State.raise_cmd ..) hc

/-- Settles O58: a frame's step is a framer step. -/
theorem frameOfLinkFrames : Obligations.FrameOfLinkFrames := by
  intro f s t h
  obtain ⟨checked, page, addr, hs, -⟩ := sendFrame_sent s (f.bits s.params)
  rw [exec_frame, hs] at h
  obtain rfl := Host.Outcome.next.inj h
  obtain ⟨hmem, -⟩ := framer_mem s (f.bits s.params) checked page addr
  exact ⟨sent_frame s _ checked page addr, fun a => by rw [hmem], sent_goes_on⟩

/-! ### The books of a command -/

/-- `s` with the books of the command in progress as in `u`: its position, its poll and frame, the session, the
response and the error context. -/
def State.booked (s u : State) : State :=
  { s with
    pollT := u.pollT, out := u.out, fsm := u.fsm, mode := u.mode, cmd := u.cmd, upc := u.upc, rspValid := u.rspValid,
    rspStatus := u.rspStatus, rspData := u.rspData, lastErr := u.lastErr, log := u.log, misuse := u.misuse }

/-- `s` with the link's record and the device's exchange tapes as in `u`. -/
def State.linked (s u : State) : State :=
  { s with hist := u.hist, settle := u.settle, rx := u.rx, readies := u.readies, answers := u.answers }

/-- The error entry writes in the books only. -/
theorem raise_booked (s : State) (e : ErrRec) (d : Half) : s.raise e d = s.booked (s.raise e d) := by
  rw [raise_eq]
  rfl

/-- What a step of the command `i`, not CAPTURE, writes beside its books. -/
inductive CommandFrame (i : Instr) (s t : State) : Prop where
  | books (u : State) (h : t = s.booked u)
  /-- A register read: its value. -/
  | reads (hi : i = .init ∨ (∃ m win decl cust fsel, i = .activate m win decl cust fsel) ∨ ∃ r, i = .rdreg r)
      (v : Half) (u : State) (h : t = ({ s with regv := v } : State).booked u)
  /-- A wait: its delay. -/
  | waits (hi : i = .init ∨ i = .trigger) (us : Nat) (u : State) (h : t = ({ s with dly := us } : State).booked u)
  /-- The tap loop: its counter. -/
  | counts (hi : ∃ m win decl cust fsel, i = .activate m win decl cust fsel) (k : Fin 32) (u : State)
      (h : t = ({ s with k := k } : State).booked u)
  /-- A line primitive: the lines, and its link event. -/
  | lines (hi : i = .init ∨ i = .close) (hist : History) (isOpen : Bool) (rst : Option Bool) (u : State)
      (h : t = ({ s with hist := hist, linesOpen := isOpen, rstO := rst } : State).booked u)
  /-- The opening of the link: the gap and the device's answer too. -/
  | opens (hi : i = .init) (v u : State)
      (h : t = ({ s with
        hist := v.hist, linesOpen := v.linesOpen, rstO := v.rstO, settle := v.settle,
        opens := v.opens } : State).booked u)
  /-- The host's own exchange: the link's record and the device's tapes. -/
  | exchanges (hi : (∃ b0 b1, i = .xchg b0 b1) ∨ ∃ b0 b1, i = .xchgb b0 b1) (v u : State)
      (h : t = (s.linked v).booked u)

theorem raise_frame (i : Instr) (s : State) (e : ErrRec) (d : Half) : CommandFrame i s (s.raise e d) :=
  .books _ (raise_booked s e d)

theorem startIn_frame (i : Instr) (legal : List Fsm) (s : State) : CommandFrame i s (startIn legal s) := by
  rcases startIn_cases legal s with ⟨-, ht⟩ | ⟨-, ht⟩ <;> rw [ht]
  · exact .books s.advance rfl
  · exact raise_frame ..

theorem respondUnlessMisuse_frame (i : Instr) (s : State) (d : Half) :
    CommandFrame i s (s.respondUnlessMisuse d) := by
  rcases respondUnlessMisuse_cases s d with ⟨-, ht⟩ | ⟨-, ht⟩ <;> rw [ht] <;> exact .books (s.respond _ _) rfl

theorem hostExchange_frame {i : Instr} (hi : (∃ b0 b1, i = .xchg b0 b1) ∨ ∃ b0 b1, i = .xchgb b0 b1) (s : State)
    (tx : Frame) (checked : Bool) : CommandFrame i s (hostExchange tx checked s) := by
  rw [hostExchange_hosted]
  have h := framer_cases s tx checked 0 0
  generalize s.framer tx checked 0 0 = r at h
  cases h with
  | hold => exact .books s rfl
  | busy => exact .exchanges hi s.polled s rfl
  | timeout => exact .exchanges hi s.polled _ (raise_booked s.polled _ _)
  | checkedDone _ _ _ rx => exact .exchanges hi { s.polled.exchanged tx true with rx := rx } s.advance rfl
  | checkedFails => exact .exchanges hi (s.polled.exchanged tx true) _ (raise_booked (s.polled.exchanged tx true) _ _)
  | rawDone _ _ rx => exact .exchanges hi { s.exchanged tx false with rx := rx } s.advance rfl
  | rawFails => exact .exchanges hi (s.exchanged tx false) _ (raise_booked (s.exchanged tx false) _ _)

/-- The state behind the request to open the link. -/
def State.asked (s : State) : State :=
  { s with opens := s.opens.tail, hist := s.hist ++ [⟨.opened s.opensOk, s.now⟩] }

theorem openLink_frame (s : State) : CommandFrame .init s (openLink s) := by
  unfold openLink
  split
  · exact .opens rfl { s.asked with linesOpen := true, rstO := some false, settle := 0 } s.advance rfl
  · exact .opens rfl s.asked _ (raise_booked s.asked _ _)

/-- An event of a command but CAPTURE. -/
theorem event_frame {i : Instr} {f : State → State} (h : ProgramEvent i f) (hi : i ≠ .capture) (s : State) :
    CommandFrame i s (f s) := by
  have keeps : ∀ {g : State → State}, g s = s.booked (g s) → CommandFrame i s (g s) := fun h => .books _ h
  cases h
  case startCapture | latchDecF | latchAvgC | firstAxis | firstWord | storeWord | storeLast | firstBlock |
      storeBlockWord | parseCollected | emitBatch | sendRaw => exact absurd rfl hi
  case startInit | startExttrig | startTrigger | startClose | startRdreg | startWrreg | startXchg | startXchgb =>
    exact startIn_frame ..
  case finishExttrig | finishRead | finishWrreg => exact respondUnlessMisuse_frame ..
  case finishOk | finishXchg | finishXchgb | finishClose | pollStart | clearMisuse | sendTo => exact keeps rfl
  case xchg b0 b1 => exact hostExchange_frame (.inl ⟨b0, b1, rfl⟩) ..
  case xchgb b0 b1 => exact hostExchange_frame (.inr ⟨b0, b1, rfl⟩) ..
  case openLink => exact openLink_frame s
  case waitInit us => exact .waits (.inl rfl) us s.advance rfl
  case resetEdge => exact .lines (.inl rfl) _ _ _ (resetEdge s) rfl
  case identityCheck =>
    unfold identityCheck
    split
    · exact raise_frame ..
    · exact .books ({ s with fsm := .idv }.respond .ok s.regv) rfl
  case modeCheck m _ _ _ _ =>
    unfold modeCheck
    split
    · exact raise_frame ..
    · exact .books ({ s with mode := some m, fsm := .active }.respond .ok 0) rfl
  case startActivate =>
    unfold startActivate
    split
    · exact .books { s with mode := none, fsm := .idv }.advance rfl
    · exact raise_frame ..
  case firstTap => exact .counts ⟨_, _, _, _, _, rfl⟩ 0 s.advance rfl
  case nextTap =>
    unfold nextTap
    split
    · exact .counts ⟨_, _, _, _, _, rfl⟩ _ (s.back 4) rfl
    · exact .books s.advance rfl
  case triggerSent =>
    unfold triggerSent
    split
    · exact .books (s.respond .protocolMisuse 0) rfl
    · exact .waits (.inr rfl) tTrig s.advance rfl
  case releaseLines =>
    unfold releaseLines
    split
    · exact .lines (.inr rfl) _ _ _ s.advance rfl
    · exact .books s.advance rfl
  case readCheck r h =>
    rcases readCheck_cases r s with ⟨-, ht⟩ | ⟨-, ht⟩ <;> rw [ht]
    · exact .books s.advance rfl
    · exact .reads (by simpa [hi] using h) 0 ((s.refuseRead r).skip 5) rfl
  case latchRegv h => exact .reads (by simpa [hi] using h) (be16 s.rx) s.advance rfl
  case writeCheck r _ =>
    rcases writeCheck_cases r s with ⟨-, ht⟩ | ⟨-, ht⟩ <;> rw [ht]
    · exact .books s.advance rfl
    · exact .books ((s.refuseWrite r).skip 4) rfl
  case waitHold _ =>
    rcases waitHold_cases s with ⟨-, ht⟩ | ⟨-, ht⟩ <;> rw [ht]
    · exact .books s.advance rfl
    · exact .books s rfl

/-- A step of a command but CAPTURE. -/
theorem exec_command_frame {i : Instr} {s t : State} (hc : i.isCommand = true) (hi : i ≠ .capture)
    (h : exec i s = .next t) : CommandFrame i s t := by
  obtain ⟨f, hf, rfl⟩ := exec_command_event hc h
  exact event_frame hf hi s

/-! ### Commands -/

/-- Outside INIT, ACTIVATE and CLOSE only a fatal error changes the state or the session. -/
theorem SessionCase.failed_of_changed {i : Instr} {s t : State} (h : SessionCase i s t) (hinit : i ≠ .init)
    (hclose : i ≠ .close) (hact : ∀ m win decl cust fsel, i ≠ .activate m win decl cust fsel)
    (hne : t.fsm ≠ s.fsm ∨ t.mode ≠ s.mode) : t.fsm = .failed ∧ t.mode = none := by
  have same : SameSession s t → t.fsm = .failed ∧ t.mode = none := fun hs =>
    absurd hne (by simp [hs.fsm, hs.mode])
  cases h with
  | quiet h => exact same h.toSameSession
  | ended _ hs => exact same hs
  | failed _ hf hm => exact ⟨hf, hm⟩
  | leaves hi | activated hi =>
    obtain ⟨m, win, decl, cust, fsel, hi⟩ := hi
    exact absurd hi (hact m win decl cust fsel)
  | opened hi | edge hi | identified hi => exact absurd hi hinit
  | released hi | closed hi => exact absurd hi hclose

/-- RDREG, WRREG, XCHG, XCHGB, EXTTRIG and TRIGGER are none of the other commands. -/
theorem registerCommand_ne {i : Instr}
    (hi : (∃ r, i = .rdreg r) ∨ (∃ r v, i = .wrreg r v) ∨ (∃ b0 b1, i = .xchg b0 b1) ∨ (∃ b0 b1, i = .xchgb b0 b1) ∨
      i = .exttrig ∨ i = .trigger) :
    i.isCommand = true ∧ i ≠ .capture ∧ i ≠ .init ∧ i ≠ .close ∧
      ∀ m win decl cust fsel, i ≠ .activate m win decl cust fsel := by
  rcases hi with ⟨r, rfl⟩ | ⟨r, v, rfl⟩ | ⟨b0, b1, rfl⟩ | ⟨b0, b1, rfl⟩ | rfl | rfl <;> simp [Instr.isCommand]

/-- INIT, CLOSE and ACTIVATE are none of the other commands. -/
theorem sessionCommand_ne {i : Instr}
    (hi : i = .init ∨ i = .close ∨ ∃ m win decl cust fsel, i = .activate m win decl cust fsel) :
    i.isCommand = true ∧ i ≠ .capture ∧ i ≠ .trigger ∧
      ¬((∃ b0 b1, i = .xchg b0 b1) ∨ ∃ b0 b1, i = .xchgb b0 b1) := by
  rcases hi with rfl | rfl | ⟨m, win, decl, cust, fsel, rfl⟩ <;> simp [Instr.isCommand]

/-- Settles O59: what the step writes beside the books, by command. -/
theorem frameOfCommands : Obligations.FrameOfCommands := by
  refine ⟨fun i s t h hi => ?_, fun i s t h hi => ?_⟩
  · obtain ⟨hcmd, hcap, hinit, hclose, hact⟩ := registerCommand_ne hi
    have hfailed := (exec_session hcmd h).failed_of_changed hinit hclose hact
    cases exec_command_frame hcmd hcap h with
    | books u h =>
      subst h
      exact ⟨rfl, fun _ => rfl, hfailed, fun _ => rfl, fun _ => rfl, fun _ => ⟨rfl, rfl, rfl⟩⟩
    | reads hi' v u h =>
      subst h
      obtain ⟨r, rfl⟩ : ∃ r, i = .rdreg r := by simpa [hinit, hact] using hi'
      exact ⟨rfl, fun _ => rfl, hfailed, fun hr => absurd rfl (hr r), fun _ => rfl, fun _ => ⟨rfl, rfl, rfl⟩⟩
    | waits hi' us u h =>
      subst h
      obtain rfl : i = .trigger := hi'.resolve_left hinit
      exact ⟨rfl, fun _ => rfl, hfailed, fun _ => rfl, fun ht => absurd rfl ht, fun _ => ⟨rfl, rfl, rfl⟩⟩
    | counts hi' =>
      obtain ⟨m, win, decl, cust, fsel, rfl⟩ := hi'
      exact absurd rfl (hact m win decl cust fsel)
    | lines hi' => exact absurd hi' (not_or_intro hinit hclose)
    | opens hi' => exact absurd hi' hinit
    | exchanges hi' v u h =>
      subst h
      refine ⟨rfl, fun _ => rfl, hfailed, fun _ => rfl, fun _ => rfl, fun hn => ?_⟩
      rcases hi' with ⟨b0, b1, hi'⟩ | ⟨b0, b1, hi'⟩
      · exact absurd hi' (hn b0 b1).1
      · exact absurd hi' (hn b0 b1).2
  · obtain ⟨hcmd, hcap, htrigger, hhost⟩ := sessionCommand_ne hi
    cases exec_command_frame hcmd hcap h with
    | books u h | reads _ v u h =>
      subst h
      exact ⟨rfl, fun _ => rfl, fun _ => rfl, fun _ => ⟨rfl, rfl, rfl⟩, fun _ _ => ⟨rfl, rfl, rfl⟩⟩
    | waits hi' us u h =>
      subst h
      obtain rfl : i = .init := hi'.resolve_right htrigger
      exact ⟨rfl, fun _ => rfl, fun _ => rfl, fun hn => absurd rfl hn, fun hn => absurd rfl hn⟩
    | counts hi' k u h =>
      subst h
      obtain ⟨m, win, decl, cust, fsel, rfl⟩ := hi'
      exact ⟨rfl, fun _ => rfl, by simp, fun _ => ⟨rfl, rfl, rfl⟩, fun _ _ => ⟨rfl, rfl, rfl⟩⟩
    | lines hi' hist isOpen rst u h =>
      subst h
      refine ⟨rfl, fun _ => rfl, fun _ => rfl, fun _ => ⟨rfl, rfl, rfl⟩, fun hinit hclose => ?_⟩
      exact absurd hi' (not_or_intro hinit hclose)
    | opens hi' v u h =>
      subst h hi'
      exact ⟨rfl, fun _ => rfl, fun _ => rfl, fun hn => absurd rfl hn, fun hn => absurd rfl hn⟩
    | exchanges hi' => exact absurd hi' hhost

end Sys2Proof.Machine
end

section
/-! The positions of the Device Configuration Sequencer's commands: INIT, ACTIVATE's latch check, EXTTRIG, TRIGGER and
CLOSE (41_configuration R180 to R186, R190). -/

namespace Sys2Proof.Machine

/-! ### The register accesses of a micro-program (40_register_protocol R144 to R148) -/

theorem exec_readCheck_allowed {i : Instr} {s : State} {n : Nat} {r : RegAddr} (hi : i.isCommand = true)
    (hu : s.upc = n) (h : (programOf i s)[n]? = some (readCheck r)) (hr : r.readFlag = true) :
    exec i s = .next { s with upc := n + 1 } := by
  rw [exec_of_upc hi hu h, readCheck_allowed hr, advance_of_upc hu]

theorem exec_readCheck_refused {i : Instr} {s : State} {n : Nat} {r : RegAddr} (hi : i.isCommand = true)
    (hu : s.upc = n) (h : (programOf i s)[n]? = some (readCheck r)) (hr : r.readFlag = false) :
    exec i s =
      .next { s with
        log := s.log ++ [⟨.misuseRead r.page (r.addr.setWidth 8), s.now⟩],
        lastErr := ⟨.protocolMisuse, r.page, r.addr.setWidth 8, 0, 0⟩, regv := 0, misuse := true, upc := n + 5 } := by
  obtain ⟨hrefused, -⟩ := refusedRead
  rw [exec_of_upc hi hu h, hrefused r s hr, hu]

theorem exec_writeCheck_allowed {i : Instr} {s : State} {n : Nat} {r : RegAddr} (hi : i.isCommand = true)
    (hu : s.upc = n) (h : (programOf i s)[n]? = some (writeCheck r)) (hr : r.writeFlag = true) :
    exec i s = .next { s with upc := n + 1 } := by
  rw [exec_of_upc hi hu h, writeCheck_allowed hr, advance_of_upc hu]

theorem exec_writeCheck_refused {i : Instr} {s : State} {n : Nat} {r : RegAddr} (hi : i.isCommand = true)
    (hu : s.upc = n) (h : (programOf i s)[n]? = some (writeCheck r)) (hr : r.writeFlag = false) :
    exec i s =
      .next { s with
        log := s.log ++ [⟨.misuseWrite r.page (r.addr.setWidth 8), s.now⟩],
        lastErr := ⟨.protocolMisuse, r.page, r.addr.setWidth 8, 0, 0⟩, misuse := true, upc := n + 4 } := by
  obtain ⟨hrefused, -⟩ := refusedWrite
  rw [exec_of_upc hi hu h, hrefused r s hr, hu]

/-- The answer to the null frame becomes the value read. -/
theorem exec_latchRegv {i : Instr} {s : State} {n : Nat} (hi : i.isCommand = true) (hu : s.upc = n)
    (h : (programOf i s)[n]? = some latchRegv) : exec i s = .next { s with regv := s.rx, upc := n + 1 } := by
  rw [exec_of_upc hi hu h, latchRegv, State.advance, hu]
  rfl

theorem exec_clearMisuse {i : Instr} {s : State} {n : Nat} (hi : i.isCommand = true) (hu : s.upc = n)
    (h : (programOf i s)[n]? = some clearMisuse) : exec i s = .next { s with misuse := false, upc := n + 1 } := by
  rw [exec_of_upc hi hu h, clearMisuse, State.advance, hu]

/-! ### Waits (10_state R41) -/

theorem exec_waitStart {i : Instr} {s : State} {n us : Nat} (hi : i.isCommand = true) (hu : s.upc = n)
    (h : (programOf i s)[n]? = some (waitStart us)) : exec i s = .next { s with dly := us, upc := n + 1 } := by
  rw [exec_of_upc hi hu h, waitStart, State.advance, hu]

theorem exec_waitHold_holds {i : Instr} {s : State} {n : Nat} (hi : i.isCommand = true) (hu : s.upc = n)
    (h : (programOf i s)[n]? = some waitHold) (hd : s.dly ≠ 0) : exec i s = .next s := by
  rw [exec_of_upc hi hu h, waitHold, if_neg hd]

theorem exec_waitHold_over {i : Instr} {s : State} {n : Nat} (hi : i.isCommand = true) (hu : s.upc = n)
    (h : (programOf i s)[n]? = some waitHold) (hd : s.dly = 0) : exec i s = .next { s with upc := n + 1 } := by
  rw [exec_of_upc hi hu h, waitHold, if_pos hd, advance_of_upc hu]

/-! ### INIT (41_configuration R180 to R182) -/

theorem openLink_opens {s : State} (h : s.opensOk = true) :
    openLink s =
      { s with
        opens := s.opens.tail, hist := s.hist ++ [⟨.opened true, s.now⟩], linesOpen := true, rstO := some false,
        settle := 0, upc := s.upc + 1 } := by
  simp only [openLink, h, if_true]
  rfl

theorem openLink_fails {s : State} (h : s.opensOk = false) :
    openLink s =
      ({ s with opens := s.opens.tail, hist := s.hist ++ [⟨.opened false, s.now⟩] } : State).raise
        ⟨.transport, 0, 0, 0, 0⟩ 0 := by
  simp only [openLink, h, Bool.false_eq_true, if_false]
  rfl

theorem resetEdge_eq (s : State) :
    resetEdge s =
      { s with hist := s.hist ++ [⟨.rst true, s.now⟩], rstO := some true, fsm := .reset, upc := s.upc + 1 } := rfl

theorem identityCheck_passes {s : State} (hm : s.misuse = false) (hv : s.regv = s.params.prodIdExpected) :
    identityCheck s = ({ s with fsm := .idv } : State).respond .ok s.regv :=
  if_neg (by simp [hm, hv])

/-- Settles O29: the event at each position of INIT's micro-program. -/
theorem initCompletes : Obligations.InitCompletes := by
  refine ⟨fun s hu ho => ?_, fun s hu ho => ?_, fun s hu => exec_waitStart rfl hu rfl, fun s hu => ?_,
    fun s hu => exec_waitStart rfl hu rfl, fun s hu => ⟨fun hd => ?_, fun hd => ?_⟩,
    fun s hu => exec_clearMisuse rfl hu rfl,
    fun s => ⟨fun hu => exec_readCheck_allowed rfl hu rfl, fun hu => exec_readCheck_refused rfl hu rfl, ?_,
      fun hu => exec_latchRegv rfl hu rfl⟩, fun s hu => ?_⟩
  · rw [exec_of_upc (f := openLink) rfl hu rfl, openLink_opens ho, hu]
  · rw [exec_of_upc (f := openLink) rfl hu rfl, openLink_fails ho]
  · rw [exec_of_upc (f := resetEdge) rfl hu rfl, resetEdge_eq, hu]
  · rcases hu with hu | hu <;> exact exec_waitHold_holds rfl hu rfl hd
  · rcases hu with hu | hu <;> rw [exec_waitHold_over rfl hu rfl hd, hu]
  · rintro f (⟨hu, rfl⟩ | ⟨hu, rfl⟩ | ⟨hu, rfl⟩) <;> rw [exec_sendTo rfl hu rfl, hu] <;> rfl
  · rw [exec_of_upc (f := identityCheck) rfl hu rfl]
    exact ⟨fun hm hv => congrArg _ (identityCheck_passes hm hv), fun h => congrArg _ (if_pos h)⟩

/-! ### ACTIVATE's latch check (41_configuration R183, R190) -/

/-- ACTIVATE's last position, the latch check, in each of its forms. -/
def activateLast (m : Mode) (cust : Bool) : Nat := if m = .rts then 15 else if cust then 29 else 23

/-- ACTIVATE's positions up to its last write. -/
def activateWrites (m : Mode) (win : BitVec 4) (decl : BitVec 3) (cust : Bool) (fsel : BitVec 3) (s : State) :
    MicroProgram :=
  [startActivate] ++ regWrite (s.entry .decCtrl) (decCtrlValue s.params decl) ++
    (if m = .rts then [] else filterSetup cust fsel s) ++
    regWrite (s.entry .recCtrl) (recCtrlValue s.params m win)

/-- ACTIVATE's last seven positions: the read-back of REC_CTRL and the latch check. -/
def readBack (m : Mode) (s : State) : MicroProgram :=
  [clearMisuse] ++ regRead (s.entry .recCtrl) ++ [modeCheck m]

theorem programOf_activate (m : Mode) (win : BitVec 4) (decl : BitVec 3) (cust : Bool) (fsel : BitVec 3) (s : State) :
    programOf (.activate m win decl cust fsel) s = activateWrites m win decl cust fsel s ++ readBack m s := by
  simp only [programOf, activateProgram, activateWrites, readBack, List.append_assoc]

theorem activateWrites_length (m : Mode) (win : BitVec 4) (decl : BitVec 3) (cust : Bool) (fsel : BitVec 3)
    (s : State) : (activateWrites m win decl cust fsel s).length + 6 = activateLast m cust := by
  by_cases hm : m = .rts
  · simp [activateWrites, activateLast, regWrite, hm]
  · cases cust <;> simp [activateWrites, activateLast, filterSetup, regWrite, hm]

/-- The read-back ends ACTIVATE in each of its forms. -/
theorem programOf_activate_readBack {m : Mode} {win : BitVec 4} {decl : BitVec 3} {cust : Bool} {fsel : BitVec 3}
    {s : State} {n k : Nat} (hn : n + k = activateLast m cust) (hk : k ≤ 6) :
    (programOf (.activate m win decl cust fsel) s)[n]? = (readBack m s)[6 - k]? := by
  have hlen := activateWrites_length m win decl cust fsel s
  rw [programOf_activate, List.getElem?_append_right (by omega)]
  congr 1
  omega

theorem modeCheck_passes {m : Mode} {s : State} (hm : s.misuse = false)
    (hb : modeBits s.params s.regv = s.params.modeCode.code m) :
    modeCheck m s = ({ s with mode := some m, fsm := .active } : State).respond .ok 0 :=
  if_neg (by simp [hm, hb])

theorem modeCheck_raises {m : Mode} {s : State}
    (h : s.misuse = true ∨ modeBits s.params s.regv ≠ s.params.modeCode.code m) :
    modeCheck m s = s.raise ⟨.modeMismatch, (s.entry .recCtrl).page, addr8 (s.entry .recCtrl),
      s.params.modeCode.code m, modeBits s.params s.regv⟩ (modeBits s.params s.regv) :=
  if_pos h

/-- Well-formed parameters give different modes different codes (00_scope R10). -/
theorem modeCode_injective {p : Params} (h : paramsOk p = true) : Function.Injective p.modeCode.code := by
  have hcodes : modeCodesOk p.modeW p.modeCode = true := by
    simp only [paramsOk, Bool.and_eq_true] at h
    tauto
  simp only [modeCodesOk, Bool.and_eq_true, decide_eq_true_eq] at hcodes
  have hnodup : ([.rts, .mtc, .mfft, .afft].map p.modeCode.code).Nodup := hcodes.1
  have hall : ∀ m : Mode, m ∈ [.rts, .mtc, .mfft, .afft] := fun m => by cases m <;> decide
  exact fun m n hmn => List.inj_on_of_nodup_map hnodup (hall m) (hall n) hmn

/-- Settles O31: the read-back's positions, counted from ACTIVATE's last one. -/
theorem activateCompletes : Obligations.ActivateCompletes := by
  intro m win decl cust fsel s last r i
  have hpos : ∀ {k : Nat}, s.upc + k = last → k ≤ 6 → (programOf i s)[s.upc]? = (readBack m s)[6 - k]? :=
    fun hu hk => programOf_activate_readBack hu hk
  refine ⟨fun hu => exec_clearMisuse rfl rfl (hpos hu (by decide)),
    fun hu => exec_readCheck_allowed rfl rfl (hpos hu (by decide)), fun hu hr => ?_, ?_, fun hu => ?_, fun hu => ?_⟩
  · rw [exec_readCheck_refused rfl rfl (hpos hu (by decide)) hr, hu]
    rfl
  · rintro n f (⟨rfl, rfl⟩ | ⟨rfl, rfl⟩ | ⟨rfl, rfl⟩) hu <;> exact exec_sendTo rfl rfl (hpos hu (by decide))
  · rw [exec_latchRegv rfl rfl (hpos hu (by decide)), hu]
  · rw [exec_of_upc (f := modeCheck m) rfl rfl (hpos (k := 0) hu (by decide))]
    refine ⟨fun hm hb => congrArg _ (modeCheck_passes hm hb), fun h => congrArg _ (modeCheck_raises h),
      fun hp hne hb => congrArg _ (modeCheck_raises (.inr fun hb' => hne ?_))⟩
    exact modeCode_injective hp (hb'.symm.trans hb)

/-! ### EXTTRIG and TRIGGER (41_configuration R184, R185) -/

/-- The write of a command that writes `v` to `r` behind its check. -/
theorem exec_write {i : Instr} {s : State} {r : RegAddr} {v : Half} {start : State → State} {rest : MicroProgram}
    (hi : i.isCommand = true) (hprog : programOf i s = start :: (regWrite r v ++ rest)) :
    (s.upc = 1 → r.writeFlag = true → exec i s = .next { s with upc := 2 }) ∧
    (s.upc = 1 → r.writeFlag = false →
      exec i s =
        .next { s with
          log := s.log ++ [⟨.misuseWrite r.page (r.addr.setWidth 8), s.now⟩],
          lastErr := ⟨.protocolMisuse, r.page, r.addr.setWidth 8, 0, 0⟩, misuse := true, upc := 5 }) ∧
    (∀ f : LinkFrame,
      (s.upc = 2 ∧ f = .pagesel r.page) ∨ (s.upc = 3 ∧ f = .wlo r.addr (BitVec.ofNat 8 (v.toNat % 256))) ∨
        (s.upc = 4 ∧ f = .whi (r.addr + 1) (BitVec.ofNat 8 (v.toNat / 256))) →
      exec i s =
        .next { s with out := some ⟨f, true, r.page, r.addr.setWidth 8⟩, pollT := 0, upc := s.upc + 1 }) := by
  rw [← lowByte_eq, ← highByte_eq]
  refine ⟨fun hu => exec_writeCheck_allowed hi hu (by rw [hprog]; rfl),
    fun hu => exec_writeCheck_refused hi hu (by rw [hprog]; rfl), ?_⟩
  rintro f (⟨hu, rfl⟩ | ⟨hu, rfl⟩ | ⟨hu, rfl⟩) <;> rw [hu] <;> exact exec_sendTo hi hu (by rw [hprog]; rfl)

/-- Settles O32: the write of each trigger, and the positions behind it. -/
theorem triggersComplete : Obligations.TriggersComplete := by
  refine ⟨?_, fun s hu => exec_of_upc (f := finishWrite) rfl hu rfl, fun s hu => ?_,
    fun s hu => exec_waitHold_holds rfl hu rfl, fun s hu => exec_waitHold_over rfl hu rfl,
    fun s hu => exec_of_upc (f := finishOk) rfl hu rfl⟩
  · rintro s i r v (⟨rfl, rfl, rfl⟩ | ⟨rfl, rfl, rfl⟩)
    · exact exec_write rfl rfl
    · exact exec_write rfl rfl
  · rw [exec_of_upc (f := triggerSent) rfl hu rfl, triggerSent, waitStart, State.advance, hu]
    rfl

/-! ### CLOSE (41_configuration R186) -/

/-- Settles O33: the release of the lines, open or not, and the end, in FAILED or not. -/
theorem closeCompletes : Obligations.CloseCompletes := by
  refine ⟨fun s hu ho => ?_, fun s hu ho => ?_, fun s hu hf => ?_, fun s hu hf => ?_⟩
  · rw [exec_of_upc (f := releaseLines) rfl hu rfl, releaseLines, if_pos ho, State.advance, State.closeLink]
    simp [hu, State.record]
  · rw [exec_of_upc (f := releaseLines) rfl hu rfl, releaseLines, if_neg (by simp [ho]), advance_of_upc hu]
  · rw [exec_of_upc (f := finishClose) rfl hu rfl, finishClose, if_neg hf]
  · rw [exec_of_upc (f := finishClose) rfl hu rfl, finishClose, if_pos hf, ← hf]

end Sys2Proof.Machine
end

section
/-! INIT as a run on the fastest schedule (41_configuration R182; 70_reset_and_hazards R307, R312). -/

namespace Sys2Proof.Machine

/-- A wait of exactly `n` ticks, with no transfer in the framer and INIT in progress. -/
theorem runSteps_initWait {n : Nat} {s : State} {cfg : CfgIn} {ts : List Turn} (hp : paramsOk s.params = true)
    (hc : s.cmd = some ⟨.init, cfg⟩) (ho : s.out = none) (hs : s.settle = 0) (hd : s.dly = n)
    (ht : s.turns = ticks n ++ ts) :
    runSteps n s = .next { s with now := s.now + n, dly := 0, turns := ts } := by
  have hpoll : s.polling = false := by simp [State.polling, ho, hc]
  rw [runSteps_ticks n s ts hp ht, hpoll, hs, hd, Nat.zero_sub, Nat.sub_self]
  simp

/-- INIT passes its check in UNINIT. -/
theorem exec_init_start {s : State} (hu : s.upc = 0) (hf : s.fsm = .uninit) :
    exec .init s = .next { s with upc := 1 } := by
  have hl : s.fsm ∈ [Fsm.uninit] := List.mem_singleton.2 hf
  rw [exec_of_upc (f := startIn [.uninit]) rfl hu rfl, startIn, if_pos hl, advance_of_upc hu]

/-- INIT is accepted, opens the link and waits for `T_PWR`. -/
theorem runSteps_init_opens {s : State} {pr : Presented} {rest : List Presented} {ops : List Bool} {ts : List Turn}
    (hp : paramsOk s.params = true) (hidle : s.idle) (hf : s.fsm = .uninit) (hpr : s.presented = pr :: rest)
    (hd : decodeCmd s.params pr.word = .ok .init) (hops : s.opens = true :: ops)
    (ht : s.turns = .core :: .core :: .core :: (ticks 200000 ++ ts)) :
    runSteps 200003 s = .next { s with
      presented := rest, rspValid := false, cmd := some ⟨.init, pr.cfg⟩, misuse := false, opens := ops,
      hist := s.hist ++ [⟨.opened true, s.now⟩], linesOpen := true, rstO := some false, settle := 0, dly := 0,
      now := s.now + 200000, upc := 3, turns := ts } := by
  obtain ⟨hopen, -⟩ := initCompletes
  refine runSteps_of_step (step_accept hp ht hidle hpr hd (exec_init_start rfl hf)) ?_
  refine runSteps_of_step (step_command hp rfl hidle.2 rfl (hopen _ rfl (by simp [State.opensOk, hops]))) ?_
  refine runSteps_of_step (step_command hp rfl hidle.2 rfl (exec_waitStart rfl rfl rfl)) ?_
  refine Eq.trans (runSteps_initWait hp rfl hidle.2 rfl rfl rfl) ?_
  simp [hops]

/-- Behind its first wait INIT raises the reset line and waits for `T_RST`. -/
theorem runSteps_init_edge {s : State} {cfg : CfgIn} {ts : List Turn} (hp : paramsOk s.params = true)
    (hc : s.cmd = some ⟨.init, cfg⟩) (ho : s.out = none) (hs : s.settle = 0) (hd : s.dly = 0) (hu : s.upc = 3)
    (ht : s.turns = .core :: .core :: .core :: (ticks 500000 ++ ts)) :
    runSteps 500003 s = .next { s with
      hist := s.hist ++ [⟨.rst true, s.now⟩], rstO := some true, fsm := .reset, dly := 0, now := s.now + 500000,
      upc := 6, turns := ts } := by
  obtain ⟨-, -, -, hedge, -⟩ := initCompletes
  refine runSteps_of_step (step_command hp ht ho hc (exec_waitHold_over rfl hu rfl hd)) ?_
  refine runSteps_of_step (step_command hp rfl ho hc (hedge _ rfl)) ?_
  refine runSteps_of_step (step_command hp rfl ho hc (exec_waitStart rfl rfl rfl)) ?_
  exact runSteps_initWait hp hc ho hs rfl rfl

/-- The frames of INIT's identity read, by position. -/
inductive IdentityFrame (r : RegAddr) : Nat → LinkFrame → Prop where
  | page : IdentityFrame r 9 (.pagesel r.page)
  | address : IdentityFrame r 10 (.raddr r.addr)
  | null : IdentityFrame r 11 .null

theorem exec_init_frame {p : Params} {s : State} {n : Nat} {f : LinkFrame} (h : IdentityFrame p.cat.prodId n f)
    (hp : s.params = p) (hu : s.upc = n) :
    exec .init s = .next { s with
      out := some ⟨f, true, p.cat.prodId.page, p.cat.prodId.addr.setWidth 8⟩, pollT := 0, upc := n + 1 } := by
  subst hp
  cases h <;> exact exec_sendTo rfl hu rfl

theorem exec_init_identifies {s : State} (hu : s.upc = 13) (hm : s.misuse = false)
    (hv : s.regv = s.params.prodIdExpected) :
    exec .init s = .next (({ s with fsm := .idv } : State).respond .ok s.regv) := by
  rw [exec_of_upc (f := identityCheck) rfl hu rfl, identityCheck_passes hm hv]

/-- Behind its second wait INIT reads the identity and ends in IDV. -/
theorem runSteps_init_reads {s : State} {cfg : CfgIn} {e : RegAddr} {a1 a2 : Frame} {rds : List Bool}
    {as : List (Option Frame)} {ts : List Turn} (hp : paramsOk s.params = true) (hc : s.cmd = some ⟨.init, cfg⟩)
    (ho : s.out = none) (hs : s.settle = 0) (hd : s.dly = 0) (hu : s.upc = 6) (he : s.params.cat.prodId = e)
    (hread : e.readFlag = true) (hr : s.readies = true :: true :: true :: rds)
    (ha : s.answers = some a1 :: some a2 :: some s.params.prodIdExpected :: as)
    (ht : s.turns = coreTurns 6 ++ (ticks 40 ++ (coreTurns 2 ++ (ticks 40 ++ (coreTurns 3 ++ ts))))) :
    runSteps 91 s = .next { s with
      fsm := .idv,
      hist := s.hist ++
        [⟨.poll true, s.now⟩, ⟨.xfer (fPage s.params.pageAddr e.page) (some a1) true, s.now⟩,
         ⟨.poll true, s.now + 40⟩, ⟨.xfer (fRaddr e.addr) (some a2) true, s.now + 40⟩,
         ⟨.poll true, s.now + 80⟩, ⟨.xfer fNull (some s.params.prodIdExpected) true, s.now + 80⟩],
      now := s.now + 80, settle := 40, pollT := 40, rx := s.params.prodIdExpected,
      regv := s.params.prodIdExpected, rspValid := true, rspStatus := .ok, rspData := s.params.prodIdExpected,
      cmd := none, upc := 0, misuse := false, readies := rds, answers := as, turns := ts } := by
  subst he
  have ht' : s.turns = .core :: .core :: .core :: .core ::
      .core :: .core :: (ticks 40 ++ .core :: .core :: (ticks 40 ++ .core :: .core :: .core :: ts)) := ht
  refine runSteps_of_step (step_command hp ht' ho hc (exec_waitHold_over rfl hu rfl hd)) ?_
  refine runSteps_of_step (step_command hp rfl ho hc (exec_clearMisuse rfl rfl rfl)) ?_
  refine runSteps_of_step (step_command hp rfl ho hc (exec_readCheck_allowed rfl rfl rfl hread)) ?_
  refine runSteps_of_step (step_command hp rfl ho hc (exec_init_frame .page rfl rfl)) ?_
  refine runSteps_of_run 45 (runSteps_exchange_next (fun _ => exec_init_frame .address) hp hc rfl rfl hs hr ha rfl) ?_
  refine runSteps_of_run 3 (runSteps_exchange_next (fun _ => exec_init_frame .null) hp hc rfl rfl rfl rfl rfl rfl) ?_
  refine runSteps_of_step (step_frame hp rfl rfl rfl rfl rfl) ?_
  refine runSteps_of_step (step_command hp rfl rfl hc (exec_latchRegv rfl rfl rfl)) ?_
  refine runSteps_of_step (step_command hp rfl rfl hc (exec_init_identifies rfl rfl rfl)) ?_
  simp [runSteps, State.respond, hd, ho, LinkFrame.bits]

/-- Settles O30: the open and the wait for `T_PWR`, the edge and the wait for `T_RST`, the identity read. -/
theorem initRun : Obligations.InitRun := by
  intro s pr rest e a1 a2 ops rds as ts hp hidle hf hpr hd he hread hops hr ha ht
  -- With the turns grouped to the right the comparison below never unfolds a list of ticks.
  simp only [List.append_assoc] at ht
  have ht' : s.turns = .core :: .core :: .core :: (ticks 200000 ++ .core :: .core :: .core :: (ticks 500000 ++
      (coreTurns 6 ++ (ticks 40 ++ (coreTurns 2 ++ (ticks 40 ++ (coreTurns 3 ++ ts))))))) := ht
  refine runSteps_of_run 500094 (runSteps_init_opens hp hidle hf hpr hd hops ht') ?_
  refine runSteps_of_run 91 (runSteps_init_edge hp rfl hidle.2 rfl rfl rfl rfl) ?_
  refine Eq.trans (runSteps_init_reads hp rfl hidle.2 rfl rfl rfl he hread hr ha rfl) ?_
  simp [hidle.2, Nat.add_assoc]

end Sys2Proof.Machine
end

section
/-! Who changes `fsm` and who writes the session mode (41_configuration R187; 10_state R38, R39), and the exchanges of
ACTIVATE with a custom filter in order (41_configuration R183, R189). -/

namespace Sys2Proof.Machine

/-! ### What a step does to the session, and for which command -/

/-- The command that a core turn works on: the latched one. -/
theorem workingOn_of_cmd {s : State} {c : Cmd} (h : s.cmd = some c) : s.workingOn = some c.instr := by
  simp [State.workingOn, h]

/-- The command that a core turn works on: the one it accepts. -/
theorem workingOn_of_presented {s : State} {pr : Presented} {rest : List Presented} {i : Instr} (hc : s.cmd = none)
    (hp : s.presented = pr :: rest) (hd : decodeCmd s.params pr.word = .ok i) : s.workingOn = some i := by
  simp [State.workingOn, hc, hp, hd, Except.toOption]

/-- What a step can do to the session, with the command that the core works on. -/
inductive SessionStep (s t : State) : Prop where
  /-- A tick, an idle core, an illegal word, or a frame that raises no fatal error. -/
  | same (h : SameSession s t)
  /-- Core reset. -/
  | reset (h : s.turn = .reset) (hf : t.fsm = .uninit) (hm : t.mode = none)
  /-- A frame of the command in progress ends it with a fatal error. -/
  | frameFails (h : s.turn = .core) (c : Cmd) (hc : s.cmd = some c) (ho : s.out ≠ none) (hf : t.fsm = .failed)
      (hm : t.mode = none)
  /-- A position of the command in progress. -/
  | works (h : s.turn = .core) (c : Cmd) (hc : s.cmd = some c) (hx : exec c.instr s.popTurn = .next t)
  /-- Position 0 of a presented command, in the state `u` that has latched it. -/
  | accepts (h : s.turn = .core) (i : Instr) (hw : s.workingOn = some i) (u : State) (hu : SameSession s u)
      (h0 : u.upc = 0) (hi : i.isCommand = true) (hx : exec i u = .next t)

/-- A frame's step leaves the session, or ends the command with a fatal error. -/
theorem sendFrame_fails (s : State) (tx : Frame) :
    SameSession s (s.sendFrame tx) ∨ ((s.sendFrame tx).fsm = .failed ∧ (s.sendFrame tx).mode = none) := by
  obtain ⟨checked, page, addr, hs, -⟩ := sendFrame_sent s tx
  rw [hs]
  rcases framer_session s tx checked page addr with ⟨t, ht | ht, hq, -⟩ | ⟨u, e, hr, hq, -⟩
  · rw [ht]
    exact .inl hq.toSameSession
  · rw [ht]
    exact .inl ⟨hq.fsm, hq.mode⟩
  · rw [hr]
    cases hf : u.fatal e.code with
    | true => exact .inr (by simp [LinkResult.sent, hf])
    | false => exact .inl ⟨by simp [LinkResult.sent, hf, hq.fsm], by simp [LinkResult.sent, hf, hq.mode]⟩

/-- From a state of the session invariant a step is one of these. -/
theorem step_session {s t : State} (hs : SessionInv s) (h : step s = .next t) : SessionStep s t := by
  cases step_cases h with
  | tick _ ht =>
    subst ht
    exact .same ⟨by simp, by simp⟩
  | reset hreset ht =>
    subst ht
    exact .reset hreset rfl rfl
  | frame hcore o ho ht =>
    subst ht
    cases hc : s.cmd with
    | none => exact absurd ho (by simp [(hs.idle hc).2])
    | some c =>
      rcases sendFrame_fails s.popTurn (o.frame.bits s.params) with hsame | ⟨hf, hm⟩
      · exact .same ⟨by simpa using hsame.fsm, by simpa using hsame.mode⟩
      · exact .frameFails hcore c hc (by simp [ho]) hf hm
  | command hcore _ c hc hx => exact .works hcore c hc hx
  | idle _ _ _ _ ht =>
    subst ht
    exact .same ⟨by simp, by simp⟩
  | illegal _ _ _ pr rest _ _ _ ht =>
    subst ht
    obtain ⟨hf, hm⟩ := (raiseBadCommand_kept (s.popTurn.takePresented rest)).1
    exact .same ⟨by simpa using hf, by simpa using hm⟩
  | accept hcore _ hc pr rest hp i hd hx =>
    exact .accepts hcore i (workingOn_of_presented hc hp hd) _ ⟨by simp, by simp⟩ rfl (decodeCmd_ok hd).2.1 hx

/-! ### Changes of `fsm` (41_configuration R187) -/

/-- CLOSE's changes of `fsm`: to UNINIT, and FAILED stays. -/
theorem close_fsm {s t : State} (h : exec .close s = .next t) :
    t.fsm = s.fsm ∨ (s.fsm ≠ .failed ∧ t.fsm = .uninit) := by
  obtain ⟨f, hf, rfl⟩ := exec_command_event rfl h
  cases hf
  case startClose =>
    rcases startIn_cases [.reset, .idv, .active, .failed] s with ⟨-, ht⟩ | ⟨-, ht⟩ <;> rw [ht]
    · exact .inl rfl
    · exact .inl (raiseBadState_kept s).1.fsm
  case releaseLines =>
    unfold releaseLines
    split <;> exact .inl rfl
  case finishClose =>
    by_cases hf : s.fsm = .failed
    · exact .inl (by simp [finishClose, hf])
    · exact .inr ⟨hf, by simp [finishClose, hf]⟩
  case sendTo hclose => exact absurd rfl hclose.1
  case readCheck hclose | latchRegv hclose | writeCheck hclose | waitHold hclose | clearMisuse hclose =>
    simp at hclose

/-- The commands other than INIT and CLOSE run in IDV or ACTIVE. -/
theorem runningFsm_verified {i : Instr} {u : Nat} {f : Fsm} (h : runningFsm i u f = true) (hinit : i ≠ .init)
    (hclose : i ≠ .close) : f = .idv ∨ f = .active := by
  cases i <;> simp_all [runningFsm]

/-- A fatal error of a command in progress other than CLOSE is an edge of the table. -/
theorem fsmEdge_failed {i : Instr} {u : Nat} {f : Fsm} (h : runningFsm i u f = true) (hi : i ≠ .close) :
    fsmEdge i f .failed = true := by
  cases i with
  | init => rcases runningFsm_init.1 h with ⟨-, rfl⟩ | ⟨-, rfl⟩ <;> rfl
  | close => exact absurd rfl hi
  | pagesel | raddr | null | wlo | whi => exact absurd h Bool.false_ne_true
  | _ => rcases runningFsm_verified h (by simp) hi with rfl | rfl <;> rfl

/-- A command in progress changes `fsm` along an edge of the table. -/
theorem SessionCase.fsm_edge {i : Instr} {s t : State} (h : SessionCase i s t) (hrun : runningFsm i s.upc s.fsm = true)
    (hi : i ≠ .close) (hne : t.fsm ≠ s.fsm) : fsmEdge i s.fsm t.fsm = true := by
  cases h with
  | quiet hq => exact absurd hq.fsm hne
  | ended _ hs => exact absurd hs.fsm hne
  | failed _ hf => exact hf ▸ fsmEdge_failed hrun hi
  | leaves hi' _ hf =>
    obtain ⟨m, win, decl, cust, fsel, rfl⟩ := hi'
    have hidv : s.fsm = .idv := by simpa [runningFsm] using hrun
    exact absurd (hf.trans hidv.symm) hne
  | activated hi' _ hf =>
    obtain ⟨m, win, decl, cust, fsel, rfl⟩ := hi'
    have hidv : s.fsm = .idv := by simpa [runningFsm] using hrun
    rw [hidv, hf]
    rfl
  | opened _ _ _ hs => exact absurd hs.fsm hne
  | edge hi' hu _ hf =>
    subst hi'
    obtain ⟨-, hun⟩ := (runningFsm_init.1 hrun).resolve_right (by omega)
    rw [hun, hf]
    rfl
  | identified hi' hu _ hf =>
    subst hi'
    obtain ⟨-, hres⟩ := (runningFsm_init.1 hrun).resolve_left (by omega)
    rw [hres, hf]
    rfl
  | released hi' | closed hi' => exact absurd hi' hi

/-- The check of a command changes `fsm` along an edge of the table: ACTIVATE leaves ACTIVE. -/
theorem StartCase.fsm_edge {i : Instr} {s t : State} (h : StartCase i s t) (hne : t.fsm ≠ s.fsm) :
    fsmEdge i s.fsm t.fsm = true := by
  cases h with
  | passes _ _ ht => exact absurd (congrArg State.fsm ht) hne
  | leaves hl hi ht =>
    obtain ⟨m, win, decl, cust, fsel, rfl⟩ := hi
    subst ht
    have hf : s.fsm = .idv ∨ s.fsm = .active := by simpa [legalIn] using hl
    rcases hf with hf | hf
    · exact absurd hf.symm hne
    · rw [hf]
      rfl
  | refused _ ht => exact absurd (ht ▸ (raiseBadState_kept s).1.fsm) hne

/-- CLOSE in progress changes `fsm` along an edge of the table. -/
theorem close_fsm_edge {s t : State} (h : exec .close s = .next t) (hrun : runningFsm .close s.upc s.fsm = true)
    (hne : t.fsm ≠ s.fsm) : fsmEdge .close s.fsm t.fsm = true := by
  obtain ⟨hf, ht⟩ := (close_fsm h).resolve_left hne
  have hverified : s.fsm = .idv ∨ s.fsm = .active := by simpa [runningFsm, hf] using hrun
  rcases hverified with hidv | hactive
  · rw [hidv, ht]
    rfl
  · rw [hactive, ht]
    rfl

/-- A step changes `fsm` by core reset, or along an edge of the command that the core works on. -/
theorem SessionStep.fsm_edge {s t : State} (h : SessionStep s t) (hs : SessionInv s) (hne : t.fsm ≠ s.fsm) :
    (s.turn = .reset ∧ t.fsm = .uninit) ∨
      (s.turn = .core ∧ ∃ i, s.workingOn = some i ∧ fsmEdge i s.fsm t.fsm = true) := by
  cases h with
  | same h => exact absurd h.fsm hne
  | reset h hf => exact .inl ⟨h, hf⟩
  | frameFails h c hc ho hf _ =>
    obtain ⟨-, hrun, hout⟩ := hs.running hc
    exact .inr ⟨h, _, workingOn_of_cmd hc, hf ▸ fsmEdge_failed hrun (hout ho)⟩
  | works h c hc hx =>
    obtain ⟨-, hrun, -⟩ := hs.running hc
    rw [← s.popTurn_fsm, ← s.popTurn_upc] at hrun
    rw [← s.popTurn_fsm] at hne ⊢
    refine .inr ⟨h, _, workingOn_of_cmd hc, ?_⟩
    by_cases hi : c.instr = .close
    · rw [hi] at hrun hx ⊢
      exact close_fsm_edge hx hrun hne
    · exact (exec_session (runningFsm_isCommand hrun) hx).fsm_edge hrun hi hne
  | accepts h i hw u hu h0 hi hx =>
    rw [← hu.fsm] at hne ⊢
    exact .inr ⟨h, i, hw, (exec_start hi h0 hx).fsm_edge hne⟩

/-! ### Writes of the session mode (10_state R39) -/

/-- What a command that changes the session mode is, and what it writes. -/
def WritesMode (i : Instr) (t : State) : Prop :=
  (∃ m win decl cust fsel, i = .activate m win decl cust fsel ∧
    (t.mode = none ∨ (t.mode = some m ∧ t.fsm = .active ∧ t.rspStatus = .ok ∧ t.cmd = none))) ∨
  (t.mode = none ∧ (i = .close ∨ t.fsm = .failed))

/-- ACTIVATE clears the mode, or writes its own in ACTIVE with an OK response. -/
theorem activate_mode {m : Mode} {win : BitVec 4} {decl : BitVec 3} {cust : Bool} {fsel : BitVec 3} {s t : State}
    (h : exec (.activate m win decl cust fsel) s = .next t) (hne : t.mode ≠ s.mode) :
    t.mode = none ∨ (t.mode = some m ∧ t.fsm = .active ∧ t.rspStatus = .ok ∧ t.cmd = none) := by
  obtain ⟨f, hf, rfl⟩ := exec_command_event rfl h
  have quiet : ∀ {n f}, QuietEvent n f → (f s).mode = s.mode := fun h => (h.quiet s).mode
  cases hf
  case startActivate =>
    unfold startActivate at hne ⊢
    split at hne
    next hv =>
      rw [if_pos hv]
      exact .inl rfl
    next => exact absurd (raiseBadState_kept s).1.mode hne
  case modeCheck =>
    unfold modeCheck at hne ⊢
    split at hne
    next => exact absurd (State.raise_mode ..) hne
    next hpass =>
      rw [if_neg hpass]
      exact .inr ⟨rfl, rfl, rfl, rfl⟩
  case firstTap => exact absurd (quiet .firstTap) hne
  case nextTap => exact absurd (quiet .nextTap) hne
  case readCheck => exact absurd (quiet (.readCheck _)) hne
  case latchRegv => exact absurd (quiet .latchRegv) hne
  case writeCheck => exact absurd (quiet (.writeCheck _)) hne
  case sendTo => exact absurd (quiet (.send ..)) hne
  case clearMisuse => exact absurd (quiet .clearMisuse) hne
  case waitHold => exact absurd (quiet .waitHold) hne

/-- A command changes the session mode only so. -/
theorem exec_writesMode {i : Instr} {s t : State} (hi : i.isCommand = true) (h : exec i s = .next t)
    (hne : t.mode ≠ s.mode) : WritesMode i t := by
  have hactivate : (∃ m win decl cust fsel, i = .activate m win decl cust fsel) → WritesMode i t := by
    rintro ⟨m, win, decl, cust, fsel, rfl⟩
    exact .inl ⟨m, win, decl, cust, fsel, rfl, activate_mode h hne⟩
  cases exec_session hi h with
  | quiet hq => exact absurd hq.mode hne
  | ended _ hs | opened _ _ _ hs | released _ _ hs => exact absurd hs.mode hne
  | failed _ hf hm => exact .inr ⟨hm, .inr hf⟩
  | leaves hi' | activated hi' => exact hactivate hi'
  | edge _ _ _ _ hm | identified _ _ _ _ hm => exact absurd hm hne
  | closed hi' _ _ hm => exact .inr ⟨hm, .inl hi'⟩

/-- A step changes the session mode by core reset, or as the command that the core works on does. -/
theorem SessionStep.writesMode {s t : State} (h : SessionStep s t) (hs : SessionInv s) (hne : t.mode ≠ s.mode) :
    (s.turn = .reset ∧ t.mode = none) ∨ ∃ i, s.workingOn = some i ∧ WritesMode i t := by
  cases h with
  | same h => exact absurd h.mode hne
  | reset h _ hm => exact .inl ⟨h, hm⟩
  | frameFails _ c hc _ hf hm => exact .inr ⟨_, workingOn_of_cmd hc, .inr ⟨hm, .inr hf⟩⟩
  | works _ c hc hx =>
    obtain ⟨-, hrun, -⟩ := hs.running hc
    exact .inr ⟨_, workingOn_of_cmd hc, exec_writesMode (runningFsm_isCommand hrun) hx (by simpa using hne)⟩
  | accepts _ i hw u hu _ hi hx => exact .inr ⟨i, hw, exec_writesMode hi hx (by rwa [hu.mode])⟩

/-- Settles O34: core reset's changes, and those of the command that the core works on. -/
theorem sessionTransitions : Obligations.SessionTransitions := by
  intro s t hs h
  have hstep := step_session hs h
  refine ⟨hstep.fsm_edge hs, fun hne => ?_⟩
  rcases hstep.writesMode hs hne with ⟨hreset, hm⟩ | ⟨i, hw, ⟨m, win, decl, cust, fsel, rfl, hm⟩ | ⟨hm, rfl | hf⟩⟩
  · exact .inr ⟨hm, .inr (.inr hreset)⟩
  · exact .inl ⟨m, win, decl, cust, fsel, hw, hm⟩
  · exact .inr ⟨hm, .inl hw⟩
  · exact .inr ⟨hm, .inr (.inl hf)⟩

/-! ### ACTIVATE's exchanges with a custom filter (41_configuration R183, R189) -/

/-- An allowed write makes its three exchanges. -/
theorem writeStretch_left {s : State} {r : RegName} (h : (s.entry r).writeFlag = true) (v : Half) :
    (writeStretch s r v).left 0 = writeFrames s.params (s.entry r) v := by
  simp [writeStretch, access, h]

/-- An allowed read makes its three exchanges. -/
theorem readStretch_left {s : State} {r : RegName} (h : (s.entry r).readFlag = true) :
    (readStretch s r).left 0 = readFrames s.params (s.entry r) := by
  simp [readStretch, access, h]

/-- The loop over the taps, with every coefficient writable. -/
theorem tapsStretch_left {s : State} (h : ∀ k, (s.entry (.coef k)).writeFlag = true) :
    (tapsStretch s).left 0 =
      (List.finRange 32).flatMap fun k => writeFrames s.params (s.entry (.coef k)) s.cfg.taps[k] := by
  simp only [tapsStretch, tapsFrom, if_true, List.drop_zero, writeStretch_left (h _)]

/-- The exchanges left behind a command's check are those of its stretches. -/
theorem remaining_behind_check {s : State} {c : Cmd} {gs : List Stretch} (hc : s.cmd = some c) (hu : s.upc = 1)
    (ho : s.out = none) (hg : stretches c.instr s = quiet 1 :: gs) (hpos : ∀ g ∈ gs, 0 < g.size) :
    s.remaining = gs.flatMap fun g => g.left 0 := by
  have hrest : s.remaining = exchangesLeft (quiet 1 :: gs) 1 := by
    simp [State.remaining, ho, hc, hu, hg]
  rw [hrest, exchangesLeft_later (by rfl)]
  exact exchangesLeft_zero hpos

/-- The stretches of ACTIVATE with a custom filter outside Streaming. -/
theorem stretches_activate_custom {m : Mode} (hm : m ≠ .rts) (win : BitVec 4) (decl fsel : BitVec 3) (s : State) :
    stretches (.activate m win decl true fsel) s =
      [quiet 1, writeStretch s .decCtrl (decCtrlValue s.params decl), writeStretch s .avgCtrl s.cfg.avg,
       tapsStretch s, writeStretch s .filtCtrl (customFiltCtrlValue s.params),
       writeStretch s .recCtrl (recCtrlValue s.params m win), quiet 1, readStretch s .recCtrl, quiet 1] := by
  simp [stretches, hm]

/-- Settles O42: the stretches of ACTIVATE one after the other. -/
theorem tapsBeforeSelection : Obligations.TapsBeforeSelection := by
  intro s m win decl fsel cfg hm hc hu ho hallowed p
  have hcfg : s.cfg = cfg := by simp [State.cfg, hc]
  simp only [State.accessesAllowed, hm, decide_false, Bool.false_or, Bool.not_true, Bool.and_eq_true,
    List.all_eq_true] at hallowed
  obtain ⟨⟨⟨hdec, hrec⟩, hback⟩, ⟨havg, hfilt⟩, htaps⟩ := hallowed
  rw [remaining_behind_check hc hu ho (stretches_activate_custom hm win decl fsel s)
    (by simp [writeStretch, readStretch, tapsStretch, access, quiet])]
  simp only [List.flatMap_cons, List.flatMap_nil, List.append_nil, List.append_assoc, writeStretch_left hdec,
    writeStretch_left havg, writeStretch_left hfilt, writeStretch_left hrec, readStretch_left hback,
    tapsStretch_left fun k => htaps k (List.mem_finRange k), hcfg]
  rfl

end Sys2Proof.Machine
end

section
/-! CAPTURE's positions: its parameter reads, its stores and loops, the parse of a block, its completion, and what it
leaves unchanged (42_sampling R220 to R229, R248). -/

namespace Sys2Proof.Machine

/-! ### CAPTURE's micro-program (42_sampling R220) -/

theorem programOf_capture {s : State} {m : Mode} (hm : s.mode = some m) :
    programOf .capture s = captureProgram m s := by
  simp only [programOf, hm]

/-- CAPTURE at a known position of a session mode does that position's event. -/
theorem exec_capture_at {s : State} {m : Mode} {n : Nat} {f : State → State} (hm : s.mode = some m) (hu : s.upc = n)
    (h : (captureProgram m s)[n]? = some f) : exec .capture s = .next (f s) :=
  exec_of_upc rfl hu (by rw [programOf_capture hm, h])

/-! ### Parameter reads (42_sampling R222) -/

/-- A read of `r` that CAPTURE makes from position `start` on: `DEC_SRC`'s, and in the spectrum modes `AVG_SRC`'s. -/
def ParameterRead (s : State) (start : Nat) (r : RegAddr) : Prop :=
  ((s.mode = some .mtc ∨ s.mode = some .mfft ∨ s.mode = some .afft) ∧ start = 1 ∧
      r = s.params.cat.entry s.params.decSrcReg) ∨
    ((s.mode = some .mfft ∨ s.mode = some .afft) ∧ start = 7 ∧ r = s.params.cat.entry s.params.avgSrc.reg)

/-- The five positions of a parameter read are those of a register read (40_register_protocol R144). -/
theorem ParameterRead.programOf_capture {s : State} {start : Nat} {r : RegAddr} (h : ParameterRead s start r) {k : Nat}
    (hk : k < 5) : (programOf .capture s)[start + k]? = (regRead r)[k]? := by
  rcases h with ⟨hm | hm | hm, rfl, rfl⟩ | ⟨hm | hm, rfl, rfl⟩ <;> rw [Machine.programOf_capture hm] <;>
    interval_cases k <;> rfl

/-- A bit field as a number. -/
theorem bitField_eq (v : Half) (lsb width : Nat) :
    bitField v lsb width = BitVec.ofNat 16 (v.toNat / 2 ^ lsb % 2 ^ width) := by
  rw [bitField, BitVec.toNat_ushiftRight, Nat.shiftRight_eq_div_pow]

theorem decField_eq (p : Params) (v : Half) : decField p v = v.toNat / 2 ^ p.decSrcLsb % 8 := by
  have hlt : v.toNat / 2 ^ p.decSrcLsb % 8 < 8 := Nat.mod_lt _ (by decide)
  rw [decField, bitField_eq, BitVec.toNat_ofNat]
  omega

/-- Settles O35: each read at its five positions, and the field latched behind it. -/
theorem captureReadsParameters : Obligations.CaptureReadsParameters := by
  refine ⟨fun s r start h => ?_, fun s hu hm => ?_, fun s hu hm => ?_⟩
  · have hpos : ∀ {k : Nat}, k < 5 → (programOf .capture s)[start + k]? = (regRead r)[k]? :=
      fun hk => ParameterRead.programOf_capture h hk
    refine ⟨fun hu hr => exec_readCheck_allowed rfl hu (hpos (k := 0) (by decide)) hr,
      fun hu hr => exec_readCheck_refused rfl hu (hpos (k := 0) (by decide)) hr, ?_,
      fun hu => exec_latchRegv rfl hu (hpos (by decide))⟩
    rintro n f (⟨rfl, rfl⟩ | ⟨rfl, rfl⟩ | ⟨rfl, rfl⟩) hu <;> exact exec_sendTo rfl hu (hpos (by decide))
  · have hx : exec .capture s = .next (latchDecF s) := by
      rcases hm with hm | hm | hm <;> exact exec_capture_at hm hu rfl
    rw [hx, latchDecF, decField_eq, State.advance, hu]
  · have hx : exec .capture s = .next (latchAvgC s) := by
      rcases hm with hm | hm <;> exact exec_capture_at hm hu rfl
    rw [hx, latchAvgC, avgField, bitField_eq, State.advance, hu]

/-! ### Stores and loops (42_sampling R224, R226, R227) -/

/-- A checked word of a drain of `n` words: back to its frame for the next one, on to the final word behind the last
checked one. -/
theorem storeWord_loop {n : Nat} (hn : n ≤ 4096) (s : State) :
    storeWord n s = { s with
      mem := (storeWord n s).mem, upc := (storeWord n s).upc, i := (storeWord n s).i, ax := (storeWord n s).ax } ∧
    (storeWord n s).ax = s.ax ∧
    (s.i.val + 2 < n → (storeWord n s).i.val = s.i.val + 1 ∧ (storeWord n s).upc = s.upc - 1) ∧
    (s.i.val + 2 = n → (storeWord n s).i.val = s.i.val + 1 ∧ (storeWord n s).upc = s.upc + 1) := by
  unfold storeWord
  split
  · split
    · rename_i _ hlt
      exact ⟨rfl, rfl, fun _ => ⟨rfl, rfl⟩, fun h => absurd hlt (by omega)⟩
    · rename_i _ hge
      exact ⟨rfl, rfl, fun h => absurd h hge, fun _ => ⟨rfl, rfl⟩⟩
  · exact ⟨rfl, rfl, by omega, by omega⟩

/-- The final word of an axis: back for the next axis, on behind the last one. -/
theorem storeLast_loop (s : State) :
    storeLast 6 s = { s with
      mem := (storeLast 6 s).mem, upc := (storeLast 6 s).upc, i := (storeLast 6 s).i, ax := (storeLast 6 s).ax } ∧
    (storeLast 6 s).i = s.i ∧
    (s.ax.val < 2 → (storeLast 6 s).ax.val = s.ax.val + 1 ∧ (storeLast 6 s).upc = s.upc - 6) ∧
    (s.ax.val = 2 → (storeLast 6 s).ax = s.ax ∧ (storeLast 6 s).upc = s.upc + 1) := by
  unfold storeLast
  split
  · exact ⟨rfl, rfl, fun _ => ⟨rfl, rfl⟩, by omega⟩
  · exact ⟨rfl, rfl, by omega, fun _ => ⟨rfl, rfl⟩⟩

/-- A Streaming word: back to its frame for the next one, on behind word 99. -/
theorem storeBlockWord_loop (s : State) :
    storeBlockWord s = { s with
      mem := (storeBlockWord s).mem, upc := (storeBlockWord s).upc, w := (storeBlockWord s).w } ∧
    (s.w.val < 99 → (storeBlockWord s).w.val = s.w.val + 1 ∧ (storeBlockWord s).upc = s.upc - 1) ∧
    (s.w.val = 99 → (storeBlockWord s).w = s.w ∧ (storeBlockWord s).upc = s.upc + 1) := by
  unfold storeBlockWord
  split
  · exact ⟨rfl, fun _ => ⟨rfl, rfl⟩, by omega⟩
  · exact ⟨rfl, by omega, fun _ => ⟨rfl, rfl⟩⟩

/-- The parse of the collected block: back for the next block, on behind block 9. -/
theorem parseCollected_loop (s : State) :
    parseCollected s = { s with
      mem := (parseCollected s).mem, upc := (parseCollected s).upc, b := (parseCollected s).b,
      w := (parseCollected s).w } ∧
    (parseCollected s).mem = storeBlock s.b s.block s.mem ∧
    (s.b.val < 9 →
      (parseCollected s).b.val = s.b.val + 1 ∧ (parseCollected s).w.val = 0 ∧ (parseCollected s).upc = s.upc - 2) ∧
    (s.b.val = 9 → (parseCollected s).b = s.b ∧ (parseCollected s).w = s.w ∧ (parseCollected s).upc = s.upc + 1) := by
  rw [parseCollected_eq]
  generalize storeBlock s.b s.block s.mem = mem
  split
  · exact ⟨rfl, rfl, fun _ => ⟨rfl, rfl, rfl⟩, by omega⟩
  · exact ⟨rfl, rfl, by omega, fun _ => ⟨rfl, rfl, rfl⟩⟩

/-- A drain's two storing positions. -/
theorem exec_capture_drain {s : State} {m : Mode} {n : Nat} (hm : s.mode = some m)
    (h : m = .mtc ∧ n = 4096 ∧ (s.upc = 16 ∨ s.upc = 18) ∨
      (m = .mfft ∨ m = .afft) ∧ n = 2048 ∧ (s.upc = 22 ∨ s.upc = 24)) :
    n ≤ 4096 ∧
    ((s.upc = 16 ∨ s.upc = 22) ∧ exec .capture s = .next (storeWord n s) ∨
      (s.upc = 18 ∨ s.upc = 24) ∧ exec .capture s = .next (storeLast 6 s)) := by
  rcases h with ⟨rfl, rfl, hu | hu⟩ | ⟨rfl | rfl, rfl, hu | hu⟩
  · exact ⟨by decide, .inl ⟨.inl hu, exec_capture_at hm hu rfl⟩⟩
  · exact ⟨by decide, .inr ⟨.inl hu, exec_capture_at hm hu rfl⟩⟩
  · exact ⟨by decide, .inl ⟨.inr hu, exec_capture_at hm hu rfl⟩⟩
  · exact ⟨by decide, .inr ⟨.inr hu, exec_capture_at hm hu rfl⟩⟩
  · exact ⟨by decide, .inl ⟨.inr hu, exec_capture_at hm hu rfl⟩⟩
  · exact ⟨by decide, .inr ⟨.inr hu, exec_capture_at hm hu rfl⟩⟩

/-- Settles O36: the store and the jump of each storing position. -/
theorem captureStores : Obligations.CaptureStores := by
  obtain ⟨-, hle, -, -, -, hword, hlast, hblk⟩ := byteOrderMux
  refine ⟨fun s m n hm h => ?_, fun s hm => ⟨fun hu => ?_, fun hu => ?_⟩⟩
  · obtain ⟨hn, ⟨hu, hx⟩ | ⟨hu, hx⟩⟩ := exec_capture_drain hm h
    · obtain ⟨hframe, hax, hnext, hfinal⟩ := storeWord_loop hn s
      refine ⟨_, hx, hword s n, fun a h0 h1 => ?_, hframe, fun _ => ⟨hax, hnext, hfinal⟩, by omega⟩
      rw [storeWord_mem, Memory.readByte_writeWord_other _ _ _ _ h0 h1]
    · obtain ⟨hframe, hi, hnext, hfinal⟩ := storeLast_loop s
      refine ⟨_, hx, hlast s 6, fun a h0 h1 => ?_, hframe, by omega, fun _ => ⟨hi, hnext, hfinal⟩⟩
      rw [storeLast_mem, Memory.readByte_writeWord_other _ _ _ _ h0 h1]
  · obtain ⟨hframe, hnext, hend⟩ := storeBlockWord_loop s
    rw [hu] at hnext hend
    refine ⟨_, exec_capture_at (f := storeBlockWord) hm hu rfl, fun hwf => ?_, fun a h0 h1 => ?_, hframe, hnext, hend⟩
    · rw [hblk s hwf, hle]
    · rw [storeBlockWord_mem, Memory.readByte_writeWord_other _ _ _ _ h0 h1]
  · obtain ⟨hframe, hmem, hnext, hend⟩ := parseCollected_loop s
    rw [hu] at hnext hend
    exact ⟨_, exec_capture_at (f := parseCollected) hm hu rfl, hframe, hmem, hnext, hend⟩

/-! ### The parse of a block (42_sampling R228, R229) -/

/-- The two bytes of an element outside the one written keep their values. -/
theorem Memory.bytes_writeWord_other {q r : BufRef} (h : r ≠ q) (m : Memory) (v : Half) :
    Memory.readByte (Memory.writeWord m q v) r.address = Memory.readByte m r.address ∧
      Memory.readByte (Memory.writeWord m q v) (r.address + 1) = Memory.readByte m (r.address + 1) := by
  have hapart := BufRef.address_apart r q h
  exact ⟨Memory.readByte_writeWord_other m q v _ (by omega) (by omega),
    Memory.readByte_writeWord_other m q v _ (by omega) (by omega)⟩

/-- The two bytes of an element outside a block keep their values when the block is stored. -/
theorem Memory.bytes_storeBlock_other {b : Fin 10} {r : BufRef} (hi : ∀ f, r ≠ .info f b)
    (hs : ∀ ax j, r ≠ blockSample ax b j) (blk : List Half) (m : Memory) :
    Memory.readByte (storeBlock b blk m) r.address = Memory.readByte m r.address ∧
      Memory.readByte (storeBlock b blk m) (r.address + 1) = Memory.readByte m (r.address + 1) := by
  have hinfo := fun f => BufRef.address_apart r (.info f b) (hi f)
  have hsample := fun ax j => BufRef.address_apart r (blockSample ax b j) (hs ax j)
  constructor <;> refine Memory.readByte_storeBlock_other b blk m _ (fun f => ?_) (fun ax j => ?_)
  · have := hinfo f; omega
  · have := hsample ax j; omega
  · have := hinfo f; omega
  · have := hsample ax j; omega

/-- An element outside an axis of a block keeps its word when the axis is stored. -/
theorem Memory.readWord_storeBlockAxis_other {ax : Fin 3} {b : Fin 10} {r : BufRef} (h : ∀ j, r ≠ blockSample ax b j)
    (first : Nat) (blk : List Half) (m : Memory) :
    Memory.readWord (storeBlockAxis ax b first blk m) r = Memory.readWord m r := by
  have hapart := fun j => BufRef.address_apart r (blockSample ax b j) (h j)
  simp only [Memory.readWord]
  rw [Memory.readByte_storeBlockAxis_other ax b first blk m r.address fun j => by have := hapart j; omega,
    Memory.readByte_storeBlockAxis_other ax b first blk m (r.address + 1) fun j => by have := hapart j; omega]

theorem blockSample_injective (ax : Fin 3) (b : Fin 10) : Function.Injective (blockSample ax b) := by
  intro j k h
  simpa [blockSample, Fin.ext_iff] using h

/-- After writing `v j` to `r j` for the `j` of a list, each of these elements holds its word. -/
theorem Memory.readWord_foldl_writeWord {α : Type} {r : α → BufRef} (hr : Function.Injective r) (v : α → Half)
    {js : List α} {j : α} (hj : j ∈ js) {m : Memory} (hm : Memory.wf m = true) :
    Memory.readWord (js.foldl (fun m j => Memory.writeWord m (r j) (v j)) m) (r j) = v j := by
  have keeps : ∀ (ks : List α) (m : Memory), j ∉ ks →
      Memory.readWord (ks.foldl (fun m j => Memory.writeWord m (r j) (v j)) m) (r j) = Memory.readWord m (r j) := by
    intro ks
    induction ks with
    | nil => exact fun _ _ => rfl
    | cons k ks ih =>
      intro m hk
      rw [List.mem_cons, not_or] at hk
      rw [List.foldl_cons, ih _ hk.2, Memory.readWord_writeWord_other _ _ _ _ fun h => hk.1 (hr h)]
  induction js generalizing m with
  | nil => exact absurd hj List.not_mem_nil
  | cons k ks ih =>
    by_cases hks : j ∈ ks
    · exact ih hks (Memory.wf_writeWord m _ _ hm)
    · obtain rfl : j = k := (List.mem_cons.1 hj).resolve_right hks
      rw [List.foldl_cons, keeps ks _ hks, Memory.readWord_writeWord_same _ _ _ hm]

/-- Each sample of an axis of a block holds its word of the block. -/
theorem Memory.readWord_storeBlockAxis {m : Memory} (hm : Memory.wf m = true) (ax : Fin 3) (b : Fin 10) (first : Nat)
    (blk : List Half) (j : Fin 32) :
    Memory.readWord (storeBlockAxis ax b first blk m) (blockSample ax b j) = blockWord blk (first + j.val) :=
  Memory.readWord_foldl_writeWord (blockSample_injective ax b) (fun j => blockWord blk (first + j.val))
    (List.mem_finRange j) hm

/-- Samples of different axes are different elements. -/
theorem blockSample_ne {ax ax' : Fin 3} (h : ax ≠ ax') (b : Fin 10) (j j' : Fin 32) :
    blockSample ax b j ≠ blockSample ax' b j' := by
  simp [blockSample, h]

theorem blockSample_ne_info (ax : Fin 3) (b b' : Fin 10) (j : Fin 32) (f : Fin 4) :
    blockSample ax b j ≠ .info f b' := nofun

theorem info_ne_blockSample (ax : Fin 3) (b b' : Fin 10) (f : Fin 4) (j : Fin 32) :
    BufRef.info f b' ≠ blockSample ax b j := nofun

theorem info_ne {f f' : Fin 4} (h : f ≠ f') (b : Fin 10) : BufRef.info f b ≠ .info f' b := by
  simp [h]

theorem parseBlock_malformed {blk : List Half} (h : blk.length ≠ 100) (b : Fin 10) (s : State) :
    parseBlock b blk s = .raised (s.raise ⟨.malformedBlock, 0, 0, 100, BitVec.ofNat 16 blk.length⟩ 0) :=
  if_neg h

theorem parseBlock_stored {blk : List Half} (h : blk.length = 100) (b : Fin 10) (s : State) :
    parseBlock b blk s = .stored { s with mem := storeBlock b blk s.mem } :=
  if_pos h

/-- The samples of a stored block, axis by axis. -/
theorem Memory.readWord_storeBlock_sample {m : Memory} (hm : Memory.wf m = true) (b : Fin 10) (blk : List Half)
    (j : Fin 32) :
    Memory.readWord (storeBlock b blk m) (blockSample 0 b j) = blockWord blk (1 + j.val) ∧
    Memory.readWord (storeBlock b blk m) (blockSample 1 b j) = blockWord blk (33 + j.val) ∧
    Memory.readWord (storeBlock b blk m) (blockSample 2 b j) = blockWord blk (65 + j.val) := by
  have h0 := Memory.wf_writeWord m (.info 0 b) (blockWord blk 0) hm
  have hx := Memory.wf_storeBlockAxis 0 b 1 blk _ h0
  have hy := Memory.wf_storeBlockAxis 1 b 33 blk _ hx
  have hinfo := fun m f v ax => Memory.readWord_writeWord_other m (.info f b) _ v (blockSample_ne_info ax b b j f)
  simp only [storeBlock, hinfo]
  refine ⟨?_, ?_, Memory.readWord_storeBlockAxis hy 2 b 65 blk j⟩
  · rw [Memory.readWord_storeBlockAxis_other (blockSample_ne (by decide) b j),
      Memory.readWord_storeBlockAxis_other (blockSample_ne (by decide) b j),
      Memory.readWord_storeBlockAxis h0]
  · rw [Memory.readWord_storeBlockAxis_other (blockSample_ne (by decide) b j), Memory.readWord_storeBlockAxis hx]

/-- The metadata of a stored block. -/
theorem Memory.readWord_storeBlock_info {m : Memory} (hm : Memory.wf m = true) (b : Fin 10) (blk : List Half) :
    Memory.readWord (storeBlock b blk m) (.info 0 b) = blockWord blk 0 ∧
    Memory.readWord (storeBlock b blk m) (.info 1 b) = blockWord blk 97 ∧
    Memory.readWord (storeBlock b blk m) (.info 2 b) = blockWord blk 98 ∧
    Memory.readWord (storeBlock b blk m) (.info 3 b) = blockWord blk 99 := by
  have hz := Memory.wf_storeBlockAxis 2 b 65 blk _ (Memory.wf_storeBlockAxis 1 b 33 blk _
    (Memory.wf_storeBlockAxis 0 b 1 blk _ (Memory.wf_writeWord m (.info 0 b) (blockWord blk 0) hm)))
  have h1 := Memory.wf_writeWord _ (.info 1 b) (blockWord blk 97) hz
  have h2 := Memory.wf_writeWord _ (.info 2 b) (blockWord blk 98) h1
  have other : ∀ {f f' : Fin 4} (m : Memory) (v : Half), f' ≠ f →
      Memory.readWord (Memory.writeWord m (.info f b) v) (.info f' b) = Memory.readWord m (.info f' b) :=
    fun m v h => Memory.readWord_writeWord_other m _ _ v (info_ne h b)
  simp only [storeBlock]
  refine ⟨?_, ?_, ?_, Memory.readWord_writeWord_same _ _ _ h2⟩
  · rw [other _ _ (by decide), other _ _ (by decide), other _ _ (by decide),
      Memory.readWord_storeBlockAxis_other (info_ne_blockSample 2 b b 0),
      Memory.readWord_storeBlockAxis_other (info_ne_blockSample 1 b b 0),
      Memory.readWord_storeBlockAxis_other (info_ne_blockSample 0 b b 0), Memory.readWord_writeWord_same _ _ _ hm]
  · rw [other _ _ (by decide), other _ _ (by decide), Memory.readWord_writeWord_same _ _ _ hz]
  · rw [other _ _ (by decide), Memory.readWord_writeWord_same _ _ _ h1]

/-- Settles O37: the words of a stored block by their position, and the elements outside it. -/
theorem blockStored : Obligations.BlockStored := by
  refine fun b blk s => ⟨fun h => parseBlock_malformed h b s, fun h hwf => ?_⟩
  have hstored := parseBlock_stored h b s
  obtain ⟨hseq, htemp, hstatus, hcrc⟩ := Memory.readWord_storeBlock_info hwf b blk
  have hsample := Memory.readWord_storeBlock_sample hwf b blk
  have hother := fun r hi hs => Memory.bytes_storeBlock_other (b := b) (r := r) hi hs blk s.mem
  generalize storeBlock b blk s.mem = mem at *
  refine ⟨_, hstored, rfl, hseq, hsample, htemp, hstatus, hcrc, fun r hi hs => ?_⟩
  obtain ⟨hhigh, hlow⟩ := hother r hi hs
  simp only [Memory.readWord, hhigh, hlow]

/-! ### What a step of CAPTURE leaves unchanged -/

/-- `s` with what CAPTURE writes while it goes on as in `u`: the position, the poll and the frame, the values read, the
loop counters, the buffers, and a refusal's record. -/
def State.captured (s u : State) : State :=
  { s with
    pollT := u.pollT, regv := u.regv, decF := u.decF, avgC := u.avgC, ax := u.ax, i := u.i, b := u.b, w := u.w,
    mem := u.mem, out := u.out, upc := u.upc, lastErr := u.lastErr, log := u.log, misuse := u.misuse }

/-- A step of CAPTURE goes on, is refused by its check, or completes. -/
inductive CaptureFrame (s t : State) : Prop where
  | goesOn (u : State) (h : t = s.captured u)
  | refused (h : t = s.raiseBadState)
  | completes (m : Mode) (h : t = emitBatch m s)

/-- An event of CAPTURE is one of these. -/
theorem captureEvent_frame {f : State → State} (h : ProgramEvent .capture f) (s : State) : CaptureFrame s (f s) := by
  have keeps : f s = s.captured (f s) → CaptureFrame s (f s) := .goesOn _
  cases h
  case startCapture =>
    rcases startIn_cases [.active] s with ⟨-, ht⟩ | ⟨-, ht⟩ <;> rw [ht]
    · exact .goesOn s.advance rfl
    · exact .refused rfl
  case emitBatch m => exact .completes m rfl
  case latchDecF | latchAvgC | firstAxis | firstWord | firstBlock | sendRaw | latchRegv | sendTo => exact keeps rfl
  case storeWord n =>
    refine keeps ?_
    unfold storeWord
    split
    · split <;> rfl
    · rfl
  case storeLast len =>
    refine keeps ?_
    unfold storeLast
    split <;> rfl
  case storeBlockWord =>
    refine keeps ?_
    unfold storeBlockWord
    split <;> rfl
  case parseCollected =>
    refine keeps ?_
    rw [parseCollected_eq]
    generalize storeBlock s.b s.block s.mem = mem
    split <;> rfl
  case readCheck r _ =>
    rcases readCheck_cases r s with ⟨-, ht⟩ | ⟨-, ht⟩ <;> rw [ht]
    · exact .goesOn s.advance rfl
    · exact .goesOn ((s.refuseRead r).skip 5) rfl
  case writeCheck r _ =>
    rcases writeCheck_cases r s with ⟨-, ht⟩ | ⟨-, ht⟩ <;> rw [ht]
    · exact .goesOn s.advance rfl
    · exact .goesOn ((s.refuseWrite r).skip 4) rfl
  case waitHold h => simp at h
  case clearMisuse h => simp at h

theorem exec_capture_frame {s t : State} (h : exec .capture s = .next t) : CaptureFrame s t := by
  obtain ⟨f, hf, rfl⟩ := exec_command_event rfl h
  exact captureEvent_frame hf s

theorem raiseBadState_eq (s : State) :
    s.raiseBadState = { s with
      lastErr := ⟨.badState, 0, 0, 0, 0⟩, log := s.log ++ [⟨.error ⟨.badState, 0, 0, 0, 0⟩, s.now⟩],
      rspStatus := .badState, rspData := 0, rspValid := true, cmd := none, upc := 0, out := none } :=
  raise_of_not_fatal (e := ⟨.badState, 0, 0, 0, 0⟩) (show ¬s.fatal .badState = true from Bool.false_ne_true) 0

/-- Settles O38: the error entry of a malformed block; no event of CAPTURE raises it, whose block has 100 words. -/
theorem malformedBlock : Obligations.MalformedBlock := by
  refine ⟨fun b blk s h => ?_, State.block_length, fun s t hx ht => ?_⟩
  · have hfatal : ¬s.fatal .malformedBlock = true := Bool.false_ne_true
    rw [parseBlock_malformed h, raise_of_not_fatal hfatal]
  · cases exec_capture_frame hx with
    | goesOn u h => rwa [h] at ht
    | refused h => simp [h, raiseBadState_eq] at ht
    | completes m h => simp [h, emitBatch] at ht

/-! ### Where CAPTURE stores -/

/-- The events of a register access store nothing. -/
theorem access_mem {r : RegAddr} {v : Half} {f : State → State} (h : f ∈ regRead r ∨ f ∈ regWrite r v) (s : State) :
    (f s).mem = s.mem := by
  simp only [regRead, regWrite, List.mem_cons, List.not_mem_nil, or_false] at h
  rcases h with (rfl | rfl | rfl | rfl | rfl) | (rfl | rfl | rfl | rfl)
  · rcases readCheck_cases r s with ⟨-, ht⟩ | ⟨-, ht⟩ <;> rw [ht] <;> rfl
  · rfl
  · rfl
  · rfl
  · rfl
  · rcases writeCheck_cases r s with ⟨-, ht⟩ | ⟨-, ht⟩ <;> rw [ht] <;> rfl
  all_goals rfl

theorem startIn_mem (legal : List Fsm) (s : State) : (startIn legal s).mem = s.mem := by
  rcases startIn_cases legal s with ⟨-, ht⟩ | ⟨-, ht⟩ <;> rw [ht]
  · rfl
  · rw [raiseBadState_eq]

/-- The positions before the drain of an axis. -/
def drainPreparation (spectrum : Bool) (s : State) : MicroProgram :=
  startIn [.active] :: parameterReads spectrum s ++ regWrite (s.entry .bufPntr) 0 ++ [firstAxis]

/-- The preparation of the drain stores nothing. -/
theorem drainPreparation_mem {spectrum : Bool} {s : State} {f : State → State} (h : f ∈ drainPreparation spectrum s) :
    (f s).mem = s.mem := by
  have hreads : f ∈ parameterReads spectrum s → (∃ r, f ∈ regRead r) ∨ f = latchDecF ∨ f = latchAvgC := by
    intro h
    cases spectrum <;>
      simp only [parameterReads, List.mem_append, List.mem_singleton, if_true, Bool.false_eq_true, if_false,
        List.not_mem_nil, or_false] at h
    · exact h.imp (fun h => ⟨_, h⟩) .inl
    · rcases h with (h | h) | h | h
      · exact .inl ⟨_, h⟩
      · exact .inr (.inl h)
      · exact .inl ⟨_, h⟩
      · exact .inr (.inr h)
  simp only [drainPreparation, List.cons_append, List.mem_cons, List.mem_append, List.not_mem_nil,
    or_false] at h
  rcases h with rfl | (h | h) | rfl
  · exact startIn_mem _ s
  · rcases hreads h with ⟨r, h⟩ | rfl | rfl
    · exact access_mem (v := 0) (.inl h) s
    · rfl
    · rfl
  · exact access_mem (.inr h) s
  · rfl

/-- The drain of an axis stores at two of its positions, and the completion behind it does not. -/
theorem drainAxis_mem {r : RegAddr} {n k : Nat} {m : Mode} {f : State → State}
    (h : (drainAxis r n ++ [emitBatch m])[k]? = some f) (s : State) :
    (f s).mem = s.mem ∨ ((k = 4 ∨ k = 6) ∧ ∃ v, (f s).mem = Memory.writeWord s.mem (.raw s.ax s.i) v) := by
  have hk : k < 8 := (List.getElem?_eq_some_iff.1 h).1
  interval_cases k <;> obtain rfl := Option.some.inj h
  · exact .inl rfl
  · exact .inl rfl
  · exact .inl rfl
  · exact .inl rfl
  · exact .inr ⟨.inl rfl, _, storeWord_mem n s⟩
  · exact .inl rfl
  · exact .inr ⟨.inr rfl, _, storeLast_mem 6 s⟩
  · exact .inl rfl

/-- What a step of CAPTURE stores, and at which position. -/
inductive CaptureStore (s t : State) : Prop where
  | nothing (h : t.mem = s.mem)
  | sample (hm : s.mode = some .mtc ∧ (s.upc = 16 ∨ s.upc = 18) ∨
      (s.mode = some .mfft ∨ s.mode = some .afft) ∧ (s.upc = 22 ∨ s.upc = 24)) (v : Half)
      (h : t.mem = Memory.writeWord s.mem (.raw s.ax s.i) v)
  | streamed (hm : s.mode = some .rts ∧ s.upc = 3) (v : Half) (h : t.mem = Memory.writeWord s.mem (.blk s.w) v)
  | parsed (hm : s.mode = some .rts ∧ s.upc = 4) (h : t.mem = storeBlock s.b s.block s.mem)

/-- A step behind a preparation of `p` positions. -/
theorem drain_store {spectrum : Bool} {p n : Nat} {m : Mode} {s : State} {f : State → State}
    (hp : (drainPreparation spectrum s).length = p)
    (h : (drainPreparation spectrum s ++ (drainAxis (s.entry (axisReg s.ax)) n ++ [emitBatch m]))[s.upc]? = some f)
    (hm : s.upc = p + 4 ∨ s.upc = p + 6 → s.mode = some .mtc ∧ (s.upc = 16 ∨ s.upc = 18) ∨
      (s.mode = some .mfft ∨ s.mode = some .afft) ∧ (s.upc = 22 ∨ s.upc = 24)) : CaptureStore s (f s) := by
  rcases Nat.lt_or_ge s.upc p with hu | hu
  · rw [List.getElem?_append_left (by omega)] at h
    exact .nothing (drainPreparation_mem (List.mem_of_getElem? h))
  · rw [List.getElem?_append_right (by omega), hp] at h
    rcases drainAxis_mem h s with hs | ⟨hk, v, hs⟩
    · exact .nothing hs
    · exact .sample (hm (by omega)) v hs

/-- A step of CAPTURE stores at its storing positions only. -/
theorem exec_capture_store {s t : State} (h : exec .capture s = .next t) : CaptureStore s t := by
  obtain ⟨f, hf, rfl⟩ := exec_command_next rfl h
  cases hm : s.mode with
  | none =>
    simp only [programOf, hm] at hf
    split at hf
    · exact absurd hf (by simp)
    · obtain rfl := List.mem_singleton.1 (List.mem_of_getElem? hf)
      exact .nothing (startIn_mem _ s)
  | some m =>
    rw [programOf_capture hm] at hf
    cases m with
    | rts =>
      have hu : s.upc < 6 := (List.getElem?_eq_some_iff.1 hf).1
      generalize hn : s.upc = n at hf hu
      interval_cases n <;> obtain rfl := Option.some.inj hf
      · exact .nothing (startIn_mem _ s)
      · exact .nothing rfl
      · exact .nothing rfl
      · exact .streamed ⟨hm, hn⟩ _ (storeBlockWord_mem s)
      · obtain ⟨-, hmem, -⟩ := parseCollected_loop s
        exact .parsed ⟨hm, hn⟩ hmem
      · exact .nothing rfl
    | mtc => exact drain_store (spectrum := false) (p := 12) (n := 4096) (m := .mtc) rfl hf fun hu => .inl ⟨hm, hu⟩
    | mfft => exact drain_store (spectrum := true) (p := 18) (n := 2048) (m := .mfft) rfl hf fun hu => .inr ⟨.inl hm, hu⟩
    | afft => exact drain_store (spectrum := true) (p := 18) (n := 2048) (m := .afft) rfl hf fun hu => .inr ⟨.inr hm, hu⟩

/-- Settles O60: what a step writes beside the buffers, and where it stores. -/
theorem frameOfCapture : Obligations.FrameOfCapture := by
  intro s t hx
  refine ⟨?_, fun r hblk hparse hmtc hfft => ?_, fun a ha => ?_⟩
  · cases exec_capture_frame hx with
    | goesOn u h =>
      subst h
      rfl
    | refused h =>
      rw [h, raiseBadState_eq]
    | completes m h =>
      subst h
      rfl
  · cases exec_capture_store hx with
    | nothing h => simp [h]
    | sample hm v h => exact h ▸ Memory.bytes_writeWord_other (hm.elim hmtc hfft) s.mem v
    | streamed hm v h => exact h ▸ Memory.bytes_writeWord_other (hblk hm) s.mem v
    | parsed hm h =>
      obtain ⟨hi, hs⟩ := hparse hm
      exact h ▸ Memory.bytes_storeBlock_other hi hs s.block s.mem
  · have beyond : ∀ r : BufRef, a ≠ r.address ∧ a ≠ r.address + 1 := fun r => by
      have := r.address_bound
      omega
    cases exec_capture_store hx with
    | nothing h => rw [h]
    | sample _ v h | streamed _ v h => rw [h, Memory.readByte_writeWord_other _ _ _ _ (beyond _).1 (beyond _).2]
    | parsed _ h =>
      rw [h, Memory.readByte_storeBlock_other _ _ _ a (fun f => beyond _) fun ax j => beyond _]

/-! ### Completion (42_sampling R248) -/

theorem Memory.rawAxis_length (m : Memory) (ax : Fin 3) (n : Fin 4097) : (Memory.rawAxis m ax n).length = n.val := by
  simp [Memory.rawAxis]

/-- A word of an axis of raw words. -/
theorem Memory.rawAxis_getElem? (m : Memory) (ax : Fin 3) (n : Fin 4097) {i : Fin 4096} (hi : i.val < n.val) :
    (Memory.rawAxis m ax n)[i.val]? = some (Memory.readWord m (.raw ax i)) := by
  simp [Memory.rawAxis, hi]

/-- CAPTURE's last position in each mode. -/
theorem exec_capture_emits {s : State} {m : Mode} {n : Nat} (hm : s.mode = some m)
    (h : m = .rts ∧ n = 320 ∧ s.upc = 5 ∨ m = .mtc ∧ n = 4096 ∧ s.upc = 19 ∨
      (m = .mfft ∨ m = .afft) ∧ n = 2048 ∧ s.upc = 25) :
    (sampleCount m).val = n ∧ exec .capture s = .next (emitBatch m s) := by
  rcases h with ⟨rfl, rfl, hu⟩ | ⟨rfl, rfl, hu⟩ | ⟨rfl | rfl, rfl, hu⟩ <;> exact ⟨rfl, exec_capture_at hm hu rfl⟩

/-- Settles O39: the batch of the last position, field by field. -/
theorem captureCompletes : Obligations.CaptureCompletes := by
  refine ⟨fun i s t hx hb => ?_, fun s m n hm h => ?_⟩
  · obtain ⟨bs, hbs, -, hend⟩ := (exec_output hx).appends_batch
    have hne : bs ≠ [] := by
      rintro rfl
      exact hb (by rw [hbs, List.append_nil])
    obtain ⟨hi, hc, hv, hs⟩ := hend hne
    exact ⟨hi, hs, hv, hc⟩
  · obtain ⟨rfl, hx⟩ := exec_capture_emits hm h
    refine ⟨s.batch m, hx, rfl, by simp [State.batch, generateSteps], by simp [State.batch, Memory.rawAxis_length],
      by simp [State.batch, Memory.rawAxis_length], by simp [State.batch, Memory.rawAxis_length], fun i hi => ?_,
      fun i hi => ?_, fun hne => if_neg hne, fun hrts => ⟨_, if_pos hrts, rfl, rfl, rfl, rfl⟩⟩
    · simp [State.batch, generateSteps, hi]
    · simp [State.batch, Memory.rawAxis_getElem? _ _ _ hi]

end Sys2Proof.Machine
end

section
/-! How many exchanges each command makes, and how many of them raw (42_sampling R250, 70_reset_and_hazards R312). -/

namespace Sys2Proof.Machine

/-! ### Counting exchanges -/

/-- A plan of `total` exchanges, `raw` of them raw. -/
def Counts (l : List Planned) (total raw : Nat) : Prop :=
  l.length = total ∧ (l.filter fun x => !x.2).length = raw

theorem counts_nil : Counts [] 0 0 := ⟨rfl, rfl⟩

theorem Counts.append {l l' : List Planned} {n n' r r' : Nat} (h : Counts l n r) (h' : Counts l' n' r') :
    Counts (l ++ l') (n + n') (r + r') := by
  obtain ⟨hn, hr⟩ := h
  obtain ⟨hn', hr'⟩ := h'
  exact ⟨by rw [List.length_append, hn, hn'], by rw [List.filter_append, List.length_append, hr, hr']⟩

theorem counts_checked (n : Nat) (tx : Frame) : Counts (List.replicate n (tx, true)) n 0 := by
  simp [Counts]

theorem counts_raw (n : Nat) (tx : Frame) : Counts (List.replicate n (tx, false)) n n := by
  simp [Counts]

/-- Plans of the same counts, one for each element of a list. -/
theorem counts_flatMap {α : Type} {f : α → List Planned} {n r : Nat} (h : ∀ a, Counts (f a) n r) (l : List α) :
    Counts (l.flatMap f) (l.length * n) (l.length * r) := by
  induction l with
  | nil => simp [Counts]
  | cons a l ih =>
    rw [List.flatMap_cons, List.length_cons, Nat.succ_mul, Nat.succ_mul, Nat.add_comm _ n, Nat.add_comm _ r]
    exact (h a).append ih

/-! ### The parts of a command -/

theorem counts_read {s : State} {r : RegName} (h : (s.entry r).readFlag = true) :
    Counts ((readStretch s r).left 0) 3 0 := by
  rw [readStretch_left h]
  exact ⟨rfl, rfl⟩

theorem counts_write {s : State} {r : RegName} (h : (s.entry r).writeFlag = true) (v : Half) :
    Counts ((writeStretch s r v).left 0) 3 0 := by
  rw [writeStretch_left h]
  exact ⟨rfl, rfl⟩

theorem counts_taps {s : State} (h : ∀ k, (s.entry (.coef k)).writeFlag = true) :
    Counts ((tapsStretch s).left 0) 96 0 := by
  have htap : ∀ k : Fin 32, Counts (writeFrames s.params (s.entry (.coef k)) s.cfg.taps[k]) 3 0 :=
    fun k => ⟨rfl, rfl⟩
  rw [tapsStretch_left h]
  exact counts_flatMap htap (List.finRange 32)

/-- Three axes, each with its page and address select, its checked words, and its raw one. -/
theorem counts_drain (s : State) (count : Nat) :
    Counts ((drainStretch s count).left 0) (3 * (2 + (count - 1) + 1)) 3 := by
  have haxis : ∀ ax, Counts (drainFrames s.params (s.entry (axisReg ax)) count) (2 + (count - 1) + 1) 1 := fun ax =>
    (Counts.append (r := 0) ⟨rfl, rfl⟩ (counts_checked _ _)).append ⟨rfl, rfl⟩
  exact counts_flatMap haxis (List.finRange 3)

/-! ### Behind a command's check -/

/-- The counts of stretches one after the other. -/
inductive StretchCounts : List Stretch → Nat → Nat → Prop where
  | nil : StretchCounts [] 0 0
  | cons {g : Stretch} {gs : List Stretch} {n n' r r' : Nat} (hpos : 0 < g.size) (hg : Counts (g.left 0) n r)
      (hgs : StretchCounts gs n' r') : StretchCounts (g :: gs) (n + n') (r + r')

theorem StretchCounts.quiet {gs : List Stretch} {n r : Nat} (h : StretchCounts gs n r) (k : Nat) :
    StretchCounts (quiet (k + 1) :: gs) n r := by
  simpa using StretchCounts.cons (g := Machine.quiet (k + 1)) (Nat.succ_pos k) counts_nil h

theorem StretchCounts.read {s : State} {reg : RegName} (h : (s.entry reg).readFlag = true) {gs : List Stretch}
    {n r : Nat} (hgs : StretchCounts gs n r) : StretchCounts (readStretch s reg :: gs) (3 + n) r := by
  simpa using StretchCounts.cons (Nat.succ_pos _) (counts_read h) hgs

theorem StretchCounts.write {s : State} {reg : RegName} (h : (s.entry reg).writeFlag = true) (v : Half)
    {gs : List Stretch} {n r : Nat} (hgs : StretchCounts gs n r) :
    StretchCounts (writeStretch s reg v :: gs) (3 + n) r := by
  simpa using StretchCounts.cons (Nat.succ_pos _) (counts_write h v) hgs

/-- The stretches' counts are those of their exchanges, and none is empty. -/
theorem StretchCounts.counts {gs : List Stretch} {n r : Nat} (h : StretchCounts gs n r) :
    Counts (gs.flatMap fun g => g.left 0) n r ∧ ∀ g ∈ gs, 0 < g.size := by
  induction h with
  | nil => exact ⟨counts_nil, fun g hg => absurd hg List.not_mem_nil⟩
  | cons hpos hg _ ih => exact ⟨hg.append ih.1, List.forall_mem_cons.2 ⟨hpos, ih.2⟩⟩

/-- Position 1 of a command that begins with positions without an exchange has all the others' still to make. -/
theorem StretchCounts.remaining {s : State} {c : Cmd} {k : Nat} {gs : List Stretch} {n r : Nat}
    (hgs : StretchCounts gs n r) (hc : s.cmd = some c) (hu : s.upc = 1) (ho : s.out = none)
    (hg : stretches c.instr s = Machine.quiet (k + 1) :: gs) : Counts s.remaining n r := by
  obtain ⟨hcounts, hpos⟩ := hgs.counts
  have hrest : s.remaining = exchangesLeft (Machine.quiet (k + 1) :: gs) 1 := by
    simp [State.remaining, ho, hc, hu, hg]
  have hquiet : (Machine.quiet (k + 1)).leftFrom 1 = [] := ite_self _
  rw [hrest, exchangesLeft_first (Nat.succ_le_succ (Nat.zero_le k)) hpos, hquiet]
  exact hcounts

/-- The stretches behind ACTIVATE's check, in its three forms, end with REC_CTRL's write and its read-back. -/
theorem StretchCounts.latch {s : State} (hw : (s.entry .recCtrl).writeFlag = true)
    (hr : (s.entry .recCtrl).readFlag = true) (v : Half) :
    StretchCounts [writeStretch s .recCtrl v, Machine.quiet 1, readStretch s .recCtrl, Machine.quiet 1] 6 0 :=
  .write hw v (.quiet (.read hr (.quiet .nil 0)) 0)

/-! ### The stretches by mode -/

theorem stretches_capture_rts {s : State} (hm : s.mode = some .rts) :
    stretches .capture s = [quiet 1, blocksStretch s, quiet 1] := by
  simp only [stretches, hm]

theorem stretches_capture_mtc {s : State} (hm : s.mode = some .mtc) :
    stretches .capture s =
      [quiet 1, readStretch s s.params.decSrcReg, quiet 1, writeStretch s .bufPntr 0, drainStretch s 4096, quiet 1] := by
  simp only [stretches, hm]

theorem stretches_capture_spectrum {s : State} (hm : s.mode = some .mfft ∨ s.mode = some .afft) :
    stretches .capture s =
      [quiet 1, readStretch s s.params.decSrcReg, quiet 1, readStretch s s.params.avgSrc.reg, quiet 1,
       writeStretch s .bufPntr 0, drainStretch s 2048, quiet 1] := by
  rcases hm with hm | hm <;> simp only [stretches, hm]

/-- The stretches of ACTIVATE with a bank filter outside Streaming. -/
theorem stretches_activate_default {m : Mode} (hm : m ≠ .rts) (win : BitVec 4) (decl fsel : BitVec 3) (s : State) :
    stretches (.activate m win decl false fsel) s =
      [quiet 1, writeStretch s .decCtrl (decCtrlValue s.params decl), writeStretch s .avgCtrl s.cfg.avg,
       writeStretch s .filtCtrl (filtCtrlValue s.params fsel),
       writeStretch s .recCtrl (recCtrlValue s.params m win), quiet 1, readStretch s .recCtrl, quiet 1] := by
  simp [stretches, hm]

/-- Settles O41: the counts of the stretches behind each command's check. -/
theorem exchangeTotals : Obligations.ExchangeTotals := by
  intro s c hc hu ho hallowed total raw
  have counted : ∀ {i : Instr} {k n r : Nat} {gs : List Stretch}, c.instr = i → StretchCounts gs n r →
      stretches i s = quiet (k + 1) :: gs → total = n ∧ raw = r :=
    fun hi hgs hg => hgs.remaining hc hu ho (hi ▸ hg)
  have allowed : ∀ {i : Instr}, c.instr = i → s.accessesAllowed i = true := fun hi => hi ▸ hallowed
  refine ⟨fun hi hm => ?_, fun hi hm => ?_, fun hi hm => ?_, fun win decl cust fsel hi => ?_,
    fun m win decl fsel hm hi => ?_, fun m win decl fsel hm hi => ?_, fun hi => ?_, fun b0 b1 hi => ?_,
    fun b0 b1 hi => ?_, fun hi => ?_⟩
  · have ha := allowed hi
    simp only [State.accessesAllowed, hm, Bool.and_eq_true] at ha
    obtain ⟨hdec, hptr⟩ := ha
    exact counted hi (.read hdec (.quiet (.write hptr 0 (.cons (Nat.succ_pos _) (counts_drain s 4096) (.quiet .nil 0))) 0))
      (stretches_capture_mtc hm)
  · have ha : ((s.entry s.params.decSrcReg).readFlag = true ∧ (s.entry s.params.avgSrc.reg).readFlag = true) ∧
        (s.entry .bufPntr).writeFlag = true := by
      have ha := allowed hi
      rcases hm with hm | hm <;> simpa only [State.accessesAllowed, hm, Bool.and_eq_true] using ha
    obtain ⟨⟨hdec, havg⟩, hptr⟩ := ha
    exact counted hi (.read hdec (.quiet (.read havg (.quiet (.write hptr 0
      (.cons (Nat.succ_pos _) (counts_drain s 2048) (.quiet .nil 0))) 0)) 0))
      (stretches_capture_spectrum hm)
  · exact counted hi (.cons (g := blocksStretch s) (Nat.succ_pos _) (counts_raw 1000 fNull) (.quiet .nil 0))
      (stretches_capture_rts hm)
  · have ha := allowed hi
    simp only [State.accessesAllowed, decide_true, Bool.true_or, Bool.and_true, Bool.and_eq_true] at ha
    obtain ⟨⟨hdec, hrec⟩, hback⟩ := ha
    exact counted hi (.write hdec _ (.latch hrec hback _)) rfl
  · have ha := allowed hi
    simp only [State.accessesAllowed, hm, decide_false, Bool.false_or, Bool.not_false, Bool.true_or, Bool.and_true,
      Bool.and_eq_true] at ha
    obtain ⟨⟨⟨hdec, hrec⟩, hback⟩, havg, hfilt⟩ := ha
    exact counted hi (.write hdec _ (.write havg _ (.write hfilt _ (.latch hrec hback _))))
      (stretches_activate_default hm win decl fsel s)
  · have ha := allowed hi
    simp only [State.accessesAllowed, hm, decide_false, Bool.false_or, Bool.not_true, Bool.and_eq_true,
      List.all_eq_true] at ha
    obtain ⟨⟨⟨hdec, hrec⟩, hback⟩, ⟨havg, hfilt⟩, htaps⟩ := ha
    exact counted hi (.write hdec _ (.write havg _ (.cons (Nat.succ_pos _)
      (counts_taps fun k => htaps k (List.mem_finRange k)) (.write hfilt _ (.latch hrec hback _)))))
      (stretches_activate_custom hm win decl fsel s)
  · rcases hi with hi | hi | hi | ⟨r, hi⟩ | ⟨r, v, hi⟩
    · exact counted hi (.read (allowed hi) (.quiet .nil 0)) rfl
    · exact counted hi (.write (allowed hi) _ (.quiet .nil 0)) rfl
    · exact counted hi (.write (allowed hi) _ (.quiet .nil 2)) rfl
    · exact counted hi (.read (allowed hi) (.quiet .nil 0)) rfl
    · exact counted hi (.write (allowed hi) _ (.quiet .nil 0)) rfl
  · simp [State.remaining, hc, ho, hu, hi, stretches, exchangesLeft, hostStretch]
  · simp [State.remaining, hc, ho, hu, hi, stretches, exchangesLeft, hostStretch]
  · exact (counted hi .nil rfl).1

end Sys2Proof.Machine
end

section
/-! Binary64 by value (42_sampling R230): a positive normal pattern as a rational, the rounding of a rational to the
nearest pattern, and the order of patterns. -/

namespace Sys2Proof.Machine

/-! ### Powers of two -/

/-- A power of two as the quotient of two natural ones, of which one is 1. -/
theorem two_zpow_eq (e : ℤ) : (2 : ℚ) ^ e = 2 ^ e.toNat / 2 ^ (-e).toNat := by
  rw [← zpow_natCast, ← zpow_natCast, ← zpow_sub₀ two_ne_zero, Int.toNat_sub_toNat_neg]

theorem two_zpow_pos (e : ℤ) : (0 : ℚ) < 2 ^ e := zpow_pos two_pos e

theorem two_zpow_le {a b : ℤ} : (2 : ℚ) ^ a ≤ 2 ^ b ↔ a ≤ b := zpow_le_zpow_iff_right₀ one_lt_two

theorem two_zpow_lt {a b : ℤ} : (2 : ℚ) ^ a < 2 ^ b ↔ a < b := zpow_lt_zpow_iff_right₀ one_lt_two

theorem two_zpow_succ (e : ℤ) : (2 : ℚ) ^ (e + 1) = 2 * 2 ^ e := by
  rw [zpow_add_one₀ two_ne_zero, mul_comm]

/-! ### Fields -/

theorem fExp_eq (x : Binary64) : fExp x = x.toNat / 2 ^ 52 % 2 ^ 11 := by
  rw [fExp, BitVec.extractLsb'_toNat, Nat.shiftRight_eq_div_pow]

theorem fFrac_eq (x : Binary64) : fFrac x = x.toNat % 2 ^ 52 := by
  rw [fFrac, BitVec.extractLsb'_toNat, Nat.shiftRight_zero]

theorem fNeg_eq (x : Binary64) : fNeg x = decide (2 ^ 63 ≤ x.toNat) := by
  rw [fNeg, ← BitVec.msb_eq_getLsbD_last, BitVec.msb_eq_decide]

/-- The fields of a pattern composed from them. -/
theorem withSign_fields {e f : Nat} (he : e < 2 ^ 11) (hf : f < 2 ^ 52) :
    fNeg (withSign false (e * 2 ^ 52 + f)) = false ∧ fExp (withSign false (e * 2 ^ 52 + f)) = e ∧
      fFrac (withSign false (e * 2 ^ 52 + f)) = f := by
  have hnat : (withSign false (e * 2 ^ 52 + f)).toNat = e * 2 ^ 52 + f := by
    simp only [withSign, Bool.false_eq_true, if_false, Nat.zero_add, BitVec.toNat_ofNat]
    omega
  rw [fNeg_eq, fExp_eq, fFrac_eq, hnat]
  refine ⟨decide_eq_false ?_, ?_, ?_⟩ <;> omega

/-- A positive normal pattern. -/
structure IsNormal (x : Binary64) : Prop where
  neg : fNeg x = false
  exp_pos : 1 ≤ fExp x
  exp_le : fExp x ≤ 2046

/-- The value of a finite pattern without its sign (`fScale`'s law). -/
def fVal (x : Binary64) : ℚ := fMant x * 2 ^ fScale x

section
variable {x y : Binary64}

theorem IsNormal.mant (h : IsNormal x) : fMant x = 2 ^ 52 + fFrac x := if_neg (Nat.one_le_iff_ne_zero.1 h.exp_pos)

theorem IsNormal.scale (h : IsNormal x) : fScale x = (fExp x : ℤ) - 1075 :=
  if_neg (Nat.one_le_iff_ne_zero.1 h.exp_pos)

theorem IsNormal.mant_bounds (h : IsNormal x) : 2 ^ 52 ≤ fMant x ∧ fMant x < 2 ^ 53 := by
  have hfrac := fFrac_eq x
  have hmant := h.mant
  omega

theorem IsNormal.toNat (h : IsNormal x) : x.toNat = fExp x * 2 ^ 52 + fFrac x := by
  have hneg : x.toNat < 2 ^ 63 := by simpa [fNeg_eq] using h.neg
  rw [fExp_eq, fFrac_eq]
  omega

theorem IsNormal.not_nan (h : IsNormal x) : fIsNaN x = false := by
  have hexp : fExp x ≠ 2047 := by have := h.exp_le; omega
  simp [fIsNaN, hexp]

theorem IsNormal.not_inf (h : IsNormal x) : fIsInf x = false := by
  have hexp : fExp x ≠ 2047 := by have := h.exp_le; omega
  simp [fIsInf, hexp]

theorem IsNormal.not_zero (h : IsNormal x) : fIsZero x = false := by
  have hexp : fExp x ≠ 0 := by have := h.exp_pos; omega
  simp [fIsZero, hexp]

/-- The value lies between the power of two that its exponent names and the next one. -/
theorem IsNormal.val_bounds (h : IsNormal x) : (2 : ℚ) ^ (fScale x + 52) ≤ fVal x ∧ fVal x < 2 ^ (fScale x + 53) := by
  obtain ⟨hlow, hhigh⟩ := h.mant_bounds
  have hlow' : (2 ^ 52 : ℚ) ≤ fMant x := by exact_mod_cast hlow
  have hhigh' : (fMant x : ℚ) < 2 ^ 53 := by exact_mod_cast hhigh
  have hpos := two_zpow_pos (fScale x)
  rw [add_comm, add_comm _ (53 : ℤ), zpow_add₀ two_ne_zero, zpow_add₀ two_ne_zero]
  exact ⟨mul_le_mul_of_nonneg_right hlow' hpos.le, mul_lt_mul_of_pos_right hhigh' hpos⟩

theorem IsNormal.val_pos (h : IsNormal x) : 0 < fVal x := (two_zpow_pos _).trans_le h.val_bounds.1

theorem IsNormal.mant_pos (h : IsNormal x) : 0 < fMant x := (Nat.two_pow_pos 52).trans_le h.mant_bounds.1

/-- Below `2 ^ b` the scale is small. -/
theorem IsNormal.scale_lt (h : IsNormal x) {b : ℤ} (hb : fVal x < 2 ^ b) : fScale x + 52 < b :=
  two_zpow_lt.1 (h.val_bounds.1.trans_lt hb)

/-- The order of patterns is that of values. -/
theorem IsNormal.toNat_le (hx : IsNormal x) (hy : IsNormal y) (h : fVal x ≤ fVal y) : x.toNat ≤ y.toNat := by
  have hfx := fFrac_eq x
  have hfy := fFrac_eq y
  rw [hx.toNat, hy.toNat]
  rcases lt_trichotomy (fExp x) (fExp y) with he | he | he
  · omega
  · have hscale : fScale x = fScale y := by rw [hx.scale, hy.scale, he]
    have hmant : fMant x ≤ fMant y := by
      rw [fVal, fVal, hscale, mul_le_mul_iff_left₀ (two_zpow_pos _)] at h
      exact_mod_cast h
    rw [hx.mant, hy.mant] at hmant
    omega
  · have hstep : fScale y + 53 ≤ fScale x + 52 := by
      rw [hx.scale, hy.scale]
      omega
    exact absurd h (not_le.2 (hy.val_bounds.2.trans_le ((two_zpow_le.2 hstep).trans hx.val_bounds.1)))

/-- A value as a ratio, in whole numbers. -/
theorem fVal_eq_iff {num den : Nat} (hd : 0 < den) :
    fVal x = num / den ↔ fMant x * 2 ^ (fScale x).toNat * den = num * 2 ^ (-fScale x).toNat := by
  have hd' : (den : ℚ) ≠ 0 := by exact_mod_cast hd.ne'
  have hp : (2 ^ (-fScale x).toNat : ℚ) ≠ 0 := pow_ne_zero _ two_ne_zero
  rw [fVal, two_zpow_eq, mul_div_assoc', div_eq_div_iff hp hd']
  exact_mod_cast Iff.rfl

/-- A value whose scale is not positive, as a ratio. -/
theorem fVal_of_scale_nonpos (h : fScale x ≤ 0) : fVal x = fMant x / (2 ^ (-fScale x).toNat : Nat) := by
  rw [fVal_eq_iff (Nat.two_pow_pos _), Int.toNat_of_nonpos h, pow_zero, mul_one]

/-! ### Rounding -/

/-- `x` is a positive normal pattern within half a unit of its last place of `r`. -/
structure Rounds (x : Binary64) (r : ℚ) : Prop where
  normal : IsNormal x
  low : (2 * fMant x - 1) * 2 ^ fScale x ≤ 2 * r
  high : 2 * r ≤ (2 * fMant x + 1) * 2 ^ fScale x

/-- The model's statement of the same, in whole numbers. -/
theorem Rounds.withinHalfUlp {num den : Nat} (hd : 0 < den) (h : Rounds x (num / den)) : withinHalfUlp x num den := by
  have hd' : (0 : ℚ) < den := by exact_mod_cast hd
  have hp : (0 : ℚ) < 2 ^ (-fScale x).toNat := pow_pos two_pos _
  have hmant : 1 ≤ 2 * fMant x := by have := h.normal.mant_pos; omega
  have hlow := h.low
  have hhigh := h.high
  rw [two_zpow_eq, mul_div_assoc', mul_div_assoc', div_le_div_iff₀ hp hd'] at hlow
  rw [two_zpow_eq, mul_div_assoc', mul_div_assoc', div_le_div_iff₀ hd' hp] at hhigh
  refine ⟨h.normal.neg, h.normal.exp_pos, h.normal.exp_le, ?_, ?_⟩
  · have hcast : ((2 * fMant x - 1 : Nat) : ℚ) = 2 * fMant x - 1 := by rw [Nat.cast_sub hmant]; norm_num
    rw [← hcast] at hlow
    exact_mod_cast hlow
  · exact_mod_cast hhigh

/-- The relative error is at most one part in `2 ^ 53`. -/
theorem Rounds.relative {r : ℚ} (h : Rounds x r) :
    (2 ^ 53 - 1) * fVal x ≤ 2 ^ 53 * r ∧ 2 ^ 53 * r ≤ (2 ^ 53 + 1) * fVal x := by
  have hulp : (2 ^ 52 : ℚ) * 2 ^ fScale x ≤ fVal x := by
    rw [← zpow_natCast, ← zpow_add₀ two_ne_zero, add_comm]
    exact h.normal.val_bounds.1
  have hlow := h.low
  have hhigh := h.high
  have hval : (fMant x : ℚ) * 2 ^ fScale x = fVal x := rfl
  simp only [sub_mul, add_mul, mul_assoc, hval] at hlow hhigh
  constructor <;> linarith

/-- `a / b` rounded is within one half of it. -/
theorem roundQuot_bounds {a b : Nat} (hb : 0 < b) :
    2 * roundQuot a b * b ≤ 2 * a + b ∧ 2 * a ≤ (2 * roundQuot a b + 1) * b := by
  have hdiv := Nat.div_add_mod a b
  have hlt := Nat.mod_lt a hb
  have hcomm : b * (a / b) = a / b * b := Nat.mul_comm ..
  unfold roundQuot
  dsimp only
  split
  · constructor <;> (ring_nf at *; omega)
  · split
    · constructor <;> (ring_nf at *; omega)
    · have hparity : a / b % 2 = 0 ∨ a / b % 2 = 1 := Nat.mod_two_eq_zero_or_one _
      rcases hparity with hp | hp <;> rw [hp] <;> constructor <;> (ring_nf at *; omega)

/-- A quotient between two whole numbers is rounded to one between them. -/
theorem roundQuot_between {a b m n : Nat} (hb : 0 < b) (hm : m * b ≤ a) (hn : a ≤ n * b) :
    m ≤ roundQuot a b ∧ roundQuot a b ≤ n := by
  obtain ⟨hlow, hhigh⟩ := roundQuot_bounds (a := a) hb
  constructor
  · by_contra hlt
    have hq : (2 * roundQuot a b + 1) * b < 2 * m * b := Nat.mul_lt_mul_of_pos_right (by omega) hb
    linarith
  · by_contra hlt
    have hq : (2 * n + 1) * b < 2 * roundQuot a b * b := Nat.mul_lt_mul_of_pos_right (by omega) hb
    linarith

/-- `2 ^ k` against a ratio, in whole numbers. -/
theorem two_zpow_le_ratio {num den : Nat} (hd : 0 < den) (k : ℤ) :
    (2 : ℚ) ^ k ≤ num / den ↔ den * 2 ^ k.toNat ≤ num * 2 ^ (-k).toNat := by
  have hd' : (0 : ℚ) < den := by exact_mod_cast hd
  rw [two_zpow_eq, div_le_div_iff₀ (pow_pos two_pos _) hd', mul_comm]
  exact_mod_cast Iff.rfl

theorem floorLog2_bounds {num den : Nat} (hn : 0 < num) (hd : 0 < den) :
    (2 : ℚ) ^ floorLog2 num den ≤ num / den ∧ (num / den : ℚ) < 2 ^ (floorLog2 num den + 1) := by
  have hd' : (0 : ℚ) < den := by exact_mod_cast hd
  have hnlow : (2 : ℚ) ^ (num.log2 : ℤ) ≤ num := by exact_mod_cast Nat.log2_self_le hn.ne'
  have hnhigh : (num : ℚ) < 2 ^ ((num.log2 : ℤ) + 1) := by exact_mod_cast Nat.lt_log2_self (n := num)
  have hdlow : (2 : ℚ) ^ (den.log2 : ℤ) ≤ den := by exact_mod_cast Nat.log2_self_le hd.ne'
  have hdhigh : (den : ℚ) < 2 ^ ((den.log2 : ℤ) + 1) := by exact_mod_cast Nat.lt_log2_self (n := den)
  have hlow : (2 : ℚ) ^ ((num.log2 : ℤ) - den.log2 - 1) ≤ num / den := by
    rw [le_div_iff₀ hd']
    calc (2 : ℚ) ^ ((num.log2 : ℤ) - den.log2 - 1) * den
        ≤ 2 ^ ((num.log2 : ℤ) - den.log2 - 1) * 2 ^ ((den.log2 : ℤ) + 1) :=
          mul_le_mul_of_nonneg_left hdhigh.le (two_zpow_pos _).le
      _ = 2 ^ (num.log2 : ℤ) := by rw [← zpow_add₀ two_ne_zero]; congr 1; ring
      _ ≤ num := hnlow
  have hhigh : (num / den : ℚ) < 2 ^ ((num.log2 : ℤ) - den.log2 + 1) := by
    rw [div_lt_iff₀ hd']
    calc (num : ℚ) < 2 ^ ((num.log2 : ℤ) + 1) := hnhigh
      _ = 2 ^ ((num.log2 : ℤ) - den.log2 + 1) * 2 ^ (den.log2 : ℤ) := by
          rw [← zpow_add₀ two_ne_zero]; congr 1; ring
      _ ≤ 2 ^ ((num.log2 : ℤ) - den.log2 + 1) * den := mul_le_mul_of_nonneg_left hdlow (two_zpow_pos _).le
  simp only [floorLog2, ← two_zpow_le_ratio hd]
  split
  · rename_i h
    exact ⟨h, hhigh⟩
  · rename_i h
    exact ⟨hlow, by simpa using h⟩

/-- The binary order of a ratio is the one exponent that bounds it so. -/
theorem floorLog2_eq {num den : Nat} (hn : 0 < num) (hd : 0 < den) {k : ℤ} (hlow : (2 : ℚ) ^ k ≤ num / den)
    (hhigh : (num / den : ℚ) < 2 ^ (k + 1)) : floorLog2 num den = k := by
  obtain ⟨hlow', hhigh'⟩ := floorLog2_bounds hn hd
  have h1 := two_zpow_lt.1 (hlow.trans_lt hhigh')
  have h2 := two_zpow_lt.1 (hlow'.trans_lt hhigh)
  omega

/-- The pattern of a significand `q` at scale `s`; the significand `2 ^ 53` is `2 ^ 52` at the next scale. -/
theorem pattern_fields {q : Nat} {s : ℤ} (hlow : 2 ^ 52 ≤ q) (hhigh : q ≤ 2 ^ 53) (hs : -1074 ≤ s) (hs' : s ≤ 970)
    {x : Binary64} (hx : x = withSign false (min ((s + 1074).toNat * 2 ^ 52 + q) infMagnitude)) :
    IsNormal x ∧
      (q < 2 ^ 53 ∧ fMant x = q ∧ fScale x = s ∨ q = 2 ^ 53 ∧ fMant x = 2 ^ 52 ∧ fScale x = s + 1) := by
  have hmin : min ((s + 1074).toNat * 2 ^ 52 + q) infMagnitude = (s + 1074).toNat * 2 ^ 52 + q :=
    Nat.min_eq_left (by unfold infMagnitude; omega)
  have fields : ∀ e f : Nat, 1 ≤ e → e ≤ 2046 → f < 2 ^ 52 → (s + 1074).toNat * 2 ^ 52 + q = e * 2 ^ 52 + f →
      IsNormal x ∧ fMant x = 2 ^ 52 + f ∧ fScale x = (e : ℤ) - 1075 := by
    intro e f he he' hf heq
    obtain ⟨hneg, hexp, hfrac⟩ := withSign_fields (show e < 2 ^ 11 by omega) hf
    rw [← heq, ← hmin, ← hx] at hneg hexp hfrac
    have hnormal : IsNormal x := ⟨hneg, hexp ▸ he, hexp ▸ he'⟩
    exact ⟨hnormal, by rw [hnormal.mant, hfrac], by rw [hnormal.scale, hexp]⟩
  rcases Nat.lt_or_eq_of_le hhigh with hq | hq
  · obtain ⟨hnormal, hmant, hscale⟩ :=
      fields ((s + 1074).toNat + 1) (q - 2 ^ 52) (by omega) (by omega) (by omega) (by omega)
    exact ⟨hnormal, .inl ⟨hq, by omega, by omega⟩⟩
  · obtain ⟨hnormal, hmant, hscale⟩ := fields ((s + 1074).toNat + 2) 0 (by omega) (by omega) (by omega) (by omega)
    exact ⟨hnormal, .inr ⟨hq, by omega, by omega⟩⟩

/-- The ratio that `roundMagnitude` rounds to a whole number, at scale `s`. -/
theorem scaled_ratio {num den : Nat} (s : ℤ) :
    ((num * 2 ^ (-s).toNat : Nat) : ℚ) / (den * 2 ^ s.toNat : Nat) = num / den / 2 ^ s := by
  rw [two_zpow_eq, div_div, mul_div_assoc', div_div_eq_mul_div]
  push_cast
  rfl

/-- The pattern nearest to a ratio: its significand is the ratio rounded at the scale of its binary order. -/
theorem roundMagnitude_eq {num den : Nat} (hn : 0 < num) (hd : 0 < den) {s : ℤ} (hs : -1074 ≤ s)
    (hlow : (2 : ℚ) ^ (s + 52) ≤ num / den) (hhigh : (num / den : ℚ) < 2 ^ (s + 53)) :
    ∃ q, roundMagnitude num den = min ((s + 1074).toNat * 2 ^ 52 + q) infMagnitude ∧ 2 ^ 52 ≤ q ∧ q ≤ 2 ^ 53 ∧
      (2 * q - 1) * 2 ^ s ≤ 2 * (num / den : ℚ) ∧ 2 * (num / den : ℚ) ≤ (2 * q + 1) * 2 ^ s ∧
      ∀ m : Nat, (num / den : ℚ) = m * 2 ^ s → q = m := by
  have hk : floorLog2 num den = s + 52 := floorLog2_eq hn hd hlow (by rwa [add_assoc])
  have hmax : max (floorLog2 num den - 52) (-1074) = s := by omega
  have hb : 0 < den * 2 ^ s.toNat := Nat.mul_pos hd (Nat.two_pow_pos _)
  have hb' : (0 : ℚ) < (den * 2 ^ s.toNat : Nat) := by exact_mod_cast hb
  have hpos := two_zpow_pos s
  have hratio := scaled_ratio (num := num) (den := den) s
  have atLeast : ∀ m : Nat, (m : ℚ) * 2 ^ s ≤ num / den → m * (den * 2 ^ s.toNat) ≤ num * 2 ^ (-s).toNat := by
    intro m hm
    rw [← le_div_iff₀ hpos, ← hratio, le_div_iff₀ hb'] at hm
    exact_mod_cast hm
  have atMost : ∀ m : Nat, (num / den : ℚ) ≤ m * 2 ^ s → num * 2 ^ (-s).toNat ≤ m * (den * 2 ^ s.toNat) := by
    intro m hm
    rw [← div_le_iff₀ hpos, ← hratio, div_le_iff₀ hb'] at hm
    exact_mod_cast hm
  rw [add_comm, zpow_add₀ two_ne_zero] at hlow hhigh
  obtain ⟨hq, hq'⟩ := roundQuot_between hb (atLeast (2 ^ 52) (by exact_mod_cast hlow))
    (atMost (2 ^ 53) (by exact_mod_cast hhigh.le))
  obtain ⟨hround, hround'⟩ := roundQuot_bounds (a := num * 2 ^ (-s).toNat) hb
  refine ⟨roundQuot (num * 2 ^ (-s).toNat) (den * 2 ^ s.toNat), ?_, hq, hq', ?_, ?_, fun m hm => ?_⟩
  · simp only [roundMagnitude, hmax]
  · have h : 2 * (roundQuot (num * 2 ^ (-s).toNat) (den * 2 ^ s.toNat) : ℚ) - 1 ≤ 2 * (num / den / 2 ^ s) := by
      rw [← hratio, mul_div_assoc', le_div_iff₀ hb', sub_mul, sub_le_iff_le_add, one_mul]
      exact_mod_cast hround
    rwa [mul_div_assoc', le_div_iff₀ hpos] at h
  · have h : 2 * (num / den / 2 ^ s) ≤ 2 * (roundQuot (num * 2 ^ (-s).toNat) (den * 2 ^ s.toNat) : ℚ) + 1 := by
      rw [← hratio, mul_div_assoc', div_le_iff₀ hb']
      exact_mod_cast hround'
    rwa [mul_div_assoc', div_le_iff₀ hpos] at h
  · obtain ⟨hle, hge⟩ := roundQuot_between hb (atLeast m hm.ge) (atMost m hm.le)
    exact le_antisymm hge hle

/-- A ratio in the middle of the normal range is rounded to the nearest pattern. -/
theorem roundMagnitude_rounds {num den : Nat} {a b : ℤ} (ha : -1022 ≤ a) (hb : b ≤ 1022) (hn : 0 < num) (hd : 0 < den)
    (hlow : (2 : ℚ) ^ a ≤ num / den) (hhigh : (num / den : ℚ) < 2 ^ b) :
    Rounds (withSign false (roundMagnitude num den)) (num / den) := by
  obtain ⟨hlow', hhigh'⟩ := floorLog2_bounds hn hd
  have h1 := two_zpow_lt.1 (hlow.trans_lt hhigh')
  have h2 := two_zpow_lt.1 (hlow'.trans_lt hhigh)
  generalize hk : floorLog2 num den = k at *
  obtain ⟨q, hmag, hq, hq', hround, hround', -⟩ := roundMagnitude_eq (s := k - 52) hn hd (by omega)
    (by rwa [sub_add_cancel]) (by rwa [show k - 52 + 53 = k + 1 by ring])
  rw [hmag]
  obtain ⟨hnormal, ⟨-, hmant, hscale⟩ | ⟨rfl, hmant, hscale⟩⟩ :=
    pattern_fields hq hq' (show -1074 ≤ k - 52 by omega) (by omega) rfl
  · exact ⟨hnormal, by rwa [hmant, hscale], by rwa [hmant, hscale]⟩
  · have hpos := two_zpow_pos (k - 52)
    refine ⟨hnormal, ?_, ?_⟩ <;> rw [hmant, hscale, two_zpow_succ] <;> push_cast at * <;> linarith

/-- A whole number below `2 ^ 53` as a full significand at a scale. -/
theorem exists_significand {n : Nat} (h0 : 0 < n) (h : n < 2 ^ 53) :
    ∃ (m : Nat) (s : ℤ), 2 ^ 52 ≤ m ∧ m < 2 ^ 53 ∧ -52 ≤ s ∧ s ≤ 0 ∧ (n : ℚ) = m * 2 ^ s := by
  have hlow := Nat.log2_self_le h0.ne'
  have hhigh := Nat.lt_log2_self (n := n)
  have hlog : n.log2 ≤ 52 := Nat.lt_succ_iff.1 ((Nat.log2_lt h0.ne').2 h)
  have hsplit : ∀ j, 2 ^ (n.log2 + j) * 2 ^ (52 - n.log2) = 2 ^ (52 + j) := fun j => by
    rw [← pow_add]
    congr 1
    omega
  refine ⟨n * 2 ^ (52 - n.log2), -(52 - n.log2 : Nat), ?_, ?_, by omega, by omega, ?_⟩
  · rw [← hsplit 0]
    exact Nat.mul_le_mul_right _ hlow
  · rw [← hsplit 1]
    exact Nat.mul_lt_mul_of_pos_right hhigh (Nat.two_pow_pos _)
  · rw [zpow_neg, zpow_natCast, Nat.cast_mul, Nat.cast_pow, Nat.cast_ofNat, mul_assoc,
      mul_inv_cancel₀ (pow_ne_zero _ two_ne_zero), mul_one]

/-- A ratio that is a whole number below `2 ^ 53` times a power of two is kept exactly. -/
theorem roundMagnitude_exact {num den n : Nat} {t : ℤ} (h0 : 0 < n) (h : n < 2 ^ 53) (ht : -1022 ≤ t) (ht' : t ≤ 970)
    (hn : 0 < num) (hd : 0 < den) (hr : (num / den : ℚ) = n * 2 ^ t) :
    IsNormal (withSign false (roundMagnitude num den)) ∧
      fVal (withSign false (roundMagnitude num den)) = num / den := by
  obtain ⟨m, s, hm, hm', hs, hs', hnm⟩ := exists_significand h0 h
  have hval : (num / den : ℚ) = m * 2 ^ (s + t) := by rw [hr, hnm, mul_assoc, ← zpow_add₀ two_ne_zero]
  have hpos := two_zpow_pos (s + t)
  have hlow : (2 : ℚ) ^ (s + t + 52) ≤ num / den := by
    rw [hval, add_comm _ (52 : ℤ), zpow_add₀ two_ne_zero 52]
    exact mul_le_mul_of_nonneg_right (by exact_mod_cast hm) hpos.le
  have hhigh : (num / den : ℚ) < 2 ^ (s + t + 53) := by
    rw [hval, add_comm _ (53 : ℤ), zpow_add₀ two_ne_zero 53]
    exact mul_lt_mul_of_pos_right (show (m : ℚ) < 2 ^ 53 by exact_mod_cast hm') hpos
  obtain ⟨q, hmag, hq, hq', -, -, hexact⟩ := roundMagnitude_eq hn hd (by omega) hlow hhigh
  obtain rfl := hexact m hval
  rw [hmag]
  obtain ⟨hnormal, ⟨-, hmant, hscale⟩ | ⟨hq, -⟩⟩ := pattern_fields hq hq' (show -1074 ≤ s + t by omega) (by omega) rfl
  · exact ⟨hnormal, by rw [fVal, hmant, hscale, hval]⟩
  · omega

end

end Sys2Proof.Machine
end

section
/-! The conversions and the step sizes by value (42_sampling R230 to R237, R241). -/

namespace Sys2Proof.Machine

/-! ### Operations (42_sampling R230) -/

/-- `z` is what the model's rounding makes of the ratio `r`. -/
def RoundingOf (z : Binary64) (r : ℚ) : Prop :=
  ∃ num den : Nat, 0 < num ∧ 0 < den ∧ r = num / den ∧ z = withSign false (roundMagnitude num den)

/-- `z` is a positive normal pattern of the value `r`. -/
structure HasValue (z : Binary64) (r : ℚ) : Prop where
  normal : IsNormal z
  val : fVal z = r

section
variable {x y z : Binary64} {r r' : ℚ}

theorem IsNormal.hasValue (h : IsNormal x) : HasValue x (fVal x) := ⟨h, rfl⟩

/-- A rounding in the middle of the normal range is to the nearest. -/
theorem RoundingOf.rounds (h : RoundingOf z r) (a b : ℤ) (ha : -1022 ≤ a) (hb : b ≤ 1022) (hlow : (2 : ℚ) ^ a ≤ r)
    (hhigh : r < 2 ^ b) : Rounds z r := by
  obtain ⟨num, den, hn, hd, rfl, rfl⟩ := h
  exact roundMagnitude_rounds ha hb hn hd hlow hhigh

/-- A whole number below `2 ^ 53` times a power of two is not rounded. -/
theorem RoundingOf.exact (h : RoundingOf z r) {n : Nat} {t : ℤ} (h0 : 0 < n) (hn : n < 2 ^ 53) (ht : -1022 ≤ t)
    (ht' : t ≤ 970) (hr : r = n * 2 ^ t) : HasValue z r := by
  obtain ⟨num, den, hnum, hd, rfl, rfl⟩ := h
  obtain ⟨hnormal, hval⟩ := roundMagnitude_exact h0 hn ht ht' hnum hd hr
  exact ⟨hnormal, hval⟩

theorem fromRatio_rounding {num den : Nat} (hn : 0 < num) (hd : 0 < den) :
    RoundingOf (fromRatio num den) (num / den) :=
  ⟨num, den, hn, hd, rfl, if_neg hn.ne'⟩

theorem fmul_rounding (hx : HasValue x r) (hy : HasValue y r') : RoundingOf (fmul x y) (r * r') := by
  obtain ⟨hx, rfl⟩ := hx
  obtain ⟨hy, rfl⟩ := hy
  refine ⟨fMant x * fMant y * 2 ^ (fScale x + fScale y).toNat, 2 ^ (-(fScale x + fScale y)).toNat,
    Nat.mul_pos (Nat.mul_pos hx.mant_pos hy.mant_pos) (Nat.two_pow_pos _), Nat.two_pow_pos _, ?_, ?_⟩
  · rw [fVal, fVal, mul_mul_mul_comm, ← zpow_add₀ two_ne_zero, two_zpow_eq (fScale x + fScale y)]
    push_cast
    rw [mul_div_assoc]
  · simp [fmul, hx.neg, hy.neg, hx.not_nan, hy.not_nan, hx.not_inf, hy.not_inf, hx.not_zero, hy.not_zero]

theorem fdiv_rounding (hx : HasValue x r) (hy : HasValue y r') : RoundingOf (fdiv x y) (r / r') := by
  obtain ⟨hx, rfl⟩ := hx
  obtain ⟨hy, rfl⟩ := hy
  refine ⟨fMant x * 2 ^ (fScale x - fScale y).toNat, fMant y * 2 ^ (-(fScale x - fScale y)).toNat,
    Nat.mul_pos hx.mant_pos (Nat.two_pow_pos _), Nat.mul_pos hy.mant_pos (Nat.two_pow_pos _), ?_, ?_⟩
  · rw [fVal, fVal, mul_div_mul_comm, ← zpow_sub₀ two_ne_zero, two_zpow_eq (fScale x - fScale y), div_mul_div_comm]
    push_cast
    rfl
  · simp [fdiv, hx.neg, hy.neg, hx.not_nan, hy.not_nan, hx.not_inf, hy.not_inf, hx.not_zero, hy.not_zero]

/-- `fconv` is exact on the whole numbers below `2 ^ 53`. -/
theorem fconv_hasValue {n : Nat} (h0 : 0 < n) (h : n < 2 ^ 53) : HasValue (fconv n) n := by
  have hr : (n : ℚ) / (1 : Nat) = n * 2 ^ (0 : ℤ) := by simp
  have hv := (fromRatio_rounding h0 Nat.one_pos).exact h0 h (by decide) (by decide) hr
  rwa [Nat.cast_one, div_one] at hv

/-- A division by a power of two is exact. -/
theorem fdiv_two_pow {n k : Nat} {t : ℤ} (hx : HasValue x (n * 2 ^ t)) (hy : HasValue y ((2 ^ k : Nat) : ℚ))
    (h0 : 0 < n) (h : n < 2 ^ 53) (ht : -1022 ≤ t - k) (ht' : t - k ≤ 970) :
    HasValue (fdiv x y) (n * 2 ^ (t - k)) := by
  have hr : (n * 2 ^ t : ℚ) / (2 ^ k : Nat) = n * 2 ^ (t - k) := by
    rw [zpow_sub₀ two_ne_zero, zpow_natCast, mul_div_assoc]
    push_cast
    rfl
  exact hr ▸ (fdiv_rounding hx hy).exact h0 h ht ht' hr

/-- A rounded value lies within a factor of two. -/
theorem Rounds.band (h : Rounds x r) {a a' b b' : ℤ} (ha : a + 1 = a') (hb : b + 1 = b') (hlow : (2 : ℚ) ^ a' ≤ r)
    (hhigh : r < 2 ^ b) : (2 : ℚ) ^ a ≤ fVal x ∧ fVal x < 2 ^ b' := by
  obtain ⟨hlow', hhigh'⟩ := h.relative
  have hpos := h.normal.val_pos
  rw [← ha, two_zpow_succ] at hlow
  rw [← hb, two_zpow_succ]
  constructor <;> linarith

end

/-! ### The Streaming conversion (42_sampling R233) -/

theorem half_toNat_pos {raw : Half} (h : raw ≠ 0) : 0 < raw.toNat :=
  Nat.pos_of_ne_zero fun h0 => h (BitVec.eq_of_toNat_eq h0)

/-- A nonzero word converts exactly. -/
theorem fconv_half {raw : Half} (h : raw ≠ 0) : HasValue (fconv raw.toNat) raw.toNat :=
  fconv_hasValue (half_toNat_pos h) (raw.isLt.trans (by decide))

/-- Settles O45: `fconv` is exact. -/
theorem streamingIsIdentity : Obligations.StreamingIsIdentity := by
  refine ⟨fun raw h => ?_, rfl, by decide +kernel⟩
  obtain ⟨hnormal, hval⟩ := fconv_half h
  refine ⟨hnormal.neg, hnormal.not_nan, hnormal.not_inf, ?_⟩
  rw [← mul_one (fMant _ * _), ← fVal_eq_iff Nat.one_pos, Nat.cast_one, div_one]
  exact hval

/-! ### The power of two (42_sampling R230) -/

/-- The root search keeps its bracket. -/
theorem rootSearch_bracket {bound : Nat} (bits acc : Nat) (hlow : acc ^ 2048 ≤ bound)
    (hhigh : bound < (acc + 2 ^ bits) ^ 2048) :
    rootSearch bound bits acc ^ 2048 ≤ bound ∧ bound < (rootSearch bound bits acc + 1) ^ 2048 := by
  induction bits generalizing acc with
  | zero =>
    have hone : acc + 2 ^ 0 = acc + 1 := rfl
    rw [hone] at hhigh
    rw [rootSearch]
    exact ⟨hlow, hhigh⟩
  | succ bits ih =>
    rw [rootSearch]
    split
    · rename_i h
      have hstep : acc + 2 ^ bits + 2 ^ bits = acc + 2 ^ (bits + 1) := by
        rw [pow_succ, mul_two, add_assoc]
      exact ih _ h (hstep ▸ hhigh)
    · rename_i h
      exact ih _ hlow (Nat.lt_of_not_le h)

/-- The root search from 0 below `2 ^ bits`. -/
theorem rootSearch_zero {bound bits : Nat} (h : bound < (2 ^ bits) ^ 2048) :
    rootSearch bound bits 0 ^ 2048 ≤ bound ∧ bound < (rootSearch bound bits 0 + 1) ^ 2048 := by
  refine rootSearch_bracket bits 0 ?_ (by rwa [Nat.zero_add])
  rw [Nat.zero_pow (Nat.succ_pos _)]
  exact Nat.zero_le bound

/-- Doubling a number multiplies its power by a power of two. -/
theorem double_pow_le {n c e : Nat} : (2 * c) ^ n ≤ 2 ^ (n + e) ↔ c ^ n ≤ 2 ^ e := by
  rw [mul_pow, pow_add, Nat.mul_le_mul_left_iff (Nat.two_pow_pos n)]

theorem le_double_pow {n c e : Nat} : 2 ^ (n + e) ≤ (2 * c) ^ n ↔ 2 ^ e ≤ c ^ n := by
  rw [mul_pow, pow_add, Nat.mul_le_mul_left_iff (Nat.two_pow_pos n)]

/-- Between the whole numbers that bracket the root of `2 ^ e`, the midpoint decides which is the nearer one. -/
theorem nearest_of_bracket {n q e m : Nat} (hlow : q ^ n ≤ 2 ^ e) (hhigh : 2 ^ e < (q + 1) ^ n)
    (hm : m = if (2 * q + 1) ^ n ≤ 2 ^ (n + e) then q + 1 else q) :
    (2 * m - 1) ^ n ≤ 2 ^ (n + e) ∧ 2 ^ (n + e) ≤ (2 * m + 1) ^ n := by
  split at hm <;> subst hm
  · rename_i h
    exact ⟨h, (le_double_pow.2 hhigh.le).trans (Nat.pow_le_pow_left (Nat.le_succ _) n)⟩
  · rename_i h
    exact ⟨(Nat.pow_le_pow_left (Nat.sub_le _ 1) n).trans (double_pow_le.2 hlow), (Nat.lt_of_not_le h).le⟩

/-- The powers of two around `2 ^ (a + f / n)`. -/
theorem two_pow_bracket {n f a b : Nat} (hf : f < n) (hb : b = a + 1) :
    (2 ^ a) ^ n ≤ 2 ^ (a * n + f) ∧ 2 ^ (a * n + f) < (2 ^ b) ^ n := by
  rw [← pow_mul, ← pow_mul, hb, Nat.succ_mul]
  exact ⟨Nat.pow_le_pow_right Nat.two_pos (by omega), Nat.pow_lt_pow_right Nat.one_lt_two (by omega)⟩

/-- A number whose power lies in a bracket lies between the roots of the bracket. -/
theorem root_between {n q a b c : Nat} (hlow : q ^ n ≤ c) (hhigh : c < (q + 1) ^ n) (ha : a ^ n ≤ c) (hb : c < b ^ n) :
    a ≤ q ∧ q < b :=
  ⟨Nat.lt_succ_iff.1 (lt_of_pow_lt_pow_left₀ n (Nat.zero_le _) (ha.trans_lt hhigh)),
    lt_of_pow_lt_pow_left₀ n (Nat.zero_le _) (hlow.trans_lt hb)⟩

/-- The significand of `2 ^ (f / 2048)`: a full one, within half a unit of the number. -/
theorem pow2Significand_nearest {f : Nat} (hf : f < 2048) :
    2 ^ 52 ≤ pow2Significand f ∧ pow2Significand f ≤ 2 ^ 53 ∧
      (2 * pow2Significand f - 1) ^ 2048 ≤ 2 ^ (2048 + (52 * 2048 + f)) ∧
      2 ^ (2048 + (52 * 2048 + f)) ≤ (2 * pow2Significand f + 1) ^ 2048 := by
  obtain ⟨hbelow, habove⟩ := two_pow_bracket (a := 52) (b := 53) hf rfl
  obtain ⟨hlow, hhigh⟩ := rootSearch_zero habove
  obtain ⟨hfull, hroom⟩ := root_between hlow hhigh hbelow habove
  have hexp : 53 * 2048 + f = 2048 + (52 * 2048 + f) := by omega
  have hsig : pow2Significand f =
      if (2 * rootSearch (2 ^ (52 * 2048 + f)) 53 0 + 1) ^ 2048 ≤ 2 ^ (2048 + (52 * 2048 + f)) then
        rootSearch (2 ^ (52 * 2048 + f)) 53 0 + 1 else rootSearch (2 ^ (52 * 2048 + f)) 53 0 := by
    rw [← hexp]
    rfl
  refine ⟨?_, ?_, nearest_of_bracket hlow hhigh hsig⟩
  · rw [hsig]
    split
    · exact Nat.le_succ_of_le hfull
    · exact hfull
  · rw [hsig]
    split
    · exact hroom
    · exact hroom.le

/-- The power of two of a 16-bit number of steps. -/
theorem pow2Steps_nearest {n : Nat} (hn : n < 2 ^ 16) :
    IsNormal (pow2Steps n) ∧ -52 ≤ fScale (pow2Steps n) ∧ fScale (pow2Steps n) ≤ -20 ∧
      withinHalfUlpOfPow2 (pow2Steps n) n := by
  obtain ⟨hlow, hhigh, hround, hround'⟩ := pow2Significand_nearest (Nat.mod_lt n (show 2048 > 0 by decide))
  have hsplit := Nat.div_add_mod n 2048
  have hpat : pow2Steps n = withSign false
      (min ((((n / 2048 : Nat) : ℤ) - 52 + 1074).toNat * 2 ^ 52 + pow2Significand (n % 2048)) infMagnitude) := by
    have hexp : (((n / 2048 : Nat) : ℤ) - 52 + 1074).toNat = n / 2048 + 1022 := by omega
    rw [pow2Steps, hexp]
  generalize pow2Significand (n % 2048) = q at *
  generalize pow2Steps n = x at *
  obtain ⟨hnormal, ⟨-, hmant, hscale⟩ | ⟨rfl, hmant, hscale⟩⟩ := pattern_fields hlow hhigh (by omega) (by omega) hpat
  · have hexp : n + 2048 * (1 - fScale x).toNat = 2048 + (52 * 2048 + n % 2048) := by omega
    refine ⟨hnormal, by omega, by omega, hnormal.neg, hnormal.exp_pos, hnormal.exp_le, by omega, ?_, ?_⟩ <;>
      rwa [hexp, hmant]
  · have hexp : n + 2048 * (1 - fScale x).toNat = 52 * 2048 + n % 2048 := by omega
    refine ⟨hnormal, by omega, by omega, hnormal.neg, hnormal.exp_pos, hnormal.exp_le, by omega, ?_, ?_⟩ <;>
      rw [hexp, hmant]
    · have hle : 2 * (2 * 2 ^ 52 - 1) ≤ 2 * 2 ^ 53 - 1 := by decide
      exact double_pow_le.1 ((pow_le_pow_left₀ (Nat.zero_le _) hle 2048).trans hround)
    · have hle : 2 * 2 ^ 53 + 1 ≤ 2 * (2 * 2 ^ 52 + 1) := by decide
      exact le_double_pow.1 (hround'.trans (pow_le_pow_left₀ (Nat.zero_le _) hle 2048))

/-- A multiple of 1/2048 by its number of steps. -/
theorem stepsOf_hasValue {x : Binary64} {n : Nat} (h : HasValue x (n * 2 ^ (-11 : ℤ))) : stepsOf x = some n := by
  obtain ⟨hnormal, hval⟩ := h
  have hexp : fExp x ≠ 2047 := by have := hnormal.exp_le; omega
  have hratio : (fMant x : ℚ) * 2 ^ (fScale x + 11) = n := by
    rw [zpow_add₀ two_ne_zero, ← mul_assoc, ← fVal, hval, mul_assoc, ← zpow_add₀ two_ne_zero]
    simp
  have hnat : fMant x * 2 ^ (fScale x + 11).toNat = n * 2 ^ (-(fScale x + 11)).toNat := by
    rw [two_zpow_eq, mul_div_assoc', div_eq_iff (pow_ne_zero _ two_ne_zero)] at hratio
    exact_mod_cast hratio
  have hdvd : fMant x % 2 ^ (-(fScale x + 11)).toNat = 0 := by
    rcases le_total 0 (fScale x + 11) with he | he
    · rw [Int.toNat_of_nonpos (neg_nonpos.2 he), pow_zero, Nat.mod_one]
    · rw [Int.toNat_of_nonpos he, pow_zero, mul_one] at hnat
      rw [hnat, Nat.mul_mod_left]
  have hfinite : (fNeg x || fExp x == 2047) = false := by simp [hnormal.neg, hexp]
  simp only [stepsOf, hfinite, Bool.false_eq_true, if_false, hdvd, if_true, hnat,
    Nat.mul_div_cancel _ (Nat.two_pow_pos _)]

/-- The power of two that the spectrum conversion takes. -/
theorem fpow2_of_raw {raw : Half} (h : raw ≠ 0) :
    fpow2 (fdiv (fconv raw.toNat) (fconv 2048)) = pow2Steps raw.toNat := by
  have hraw : HasValue (fconv raw.toNat) (raw.toNat * 2 ^ (0 : ℤ)) := by simpa using fconv_half h
  have hdiv : HasValue (fdiv (fconv raw.toNat) (fconv 2048)) (raw.toNat * 2 ^ (-11 : ℤ)) :=
    fdiv_two_pow (k := 11) hraw (fconv_hasValue (by decide) (by decide)) (half_toNat_pos h)
      (raw.isLt.trans (by decide)) (by decide) (by decide)
  rw [fpow2, stepsOf_hasValue hdiv]

/-! ### The spectrum conversion (42_sampling R235, R237) -/

theorem convFft_zero (avgC : Half) : convFft 0 avgC = 0 := if_pos rfl

theorem convFft_of_raw {raw : Half} (h : raw ≠ 0) (avgC : Half) :
    convFft raw avgC = fmul (fdiv (pow2Steps raw.toNat) (fconv avgC.toNat)) kFft := by
  rw [← fpow2_of_raw h]
  exact if_neg h

/-- A positive finite number divided by plus zero. -/
theorem IsNormal.fdiv_zero {x : Binary64} (h : IsNormal x) : fdiv x 0 = fInf := by
  have hneg : fNeg 0 = false := rfl
  have hnan : fIsNaN 0 = false := rfl
  have hinf : fIsInf 0 = false := rfl
  have hzero : fIsZero 0 = true := rfl
  simp only [fdiv, fInf, h.neg, h.not_nan, h.not_inf, h.not_zero, hneg, hnan, hinf, hzero, Bool.or_self,
    bne_self_eq_false, Bool.false_eq_true, if_false, if_true]

/-- Settles O43: the quotient is an infinity, and so is its product. -/
theorem zeroCountSpectrum : Obligations.ZeroCountSpectrum := by
  refine ⟨fun raw h => ?_, convFft_zero 0⟩
  obtain ⟨hnormal, -⟩ := pow2Steps_nearest raw.isLt
  rw [convFft_of_raw h]
  change fmul (fdiv (pow2Steps raw.toNat) 0) kFft = _
  rw [hnormal.fdiv_zero]
  decide +kernel

/-- A nonzero word, or count, as a rational. -/
theorem half_cast_bounds {c : Half} (h : c ≠ 0) : (1 : ℚ) ≤ c.toNat ∧ (c.toNat : ℚ) < 2 ^ (16 : ℤ) := by
  have hpos := half_toNat_pos h
  have hlt := c.isLt
  exact ⟨by exact_mod_cast hpos, by exact_mod_cast hlt⟩

/-- The scale of the spectrum conversion (42_sampling R235). -/
theorem kFft_rounds : Rounds kFft (9535 / 10000) := by
  refine RoundingOf.rounds ?_ (-1) 0 (by decide) (by decide) (by norm_num) (by norm_num)
  exact_mod_cast fromRatio_rounding (num := 9535) (den := 10000) (by decide) (by decide)

theorem kFft_band : (2 : ℚ) ^ (-2 : ℤ) ≤ fVal kFft ∧ fVal kFft < 2 ^ (1 : ℤ) :=
  kFft_rounds.band (a' := -1) (b := 0) (by decide) (by decide) (by norm_num) (by norm_num)

/-- The scale of the Capture conversion (42_sampling R234). -/
theorem kCap_rounds : Rounds kCap (1907349 / 1000000000) := by
  refine RoundingOf.rounds ?_ (-10) (-9) (by decide) (by decide) (by norm_num) (by norm_num)
  exact_mod_cast fromRatio_rounding (num := 1907349) (den := 1000000000) (by decide) (by decide)

theorem kCap_band : (2 : ℚ) ^ (-11 : ℤ) ≤ fVal kCap ∧ fVal kCap < 2 ^ (-8 : ℤ) :=
  kCap_rounds.band (a' := -10) (b := -9) (by decide) (by decide) (by norm_num) (by norm_num)

/-- A positive normal pattern below `2 ^ 53` has no positive scale. -/
theorem IsNormal.scale_nonpos {x : Binary64} (h : IsNormal x) {b : ℤ} (hb : fVal x < 2 ^ b) (hb' : b ≤ 53) :
    fScale x ≤ 0 := by
  have := h.scale_lt hb
  omega

/-- The spectrum's three roundings: the power of two, its quotient by the count, the product with the scale. -/
theorem spectrum_rounds {raw avgC : Half} (hraw : raw ≠ 0) (havg : avgC ≠ 0) :
    let p := pow2Steps raw.toNat
    let q := fdiv p (fconv avgC.toNat)
    IsNormal p ∧ fScale p ≤ 0 ∧ withinHalfUlpOfPow2 p raw.toNat ∧
      Rounds q (fVal p / avgC.toNat) ∧ fScale q ≤ 0 ∧ Rounds (convFft raw avgC) (fVal q * fVal kFft) := by
  intro p q
  obtain ⟨hp, hscale, hscale', hpow⟩ := pow2Steps_nearest raw.isLt
  obtain ⟨hplow, hphigh⟩ := hp.val_bounds
  obtain ⟨hc, hc'⟩ := half_cast_bounds havg
  have hpos : (0 : ℚ) < avgC.toNat := one_pos.trans_le hc
  have hplow' : (2 : ℚ) ^ (0 : ℤ) ≤ fVal p := (two_zpow_le.2 (by omega)).trans hplow
  have hphigh' : fVal p < (2 : ℚ) ^ (33 : ℤ) := hphigh.trans_le (two_zpow_le.2 (by omega))
  have hqlow : (2 : ℚ) ^ (-16 : ℤ) ≤ fVal p / avgC.toNat := by
    rw [le_div_iff₀ hpos]
    calc (2 : ℚ) ^ (-16 : ℤ) * avgC.toNat ≤ 2 ^ (-16 : ℤ) * 2 ^ (16 : ℤ) :=
          mul_le_mul_of_nonneg_left hc'.le (two_zpow_pos _).le
      _ = 2 ^ (0 : ℤ) := by norm_num
      _ ≤ fVal p := hplow'
  have hqhigh : fVal p / avgC.toNat < (2 : ℚ) ^ (33 : ℤ) := (div_le_self hp.val_pos.le hc).trans_lt hphigh'
  have hq : Rounds q (fVal p / avgC.toNat) := (fdiv_rounding hp.hasValue (fconv_half havg)).rounds (-16) 33 (by decide)
    (by decide) hqlow hqhigh
  obtain ⟨hqlow', hqhigh'⟩ := hq.band (a := -17) (b' := 34) (by decide) (by decide) hqlow hqhigh
  obtain ⟨hk, hk'⟩ := kFft_band
  refine ⟨hp, hscale'.trans (by decide), hpow, hq, hq.normal.scale_nonpos hqhigh' (by decide), ?_⟩
  rw [convFft_of_raw hraw]
  refine (fmul_rounding hq.normal.hasValue kFft_rounds.normal.hasValue).rounds (-19) 35 (by decide) (by decide) ?_ ?_
  · calc (2 : ℚ) ^ (-19 : ℤ) = 2 ^ (-17 : ℤ) * 2 ^ (-2 : ℤ) := by norm_num
      _ ≤ fVal q * fVal kFft := mul_le_mul hqlow' hk (two_zpow_pos _).le hq.normal.val_pos.le
  · calc fVal q * fVal kFft < 2 ^ (34 : ℤ) * 2 ^ (1 : ℤ) :=
          mul_lt_mul'' hqhigh' hk' hq.normal.val_pos.le kFft_rounds.normal.val_pos.le
      _ = 2 ^ (35 : ℤ) := by norm_num

/-! ### The Capture conversion (42_sampling R234, R241) -/

/-- A nonzero word times the scale, rounded. -/
theorem capture_rounds {raw : Half} (h : raw ≠ 0) : Rounds (Conv.mtc.apply raw) (raw.toNat * fVal kCap) := by
  obtain ⟨hr, hr'⟩ := half_cast_bounds h
  obtain ⟨hk, hk'⟩ := kCap_band
  refine (fmul_rounding (fconv_half h) kCap_rounds.normal.hasValue).rounds (-11) 8 (by decide) (by decide) ?_ ?_
  · exact hk.trans (le_mul_of_one_le_left kCap_rounds.normal.val_pos.le hr)
  · calc (raw.toNat : ℚ) * fVal kCap < 2 ^ (16 : ℤ) * 2 ^ (-8 : ℤ) :=
          mul_lt_mul'' hr' hk' (zero_le_one.trans hr) kCap_rounds.normal.val_pos.le
      _ = 2 ^ (8 : ℤ) := by norm_num

/-- The rounded products grow with the word: neighbouring products are further apart than the rounding errors. -/
theorem capture_mono {raw raw' : Half} (h : raw ≠ 0) (hlt : raw.toNat < raw'.toNat) :
    (Conv.mtc.apply raw).toNat ≤ (Conv.mtc.apply raw').toNat := by
  have h' : raw' ≠ 0 := by
    rintro rfl
    exact absurd hlt (Nat.not_lt_zero _)
  have hx := capture_rounds h
  have hy := capture_rounds h'
  refine hx.normal.toNat_le hy.normal ?_
  obtain ⟨hxlow, -⟩ := hx.relative
  obtain ⟨-, hyhigh⟩ := hy.relative
  obtain ⟨hr, hr'⟩ := half_cast_bounds h
  have hk := kCap_rounds.normal.val_pos
  have hstep : (raw.toNat + 1 : ℚ) * fVal kCap ≤ raw'.toNat * fVal kCap :=
    mul_le_mul_of_nonneg_right (by exact_mod_cast hlt) hk.le
  have hsmall : (raw.toNat : ℚ) * fVal kCap ≤ 2 ^ 16 * fVal kCap :=
    mul_le_mul_of_nonneg_right (by exact_mod_cast hr'.le) hk.le
  norm_num at *
  linarith

/-- Settles O44: the roundings of each conversion, and their order. -/
theorem spectrumIsFinite : Obligations.SpectrumIsFinite := by
  have hkFft := kFft_rounds
  have hkCap := kCap_rounds
  have hkFftScale := hkFft.normal.scale_nonpos kFft_band.2 (by decide)
  have hkCapScale := hkCap.normal.scale_nonpos kCap_band.2 (by decide)
  have hone : Conv.mtc.apply 1 = kCap := by decide +kernel
  refine ⟨fun raw avgC => ⟨?_, fun hraw havg => ?_⟩, ?_, hkFftScale, fun raw avgC hraw havg => ?_, ?_,
    by decide +kernel, hone, fun raw hraw => ⟨?_, ?_, ?_⟩⟩
  · rintro rfl
    exact convFft_zero avgC
  · obtain ⟨-, -, -, -, -, hconv⟩ := spectrum_rounds hraw havg
    exact ⟨hconv.normal.neg, hconv.normal.exp_pos, hconv.normal.exp_le⟩
  · exact Rounds.withinHalfUlp (by decide) (by exact_mod_cast hkFft)
  · rw [fpow2_of_raw hraw]
    obtain ⟨hp, hpscale, hpow, hq, hqscale, hconv⟩ := spectrum_rounds hraw havg
    refine ⟨hpow, ?_, hqscale, ?_⟩
    · refine Rounds.withinHalfUlp (Nat.mul_pos (Nat.two_pow_pos _) (half_toNat_pos havg)) ?_
      rw [fVal_of_scale_nonpos hpscale, div_div] at hq
      exact_mod_cast hq
    · refine Rounds.withinHalfUlp (Nat.two_pow_pos _) ?_
      rw [fVal_of_scale_nonpos hqscale, fVal_of_scale_nonpos hkFftScale, div_mul_div_comm] at hconv
      rw [pow_add]
      exact_mod_cast hconv
  · exact Rounds.withinHalfUlp (by decide) (by exact_mod_cast hkCap)
  · have hx := capture_rounds hraw
    rw [fVal_of_scale_nonpos hkCapScale, mul_div_assoc'] at hx
    exact Rounds.withinHalfUlp (Nat.two_pow_pos _) (by exact_mod_cast hx)
  · rw [← hone]
    rcases Nat.lt_or_eq_of_le (half_toNat_pos hraw) with hlt | heq
    · exact capture_mono (by decide) hlt
    · rw [BitVec.eq_of_toNat_eq (x := 1) (y := raw) heq]
  · have hmax : raw.toNat ≤ (0xFFFF : Half).toNat := Nat.lt_succ_iff.1 raw.isLt
    rcases Nat.lt_or_eq_of_le hmax with hlt | heq
    · exact capture_mono hraw hlt
    · rw [BitVec.eq_of_toNat_eq heq]

/-! ### Step sizes (42_sampling R231, R232) -/

/-- A decimation factor converts exactly. -/
theorem fconv_factor (f : Fin 8) : HasValue (fconv (2 ^ f.val)) ((2 ^ f.val : Nat) : ℚ) :=
  fconv_hasValue (Nat.two_pow_pos _) (Nat.pow_lt_pow_right Nat.one_lt_two (by omega))

/-- The spectrum's step size is exact. -/
theorem stepSize_spectrum (f : Fin 8) {m : Mode} (hm : m = .mfft ∨ m = .afft) :
    HasValue (stepSize m (2 ^ f.val)) ((110000 : Nat) / (2 ^ f.val * 2048 : Nat)) := by
  have hhalf : HasValue (fconv fHalf) ((110000 : Nat) * 2 ^ (0 : ℤ)) := by
    rw [zpow_zero, mul_one]
    exact fconv_hasValue (n := fHalf) (by decide) (by decide)
  have hrate := fdiv_two_pow hhalf (fconv_factor f) (by decide) (by decide) (by omega) (by omega)
  have hstep := fdiv_two_pow (k := 11) hrate (fconv_hasValue (n := nFft) (by decide) (by decide)) (by decide)
    (by decide) (by omega) (by omega)
  have hval : ((110000 : Nat) : ℚ) * 2 ^ ((0 : ℤ) - f.val - (11 : Nat)) = (110000 : Nat) / (2 ^ f.val * 2048 : Nat) := by
    rw [zero_sub, zpow_sub₀ two_ne_zero, zpow_neg, zpow_natCast, zpow_natCast]
    push_cast
    field_simp
    norm_num
  rw [← hval]
  rcases hm with rfl | rfl <;> exact hstep

/-- The Capture's step size: the interval of the decimated rate, rounded. -/
theorem stepSize_capture (f : Fin 8) :
    Rounds (stepSize .mtc (2 ^ f.val)) ((2 ^ f.val : Nat) / (220000 : Nat)) := by
  have hbase : HasValue (fconv fBase) ((220000 : Nat) * 2 ^ (0 : ℤ)) := by
    rw [zpow_zero, mul_one]
    exact fconv_hasValue (n := fBase) (by decide) (by decide)
  have hrate := fdiv_two_pow hbase (fconv_factor f) (by decide) (by decide) (by omega) (by omega)
  have hval : ((1 : Nat) : ℚ) / ((220000 : Nat) * 2 ^ ((0 : ℤ) - f.val)) = (2 ^ f.val : Nat) / (220000 : Nat) := by
    rw [zero_sub, zpow_neg, zpow_natCast]
    push_cast
    field_simp
  have hfactor : (1 : ℚ) ≤ 2 ^ f.val ∧ (2 : ℚ) ^ f.val ≤ 2 ^ 7 :=
    ⟨one_le_pow₀ one_le_two, pow_le_pow_right₀ one_le_two (by omega)⟩
  rw [← hval]
  refine (fdiv_rounding (fconv_hasValue Nat.one_pos (by decide)) hrate).rounds (-18) 0 (by decide) (by decide) ?_ ?_ <;>
    rw [hval] <;> norm_num <;> linarith

/-- Streaming's step size: the interval of the base rate, rounded, whatever the factor. -/
theorem stepSize_streaming (n : Nat) : Rounds (stepSize .rts n) ((1 : Nat) / (220000 : Nat)) := by
  have hbase : HasValue (fconv fBase) (220000 : Nat) := fconv_hasValue (n := fBase) (by decide) (by decide)
  exact (fdiv_rounding (fconv_hasValue Nat.one_pos (by decide)) hbase).rounds (-18) 0 (by decide) (by decide)
    (by norm_num) (by norm_num)

/-- Settles O46: the step size of each mode by value, and the two closed cases. -/
theorem stepSizes : Obligations.StepSizes := by
  refine ⟨fun f m hm => ?_, fun f => (stepSize_capture f).withinHalfUlp (by decide),
    fun n => (stepSize_streaming n).withinHalfUlp (by decide), by decide +kernel, by decide +kernel⟩
  obtain ⟨hnormal, hval⟩ := stepSize_spectrum f hm
  have hsmall : fVal (stepSize m (2 ^ f.val)) < 2 ^ (6 : ℤ) := by
    have hfactor : (1 : ℚ) ≤ 2 ^ f.val := one_le_pow₀ one_le_two
    rw [hval, div_lt_iff₀ (by positivity)]
    push_cast
    linarith
  have hscale := hnormal.scale_nonpos hsmall (by decide)
  have hexp := hnormal.exp_pos
  have hexp' := hnormal.exp_le
  rw [fVal_eq_iff (Nat.mul_pos (Nat.two_pow_pos _) (by decide)), Int.toNat_of_nonpos hscale, pow_zero, mul_one] at hval
  exact ⟨hnormal.neg, by omega, by omega, by omega, hval⟩

end Sys2Proof.Machine
end

section
/-! The error entry, BAD_COMMAND and the legality table at acceptance (60_exceptions R273 to R277, 41_configuration
R188). -/

namespace Sys2Proof.Machine

/-! ### The error entry (60_exceptions R273, R274, R277) -/

theorem fatal_iff {s : State} {code : Status} :
    s.fatal code = true ↔
      code = .transport ∨ code = .identityMismatch ∨ (code = .timeout ∧ ∃ cfg, s.cmd = some ⟨.init, cfg⟩) := by
  cases code with
  | timeout => simpa using timeout_fatal_iff
  | _ => simp [State.fatal]

/-- Settles O17: the error entry by whether the error is fatal. -/
theorem errorEntry : Obligations.ErrorEntry :=
  fun _ _ d => ⟨fun h => raise_of_fatal (fatal_iff.2 h) d, fun h => raise_of_not_fatal (mt fatal_iff.1 h) d⟩

/-! ### Illegal words (60_exceptions R276) -/

/-- A core turn with an illegal word presented. -/
theorem step_of_illegal {s : State} {pr : Presented} {rest : List Presented} {e : DecodeError}
    (hp : paramsOk s.params = true) (h : s.turn = .core) (ho : s.out = none) (hc : s.cmd = none)
    (hpr : s.presented = pr :: rest) (hd : decodeCmd s.params pr.word = .error e) :
    step s = .next (s.popTurn.takePresented rest).raiseBadCommand := by
  rw [step_core hp h]
  simp [State.coreTurn, ho, hc, hpr, State.accept, hd]

theorem raiseBadCommand_eq (s : State) :
    s.raiseBadCommand = { s with
      lastErr := ⟨.badCommand, 0, 0, 0, 0⟩, log := s.log ++ [⟨.error ⟨.badCommand, 0, 0, 0, 0⟩, s.now⟩],
      rspStatus := .badCommand, rspData := 0, rspValid := true, cmd := none, upc := 0, out := none } :=
  raise_of_not_fatal (e := ⟨.badCommand, 0, 0, 0, 0⟩) (show ¬s.fatal .badCommand = true from Bool.false_ne_true) 0

/-- Settles O10: the BAD_COMMAND entry of a core whose command and transfer were none before. -/
theorem illegalWordAnswered : Obligations.IllegalWordAnswered := by
  intro s pr rest e hp h ho hc hpr hd
  rw [step_of_illegal hp h ho hc hpr hd, raiseBadCommand_eq]
  simp [State.takePresented, ho, hc]

/-! ### The legality table (41_configuration R188, 60_exceptions R275) -/

/-- A command at position 0 answers by the legality table. -/
theorem exec_startCase {i : Instr} {s : State} (hi : i.isCommand = true) (hu : s.upc = 0)
    (hm : s.mode ≠ none ↔ s.fsm = .active) : ∃ t, exec i s = .next t ∧ StartCase i s t := by
  obtain ⟨t, ht⟩ := exec_command_total hi hm (hu ▸ programLength_pos hi s.mode)
  exact ⟨t, ht, exec_start hi hu ht⟩

/-- Settles O16: the three ways a command's check comes out. -/
theorem legalityTable : Obligations.LegalityTable := by
  intro i s hi hu hm
  obtain ⟨t, hx, hcase⟩ := exec_startCase hi hu hm
  rw [hx]
  cases hcase with
  | passes hl hna ht =>
    refine ⟨fun _ => ?_, fun h => by simp [hl] at h⟩
    split
    · exact absurd rfl (hna _ _ _ _ _)
    · rw [ht, advance_of_upc hu]
  | leaves hl ha ht =>
    obtain ⟨m, win, decl, cust, fsel, rfl⟩ := ha
    refine ⟨fun _ => ?_, fun h => by simp [hl] at h⟩
    rw [ht, advance_of_upc (s := { s with mode := none, fsm := .idv }) hu]
  | refused hl ht => exact ⟨fun h => by simp [hl] at h, fun _ => by rw [ht, raiseBadState_eq]⟩

end Sys2Proof.Machine
end

section
/-! The link history event by event: what a step appends to it and what the clock and the gap do, and the settle and
busy laws (70_reset_and_hazards R305, R306). -/

namespace Sys2Proof.Machine

/-! ### The history grows at its end -/

/-- A list that ends in `x`, cut at one of its elements: at `x`, or before it. -/
theorem concat_eq_append_cons {α : Type} {l pre mid : List α} {x e : α} (h : l ++ [x] = pre ++ e :: mid) :
    (l = pre ∧ x = e ∧ mid = []) ∨ ∃ mid', l = pre ++ e :: mid' ∧ mid = mid' ++ [x] := by
  rcases List.eq_nil_or_concat mid with rfl | ⟨mid', y, rfl⟩
  · obtain ⟨hl, hx⟩ := List.append_inj' h rfl
    exact .inl ⟨hl, List.singleton_inj.1 hx, rfl⟩
  · rw [List.concat_eq_append, ← List.cons_append, ← List.append_assoc] at h
    obtain ⟨hl, hx⟩ := List.append_inj' h rfl
    exact .inr ⟨mid', hl, by rw [List.concat_eq_append, List.singleton_inj.1 hx]⟩

/-- The link history, the clock and the gap do not change. -/
structure SameLink (s t : State) : Prop where
  hist : t.hist = s.hist
  now : t.now = s.now
  settle : t.settle = s.settle

/-- Taking the turn changes none of them. -/
theorem popTurn_sameLink (s : State) : SameLink s s.popTurn := by constructor <;> simp

/-- What a step does to the link history, the clock and the gap. -/
inductive LinkStep (s t : State) : Prop where
  | tick (hh : t.hist = s.hist) (hn : t.now = s.now + 1) (hs : t.settle = s.settle - 1)
  | reset (ht : t = s.popTurn.coreReset)
  /-- An idle core, or an illegal word. -/
  | silent (h : SameLink s t)
  /-- An instruction runs: a frame, the latched command, or an accepted command. -/
  | runs (i : Instr) (u : State) (hu : SameLink s u) (hn : t.now = u.now) (hx : HistoryCase i u t)

/-- An instruction as a step of the link. -/
theorem LinkStep.of_exec {s t u : State} {i : Instr} (hu : SameLink s u) (hx : exec i u = .next t) : LinkStep s t := by
  obtain ⟨-, hn, -⟩ := exec_untouched hx
  exact .runs i u hu hn (exec_history hx)

/-- A step is one of these. -/
theorem step_link {s t : State} (h : step s = .next t) : LinkStep s t := by
  cases step_cases h with
  | tick _ ht => exact .tick (by simp [ht]) (by simp [ht, State.tick]) (by simp [ht, State.tick])
  | reset _ ht => exact .reset ht
  | frame _ o _ ht =>
    refine .of_exec (popTurn_sameLink s) (i := o.frame.instr) ?_
    rw [exec_frame, State.popTurn_params, ht]
  | command _ _ c _ hx => exact .of_exec (popTurn_sameLink s) hx
  | idle _ _ _ _ ht => exact .silent (ht ▸ popTurn_sameLink s)
  | illegal _ _ _ pr rest _ _ _ ht =>
    refine .silent ⟨?_, ?_, ?_⟩ <;> simp [ht, State.raiseBadCommand]
  | accept _ _ _ pr rest _ i _ hx => exact .of_exec ⟨by simp, by simp, by simp⟩ hx

/-! ### The settle law (R305) -/

/-- At `n` the gap after the last exchange is over, where no open or close has come behind it. -/
def GapOver (h : History) (n : Nat) : Prop :=
  ∀ (pre : History) (e : Stamped LinkEvent) (mid : History), h = pre ++ e :: mid → LinkEvent.isXfer e.ev = true →
    (∀ y ∈ mid, LinkEvent.endsGap y.ev = false) → e.time + tSettle ≤ n

/-- The settle counter covers what is left of the gap. -/
theorem settleInv_iff (s : State) : SettleInv s ↔ SettleLaw s.hist ∧ GapOver s.hist (s.now + s.settle) := Iff.rfl

theorem GapOver.mono {h : History} {m n : Nat} (hg : GapOver h m) (hmn : m ≤ n) : GapOver h n :=
  fun pre e mid heq hx hmid => (hg pre e mid heq hx hmid).trans hmn

/-- Behind one more event: its own gap if it is an exchange, the gap before it if it does not end that. -/
theorem GapOver.concat {h : History} {x : Stamped LinkEvent} {n : Nat}
    (hx : LinkEvent.isXfer x.ev = true → x.time + tSettle ≤ n) (hg : LinkEvent.endsGap x.ev = false → GapOver h n) :
    GapOver (h ++ [x]) n := by
  intro pre e mid heq he hmid
  rcases concat_eq_append_cons heq with ⟨-, rfl, -⟩ | ⟨mid', hl, rfl⟩
  · exact hx he
  · exact hg (hmid x (by simp)) pre e mid' hl he fun y hy => hmid y (by simp [hy])

/-- The law with one more event: an exchange comes when the gap is over. -/
theorem SettleLaw.concat {h : History} {x : Stamped LinkEvent} (hl : SettleLaw h)
    (hx : LinkEvent.isXfer x.ev = true → GapOver h x.time) : SettleLaw (h ++ [x]) := by
  intro pre e mid y post heq he hy hmid
  rw [← List.cons_append, ← List.append_assoc] at heq
  rcases concat_eq_append_cons heq with ⟨rfl, rfl, -⟩ | ⟨post', hl', rfl⟩
  · exact hx hy pre e mid rfl he hmid
  · exact hl pre e mid y post' (by rw [hl', List.append_assoc, List.cons_append]) he hy hmid

/-- An exchange that waits for the gap keeps the law, and its own gap is the settle counter's. -/
theorem SettleInv.exchange {s t : State} {h : History} {tx : Frame} {rx : Option Frame} {checked : Bool}
    (hl : SettleLaw h) (hg : GapOver h s.now) (hh : t.hist = h ++ [⟨.xfer tx rx checked, s.now⟩]) (hn : t.now = s.now)
    (hs : t.settle = tSettle) : SettleInv t := by
  rw [settleInv_iff, hh, hn, hs]
  exact ⟨hl.concat fun _ => hg, .concat (fun _ => le_rfl) fun h => absurd h (by simp [LinkEvent.endsGap])⟩

/-- An event that is no exchange keeps the law, and the gap it does not end. -/
theorem SettleInv.event {s t : State} {ev : LinkEvent} (h : SettleInv s) (hh : t.hist = s.hist ++ [⟨ev, s.now⟩])
    (hx : LinkEvent.isXfer ev = false) (hg : LinkEvent.endsGap ev = false → s.now + s.settle ≤ t.now + t.settle) :
    SettleInv t := by
  obtain ⟨hlaw, hgap⟩ := (settleInv_iff s).1 h
  rw [settleInv_iff, hh]
  exact ⟨hlaw.concat fun h => by simp [hx] at h, .concat (fun h => by simp [hx] at h) fun h => hgap.mono (hg h)⟩

/-- An instruction keeps the settle law: an exchange is made only with the counter at 0, and starts it again. -/
theorem HistoryCase.settleInv {i : Instr} {s t : State} (h : HistoryCase i s t) (hn : t.now = s.now)
    (hs : SettleInv s) : SettleInv t := by
  obtain ⟨hlaw, hgap⟩ := (settleInv_iff s).1 hs
  cases h with
  | same hh hset => rwa [settleInv_iff, hh, hn, hset]
  | poll _ hh hset | edge hh hset => exact hs.event hh rfl fun _ => by rw [hn, hset]
  | opened _ hh => exact hs.event hh rfl fun hends => by simp [LinkEvent.endsGap] at hends
  | closed hh => exact hs.event hh rfl fun hends => by simp [LinkEvent.endsGap] at hends
  | raw tx rx hh h0 hset =>
    rw [h0] at hgap
    exact .exchange hlaw hgap hh hn hset
  | checked tx rx hh h0 hset =>
    rw [h0] at hgap
    rw [← List.singleton_append, ← List.append_assoc] at hh
    have hpoll : SettleLaw (s.hist ++ [⟨.poll true, s.now⟩]) := hlaw.concat fun h => absurd h Bool.false_ne_true
    exact .exchange hpoll (.concat (fun h => absurd h Bool.false_ne_true) fun _ => hgap) hh hn hset

/-- A step keeps the settle law: a tick takes from the counter what it adds to the clock. -/
theorem LinkStep.settleInv {s t : State} (h : LinkStep s t) (hs : SettleInv s) : SettleInv t := by
  cases h with
  | tick hh hn hset =>
    obtain ⟨hlaw, hgap⟩ := (settleInv_iff s).1 hs
    rw [settleInv_iff, hh, hn, hset]
    exact ⟨hlaw, hgap.mono (by omega)⟩
  | reset ht =>
    subst ht
    exact settleInv_reset s.params
  | silent h => rwa [settleInv_iff, h.hist, h.now, h.settle]
  | runs i u hu hn hx => exact hx.settleInv hn (by rwa [settleInv_iff, hu.hist, hu.now, hu.settle])

/-- Settles O50: every step keeps the settle law and the counter that covers the gap. -/
theorem settleLawStays : Obligations.SettleLawStays := by
  intro s t hs h
  have ht := (step_link h).settleInv hs
  exact ⟨ht, ((settleInv_iff t).1 ht).1⟩

/-! ### The busy law (R306) -/

/-- The law with one more event: a checked exchange right behind its ready poll. -/
theorem BusyLaw.concat {h : History} {x : Stamped LinkEvent} (hl : BusyLaw h)
    (hx : ∀ tx rx, x.ev = .xfer tx rx true → ∃ pre, h = pre ++ [⟨.poll true, x.time⟩]) : BusyLaw (h ++ [x]) := by
  intro pre tx rx n post heq
  rcases concat_eq_append_cons heq with ⟨rfl, rfl, -⟩ | ⟨post', hl', -⟩
  · exact hx tx rx rfl
  · exact hl pre tx rx n post' hl'

/-- An instruction keeps the busy law: a ready poll and its exchange are one step. -/
theorem HistoryCase.busyLaw {i : Instr} {s t : State} (h : HistoryCase i s t) (hs : BusyLaw s.hist) :
    BusyLaw t.hist := by
  cases h with
  | same hh => rwa [hh]
  | poll _ hh | raw _ _ hh | opened _ hh | edge hh | closed hh => exact hh ▸ hs.concat (by simp)
  | checked tx rx hh =>
    have hpoll : BusyLaw (s.hist ++ [⟨.poll true, s.now⟩]) := hs.concat (by simp)
    have hlaw := hpoll.concat (x := ⟨.xfer tx rx true, s.now⟩) fun _ _ _ => ⟨s.hist, rfl⟩
    rwa [hh, ← List.singleton_append, ← List.append_assoc]

/-- Settles O51: every step keeps the busy law. -/
theorem busyLawStays : Obligations.BusyLawStays := by
  intro s t hs h
  cases step_link h with
  | tick hh => rwa [hh]
  | reset ht => exact ht ▸ busyLaw_nil
  | silent h => rwa [h.hist]
  | runs i u hu _ hx => exact hx.busyLaw (by rwa [hu.hist])

end Sys2Proof.Machine
end

section
/-! INIT's two waits by position, and the reset-timing law (41_configuration R182; 70_reset_and_hazards R307). -/

namespace Sys2Proof.Machine

/-! ### The law event by event -/

/-- Every rising reset edge of the history lies at least `wait` before `n`. -/
def EdgesBack (h : History) (wait n : Nat) : Prop := ∀ e ∈ h, e.ev = .rst true → e.time + wait ≤ n

theorem edgesSettled_iff (s : State) : edgesSettled s ↔ EdgesBack s.hist tRst s.now := Iff.rfl

theorem EdgesBack.mono {h : History} {wait wait' m n : Nat} (hb : EdgesBack h wait m) (hw : m + wait' ≤ n + wait) :
    EdgesBack h wait' n := by
  intro e he hev
  have := hb e he hev
  omega

/-- One more event, which is no rising edge or lies back too. -/
theorem EdgesBack.concat {h : History} {x : Stamped LinkEvent} {wait n : Nat} (hb : EdgesBack h wait n)
    (hx : x.ev = .rst true → x.time + wait ≤ n) : EdgesBack (h ++ [x]) wait n := by
  intro e he hev
  rcases List.mem_append.1 he with he | he
  · exact hb e he hev
  · rw [List.mem_singleton.1 he] at hev ⊢
    exact hx hev

/-- The law with one more event: an edge right behind its open, an exchange with every edge far enough back. -/
theorem ResetTimingLaw.concat {h : History} {x : Stamped LinkEvent} (hl : ResetTimingLaw h)
    (hedge : x.ev = .rst true → ∃ pre o, h = pre ++ [o] ∧ o.ev = .opened true ∧ o.time + tPwr ≤ x.time)
    (hxfer : LinkEvent.isXfer x.ev = true → EdgesBack h tRst x.time) : ResetTimingLaw (h ++ [x]) := by
  obtain ⟨hpower, hreset⟩ := hl
  refine ⟨fun pre e post heq he => ?_, fun pre e mid y post heq he hy => ?_⟩
  · rcases concat_eq_append_cons heq with ⟨rfl, rfl, -⟩ | ⟨post', hl', -⟩
    · exact hedge he
    · exact hpower pre e post' hl' he
  · rw [← List.cons_append, ← List.append_assoc] at heq
    rcases concat_eq_append_cons heq with ⟨rfl, rfl, -⟩ | ⟨post', hl', -⟩
    · exact hxfer hy e (by simp) he
    · exact hreset pre e mid y post' (by rw [hl', List.append_assoc, List.cons_append]) he hy

/-- An instruction but INIT records no edge, and an exchange only with every edge far enough back. -/
theorem HistoryCase.resetTiming {i : Instr} {s t : State} (h : HistoryCase i s t) (hi : i ≠ .init)
    (hl : ResetTimingLaw s.hist) (hb : EdgesBack s.hist tRst s.now) :
    ResetTimingLaw t.hist ∧ EdgesBack t.hist tRst s.now := by
  have event : ∀ {h : History} {ev : LinkEvent}, ev ≠ .rst true → ResetTimingLaw h ∧ EdgesBack h tRst s.now →
      ResetTimingLaw (h ++ [⟨ev, s.now⟩]) ∧ EdgesBack (h ++ [⟨ev, s.now⟩]) tRst s.now := fun hev ⟨hl, hb⟩ =>
    ⟨hl.concat (fun h => absurd h hev) fun _ => hb, hb.concat fun h => absurd h hev⟩
  cases h with
  | same hh => exact hh ▸ ⟨hl, hb⟩
  | poll _ hh | raw _ _ hh | closed hh => exact hh ▸ event (by simp) ⟨hl, hb⟩
  | checked _ _ hh =>
    rw [← List.singleton_append, ← List.append_assoc] at hh
    exact hh ▸ event (by simp) (event (by simp) ⟨hl, hb⟩)
  | opened _ _ _ _ hinit | edge _ _ _ hinit => exact absurd hinit hi

/-! ### INIT's positions -/

/-- INIT is not in progress, or behind its two waits. -/
def InitPast (s : State) : Prop := ∀ c, s.cmd = some c → c.instr = .init → 7 ≤ s.upc

/-- What INIT has waited for at each position up to the end of its second wait. -/
def WaitsAt (s : State) : Nat → Prop
  | 1 => EdgesBack s.hist tRst s.now
  | 2 => EdgesBack s.hist tRst s.now ∧ lastEventWaits s (.opened true) 0 0
  | 3 => EdgesBack s.hist tRst s.now ∧ lastEventWaits s (.opened true) tPwr s.dly
  | 4 => EdgesBack s.hist tRst s.now ∧ lastEventWaits s (.opened true) tPwr 0
  | 5 => EdgesBack s.hist 0 s.now
  | 6 => EdgesBack s.hist tRst (s.now + s.dly)
  | _ => True

/-- The invariant where INIT is not in its waits. -/
theorem resetTimingInv_past {s : State} (h : InitPast s) :
    ResetTimingInv s ↔ SessionInv s ∧ ResetTimingLaw s.hist ∧ EdgesBack s.hist tRst s.now := by
  rw [← edgesSettled_iff]
  cases hc : s.cmd with
  | none => simp only [ResetTimingInv, hc]
  | some c =>
    cases hi : c.instr with
    | init =>
      obtain ⟨n, hu⟩ := Nat.exists_eq_add_of_le' (h c hc hi)
      simp only [ResetTimingInv, hc, hi, hu]
    | _ => simp only [ResetTimingInv, hc, hi]

/-- The invariant in INIT's waits. -/
theorem resetTimingInv_waits {s : State} {c : Cmd} {u : Nat} (hc : s.cmd = some c) (hi : c.instr = .init)
    (hu : s.upc = u) (h1 : 1 ≤ u) (h7 : u < 7) :
    ResetTimingInv s ↔ SessionInv s ∧ ResetTimingLaw s.hist ∧ s.out = none ∧ WaitsAt s u := by
  simp only [ResetTimingInv, hc, hi, hu, edgesSettled_iff]
  interval_cases u <;> simp only [WaitsAt, EdgesBack, Nat.add_zero] <;> tauto

/-- The invariant at a position of INIT's waits, from its parts. -/
theorem ResetTimingInv.of_waits {t : State} {c : Cmd} (u : Nat) (ht : SessionInv t) (hc : t.cmd = some c)
    (hi : c.instr = .init) (hu : t.upc = u) (h7 : u < 7) (hlaw : ResetTimingLaw t.hist) (hout : t.out = none)
    (hwait : WaitsAt t u) : ResetTimingInv t := by
  obtain ⟨h1, -, -⟩ := ht.running hc
  exact (resetTimingInv_waits hc hi hu (hu ▸ h1) h7).2 ⟨ht, hlaw, hout, hwait⟩

/-- Time passes: what was waited for stays so, and a delay gives way to the clock. -/
theorem WaitsAt.later {s t : State} {u : Nat} (h : WaitsAt s u) (hh : t.hist = s.hist) (hn : s.now ≤ t.now)
    (hd : s.now + s.dly ≤ t.now + t.dly) : WaitsAt t u := by
  have wait : ∀ {ev wait m n}, lastEventWaits s ev wait m → s.now + m ≤ t.now + n → lastEventWaits t ev wait n :=
    fun ⟨pre, o, heq, hev, ho⟩ hmn => ⟨pre, o, hh.trans heq, hev, ho.trans hmn⟩
  have back : ∀ {wait m n}, EdgesBack s.hist wait m → m ≤ n → EdgesBack t.hist wait n :=
    fun hb hmn => hh ▸ hb.mono (Nat.add_le_add_right hmn _)
  match u, h with
  | 0, _ => trivial
  | 1, hb => exact back hb hn
  | 2, ⟨hb, hw⟩ => exact ⟨back hb hn, wait hw hn⟩
  | 3, ⟨hb, hw⟩ => exact ⟨back hb hn, wait hw hd⟩
  | 4, ⟨hb, hw⟩ => exact ⟨back hb hn, wait hw hn⟩
  | 5, hb => exact back hb hn
  | 6, hb => exact back hb hd
  | _ + 7, _ => trivial

/-- INIT is past its waits, or at one of their positions. -/
theorem initPast_or_waits (s : State) : InitPast s ∨ ∃ c, s.cmd = some c ∧ c.instr = .init ∧ s.upc < 7 := by
  refine or_iff_not_imp_right.2 fun h c hc hi => ?_
  by_contra h7
  exact h ⟨c, hc, hi, Nat.lt_of_not_le h7⟩

/-- A step that only lets time pass keeps the invariant. -/
theorem ResetTimingInv.later {s t : State} (h : ResetTimingInv s) (hq : Quiet s t) (hu : t.upc = s.upc)
    (ho : t.out = s.out) (hh : t.hist = s.hist) (hn : s.now ≤ t.now) (hd : s.now + s.dly ≤ t.now + t.dly) :
    ResetTimingInv t := by
  have ht : SessionInv t := h.1.of_quiet hq hu ho
  rcases initPast_or_waits s with hpast | ⟨c, hc, hi, h7⟩
  · obtain ⟨-, hlaw, hback⟩ := (resetTimingInv_past hpast).1 h
    have hpast' : InitPast t := by simpa only [InitPast, hq.cmd, hu] using hpast
    exact (resetTimingInv_past hpast').2 ⟨ht, hh ▸ hlaw, hh ▸ hback.mono (Nat.add_le_add_right hn _)⟩
  · obtain ⟨h1, -, -⟩ := h.1.running hc
    obtain ⟨-, hlaw, hout, hwait⟩ := (resetTimingInv_waits hc hi rfl h1 h7).1 h
    exact .of_waits s.upc ht (hq.cmd.trans hc) hi hu h7 (hh ▸ hlaw) (ho.trans hout) (hwait.later hh hn hd)

/-- INIT's opening of the link, which records the open that the power wait counts from, or fails. -/
theorem openLink_resetTiming {s : State} {c : Cmd} (hc : s.cmd = some c) (hi : c.instr = .init) (hu : s.upc = 1)
    (hout : s.out = none) (hlaw : ResetTimingLaw s.hist) (hback : EdgesBack s.hist tRst s.now)
    (ht : SessionInv (openLink s)) : ResetTimingInv (openLink s) := by
  have hlaw' : ∀ ok, ResetTimingLaw (s.hist ++ [⟨.opened ok, s.now⟩]) := fun ok =>
    hlaw.concat (by simp) (by simp [LinkEvent.isXfer])
  have hback' : ∀ ok, EdgesBack (s.hist ++ [⟨.opened ok, s.now⟩]) tRst s.now := fun ok => hback.concat (by simp)
  cases ho : s.opensOk with
  | true =>
    rw [openLink_opens ho] at ht ⊢
    exact .of_waits 2 ht hc hi (by simp [hu]) (by decide) (hlaw' true) hout
      ⟨hback' true, s.hist, _, rfl, rfl, le_rfl⟩
  | false =>
    rw [openLink_fails ho] at ht ⊢
    refine (resetTimingInv_past fun c hc => by simp at hc).2 ⟨ht, ?_, ?_⟩
    · simpa using hlaw' false
    · simpa using hback' false

/-- INIT at a position of its waits. -/
theorem ResetTimingInv.init_waits {s t : State} {c : Cmd} (h : ResetTimingInv s) (hc : s.cmd = some c)
    (hi : c.instr = .init) (h7 : s.upc < 7) (hx : exec .init s = .next t) (ht : SessionInv t) : ResetTimingInv t := by
  obtain ⟨h1, -, -⟩ := h.1.running hc
  obtain ⟨-, hlaw, hout, hwait⟩ := (resetTimingInv_waits hc hi rfl h1 h7).1 h
  generalize hu : s.upc = u at h1 h7 hwait
  match u, h1, hwait with
  | 1, _, hback =>
    rw [exec_of_upc (f := openLink) rfl hu rfl] at hx
    obtain rfl := Host.Outcome.next.inj hx
    exact openLink_resetTiming hc hi hu hout hlaw hback ht
  | 2, _, ⟨hback, pre, o, heq, hev, hle⟩ =>
    rw [exec_waitStart (n := 2) rfl hu rfl] at hx
    obtain rfl := Host.Outcome.next.inj hx
    have hdelay : o.time + tPwr ≤ s.now + tPwr := by omega
    exact .of_waits 3 ht hc hi rfl (by decide) hlaw hout ⟨hback, pre, o, heq, hev, hdelay⟩
  | 3, _, ⟨hback, hlast⟩ =>
    by_cases hd : s.dly = 0
    · rw [exec_waitHold_over (n := 3) rfl hu rfl hd] at hx
      obtain rfl := Host.Outcome.next.inj hx
      exact .of_waits 4 ht hc hi rfl (by decide) hlaw hout ⟨hback, hd ▸ hlast⟩
    · rw [exec_waitHold_holds (n := 3) rfl hu rfl hd] at hx
      exact Host.Outcome.next.inj hx ▸ h
  | 4, _, ⟨hback, hlast⟩ =>
    rw [exec_of_upc (f := resetEdge) rfl hu rfl, resetEdge_eq] at hx
    obtain rfl := Host.Outcome.next.inj hx
    exact .of_waits 5 ht hc hi (by simp [hu]) (by decide)
      (hlaw.concat (fun _ => hlast) (by simp [LinkEvent.isXfer])) hout
      (.concat (hback.mono (Nat.add_le_add_left (Nat.zero_le _) _)) fun _ => le_rfl)
  | 5, _, hback =>
    rw [exec_waitStart (n := 5) rfl hu rfl] at hx
    obtain rfl := Host.Outcome.next.inj hx
    have hdelay : EdgesBack s.hist tRst (s.now + tRst) := EdgesBack.mono hback (by omega)
    exact .of_waits 6 ht hc hi rfl (by decide) hlaw hout hdelay
  | 6, _, hback =>
    by_cases hd : s.dly = 0
    · rw [exec_waitHold_over (n := 6) rfl hu rfl hd] at hx
      obtain rfl := Host.Outcome.next.inj hx
      rw [WaitsAt, hd] at hback
      exact (resetTimingInv_past fun _ _ _ => le_rfl).2 ⟨ht, hlaw, hback⟩
    · rw [exec_waitHold_holds (n := 6) rfl hu rfl hd] at hx
      exact Host.Outcome.next.inj hx ▸ h

/-- An event that neither ends its command nor changes the session makes no link event. -/
theorem QuietEvent.hist {n : Nat} {f : State → State} (h : QuietEvent n f) (s : State) : (f s).hist = s.hist := by
  cases h
  case parseCollected =>
    rw [parseCollected_eq]
    split <;> rfl
  case waitHold | readCheck | writeCheck | nextTap | storeLast | storeBlockWord =>
    simp only [Machine.waitHold, Machine.readCheck, Machine.writeCheck, Machine.nextTap, Machine.storeLast,
      Machine.storeBlockWord]
    split <;> rfl
  case storeWord =>
    unfold Machine.storeWord
    split
    · split <;> rfl
    · rfl
  all_goals rfl

/-- Behind its waits INIT makes no link event of its own, and does not come back to them. -/
theorem init_past {s t : State} (hu : 7 ≤ s.upc) (hx : exec .init s = .next t) :
    t.hist = s.hist ∧ (t.cmd = none ∨ 7 ≤ t.upc) := by
  obtain ⟨f, hf, rfl⟩ := exec_command_next rfl hx
  have hev := initProgram_event hf
  generalize hv : s.upc = v at hev
  cases hev with
  | check | opening | powerWait | powerHold | edge => omega
  | reading _ hq =>
    have hback : s.upc ≤ (f s).upc := hq.back s
    exact ⟨hq.hist s, .inr (by omega)⟩
  | identity =>
    unfold identityCheck
    split
    · exact ⟨State.raise_hist .., .inl (State.raise_cmd ..)⟩
    · exact ⟨rfl, .inl rfl⟩

/-! ### Steps -/

/-- With a transfer in the framer INIT is past its waits. -/
theorem ResetTimingInv.past_of_out {s : State} (h : ResetTimingInv s) (ho : s.out ≠ none) : InitPast s := by
  refine (initPast_or_waits s).resolve_right fun ⟨c, hc, hi, h7⟩ => ?_
  obtain ⟨h1, -, -⟩ := h.1.running hc
  obtain ⟨-, -, hout, -⟩ := (resetTimingInv_waits hc hi rfl h1 h7).1 h
  exact ho hout

/-- An instruction with INIT past its waits, before and behind it. -/
theorem ResetTimingInv.exec_past {s t : State} {i : Instr} (h : ResetTimingInv s) (hp : InitPast s) (hp' : InitPast t)
    (hx : exec i s = .next t) (hi : i = .init → t.hist = s.hist) (ht : SessionInv t) : ResetTimingInv t := by
  obtain ⟨-, hlaw, hback⟩ := (resetTimingInv_past hp).1 h
  obtain ⟨-, hn, -⟩ := exec_untouched hx
  rw [resetTimingInv_past hp', hn]
  by_cases hinit : i = .init
  · rw [hi hinit]
    exact ⟨ht, hlaw, hback⟩
  · exact ⟨ht, (exec_history hx).resetTiming hinit hlaw hback⟩

/-- The framer's step of a transfer of the command in progress. -/
theorem ResetTimingInv.frame {s t : State} {f : LinkFrame} (h : ResetTimingInv s) (ho : s.out ≠ none)
    (hx : exec f.instr s = .next t) (ht : SessionInv t) : ResetTimingInv t := by
  have hp := h.past_of_out ho
  have hframe : f.instr ≠ .init := by cases f <;> simp [LinkFrame.instr]
  refine h.exec_past hp (fun c hc hi => ?_) hx (fun hi => absurd hi hframe) ht
  obtain ⟨-, -, hgoes⟩ := frameOfLinkFrames f s t hx
  obtain ⟨hcmd, -, -, hu, -⟩ := hgoes (by simp [hc])
  exact hu ▸ hp c (hcmd ▸ hc) hi

/-- A position of the command in progress. -/
theorem ResetTimingInv.command {s t : State} {c : Cmd} (h : ResetTimingInv s) (hc : s.cmd = some c)
    (hx : exec c.instr s = .next t) (ht : SessionInv t) : ResetTimingInv t := by
  obtain ⟨-, hrun, -⟩ := h.1.running hc
  have hcmd := (exec_session (runningFsm_isCommand hrun) hx).continues_or_ended
  rcases initPast_or_waits s with hp | ⟨c', hc', hi, h7⟩
  · refine h.exec_past hp (fun c' hc' hi => ?_) hx (fun hi => ?_) ht
    · rcases hcmd with hgo | hend
      · obtain rfl : c = c' := Option.some.inj (hc.symm.trans (hgo.cmd ▸ hc'))
        obtain ⟨-, hend | hu⟩ := init_past (hp c hc hi) (hi ▸ hx)
        · simp [hend] at hc'
        · exact hu
      · simp [hend.cmd] at hc'
    · exact (init_past (hp c hc hi) (hi ▸ hx)).1
  · obtain rfl : c = c' := Option.some.inj (hc.symm.trans hc')
    exact h.init_waits hc hi h7 (hi ▸ hx) ht

/-- An idle core with every edge far enough back, or INIT just behind its check. -/
theorem StartCase.resetTiming {i : Instr} {s t : State} {cfg : CfgIn} (h : StartCase i s t) (hc : s.cmd = some ⟨i, cfg⟩)
    (hu : s.upc = 0) (ho : s.out = none) (hl : ResetTimingLaw s.hist) (hb : EdgesBack s.hist tRst s.now)
    (ht : SessionInv t) : ResetTimingInv t := by
  cases h with
  | passes _ _ heq =>
    subst heq
    by_cases hi : i = .init
    · exact .of_waits 1 ht hc hi (by simp [hu]) (by decide) hl ho hb
    · refine (resetTimingInv_past fun c hc' hi' => absurd ?_ hi).2 ⟨ht, hl, hb⟩
      rwa [← Option.some.inj (hc.symm.trans hc')] at hi'
  | leaves _ hi heq =>
    obtain ⟨m, win, decl, cust, fsel, rfl⟩ := hi
    subst heq
    refine (resetTimingInv_past fun c hc' hi' => ?_).2 ⟨ht, hl, hb⟩
    rw [← Option.some.inj (hc.symm.trans hc')] at hi'
    exact absurd hi' (by simp)
  | refused _ heq =>
    subst heq
    refine (resetTimingInv_past fun c hc' => ?_).2 ⟨ht, ?_, ?_⟩
    · simp [State.raiseBadState] at hc'
    · simpa [State.raiseBadState] using hl
    · simpa [State.raiseBadState] using hb

/-- Taking the turn changes nothing of it. -/
theorem ResetTimingInv.popTurn {s : State} (h : ResetTimingInv s) : ResetTimingInv s.popTurn :=
  h.later (popTurn_quiet s) (by simp) (by simp) (by simp) (by simp) (by simp)

/-- An idle core has no wait to come. -/
theorem initPast_of_idle {s : State} (hc : s.cmd = none) : InitPast s := fun c hc' => by simp [hc] at hc'

/-- Every step keeps INIT's progress through its waits. -/
theorem step_resetTimingInv {s t : State} (hs : ResetTimingInv s) (h : step s = .next t) : ResetTimingInv t := by
  have ht := sessionInvStays s t hs.1 h
  cases step_cases h with
  | tick _ heq =>
    subst heq
    exact hs.popTurn.later (.of_fields rfl) (by simp) (by simp) (by simp) (by simp [State.tick])
      (by simp [State.tick]; omega)
  | reset _ heq =>
    subst heq
    exact (resetTimingInv_past (initPast_of_idle rfl)).2 ⟨ht, resetTimingLaw_nil, fun e he => by cases he⟩
  | frame _ o ho heq =>
    refine hs.popTurn.frame (f := o.frame) (by simp [ho]) ?_ ht
    rw [exec_frame, State.popTurn_params, heq]
  | command _ _ c hc hx => exact hs.popTurn.command (by simpa using hc) hx ht
  | idle _ _ _ _ heq => exact heq ▸ hs.popTurn
  | illegal _ _ hc pr rest _ _ _ heq =>
    subst heq
    obtain ⟨-, hlaw, hback⟩ := (resetTimingInv_past (initPast_of_idle hc)).1 hs
    refine (resetTimingInv_past (initPast_of_idle (State.raise_cmd ..))).2 ⟨ht, ?_, ?_⟩
    · simpa [State.raiseBadCommand] using hlaw
    · simpa [State.raiseBadCommand] using hback
  | accept _ ho hc pr rest _ i hd hx =>
    obtain ⟨-, hlaw, hback⟩ := (resetTimingInv_past (initPast_of_idle hc)).1 hs
    exact (exec_start (decodeCmd_ok hd).2.1 rfl hx).resetTiming rfl rfl (by simpa using ho) (by simpa using hlaw)
      (by simpa using hback) ht

/-- Settles O52: every step keeps the reset-timing law, and INIT's waits that carry it. -/
theorem resetTimingLawStays : Obligations.ResetTimingLawStays := by
  intro s t hs h
  have ht := step_resetTimingInv hs h
  exact ⟨ht, ht.2.1⟩

end Sys2Proof.Machine
end

section
/-! TRIGGER's wait by position, and the trigger law (41_configuration R185; 70_reset_and_hazards R308). -/

namespace Sys2Proof.Machine

/-! ### How a command ends -/

/-- A frame's step ends a command in progress with an error only. -/
theorem sendFrame_ends {s : State} {tx : Frame} (hc : s.cmd ≠ none) (hend : (s.sendFrame tx).cmd = none) :
    (s.sendFrame tx).rspStatus ≠ .ok := by
  obtain ⟨checked, page, addr, hs, -⟩ := sendFrame_sent s tx
  rw [hs] at hend ⊢
  rcases framer_session s tx checked page addr with ⟨t, ht | ht, hq, -⟩ | ⟨u, e, hr, -, he⟩
  · rw [ht] at hend
    exact absurd (hq.cmd.symm.trans hend) hc
  · rw [ht] at hend
    exact absurd (hq.cmd.symm.trans hend) hc
  · rw [hr, LinkResult.sent, State.raise_rspStatus]
    rcases he with he | he <;> simp [he]

/-- An instruction leaves the command in progress, or ends it. -/
theorem exec_cmd {i : Instr} {s t : State} (hx : exec i s = .next t) : t.cmd = s.cmd ∨ t.cmd = none := by
  rcases command_or_frame i with hi | ⟨f, rfl⟩
  · exact (exec_session hi hx).continues_or_ended.imp (·.cmd) (·.cmd)
  · obtain ⟨-, -, hgoes⟩ := frameOfLinkFrames f s t hx
    exact or_iff_not_imp_right.2 fun hne => (hgoes hne).1

/-! ### TRIGGER's positions -/

/-- What TRIGGER does at each of its positions. -/
inductive TriggerEvent : Nat → (State → State) → Prop where
  | check : TriggerEvent 0 (startIn [.active])
  | writing (r : RegAddr) : TriggerEvent 1 (writeCheck r)
  /-- The three frames of the write. -/
  | sending {u : Nat} (h2 : 2 ≤ u) (h4 : u ≤ 4) (r : RegAddr) (f : LinkFrame) : TriggerEvent u (sendTo r f)
  | sent : TriggerEvent 5 triggerSent
  | hold : TriggerEvent 6 waitHold
  | finish : TriggerEvent 7 finishOk

/-- TRIGGER's micro-program by position. -/
theorem triggerProgram_event {s : State} {u : Nat} {f : State → State} (h : (triggerProgram s)[u]? = some f) :
    TriggerEvent u f := by
  match u, h with
  | 0, h => exact Option.some.inj h ▸ .check
  | 1, h => exact Option.some.inj h ▸ .writing _
  | 2, h => exact Option.some.inj h ▸ .sending (by decide) (by decide) ..
  | 3, h => exact Option.some.inj h ▸ .sending (by decide) (by decide) ..
  | 4, h => exact Option.some.inj h ▸ .sending (by decide) (by decide) ..
  | 5, h => exact Option.some.inj h ▸ .sent
  | 6, h => exact Option.some.inj h ▸ .hold
  | 7, h => exact Option.some.inj h ▸ .finish
  | n + 8, h => simp [triggerProgram, regWrite] at h

/-- A position of TRIGGER. -/
theorem exec_trigger_event {s t : State} (hx : exec .trigger s = .next t) :
    ∃ f, TriggerEvent s.upc f ∧ t = f s := by
  obtain ⟨f, hf, ht⟩ := exec_command_next rfl hx
  exact ⟨f, triggerProgram_event hf, ht⟩

/-- Every link event lies at least `wait` before `n`. -/
def EventsBack (h : History) (wait n : Nat) : Prop := ∀ e ∈ h, e.time + wait ≤ n

theorem EventsBack.mono {h : History} {wait wait' m n : Nat} (hb : EventsBack h wait m) (hw : m + wait' ≤ n + wait) :
    EventsBack h wait' n := by
  intro e he
  have := hb e he
  omega

/-- What TRIGGER has waited for at a position: from position 6 on every link event is behind it. -/
def TriggerWaits (s : State) : Nat → Prop
  | 6 => s.out = none ∧ EventsBack s.hist tTrig (s.now + s.dly)
  | 7 => s.out = none ∧ EventsBack s.hist tTrig s.now
  | _ => True

theorem triggerWaits_of_ne {s : State} {u : Nat} (h6 : u ≠ 6) (h7 : u ≠ 7) : TriggerWaits s u := by
  match u with
  | 0 | 1 | 2 | 3 | 4 | 5 | _ + 8 => trivial
  | 6 => exact absurd rfl h6
  | 7 => exact absurd rfl h7

/-- With a transfer in the framer TRIGGER is at neither of the two. -/
theorem TriggerWaits.ne_of_out {s : State} {u : Nat} (h : TriggerWaits s u) (ho : s.out ≠ none) : u ≠ 6 ∧ u ≠ 7 := by
  constructor
  · rintro rfl
    exact ho h.1
  · rintro rfl
    exact ho h.1

/-- The invariant: no stamp in the future, and TRIGGER's wait if it is in progress. -/
theorem triggerInv_iff (s : State) :
    TriggerInv s ↔
      EventsBack s.hist 0 s.now ∧ ∀ c, s.cmd = some c → c.instr = .trigger → TriggerWaits s s.upc := by
  refine and_congr Iff.rfl ?_
  cases hc : s.cmd with
  | none => simp
  | some c =>
    cases hi : c.instr with
    | trigger =>
      by_cases h6 : s.upc = 6
      · simp [h6, hi, TriggerWaits, EventsBack]
      · by_cases h7 : s.upc = 7
        · simp [h7, hi, TriggerWaits, EventsBack]
        · simp [hi, triggerWaits_of_ne h6 h7]
    | _ => simp [hi]

/-- A position of TRIGGER keeps its wait. -/
theorem exec_trigger_waits {s t : State} (hx : exec .trigger s = .next t) (hpast : EventsBack s.hist 0 s.now)
    (ho : s.out = none) (hw : TriggerWaits s s.upc) : t.cmd = none ∨ TriggerWaits t t.upc := by
  obtain ⟨f, hf, rfl⟩ := exec_trigger_event hx
  generalize hu : s.upc = u at hf hw
  cases hf with
  | check =>
    rcases startIn_cases [.active] s with ⟨-, ht⟩ | ⟨-, ht⟩ <;> rw [ht]
    · exact .inr (triggerWaits_of_ne (by simp [hu]) (by simp [hu]))
    · exact .inl (State.raise_cmd ..)
  | writing r =>
    rcases writeCheck_cases r s with ⟨-, ht⟩ | ⟨-, ht⟩ <;> rw [ht] <;>
      exact .inr (triggerWaits_of_ne (by simp [hu]) (by simp [hu]))
  | sending h2 h4 r f =>
    have hupc : (sendTo r f s).upc = u + 1 := congrArg (· + 1) hu
    exact .inr (triggerWaits_of_ne (by omega) (by omega))
  | sent =>
    unfold triggerSent
    split
    · exact .inl rfl
    · have hupc : (waitStart tTrig s).upc = 6 := congrArg (· + 1) hu
      rw [hupc]
      exact .inr ⟨ho, hpast.mono (n := s.now + tTrig) (by omega)⟩
  | hold =>
    rcases waitHold_cases s with ⟨hd, ht⟩ | ⟨-, ht⟩ <;> rw [ht]
    · obtain ⟨-, hback⟩ := hw
      rw [hd] at hback
      rw [State.advance_upc, hu]
      exact .inr ⟨ho, hback⟩
    · exact .inr (hu ▸ hw)
  | finish => exact .inl rfl

/-- TRIGGER responds OK at its last position only, and makes no link event there. -/
theorem exec_trigger_ok {s t : State} (hx : exec .trigger s = .next t) (hc : s.cmd ≠ none) (hend : t.cmd = none)
    (hok : t.rspStatus = .ok) : s.upc = 7 ∧ t.hist = s.hist := by
  obtain ⟨f, hf, rfl⟩ := exec_trigger_event hx
  generalize hu : s.upc = u at hf
  cases hf with
  | check =>
    rcases startIn_cases [.active] s with ⟨-, ht⟩ | ⟨-, ht⟩ <;> rw [ht] at hend hok
    · exact absurd hend hc
    · simp [State.raiseBadState] at hok
  | writing r => exact absurd (((QuietEvent.writeCheck r).quiet s).cmd.symm.trans hend) hc
  | sending _ _ r f => exact absurd hend hc
  | sent =>
    unfold triggerSent at hend hok
    split at hok
    · simp at hok
    · rename_i hm
      rw [if_neg hm] at hend
      exact absurd hend hc
  | hold => exact absurd ((QuietEvent.waitHold.quiet s).cmd.symm.trans hend) hc
  | finish => exact ⟨rfl, rfl⟩

/-! ### Steps -/

/-- No step leaves a stamp in the future. -/
theorem step_eventsPast {s t : State} (hs : EventsBack s.hist 0 s.now) (h : step s = .next t) :
    EventsBack t.hist 0 t.now := by
  by_cases hr : s.turn = .reset
  · rw [step_reset (step_next_params h) hr] at h
    rw [← Host.Outcome.next.inj h]
    exact fun e he => by cases he
  · obtain ⟨-, -, hs', -, -, hh, -, -, -, -, htime, -⟩ := outputsOnlyGrow s t h hr
    rw [hh]
    exact stamps_le_append hs htime (step_records h hr).now_le

/-- TRIGGER's wait while time passes. -/
theorem TriggerWaits.later {s t : State} {u : Nat} (h : TriggerWaits s u) (hh : t.hist = s.hist) (ho : t.out = s.out)
    (hn : s.now ≤ t.now) (hd : s.now + s.dly ≤ t.now + t.dly) : TriggerWaits t u := by
  by_cases h6 : u = 6
  · subst h6
    exact ⟨ho.trans h.1, hh ▸ h.2.mono (Nat.add_le_add_right hd _)⟩
  · by_cases h7 : u = 7
    · subst h7
      exact ⟨ho.trans h.1, hh ▸ h.2.mono (Nat.add_le_add_right hn _)⟩
    · exact triggerWaits_of_ne h6 h7

/-- Every step keeps TRIGGER's wait. -/
theorem step_triggerInv {s t : State} (hs : TriggerInv s) (h : step s = .next t) : TriggerInv t := by
  obtain ⟨hpast, hwaits⟩ := (triggerInv_iff s).1 hs
  refine (triggerInv_iff t).2 ⟨step_eventsPast hpast h, fun c hc hi => ?_⟩
  cases step_cases h with
  | tick _ ht =>
    subst ht
    have hw := hwaits c (by simpa using hc) hi
    simpa using hw.later (t := s.popTurn.tick) (by simp) (by simp) (by simp [State.tick]) (by simp [State.tick]; omega)
  | reset _ ht =>
    subst ht
    cases hc
  | frame _ o ho ht =>
    have hx : exec o.frame.instr s.popTurn = .next t := by rw [exec_frame, State.popTurn_params, ht]
    obtain ⟨-, -, hgoes⟩ := frameOfLinkFrames _ _ _ hx
    obtain ⟨hcmd, -, -, hupc, -⟩ := hgoes (by simp [hc])
    have hw := hwaits c (by rw [← hc, hcmd, State.popTurn_cmd]) hi
    obtain ⟨h6, h7⟩ := hw.ne_of_out (by simp [ho])
    rw [hupc, State.popTurn_upc]
    exact triggerWaits_of_ne h6 h7
  | command _ ho c' hc' hx =>
    have hcmd := (exec_cmd hx).resolve_right (by simp [hc])
    obtain rfl : c' = c := Option.some.inj (by rw [← hc', ← hc, hcmd, State.popTurn_cmd])
    rw [hi] at hx
    have hw : TriggerWaits s.popTurn s.popTurn.upc := by
      simpa using (hwaits c' hc' hi).later (t := s.popTurn) (by simp) (by simp) (by simp) (by simp)
    exact (exec_trigger_waits hx (by simpa using hpast) (by simpa using ho) hw).resolve_left (by simp [hc])
  | idle _ _ hnone _ ht => simp [ht, hnone] at hc
  | illegal _ _ _ _ _ _ _ _ ht => simp [ht, State.raiseBadCommand] at hc
  | accept _ _ _ pr rest _ i hd hx =>
    have hupc : t.cmd ≠ none → t.upc = 1 := by
      cases exec_start (decodeCmd_ok hd).2.1 rfl hx with
      | passes _ _ ht | leaves _ _ ht => exact fun _ => ht ▸ rfl
      | refused _ ht => exact fun hne => absurd (ht ▸ State.raise_cmd ..) hne
    rw [hupc (by simp [hc])]
    trivial

/-- A TRIGGER that responds OK has waited. -/
theorem step_trigger_ok {s t : State} (hs : TriggerInv s) (h : step s = .next t) (hr : s.turn ≠ .reset)
    (hi : s.cmd.map Cmd.instr = some .trigger) (hend : t.cmd = none) (hok : t.rspStatus = .ok) :
    EventsBack t.hist tTrig t.now := by
  obtain ⟨c, hc, hinstr⟩ := Option.map_eq_some_iff.1 hi
  obtain ⟨-, hwaits⟩ := (triggerInv_iff s).1 hs
  cases step_cases h with
  | tick _ ht => simp [ht, hc] at hend
  | reset hr' => exact absurd hr' hr
  | frame _ o _ ht =>
    subst ht
    exact absurd hok (sendFrame_ends (by simp [hc]) hend)
  | command _ ho c' hc' hx =>
    obtain rfl : c' = c := Option.some.inj (hc'.symm.trans hc)
    rw [hinstr] at hx
    obtain ⟨hu, hh⟩ := exec_trigger_ok hx (by simp [hc]) hend hok
    obtain ⟨-, hn, -⟩ := exec_untouched hx
    have hw := hwaits c' hc hinstr
    rw [State.popTurn_upc] at hu
    rw [hu] at hw
    rw [hh, hn, State.popTurn_hist, State.popTurn_now]
    exact hw.2
  | idle _ _ hnone | illegal _ _ hnone | accept _ _ hnone => simp [hnone] at hc

/-- Settles O53: every step keeps TRIGGER's wait, and its OK response comes at the end of it. -/
theorem triggerLawStays : Obligations.TriggerLawStays :=
  ⟨fun _ _ => step_triggerInv, fun _ _ hs h hr hi hend hok => step_trigger_ok hs h hr hi hend hok⟩

end Sys2Proof.Machine
end

section
/-! Core reset, the idle core, and what no step changes (70_reset_and_hazards R300 to R303; 20_memory R80, R92). -/

namespace Sys2Proof.Machine

/-! ### Core reset and the idle core (R300, R301) -/

/-- No instruction leads out of FAILED: CLOSE stays there. -/
theorem fsmEdge_from_failed (i : Instr) (g : Fsm) : fsmEdge i .failed g = false := by
  cases i <;> rfl

/-- Settles O12: core reset writes the reset record, and only it leads out of FAILED. -/
theorem coreReset : Obligations.CoreReset := by
  refine ⟨fun s hp hr => ⟨_, step_reset hp hr, ?_⟩, fun s t hs hf hr h => ?_⟩
  · simp [State.resetWith, State.linkPast, State.statusReg, Fsm.code, modeField, State.lastErrReg, Status.code]
  · by_contra hne
    rcases (step_session hs h).fsm_edge hs (by rwa [hf]) with ⟨hreset, -⟩ | ⟨-, i, -, hedge⟩
    · exact hr hreset
    · rw [hf, fsmEdge_from_failed] at hedge
      exact absurd hedge Bool.false_ne_true

/-- An idle core with nothing presented. -/
theorem step_of_idle {s : State} (hp : paramsOk s.params = true) (h : s.turn = .core) (hi : s.idle)
    (hpr : s.presented = []) : step s = .next s.popTurn := by
  obtain ⟨hc, ho⟩ := hi
  rw [step_core hp h]
  simp [State.coreTurn, hc, ho, hpr]

/-- Settles O13: the reset record is that of an idle core in UNINIT, which waits. -/
theorem idleAfterReset : Obligations.IdleAfterReset :=
  ⟨fun _ => ⟨⟨rfl, rfl⟩, rfl, rfl⟩, fun _ => step_of_idle⟩

/-! ### The parameters, the port and the buffers (R303; 20_memory R80, R92) -/

/-- No instruction but CAPTURE changes a byte of the buffers. -/
theorem exec_bytes {i : Instr} {s t : State} (hx : exec i s = .next t) (hi : i ≠ .capture) (a : Nat) :
    Memory.readByte t.mem a = Memory.readByte s.mem a := by
  rcases command_or_frame i with hcmd | ⟨f, rfl⟩
  · obtain ⟨hregister, hsession⟩ := frameOfCommands
    cases i with
    | capture => exact absurd rfl hi
    | init | close | activate =>
      obtain ⟨-, hbytes, -⟩ := hsession _ s t hx (by simp)
      exact hbytes a
    | rdreg | wrreg | xchg | xchgb | exttrig | trigger =>
      obtain ⟨-, hbytes, -⟩ := hregister _ s t hx (by simp)
      exact hbytes a
    | pagesel | raddr | null | wlo | whi => exact absurd hcmd Bool.false_ne_true
  · obtain ⟨-, hbytes, -⟩ := frameOfLinkFrames f s t hx
    exact hbytes a

/-- A command's check stores nothing. -/
theorem StartCase.mem {i : Instr} {s t : State} (h : StartCase i s t) : t.mem = s.mem := by
  cases h with
  | passes _ _ ht | leaves _ _ ht => exact ht ▸ rfl
  | refused _ ht => exact ht ▸ State.raise_mem ..

/-- Settles O57: what each agent's turn does to the parameters, the port and the buffers. -/
theorem stepFrame : Obligations.StepFrame := by
  intro s t h
  cases step_cases h with
  | tick _ ht | idle _ _ _ _ ht =>
    subst ht
    exact ⟨by simp, .inl (by simp), fun ⟨a, ha⟩ => absurd (by simp) ha⟩
  | reset hr ht =>
    subst ht
    exact ⟨State.popTurn_params s, .inl (State.popTurn_presented s), fun _ => .inl hr⟩
  | frame _ o _ ht =>
    have hx : exec o.frame.instr s.popTurn = .next t := by rw [exec_frame, State.popTurn_params, ht]
    obtain ⟨hparams, -, hpres, -⟩ := exec_untouched hx
    refine ⟨by simpa using hparams, .inl (by simpa using hpres), fun ⟨a, ha⟩ => absurd ?_ ha⟩
    rw [exec_bytes hx (by cases o.frame <;> simp [LinkFrame.instr]), State.popTurn_mem]
  | command hcore ho c hc hx =>
    obtain ⟨hparams, -, hpres, -⟩ := exec_untouched hx
    refine ⟨by simpa using hparams, .inl (by simpa using hpres), fun ⟨a, ha⟩ => .inr ⟨hcore, ho, ?_⟩⟩
    by_contra hne
    refine ha ?_
    rw [exec_bytes hx (fun hi => hne (by simp [hc, hi])), State.popTurn_mem]
  | illegal _ _ _ pr rest hp _ _ ht =>
    subst ht
    exact ⟨by simp [State.raiseBadCommand], .inr (by simp [State.raiseBadCommand, hp]),
      fun ⟨a, ha⟩ => absurd (by simp [State.raiseBadCommand]) ha⟩
  | accept _ _ _ pr rest hp i hd hx =>
    obtain ⟨hparams, -, hpres, -⟩ := exec_untouched hx
    refine ⟨by simpa using hparams, .inr (by simpa [hp] using hpres), fun ⟨a, ha⟩ => absurd ?_ ha⟩
    rw [(exec_start (decodeCmd_ok hd).2.1 rfl hx).mem]
    simp

end Sys2Proof.Machine
end
